-- ==== Sys2Proof/Word.lean ====
section
/-! DEFINITION. The words and numbers of the SF-2410: the byte and the two wider fields of its frames
(chapter 10), and the numbers by which the manual names its fixed records. -/

namespace Sys2Proof

/-- One byte on a line (R168, R169). -/
abbrev Byte := BitVec 8

/-- A two-byte field: keys, seat numbers, seconds, coefficients. -/
abbrev Half := BitVec 16

/-- A four-byte field: unit serials, notice enables. -/
abbrev Word := BitVec 32

/-- A section S0 to S15 (R1); also a room, which is named by its lead section (R17). -/
abbrev SectionNo := Fin 16

/-- A wall W0 to W23 (R5). -/
abbrev WallNo := Fin 24

/-- A trunk T0 to T3 (R24). -/
abbrev TrunkNo := Fin 4

/-- A round counter of a trunk, 0 to 15 (R30). -/
abbrev RoundCount := Fin 16

/-- A carrier C0 to C31 (R130). -/
abbrev CarrierNo := Fin 32

/-- A selector SEL0 to SEL7 (R86). -/
abbrev SelectorNo := Fin 8

end Sys2Proof
end

