-- ==== Sys2Proof/Machine/Bytes.lean ====
section
/-! DEFINITION. Byte order, signed bytes, bit sets and the check byte of the link frames (R168, R169). R168 gives
the byte order of the control port; the trunk and matrix links, for which R169 gives none, use the same (DESIGN
CHOICE, assumption log 15). -/

namespace Sys2Proof.Machine
open Sys2Proof

/-- The low byte of a number. -/
def byte (n : Nat) : Byte := BitVec.ofNat 8 n

/-- A signed byte in two's complement (R168: levels, trims, masters and gains). -/
def signedByte (n : Int) : Byte := BitVec.ofInt 8 n

/-- A two-byte field, most significant byte first (R168; on the links DESIGN CHOICE, assumption log 15). -/
def bytes2 (n : Nat) : List Byte := [byte (n / 256), byte n]

/-- A three-byte field, most significant byte first (R168). -/
def bytes3 (n : Nat) : List Byte := byte (n / 65536) :: bytes2 n

/-- A four-byte field, most significant byte first (R168; on the links DESIGN CHOICE, assumption log 15). -/
def bytes4 (n : Nat) : List Byte := bytes2 (n / 65536) ++ bytes2 n

/-- The two-byte number of two bytes, most significant first (R168; on the links DESIGN CHOICE, assumption log 15). -/
def half (hi lo : Byte) : Half := BitVec.ofNat 16 (hi.toNat * 256 + lo.toNat)

/-- The four-byte number of four bytes, most significant first (R168; on the links DESIGN CHOICE, assumption
log 15). -/
def word (b3 b2 b1 b0 : Byte) : Word :=
  BitVec.ofNat 32 (((b3.toNat * 256 + b2.toNat) * 256 + b1.toNat) * 256 + b0.toNat)

/-- A set/clear or on/off field as a READ codes it (R168). -/
def flagByte (b : Bool) : Byte := if b then 1 else 0

/-- The number with bit n set for every n of the list that is below `width`. -/
def bitSet (ns : List Nat) : Nat → Nat
  | 0 => 0
  | w + 1 => bitSet ns w + (if w ∈ ns then 2 ^ w else 0)

/-- The sum of the bytes modulo 256 (R169). -/
def sumBytes : List Byte → Byte
  | [] => 0
  | b :: bs => b + sumBytes bs

/-- A complete frame: its bytes and the check byte that makes the sum 0 modulo 256 (R169). -/
def sealFrame (body : List Byte) : List Byte := body ++ [-(sumBytes body)]

/-- The check of a received frame: it has the type and the length that type calls for, and its bytes sum
to 0 modulo 256 (R169). -/
def checkPasses (type : Byte) (length : Nat) (bytes : List Byte) : Bool :=
  decide (bytes.length = length) && decide (bytes.head? = some type) && decide (sumBytes bytes = 0)

/-- A natural number brought into a range (R160: clamped fields). -/
def clampNat (lo hi n : Nat) : Nat := max lo (min hi n)

/-- An integer brought into a range (R160: clamped fields). -/
def clampInt (lo hi n : Int) : Int := max lo (min hi n)

end Sys2Proof.Machine
end

