-- ==== Sys2Proof/Machine/Tables.lean ====
section
/-! DEFINITION. The two kinds of record table: a table whose records are free or in use (seats, booths,
languages, and the sparse level shadow), held as cells in strictly rising key order with only the records in
use listed; and a table of records that always exist, held as a vector. -/

namespace Sys2Proof.Machine
open Sys2Proof

/-- A table of numbered records of which some are in use. -/
structure FMap (α : Type) where
  cells : List (Nat × α)
deriving DecidableEq, Repr

/-- The record listed under a key, in a list of cells. -/
def cellGet {α : Type} (k : Nat) : List (Nat × α) → Option α
  | [] => none
  | (j, v) :: t => if j = k then some v else cellGet k t

/-- The cells with one record set, in rising key order. -/
def cellPut {α : Type} (k : Nat) (v : α) : List (Nat × α) → List (Nat × α)
  | [] => [(k, v)]
  | (j, w) :: t =>
    if k < j then (k, v) :: (j, w) :: t
    else if j = k then (k, v) :: t
    else (j, w) :: cellPut k v t

/-- The cells without a key. -/
def cellErase {α : Type} (k : Nat) (l : List (Nat × α)) : List (Nat × α) :=
  l.filter (fun c => decide (c.1 ≠ k))

/-- The empty table. -/
def FMap.empty {α : Type} : FMap α := ⟨[]⟩

/-- The record of a key, none where it is free. -/
def FMap.get {α : Type} (m : FMap α) (k : Nat) : Option α := cellGet k m.cells

/-- The table with the record of a key set. -/
def FMap.put {α : Type} (m : FMap α) (k : Nat) (v : α) : FMap α := ⟨cellPut k v m.cells⟩

/-- The table with a key free. -/
def FMap.erase {α : Type} (m : FMap α) (k : Nat) : FMap α := ⟨cellErase k m.cells⟩

/-- The keys in use, rising. -/
def FMap.keys {α : Type} (m : FMap α) : List Nat := m.cells.map Prod.fst

/-- The table with the record of a key changed where it is in use. -/
def FMap.modify {α : Type} (m : FMap α) (k : Nat) (f : α → α) : FMap α :=
  match m.get k with
  | none => m
  | some v => m.put k (f v)

/-- The table with every record in use changed. -/
def FMap.map {α : Type} (m : FMap α) (f : Nat → α → α) : FMap α :=
  ⟨m.cells.map (fun c => (c.1, f c.1 c.2))⟩

/-- A sparse table that lists only what differs from a default: storing the default frees the key. -/
def FMap.store {α : Type} [DecidableEq α] (m : FMap α) (dflt : α) (k : Nat) (v : α) : FMap α :=
  if v = dflt then m.erase k else m.put k v

/-- The keys rise strictly: the one form in which a table's contents are held. -/
def FMap.wf {α : Type} (m : FMap α) : Bool := decide (m.keys.Pairwise (· < ·))

/-- The vector with one record changed. -/
def vmod {α : Type} {n : Nat} (v : Vector α n) (i : Fin n) (f : α → α) : Vector α n := v.set i (f v[i])

/-- The vector with every record changed, by its number. -/
def vmapIdx {α : Type} {n : Nat} (v : Vector α n) (f : Fin n → α → α) : Vector α n :=
  Vector.ofFn (fun i => f i v[i])

/-- A list with one item at its tail, unless it already holds it. -/
def joinTail {α : Type} [DecidableEq α] (l : List α) (x : α) : List α := if x ∈ l then l else l ++ [x]

/-- The record number of a key that must lie below `n` (R160). -/
def keyBelow (n : Nat) (key : Half) : Option (Fin n) :=
  if h : key.toNat < n then some ⟨key.toNat, h⟩ else none

end Sys2Proof.Machine
end

