-- ==== Sys2Proof/Config.lean ====
section
/-! DEFINITION. The values the spec leaves open: each is an opaque constant, applied to the state's
counter `State.free`, so that nothing can be proved of the value and every claim holds for all of them
(DESIGN CHOICE, assumption log 3). -/

namespace Sys2Proof

/-- What an on/off byte other than 0 and 1 means in a WRITE: R168 codes 1 and 0 only and no rule refuses
another byte. The arguments are the free counter and the place of the field in its record. -/
opaque Config.openFlag : Nat → Nat → Bool

/-- The bits of a READ record byte to which R168 gives no field (the seat's flag byte, bits 3 to 7). -/
opaque Config.openByte : Nat → Byte

/-- The value bytes of an access frame whose direction is READ (R169 gives the field, no rule its value). -/
opaque Config.openHalf : Nat → Half

/-- The bits of the VENUE record's notice enables outside 1 to 17 (R168), as a READ returns them. -/
opaque Config.openWord : Nat → Word

/-- Whether a release frame that no later exchange of its trunk has shown to be complete was still on the
line when STOP or a trunk disable came (R28); the commands carry no time. -/
opaque Config.openCut : Nat → Nat → Bool

/-- The round counter of a trunk with no bound seat, which has rested, when a ROLL_CALL comes: its empty rounds have gone
by unseen (R30), and no rule says how many. -/
opaque Config.openRound : Nat → Nat → RoundCount

end Sys2Proof
end

