-- ==== Sys2Proof/Syntax.lean ====
section
/-! DEFINITION. The commands of the block: one constructor of `Instr` per row of spec/opcode_table.json.
A host request carries its key and its field bytes as the frame has them (R168), undecoded, so that every
out-of-range value a frame can carry is a command. A reply or report from a link carries its bytes (R169). -/

namespace Sys2Proof

/-- The tables a READ may name (R160), in the order of their codes (R168). -/
inductive Table where
  | venue | section_ | wall | room | seat | booth | language | carrier | channels | queue | speakers
  | selector | trunk | ident
deriving DecidableEq, Repr

/-- The writable bytes of a VENUE record (R161, R168). -/
structure VenueWrite where
  threshold : Byte
  hysteresis : Byte
  enables : Word
  mask : Half
  global : Byte
deriving DecidableEq, Repr

/-- The writable bytes of a SECTION record (R1, R168). -/
structure SectionWrite where
  floorMode : Byte
  speakerLimit : Byte
  queueLimit : Byte
  speechLimit : Half
  grace : Half
  floorMaster : Byte
  speakerMaster : Byte
  micTrim : Byte
  speakerTrim : Byte
  duck : Byte
  priorityAction : Byte
  defaultLanguage : Byte
deriving DecidableEq, Repr

/-- The writable bytes of a WALL record (R5, R168). -/
structure WallWrite where
  first : Byte
  second : Byte
  polarity : Byte
  debounceClass : Byte
  reportOpening : Byte
  reportClosing : Byte
  override : Byte
deriving DecidableEq, Repr

/-- The writable bytes of a SEAT record (R50, R168); the four neighbour places in their order. -/
structure SeatWrite where
  kind : Byte
  seatClass : Byte
  section_ : Byte
  language : Byte
  micTrim : Byte
  speakerTrim : Byte
  booth : Byte
  flags : Byte
  neighbourCount : Byte
  neighbour0 : Half
  neighbour1 : Half
  neighbour2 : Half
  neighbour3 : Half
  serial : Word
deriving DecidableEq, Repr

/-- The writable bytes of a BOOTH record (R113, R168); the four source places in order of preference. -/
structure BoothWrite where
  output : Byte
  sourceCount : Byte
  source0 : Byte
  source1 : Byte
  source2 : Byte
  source3 : Byte
  home : Byte
  interlock : Byte
  fill : Byte
  gain : Byte
deriving DecidableEq, Repr

/-- The bytes of a LANGUAGE record (R111, R168). -/
structure LanguageWrite where
  code0 : Byte
  code1 : Byte
  code2 : Byte
  carrier : Byte
deriving DecidableEq, Repr

/-- The writable bytes of a CARRIER record (R130, R168). -/
structure CarrierWrite where
  enabled : Byte
  flags : Half
deriving DecidableEq, Repr

/-- The bytes of a SELECTOR record (R86, R168). -/
structure SelectorWrite where
  enabled : Byte
  matchField : Byte
  matchValue : Byte
  matchMask : Byte
  target : Byte
  action : Byte
deriving DecidableEq, Repr

/-- The writable bytes of a TRUNK record (R24, R168). -/
structure TrunkWrite where
  enabled : Byte
  defaultSection : Byte
  startQ : Byte
  emptyRounds : Byte
deriving DecidableEq, Repr

/-- The commands: the requests, events and sends of spec/opcode_table.json, in the table's order. -/
inductive Instr where
  | hardwareReset
  | resetAsserted
  /-- A transfer carried on while RESET is low, or begun while it was low; `ended` when the host deselects. -/
  | transferInReset (ended : Bool)
  | notReadyTransfer
  | noOp
  | read (table : Table) (key : Half)
  | writeVenue (key : Half) (f : VenueWrite)
  | writeSection (key : Half) (f : SectionWrite)
  | writeWall (key : Half) (f : WallWrite)
  | writeSeat (key : Half) (f : SeatWrite)
  | writeBooth (key : Half) (f : BoothWrite)
  | writeLanguage (key : Half) (f : LanguageWrite)
  | writeCarrier (key : Half) (f : CarrierWrite)
  | writeSelector (key : Half) (f : SelectorWrite)
  | writeTrunk (key : Half) (f : TrunkWrite)
  | retireSeat (key : Half)
  | retireBooth (key : Half)
  | retireLanguage (key : Half)
  | start
  | stop
  | freeze (key : Half)
  | thaw (key : Half)
  | grant (key : Half)
  | close (key : Half)
  | withdraw (key : Half)
  | promote (key : Half)
  | next (key : Half)
  | clearFloor (key : Half)
  | pin (key : Half) (language : Byte)
  | unpin (key : Half)
  | extend (key : Half)
  | select (key : Half)
  | closeMarked (key : Half)
  | rollCall (key : Half)
  | unitAccess (key : Half) (address parameter direction : Byte) (value : Half)
  | resend
  | takeNotice
  | clearOverflow
  /-- The sample of a wall's contact input: `made` is the level sampled. -/
  | rawContactChange (wall : WallNo) (made : Bool)
  | debounceEnd (wall : WallNo)
  | pollSend (trunk : TrunkNo)
  | pollReply (trunk : TrunkNo) (bytes : List Byte)
  | pollNoReply (trunk : TrunkNo)
  | indicatorSend (trunk : TrunkNo)
  | releaseSend (trunk : TrunkNo)
  | accessSend (trunk : TrunkNo)
  | accessReply (trunk : TrunkNo) (bytes : List Byte)
  | accessNoReply (trunk : TrunkNo)
  | roundStart (trunk : TrunkNo)
  | slotSend (trunk : TrunkNo)
  | slotReply (trunk : TrunkNo) (bytes : List Byte)
  | slotEmpty (trunk : TrunkNo)
  | mainExpiry (seat : Nat)
  | graceExpiry (seat : Nat)
  | noiseReport (bytes : List Byte)
  | zoneProgrammeSend
  | matrixMessageSend
  | transferAccepted
  | badFrameRequest (bytes : List Byte)
  | lateReply (trunk : TrunkNo) (bytes : List Byte)
deriving DecidableEq, Repr

end Sys2Proof
end

