-- ==== Sys2Proof/Machine/State.lean ====
section
/-! DEFINITION. The state of the SF-2410: every record, list, buffer, mark and counter of the manual, as
plain data, with its value after hardware reset; the reasons a step can stop. What two names of the manual
share is held once (INVENTORY.md, State): a room's members are the sections whose room field names it, and a
seat's floor state is read from the pool, the speaker list, the chair set and the booths (DEDUCED, assumption
log 7). The lines' last frames are the model's own record (DESIGN CHOICE, assumption log 13). -/

namespace Sys2Proof.Machine
open Sys2Proof

/-! ## Sections, walls and rooms (chapter 1) -/

/-- A room's rule for requests to speak (R1, R59). -/
inductive FloorMode where
  | direct | queued | replace
deriving DecidableEq, Repr

/-- What a chair's PRIORITY key does (R1, R74). -/
inductive PriorityAction where
  | muteWhileHeld | closeAll
deriving DecidableEq, Repr

/-- The settings fields of a section record, with their reset values (R1). -/
structure Settings where
  floorMode : FloorMode := .direct
  speakerLimit : Nat := 4
  queueLimit : Nat := 32
  speechLimit : Nat := 0
  grace : Nat := 30
  floorMaster : Int := 0
  speakerMaster : Int := -12
  micTrim : Int := 0
  speakerTrim : Int := 0
  duck : Nat := 12
  priorityAction : PriorityAction := .muteWhileHeld
  defaultLanguage : Nat := 0
deriving DecidableEq, Repr

/-- A section record: its settings (R1) and the lead of its room (R4). -/
structure Section where
  settings : Settings
  room : SectionNo
deriving DecidableEq, Repr

/-- How a wall's contact level is read (R5, R7). -/
inductive Polarity where
  | madeIsClosed | madeIsOpen
deriving DecidableEq, Repr

/-- The length of a wall's debounce interval (R5, R7). -/
inductive DebounceClass where
  | none | short | medium | long
deriving DecidableEq, Repr

/-- How the sensed state governs a wall (R5, R10). -/
inductive Override where
  | follow | forceOpen | forceClosed
deriving DecidableEq, Repr

/-- The writable fields of a wall record, with their reset values (R5); the pair lower section first. -/
structure WallSetup where
  pair : Option (SectionNo × SectionNo) := none
  polarity : Polarity := .madeIsClosed
  debounceClass : DebounceClass := .medium
  reportOpening : Bool := true
  reportClosing : Bool := true
  override : Override := .follow
deriving DecidableEq, Repr

/-- A wall record (R5). `made` is the contact level of the last sample (R7); `interval` the milliseconds
left of a running debounce interval. The states are true for OPEN. -/
structure Wall where
  setup : WallSetup := {}
  made : Bool := false
  sensed : Bool := true
  effective : Bool := false
  pendingFlag : Bool := false
  interval : Option Nat := none
deriving DecidableEq, Repr

/-- What a channel carries (R125). -/
inductive ChannelSource where
  | floor | booth (b : Nat) | silence
deriving DecidableEq, Repr

/-- One channel of a room's channel list (R124); no carrier is PARKED. -/
structure Channel where
  language : Nat
  source : ChannelSource
  carrier : Option CarrierNo
deriving DecidableEq, Repr

/-- The floor channel of a room as reset leaves it (R124). -/
def Channel.floorParked : Channel := ⟨0, .floor, none⟩

/-- The room table's entry of a lead beside its members (R17): frozen flag (R13), holding set and hold
action (R73), floor language and pin (R71), channel list (R124). An entry whose section is no lead is out of
use and holds these reset values. -/
structure Room where
  frozen : Bool := false
  holding : List Nat := []
  holdAction : Option PriorityAction := none
  floorLanguage : Nat := 0
  pin : Bool := false
  channels : List Channel := [Channel.floorParked]
deriving DecidableEq, Repr

/-! ## Seats and the floor (chapters 2, 3 and 4) -/

/-- The kind of a seat (R50). -/
inductive Kind where
  | delegate | chair | desk
deriving DecidableEq, Repr

/-- The class of a seat (R50). -/
inductive SeatClass where
  | ordinary | vip
deriving DecidableEq, Repr

/-- The key mark the controller holds for a seat (R26, R35). -/
inductive KeyMark where
  | none | zero | one
deriving DecidableEq, Repr

/-- An in-use seat record (R26, R50) but for its floor state. -/
structure Seat where
  kind : Kind
  seatClass : SeatClass
  section_ : SectionNo
  language : Nat
  micTrim : Option Int
  speakerTrim : Option Int
  booth : Option Nat
  neighbours : List Nat
  lock : Bool
  mark : Bool
  serial : Option Word
  binding : Option (TrunkNo × Nat)
  present : Bool
  misses : Nat
  keyMark : KeyMark
deriving DecidableEq, Repr

/-- The floor states of R50, in the order of their codes (R168). -/
inductive FloorState where
  | idle | waiting | speaking | warned | off | live
deriving DecidableEq, Repr

/-- An entry of the request pool (R54). -/
structure Request where
  seat : Nat
  priority : Bool
deriving DecidableEq, Repr

/-- A speech timer (R79). `grace` true is phase GRACE; `millis` counts within the second (R81). -/
structure Timer where
  inGrace : Bool
  remaining : Nat
  capturedLimit : Nat
  capturedGrace : Nat
  millis : Nat := 0
deriving DecidableEq, Repr

/-- A delegate in the speaker list, with its timer (R57, R79). -/
structure Speaker where
  seat : Nat
  timer : Option Timer
deriving DecidableEq, Repr

/-- What a selector matches on (R86, R88). -/
inductive MatchField where
  | section_ | class_ | language | trunk | kind
deriving DecidableEq, Repr

/-- What a selector does to a flag (R89). -/
inductive FlagEffect where
  | set | clear | keep | flip
deriving DecidableEq, Repr

/-- The eight actions of R89, in their order. -/
inductive SelectAction where
  | setClear | setKeep | keepClear | flipKeep | clearSet | clearKeep | keepSet | keepFlip
deriving DecidableEq, Repr

/-- A selector record, with its reset values (R86); `targetMark` false is LOCK. -/
structure Selector where
  enabled : Bool := false
  matchField : MatchField := .section_
  matchValue : Byte := 0
  matchMask : Byte := 0
  targetMark : Bool := false
  action : SelectAction := .setClear
deriving DecidableEq, Repr

/-! ## Trunks (chapter 2) -/

/-- The part of a gap still to be offered the line (R31). -/
inductive GapStage where
  | release | access | indicator
deriving DecidableEq, Repr

/-- Where a trunk stands in its scan and roll call rounds (R29 to R31, R40): idle is scan state IDLE; `poll`
and `slotDue` and `roundDue` wait for the controller's next frame; `polling`, `accessing` and `slotOpen` have
the reply window of an exchange open. -/
inductive Line where
  | idle
  | poll
  | polling (address : Nat)
  | gap (stage : GapStage)
  | accessing
  | roundDue
  | slotDue (slot : Nat)
  | slotOpen (slot : Nat)
deriving DecidableEq, Repr

/-- A RUNNING roll call (R39, R40, R43): its round number, Q, counts, the captured number of empty rounds to
end, and the singles and collisions heard so far in the present round. -/
structure RollCall where
  round : Nat
  q : Nat
  found : Nat
  refused : Nat
  emptyRun : Nat
  emptyToEnd : Nat
  singles : Nat
  collisions : Nat
deriving DecidableEq, Repr

/-- A unit access in hand (R45). -/
structure AccessRequest where
  address : Nat
  parameter : Nat
  write : Bool
  value : Half
deriving DecidableEq, Repr

/-- The unit access state of a trunk (R24). -/
inductive Access where
  | idle
  | waiting (r : AccessRequest)
  | sent (r : AccessRequest)
deriving DecidableEq, Repr

/-- A trunk record and its Trunk Controller's state, with the reset values of R24 and R49. `releasing` is the
address of a release frame that nothing has yet shown to be complete, `lastFrame` the last frame the
controller put on the line, `sending` true until something shows that frame complete (R170; DESIGN CHOICE,
assumption log 11); `hadGap` says whether the present scan round has had a gap (R30); `rested` is the model's own mark that
rounds may have gone by uncounted on a trunk with no bound seat (DESIGN CHOICE, assumption log 9). -/
structure Trunk where
  enabled : Bool := true
  defaultSection : SectionNo := 0
  startQ : Nat := 4
  emptyRounds : Nat := 2
  line : Line := .idle
  roundCounter : RoundCount := 0
  toPoll : List Nat := []
  hadGap : Bool := false
  releaseAll : Bool := true
  indicators : List Nat := []
  releases : List Nat := []
  releasing : Option Nat := none
  rollCall : Option RollCall := none
  access : Access := .idle
  lastFrame : List Byte := []
  sending : Bool := false
  rested : Bool := false
deriving DecidableEq, Repr

/-! ## Languages, booths and carriers (chapters 6 and 7) -/

/-- An in-use language record (R111): the three characters and the preferred carrier. -/
structure Language where
  code0 : Byte
  code1 : Byte
  code2 : Byte
  carrier : Option CarrierNo
deriving DecidableEq, Repr

/-- What a booth's interpreters hear (R113, R122). -/
inductive ListenSource where
  | floor | relay (b : Nat) | relayMissing
deriving DecidableEq, Repr

/-- An in-use booth record (R113); `takeover` and `fillFloor` are the interlock and the fill, `live` the seat
of the one LIVE desk. -/
structure Booth where
  output : Nat
  sources : List Nat
  home : SectionNo
  takeover : Bool
  fillFloor : Bool
  gain : Int
  desks : List Nat
  live : Option Nat
  listen : ListenSource
deriving DecidableEq, Repr

/-- A carrier record (R130): enabled, and the interference flag of each section. -/
structure Carrier where
  enabled : Bool := false
  flags : Vector Bool 16 := Vector.replicate 16 false
deriving DecidableEq, Repr

/-! ## Levels and the matrix (chapter 8) -/

/-- A level in half-decibel steps, or MUTE (R144). -/
inductive Level where
  | mute | steps (n : Int)
deriving DecidableEq, Repr

/-- The three shadow entries of a seat number (R144). -/
structure SeatLevels where
  input : Level := .mute
  output : Level := .mute
  bus : Option SectionNo := none
deriving DecidableEq, Repr

/-- A booth's listen source as the matrix knows it (R144); none of it is NONE. -/
inductive ListenEntry where
  | floor | relay (b : Nat)
deriving DecidableEq, Repr

/-- The level shadow (R144), listing what differs from MUTE, MUTE, NONE for a seat and NONE for a booth or
channel. A channel entry's key is 25 times the lead plus the language. -/
structure Shadow where
  seats : FMap SeatLevels
  booths : FMap ListenEntry
  channels : FMap ChannelSource
deriving DecidableEq, Repr

/-- A shadow entry, as it stands on the send list (R152). -/
inductive Entry where
  | bus (seat : Nat)
  | input (seat : Nat)
  | output (seat : Nat)
  | listen (booth : Nat)
  | channel (lead : Nat) (language : Nat)
deriving DecidableEq, Repr

/-! ## The control port (chapter 9) -/

/-- The run state (R163). -/
inductive RunState where
  | halted | running
deriving DecidableEq, Repr

/-- The status codes a response may carry (R162, R168). -/
inductive Status where
  | ok | accepted | notReady | badFrame | badKey | noRecord | badValue | inUse | full | busy | wrongState
deriving DecidableEq, Repr

/-- A response: status and record data (R157). -/
structure Response where
  status : Status
  data : List Byte
deriving DecidableEq, Repr

/-- What a transfer shifts out: the bytes of a response and 0x00 beyond them (R157), or 0xFF in every byte
(R171). -/
inductive ShiftOut where
  | bytes (l : List Byte)
  | ones
deriving DecidableEq, Repr

/-- Where the port stands: no transfer in hand; an accepted transfer that nothing has yet shown to have ended;
its request in hand after the port was deselected; or a transfer cut off by RESET or begun under it, still
selected (R156, R171). -/
inductive PortPhase where
  | free | taking | inHand | stale
deriving DecidableEq, Repr

/-- The Control Port's transfer state: the response buffer (emptied by an accepted transfer, R157) and what
the last transfer shifted out. -/
structure Port where
  phase : PortPhase := .free
  buffer : Option Response := some ⟨.ok, []⟩
  shift : ShiftOut := .bytes []
deriving DecidableEq, Repr

/-- The writable fields of the VENUE record, with their reset values (R161); `enables` has bit k for the
notice kind of code k (R168). -/
structure Venue where
  threshold : Nat := 128
  hysteresis : Nat := 16
  enables : Word := 0x3FFFE#32
  mask : Half := 0xFFFF#16
  global : Bool := true
deriving DecidableEq, Repr

/-- Reasons, causes, keys' refusals and end marks share one numbering (R168). -/
inductive Reason where
  | key | granted | next | auto | cancelled | withdrawn | ownKey | closed | replaced | limit | priority
  | locked | marked | time | warning | extended | merge | division | unitLost | retired | cleared | stop
  | takeover | boothRetired | full | empty | interference | disabled | added | unparked
  | ended | roundLimit | aborted
deriving DecidableEq, Repr

/-- How a unit access ended (R46, R47). -/
inductive AccessStatus where
  | ok | noReply | aborted
deriving DecidableEq, Repr

/-- The seventeen notice kinds and what each carries (R165, R168). -/
inductive Detail where
  | wall (wall : WallNo) (opened : Bool) (snapshot : List WallNo)
  | roomMerged (oldLeads : List SectionNo)
  | roomDivided (newLeads : List SectionNo)
  | seatState (before after : FloorState) (reason : Reason)
  | requestRefused (nextKey : Bool) (reason : Reason)
  | timeWarning (grace : Nat)
  | unitLost (trunk : TrunkNo) (address : Nat)
  | unitFound (trunk : TrunkNo) (address : Nat)
  | rollcallDone (trunk : TrunkNo) (found refused rounds finalQ : Nat) (mark : Reason)
  | unitAccessDone (trunk : TrunkNo) (request : AccessRequest) (status : AccessStatus) (value : Half)
  | deskState (booth : Nat) (before after : FloorState) (reason : Reason)
  | deskRefused (booth liveSeat liveBooth : Nat)
  | relayMissing (booth language : Nat) (sources : List Nat)
  | carrierHop (language : Nat) (old new : CarrierNo) (cause : Reason)
  | channelParked (language : Nat) (old : Option CarrierNo) (cause : Reason)
  | channelPlaced (language : Nat) (new : CarrierNo) (cause : Reason)
  | floorStopped (closed withdrawn desks : Nat)
deriving DecidableEq, Repr

/-- A notice record (R165). -/
structure Notice where
  room : Option SectionNo
  seat : Option Nat
  detail : Detail
deriving DecidableEq, Repr

/-- The notice queue and the overflow mark (R166). -/
structure NoticeQueue where
  queue : List Notice := []
  overflow : Bool := false
deriving DecidableEq, Repr

/-! ## The whole machine -/

/-- The state of the controller. `pending` is the queue of commands that wait, first in first out; `free`
counts the open values handed out (DESIGN CHOICE, assumption log 3); both are the model's own. -/
structure State where
  pending : List Instr
  free : Nat
  resetLow : Bool
  port : Port
  run : RunState
  venue : Venue
  notices : NoticeQueue
  sections : Vector Section 16
  walls : Vector Wall 24
  rooms : Vector Room 16
  seats : FMap Seat
  pool : List Request
  speakers : List Speaker
  chairs : List Nat
  selectors : Vector Selector 8
  trunks : Vector Trunk 4
  languages : FMap Language
  booths : FMap Booth
  carriers : Vector Carrier 32
  programmes : List SectionNo
  shadow : Shadow
  sendList : List Entry
  radiatorLine : List Byte
  matrixLine : List Byte
deriving DecidableEq, Repr

/-- The level shadow after hardware reset: the sixteen floor channel entries are FLOOR, all else MUTE or
NONE (R144). -/
def Shadow.reset : Shadow :=
  ⟨.empty, .empty, ⟨(List.range 16).map (fun lead => (25 * lead, ChannelSource.floor))⟩⟩

/-- The machine right after hardware reset with every contact BROKEN (R1, R5, R17, R23, R24, R49, R78, R86,
R94, R129, R130, R143, R144, R156, R161, R163, R166). The contact levels are inputs: the pull-up of a
contact input leaves an undriven one BROKEN, which is sensed OPEN (DESIGN CHOICE, assumption log 4). -/
def State.reset : State where
  pending := []
  free := 0
  resetLow := false
  port := {}
  run := .halted
  venue := {}
  notices := {}
  sections := Vector.ofFn (fun i => ⟨{}, i⟩)
  walls := Vector.replicate 24 {}
  rooms := Vector.replicate 16 {}
  seats := .empty
  pool := []
  speakers := []
  chairs := []
  selectors := Vector.replicate 8 {}
  trunks := Vector.replicate 4 {}
  languages := .empty
  booths := .empty
  carriers := Vector.replicate 32 {}
  programmes := []
  shadow := Shadow.reset
  sendList := []
  radiatorLine := []
  matrixLine := []

/-- Why a step stops with a fault. The block has none: no rule of the spec stops the controller, and every
command has an effect in every state, so no constructor is given. -/
inductive Fault : Type
deriving DecidableEq, Repr

/-- Why a command is refused without a meaning. -/
inductive Refusal where
  /-- The command has no meaning in the model yet. Raised by no arm: every row of the table is modelled.
  Safe. -/
  | notModelled (mnemonic : String)
deriving DecidableEq, Repr

end Sys2Proof.Machine
end

