-- ==== Sys2Proof/Machine/Fields.lean ====
section
/-! DEFINITION. One setter per field of the state, so that every operation says which fields it changes and
the lemmas of Laws/State.lean say that the others stand. -/

namespace Sys2Proof.Machine
open Sys2Proof

/-- The state with `pending` replaced. -/
def State.setPending (s : State) (x : List Instr) : State := { s with pending := x }

/-- The state with `free` replaced. -/
def State.setFree (s : State) (x : Nat) : State := { s with free := x }

/-- The state with `resetLow` replaced. -/
def State.setResetLow (s : State) (x : Bool) : State := { s with resetLow := x }

/-- The state with `port` replaced. -/
def State.setPort (s : State) (x : Port) : State := { s with port := x }

/-- The state with `run` replaced. -/
def State.setRun (s : State) (x : RunState) : State := { s with run := x }

/-- The state with `venue` replaced. -/
def State.setVenue (s : State) (x : Venue) : State := { s with venue := x }

/-- The state with `notices` replaced. -/
def State.setNotices (s : State) (x : NoticeQueue) : State := { s with notices := x }

/-- The state with `sections` replaced. -/
def State.setSections (s : State) (x : Vector Section 16) : State := { s with sections := x }

/-- The state with `walls` replaced. -/
def State.setWalls (s : State) (x : Vector Wall 24) : State := { s with walls := x }

/-- The state with `rooms` replaced. -/
def State.setRooms (s : State) (x : Vector Room 16) : State := { s with rooms := x }

/-- The state with `seats` replaced. -/
def State.setSeats (s : State) (x : FMap Seat) : State := { s with seats := x }

/-- The state with `pool` replaced. -/
def State.setPool (s : State) (x : List Request) : State := { s with pool := x }

/-- The state with `speakers` replaced. -/
def State.setSpeakers (s : State) (x : List Speaker) : State := { s with speakers := x }

/-- The state with `chairs` replaced. -/
def State.setChairs (s : State) (x : List Nat) : State := { s with chairs := x }

/-- The state with `selectors` replaced. -/
def State.setSelectors (s : State) (x : Vector Selector 8) : State := { s with selectors := x }

/-- The state with `trunks` replaced. -/
def State.setTrunks (s : State) (x : Vector Trunk 4) : State := { s with trunks := x }

/-- The state with `languages` replaced. -/
def State.setLanguages (s : State) (x : FMap Language) : State := { s with languages := x }

/-- The state with `booths` replaced. -/
def State.setBooths (s : State) (x : FMap Booth) : State := { s with booths := x }

/-- The state with `carriers` replaced. -/
def State.setCarriers (s : State) (x : Vector Carrier 32) : State := { s with carriers := x }

/-- The state with `programmes` replaced. -/
def State.setProgrammes (s : State) (x : List SectionNo) : State := { s with programmes := x }

/-- The state with `shadow` replaced. -/
def State.setShadow (s : State) (x : Shadow) : State := { s with shadow := x }

/-- The state with `sendList` replaced. -/
def State.setSendList (s : State) (x : List Entry) : State := { s with sendList := x }

/-- The state with `radiatorLine` replaced. -/
def State.setRadiatorLine (s : State) (x : List Byte) : State := { s with radiatorLine := x }

/-- The state with `matrixLine` replaced. -/
def State.setMatrixLine (s : State) (x : List Byte) : State := { s with matrixLine := x }

/-- The state with one room table entry changed. -/
def State.modRoom (s : State) (l : SectionNo) (f : Room → Room) : State := s.setRooms (vmod s.rooms l f)

/-- The state with one trunk changed. -/
def State.modTrunk (s : State) (t : TrunkNo) (f : Trunk → Trunk) : State := s.setTrunks (vmod s.trunks t f)

/-- The state with one wall changed. -/
def State.modWall (s : State) (w : WallNo) (f : Wall → Wall) : State := s.setWalls (vmod s.walls w f)

/-- The state with one seat record changed, where it is in use. -/
def State.modSeat (s : State) (n : Nat) (f : Seat → Seat) : State := s.setSeats (s.seats.modify n f)

/-- The state with one booth record changed, where it is in use. -/
def State.modBooth (s : State) (b : Nat) (f : Booth → Booth) : State := s.setBooths (s.booths.modify b f)

/-- The state with the next open value handed out (DESIGN CHOICE, assumption log 3). -/
def State.spendFree (s : State) : State := s.setFree (s.free + 1)

end Sys2Proof.Machine
end

