-- ==== Sys2Proof/Machine/Views.lean ====
section
/-! DEFINITION. What the manual derives from the records: rooms and their seats, queues and speakers, floor
states, holds, language groups, indicators. -/

namespace Sys2Proof.Machine
open Sys2Proof

/-! ## Rooms -/

/-- All section numbers, rising. -/
def allSections : List SectionNo := List.finRange 16

/-- All wall numbers, rising. -/
def allWalls : List WallNo := List.finRange 24

/-- All carrier numbers, rising. -/
def allCarriers : List CarrierNo := List.finRange 32

/-- All trunk numbers, rising. -/
def allTrunks : List TrunkNo := List.finRange 4

/-- The lead of the room a section belongs to (R4). -/
def State.roomOf (s : State) (sec : SectionNo) : SectionNo := (s.sections[sec]).room

/-- A section leads its room exactly when its room field is its own number (R4). -/
def State.isLead (s : State) (l : SectionNo) : Bool := decide (s.roomOf l = l)

/-- The members of the room of a lead (R17). -/
def State.members (s : State) (l : SectionNo) : List SectionNo :=
  allSections.filter (fun sec => decide (s.roomOf sec = l))

/-- The leads, rising: the rooms of the room table (R17). -/
def State.leads (s : State) : List SectionNo := allSections.filter s.isLead

/-- A room's effective settings are those of its lead section (R96). -/
def State.settings (s : State) (l : SectionNo) : Settings := (s.sections[l]).settings

/-- The room a key names: a section that is at present a lead (R13, R22, R64). -/
def State.leadOf (s : State) (key : Half) : Option SectionNo :=
  match keyBelow 16 key with
  | some l => if s.isLead l then some l else none
  | none => none

/-! ## Languages -/

/-- A language number names a record in use (R112). -/
def State.languageInUse (s : State) (n : Nat) : Bool := (s.languages.get n).isSome

/-- A language number as it counts: 0 where its record is free (R50, R112). -/
def State.languageCounts (s : State) (n : Nat) : Nat := if s.languageInUse n then n else 0

/-! ## Seats on the floor -/

/-- The room that contains a seat's section; none for a free record. -/
def State.seatRoom (s : State) (n : Nat) : Option SectionNo :=
  (s.seats.get n).map (fun x => s.roomOf x.section_)

/-- A seat's section lies in the room of a lead. -/
def State.seatIn (s : State) (l : SectionNo) (n : Nat) : Bool := decide (s.seatRoom n = some l)

/-- A seat is in the request pool (R54). -/
def State.waiting (s : State) (n : Nat) : Bool := s.pool.any (fun r => r.seat == n)

/-- A seat's entry in the speaker list (R57). -/
def State.speaker (s : State) (n : Nat) : Option Speaker := s.speakers.find? (fun x => x.seat == n)

/-- A seat is in the chair set (R57). -/
def State.chairOpen (s : State) (n : Nat) : Bool := s.chairs.any (fun c => c == n)

/-- The state of a speaker: WARNED while its timer is in GRACE (R79). -/
def Speaker.state (x : Speaker) : FloorState :=
  match x.timer with
  | some t => if t.inGrace then .warned else .speaking
  | none => .speaking

/-- A desk is the LIVE desk of its booth (R117). -/
def State.deskLive (s : State) (n : Nat) (x : Seat) : Bool :=
  match x.booth with
  | none => false
  | some b =>
    match s.booths.get b with
    | none => false
    | some y => decide (y.live = some n)

/-- A seat's floor state (R50): WAITING exactly in the pool (R54), SPEAKING or WARNED exactly in the speaker
list or the chair set (R57), LIVE exactly as its booth's LIVE desk (R117). -/
def State.floorState (s : State) (n : Nat) (x : Seat) : FloorState :=
  match x.kind with
  | .delegate =>
    if s.waiting n then .waiting
    else
      match s.speaker n with
      | some y => y.state
      | none => .idle
  | .chair => if s.chairOpen n then .speaking else .idle
  | .desk => if s.deskLive n x then .live else .off

/-- The entries of a room's queue in pool order (R54). -/
def State.poolOf (s : State) (l : SectionNo) : List Request := s.pool.filter (fun r => s.seatIn l r.seat)

/-- A room's queue: entries with the priority flag first, then the rest, each in arrival order (R54). -/
def State.queue (s : State) (l : SectionNo) : List Request :=
  (s.poolOf l).filter (fun r => r.priority) ++ (s.poolOf l).filter (fun r => !r.priority)

/-- A room's delegate speakers in grant order (R57). -/
def State.roomSpeakers (s : State) (l : SectionNo) : List Speaker :=
  s.speakers.filter (fun x => s.seatIn l x.seat)

/-- A room's open chairs in grant order (R57). -/
def State.roomChairs (s : State) (l : SectionNo) : List Nat := s.chairs.filter (fun c => s.seatIn l c)

/-- The room is below its speaker limit (R59). -/
def State.belowLimit (s : State) (l : SectionNo) : Bool :=
  decide ((s.roomSpeakers l).length < (s.settings l).speakerLimit)

/-- The queue and the pool have room for one entry (R55). -/
def State.queueHasRoom (s : State) (l : SectionNo) : Bool :=
  decide ((s.poolOf l).length < (s.settings l).queueLimit) && decide (s.pool.length < 256)

/-- The hold action of a room in priority hold: a room is in hold while its holding set is not empty (R73). -/
def State.hold (s : State) (l : SectionNo) : Option PriorityAction :=
  if (s.rooms[l]).holding.isEmpty then none else (s.rooms[l]).holdAction

/-- The room mutes its delegate microphones (R37, R145). -/
def State.muting (s : State) (l : SectionNo) : Bool := decide (s.hold l = some .muteWhileHeld)

/-- The room is in a CLOSE_ALL hold (R60, R74). -/
def State.closingAll (s : State) (l : SectionNo) : Bool := decide (s.hold l = some .closeAll)

/-! ## Booths and desks -/

/-- The booth's room (R113). -/
def State.boothRoom (s : State) (y : Booth) : SectionNo := s.roomOf y.home

/-- The in-use booths of a room, by number. -/
def State.boothsOf (s : State) (l : SectionNo) : List (Nat × Booth) :=
  s.booths.cells.filter (fun c => decide (s.boothRoom c.2 = l))

/-- The booths of a language group (R118). -/
def State.group (s : State) (l : SectionNo) (language : Nat) : List (Nat × Booth) :=
  (s.boothsOf l).filter (fun c => decide (c.2.output = language))

/-- The lowest-numbered LIVE booth of a language group; after R127 it is the only one. -/
def State.groupLive (s : State) (l : SectionNo) (language : Nat) : Option (Nat × Booth) :=
  (s.group l language).find? (fun c => c.2.live.isSome)

/-- The room of a desk is the room of its booth (R117). -/
def State.deskRoom (s : State) (x : Seat) : Option SectionNo :=
  match x.booth with
  | none => none
  | some b => (s.booths.get b).map s.boothRoom

/-- All desks of all booths, in booth and desk-list order. -/
def State.allDesks (s : State) : List Nat := s.booths.cells.flatMap (fun c => c.2.desks)

/-! ## Indicators -/

/-- The indicator states of R37, in the order of their codes (R169). -/
inductive Indicator where
  | off | on | waiting | warned | muted | live | engaged
deriving DecidableEq, Repr

/-- The indicator of an open delegate microphone: MUTED while its room mutes delegates (R37). -/
def State.openIndicator (s : State) (x : Seat) (otherwise : Indicator) : Indicator :=
  if s.muting (s.roomOf x.section_) then .muted else otherwise

/-- The indicator of a desk: LIVE, ENGAGED while another desk of its group is LIVE, or OFF (R37, R120). -/
def State.deskIndicator (s : State) (n : Nat) (x : Seat) : Indicator :=
  if s.deskLive n x then .live
  else
    match x.booth with
    | none => .off
    | some b =>
      match s.booths.get b with
      | none => .off
      | some y => if (s.groupLive (s.boothRoom y) y.output).isSome then .engaged else .off

/-- The indicator state of an in-use seat (R37). -/
def State.seatIndicator (s : State) (n : Nat) (x : Seat) : Indicator :=
  match x.kind, s.floorState n x with
  | .desk, _ => s.deskIndicator n x
  | .chair, .speaking => .on
  | .chair, _ => .off
  | .delegate, .waiting => .waiting
  | .delegate, .speaking => s.openIndicator x .on
  | .delegate, .warned => s.openIndicator x .warned
  | .delegate, _ => .off

/-- The indicator state of a seat number; OFF for a free record. -/
def State.indicator (s : State) (n : Nat) : Indicator :=
  match s.seats.get n with
  | none => .off
  | some x => s.seatIndicator n x

/-! ## Trunks -/

/-- The seat bound to an address of a trunk (R26). -/
def State.seatAt (s : State) (t : TrunkNo) (a : Nat) : Option Nat :=
  (s.seats.cells.find? (fun c => decide (c.2.binding = some (t, a)))).map Prod.fst

/-- A number put into a rising list of address and seat pairs. -/
def insertAddress (a n : Nat) : List (Nat × Nat) → List (Nat × Nat)
  | [] => [(a, n)]
  | (b, m) :: rest => if a ≤ b then (a, n) :: (b, m) :: rest else (b, m) :: insertAddress a n rest

/-- The seats bound to a trunk with their addresses, in address order. -/
def State.bound (s : State) (t : TrunkNo) : List (Nat × Nat) :=
  s.seats.cells.foldr
    (fun c acc =>
      match c.2.binding with
      | some (u, a) => if u = t then insertAddress a c.1 acc else acc
      | none => acc)
    []

/-- A seat is PRESENT. -/
def State.isPresent (s : State) (n : Nat) : Bool :=
  match s.seats.get n with
  | some x => x.present
  | none => false

/-- An address is free on a trunk when no bound seat holds it and it is not on the release list (R28). -/
def State.addressFree (s : State) (t : TrunkNo) (a : Nat) : Bool :=
  (s.seatAt t a).isNone && decide (a ∉ (s.trunks[t]).releases)

/-- The lowest free address of a trunk, 1 to 254 (R41). -/
def State.lowestFree (s : State) (t : TrunkNo) : Option Nat :=
  (List.range' 1 254).find? (fun a => s.addressFree t a)

/-- The scan state: SCANNING or IDLE (R24, R29). -/
def Trunk.scanning (t : Trunk) : Bool := decide (t.line ≠ .idle)

/-! ## Carriers -/

/-- A carrier is usable in a room while it is enabled and no member section holds its flag (R132). -/
def State.usable (s : State) (l : SectionNo) (c : CarrierNo) : Bool :=
  (s.carriers[c]).enabled && (s.members l).all (fun sec => !((s.carriers[c]).flags[sec]))

/-- A channel of the room stands on the carrier (R132). -/
def State.heldIn (s : State) (l : SectionNo) (c : CarrierNo) : Bool :=
  (s.rooms[l]).channels.any (fun h => decide (h.carrier = some c))

/-! ## Pins -/

/-- The READY output (R156, R171). -/
def State.readyPin (s : State) : Bool := !s.resetLow && decide (s.port.phase = .free)

/-- The DIR output of a trunk: high while the controller sends, low under RESET (R170, and the pins of chapter 10;
a frame counts as on the line until something shows it complete: DESIGN CHOICE, assumption log 11). -/
def State.dirPin (s : State) (t : TrunkNo) : Bool := !s.resetLow && (s.trunks[t]).sending

/-- The NOTICE output (R167, R171). -/
def State.noticePin (s : State) : Bool := !s.resetLow && s.venue.global && !s.notices.queue.isEmpty

/-- The byte a transfer shifts out at a place (R157: 0x00 beyond the response; R171: 0xFF in every byte). -/
def ShiftOut.at (o : ShiftOut) (i : Nat) : Byte :=
  match o with
  | .bytes l => l.getD i 0
  | .ones => 0xFF#8

end Sys2Proof.Machine
end

