-- ==== Sys2Proof/Machine/Codes.lean ====
section
/-! DEFINITION. The codes of R168 and R169: enumerations 0, 1, 2 … in the order their values are listed where
the field is defined, floor states, statuses, reasons, notice kinds. -/

namespace Sys2Proof.Machine
open Sys2Proof

/-! ## Codes as READ returns them and a WRITE carries them -/

def FloorMode.code : FloorMode → Byte
  | .direct => 0 | .queued => 1 | .replace => 2

def FloorMode.ofCode (b : Byte) : Option FloorMode :=
  match b.toNat with
  | 0 => some .direct | 1 => some .queued | 2 => some .replace | _ => none

def PriorityAction.code : PriorityAction → Byte
  | .muteWhileHeld => 0 | .closeAll => 1

def PriorityAction.ofCode (b : Byte) : Option PriorityAction :=
  match b.toNat with
  | 0 => some .muteWhileHeld | 1 => some .closeAll | _ => none

def Polarity.code : Polarity → Byte
  | .madeIsClosed => 0 | .madeIsOpen => 1

def Polarity.ofCode (b : Byte) : Option Polarity :=
  match b.toNat with
  | 0 => some .madeIsClosed | 1 => some .madeIsOpen | _ => none

def DebounceClass.code : DebounceClass → Byte
  | .none => 0 | .short => 1 | .medium => 2 | .long => 3

def DebounceClass.ofCode (b : Byte) : Option DebounceClass :=
  match b.toNat with
  | 0 => some .none | 1 => some .short | 2 => some .medium | 3 => some .long | _ => Option.none

def Override.code : Override → Byte
  | .follow => 0 | .forceOpen => 1 | .forceClosed => 2

def Override.ofCode (b : Byte) : Option Override :=
  match b.toNat with
  | 0 => some .follow | 1 => some .forceOpen | 2 => some .forceClosed | _ => none

def Kind.code : Kind → Byte
  | .delegate => 0 | .chair => 1 | .desk => 2

def Kind.ofCode (b : Byte) : Option Kind :=
  match b.toNat with
  | 0 => some .delegate | 1 => some .chair | 2 => some .desk | _ => none

def SeatClass.code : SeatClass → Byte
  | .ordinary => 0 | .vip => 1

def SeatClass.ofCode (b : Byte) : Option SeatClass :=
  match b.toNat with
  | 0 => some .ordinary | 1 => some .vip | _ => none

def MatchField.code : MatchField → Byte
  | .section_ => 0 | .class_ => 1 | .language => 2 | .trunk => 3 | .kind => 4

def MatchField.ofCode (b : Byte) : Option MatchField :=
  match b.toNat with
  | 0 => some .section_ | 1 => some .class_ | 2 => some .language | 3 => some .trunk | 4 => some .kind
  | _ => none

def SelectAction.code : SelectAction → Byte
  | .setClear => 0 | .setKeep => 1 | .keepClear => 2 | .flipKeep => 3
  | .clearSet => 4 | .clearKeep => 5 | .keepSet => 6 | .keepFlip => 7

def SelectAction.ofCode (b : Byte) : Option SelectAction :=
  match b.toNat with
  | 0 => some .setClear | 1 => some .setKeep | 2 => some .keepClear | 3 => some .flipKeep
  | 4 => some .clearSet | 5 => some .clearKeep | 6 => some .keepSet | 7 => some .keepFlip
  | _ => none

/-- A field of two values coded 0 and 1 in the order listed; true is the second. -/
def secondOfTwo (b : Byte) : Option Bool :=
  match b.toNat with
  | 0 => some false | 1 => some true | _ => none

def FloorState.code : FloorState → Byte
  | .idle => 0 | .waiting => 1 | .speaking => 2 | .warned => 3 | .off => 4 | .live => 5

def Indicator.code : Indicator → Byte
  | .off => 0 | .on => 1 | .waiting => 2 | .warned => 3 | .muted => 4 | .live => 5 | .engaged => 6

def RunState.code : RunState → Byte
  | .halted => 0 | .running => 1

def Status.code : Status → Byte
  | .ok => 0x00 | .accepted => 0x01 | .notReady => 0x02 | .badFrame => 0x10 | .badKey => 0x11
  | .noRecord => 0x12 | .badValue => 0x13 | .inUse => 0x14 | .full => 0x15 | .busy => 0x16
  | .wrongState => 0x17

/-- Reasons, causes and end marks (R168). -/
def Reason.code : Reason → Byte
  | .locked => 0x18 | .key => 0x20 | .granted => 0x21 | .next => 0x22 | .auto => 0x23
  | .cancelled => 0x24 | .withdrawn => 0x25 | .ownKey => 0x26 | .closed => 0x27 | .replaced => 0x28
  | .limit => 0x29 | .priority => 0x2A | .marked => 0x2B | .time => 0x2C | .warning => 0x2D
  | .extended => 0x2E | .merge => 0x2F | .division => 0x30 | .unitLost => 0x31 | .retired => 0x32
  | .cleared => 0x33 | .stop => 0x34 | .takeover => 0x35 | .boothRetired => 0x36 | .full => 0x37
  | .empty => 0x38 | .interference => 0x40 | .disabled => 0x41 | .added => 0x42 | .unparked => 0x43
  | .ended => 0x48 | .roundLimit => 0x49 | .aborted => 0x4A

def AccessStatus.code : AccessStatus → Byte
  | .ok => 0 | .noReply => 1 | .aborted => 2

/-- The key-mark byte of a poll frame (R169). -/
def KeyMark.code : KeyMark → Byte
  | .zero => 0 | .one => 1 | .none => 2

/-- The four places of a list of languages, unused places 0 (R168). -/
def fourLanguages (l : List Nat) : List Byte :=
  [byte (l.getD 0 0), byte (l.getD 1 0), byte (l.getD 2 0), byte (l.getD 3 0)]

def carrierByte : Option CarrierNo → Byte
  | some c => byte c.val
  | none => 0xFF

/-! ## Notice records (R168) -/

/-- The code of a notice's kind. -/
def Detail.kindCode : Detail → Nat
  | .wall .. => 1 | .roomMerged .. => 2 | .roomDivided .. => 3 | .seatState .. => 4
  | .requestRefused .. => 5 | .timeWarning .. => 6 | .unitLost .. => 7 | .unitFound .. => 8
  | .rollcallDone .. => 9 | .unitAccessDone .. => 10 | .deskState .. => 11 | .deskRefused .. => 12
  | .relayMissing .. => 13 | .carrierHop .. => 14 | .channelParked .. => 15 | .channelPlaced .. => 16
  | .floorStopped .. => 17

/-- The detail bytes of a notice. -/
def Detail.bytes : Detail → List Byte
  | .wall w opened snapshot =>
    [byte w.val, flagByte opened] ++ bytes3 (bitSet (snapshot.map Fin.val) 24)
  | .roomMerged leads => bytes2 (bitSet (leads.map Fin.val) 16)
  | .roomDivided leads => bytes2 (bitSet (leads.map Fin.val) 16)
  | .seatState before after reason => [before.code, after.code, reason.code]
  | .requestRefused nextKey reason => [if nextKey then 2 else 1, reason.code]
  | .timeWarning grace => bytes2 grace
  | .unitLost t a => [byte t.val, byte a]
  | .unitFound t a => [byte t.val, byte a]
  | .rollcallDone t found refused rounds finalQ mark =>
    [byte t.val] ++ bytes2 found ++ bytes2 refused ++ [byte rounds, byte finalQ, mark.code]
  | .unitAccessDone t r status value =>
    [byte t.val, byte r.address, byte r.parameter, flagByte r.write, status.code] ++ bytes2 value.toNat
  | .deskState b before after reason => [byte b, before.code, after.code, reason.code]
  | .deskRefused b liveSeat liveBooth => [byte b] ++ bytes2 liveSeat ++ [byte liveBooth]
  | .relayMissing b language sources =>
    [byte b, byte language, byte sources.length] ++ fourLanguages sources
  | .carrierHop language old new cause => [byte language, byte old.val, byte new.val, cause.code]
  | .channelParked language old cause => [byte language, carrierByte old, cause.code]
  | .channelPlaced language new cause => [byte language, byte new.val, cause.code]
  | .floorStopped closed withdrawn desks => bytes2 closed ++ bytes2 withdrawn ++ [byte desks]

/-- A notice record as TAKE NOTICE returns it. -/
def Notice.bytes (n : Notice) : List Byte :=
  let detail := n.detail.bytes
  [byte n.detail.kindCode, match n.room with | some l => byte l.val | none => 0xFF]
    ++ (match n.seat with | some k => bytes2 k | none => [0xFF, 0xFF])
    ++ [byte detail.length] ++ detail

end Sys2Proof.Machine
end

