-- ==== Sys2Proof/Machine/Ops.lean ====
section
/-! DEFINITION. The operations every block shares: generating a notice, placing a seat on an indicator list,
placing an entry on the send list; and the event in progress, which gathers the work one block hands another
to be taken at the event's end (R58, R60, R123, R139, R150). -/

namespace Sys2Proof.Machine
open Sys2Proof

/-! ## Notices -/

/-- The filter of R165: the kind is enabled, and the room named, if any, is in the room mask. -/
def Venue.passes (v : Venue) (n : Notice) : Bool :=
  v.enables.getLsbD n.detail.kindCode &&
    (match n.room with
      | some l => v.mask.getLsbD l.val
      | none => true)

/-- A notice that passed the filter joins the tail, or is dropped at a full queue, setting the mark (R166). -/
def NoticeQueue.join (q : NoticeQueue) (n : Notice) : NoticeQueue :=
  if q.queue.length < 64 then { q with queue := q.queue ++ [n] } else { q with overflow := true }

/-- A notice is generated (R165, R166). -/
def State.notify (s : State) (n : Notice) : State :=
  if s.venue.passes n then s.setNotices (s.notices.join n) else s

/-! ## Indicator and send lists -/

/-- A seat is placed on its trunk's indicator list; an unbound seat is ignored (R36). -/
def State.placeIndicator (s : State) (n : Nat) : State :=
  match s.seats.get n with
  | none => s
  | some x =>
    match x.binding with
    | none => s
    | some (t, _) => s.modTrunk t (fun u => { u with indicators := joinTail u.indicators n })

/-- Seats are placed on their indicator lists one after another. -/
def State.placeAll (s : State) (ns : List Nat) : State := ns.foldl State.placeIndicator s

/-- The seats of a list whose indicator differs from an earlier state's are placed, in list order (R36). -/
def State.placeChanged (s before : State) (ns : List Nat) : State :=
  s.placeAll (ns.filter (fun n => decide (before.indicator n ≠ s.indicator n)))

/-- A shadow entry is placed on the send list; one already there keeps its place (R152). -/
def State.placeEntry (s : State) (e : Entry) : State := s.setSendList (joinTail s.sendList e)

/-! ## The event in progress -/

/-- An event being taken: the state so far and the work handed on to be taken at its end. `levels` are the
rooms handed to the Level Engine and `seats` the seats that left a room (R150); `advance` the rooms due an
auto-advance check (R60); `listens` the rooms the Interpretation Manager has to recompute (R123) and
`sources` those it has recomputed, whose sources the Level Engine takes (R151); `zones` the rooms whose
channel lists changed (R139). -/
structure Ev where
  st : State
  levels : List SectionNo := []
  seats : List Nat := []
  advance : List SectionNo := []
  listens : List SectionNo := []
  sources : List SectionNo := []
  zones : List SectionNo := []
deriving DecidableEq, Repr

/-- An event begins. -/
def State.event (s : State) : Ev := { st := s }

/-- The event with its state changed. -/
def Ev.on (e : Ev) (f : State → State) : Ev := { e with st := f e.st }

/-- A room is handed to the Level Engine (R150). -/
def Ev.handRoom (e : Ev) (l : SectionNo) : Ev := { e with levels := joinTail e.levels l }

/-- The room of a seat is handed to the Level Engine. -/
def Ev.handSeatRoom (e : Ev) (n : Nat) : Ev :=
  match e.st.seatRoom n with
  | some l => e.handRoom l
  | none => e

/-- The room of a desk, the room of its booth, is handed to the Level Engine (R117, R150). -/
def Ev.handDeskRoom (e : Ev) (x : Seat) : Ev :=
  match e.st.deskRoom x with
  | some l => e.handRoom l
  | none => e

/-- A seat's entries are to be computed though it may have left its room (R150). -/
def Ev.handSeat (e : Ev) (n : Nat) : Ev := { e with seats := joinTail e.seats n }

/-- An auto-advance check of a room is due at the end of the event (R60). -/
def Ev.markAdvance (e : Ev) (l : SectionNo) : Ev := { e with advance := joinTail e.advance l }

/-- A recomputation of a room by the Interpretation Manager is due (R123). -/
def Ev.markListen (e : Ev) (l : SectionNo) : Ev := { e with listens := joinTail e.listens l }

/-- A room's sources are handed to the Level Engine (R151). -/
def Ev.markSources (e : Ev) (l : SectionNo) : Ev := { e with sources := joinTail e.sources l }

/-- A room's channel list has changed (R139). -/
def Ev.markZones (e : Ev) (l : SectionNo) : Ev := { e with zones := joinTail e.zones l }

/-- A notice is generated within the event. -/
def Ev.notify (e : Ev) (n : Notice) : Ev := e.on (fun s => s.notify n)

/-- A seat is placed on its indicator list within the event. -/
def Ev.place (e : Ev) (n : Nat) : Ev := e.on (fun s => s.placeIndicator n)

/-! ## Frames of the trunks -/

/-- The controller puts a frame on a trunk (R169); an earlier release frame is complete. -/
def Trunk.send (u : Trunk) (body : List Byte) : Trunk :=
  { u with lastFrame := sealFrame body, releasing := none, sending := true }

/-- The state after the controller puts a frame on a trunk. -/
def State.sendTrunk (s : State) (t : TrunkNo) (body : List Byte) : State := s.modTrunk t (fun u => u.send body)

/-- The controller's frame on a trunk is complete: its reply has come or its window has closed (R32; DESIGN
CHOICE, assumption log 11). -/
def State.frameDone (s : State) (t : TrunkNo) : State := s.modTrunk t (fun u => { u with sending := false })

end Sys2Proof.Machine
end

