-- ==== Sys2Proof/Machine/InterpOps.lean ====
section
/-! DEFINITION. The Interpretation Manager (chapter 6): desk states, listen sources and relay, channel sources
and the languages of a room's channel list. -/

namespace Sys2Proof.Machine
open Sys2Proof

/-! ## Desks -/

/-- The change of one desk's state, OFF to LIVE or LIVE to OFF, in its booth: the booth's LIVE desk is set,
DESK_STATE generated, the desk's room handed to the Level Engine and due a recomputation, and the desks whose
indicators changed placed, the desk itself first (R119, R120; DEDUCED, assumption log 10). -/
def Ev.changeDesk (e : Ev) (n : Nat) (live : Option Nat) (before after : FloorState) (reason : Reason) : Ev :=
  match e.st.seats.get n with
  | none => e
  | some x =>
    match x.booth, e.st.deskRoom x with
    | some b, some l =>
      let s := (e.st.modBooth b (fun y => { y with live := live })).notify
        ⟨some l, some n, .deskState b before after reason⟩
      let placed := s.placeChanged e.st (n :: s.allDesks)
      (({ e with st := placed }).handRoom l).markListen l
    | _, _ => e

/-- A LIVE desk is switched OFF and its booth becomes SILENT (R121). -/
def Ev.deskOff (e : Ev) (n : Nat) (reason : Reason) : Ev := e.changeDesk n none .live .off reason

/-- An OFF desk goes LIVE and its booth becomes LIVE with it (R119). -/
def Ev.deskOn (e : Ev) (n : Nat) (reason : Reason) : Ev := e.changeDesk n (some n) .off .live reason

/-- A LIVE desk is switched OFF; an OFF one is left as it is (R121). -/
def Ev.deskOffIfLive (e : Ev) (n : Nat) (reason : Reason) : Ev :=
  match e.st.seats.get n with
  | some x => if e.st.deskLive n x then e.deskOff n reason else e
  | none => e

/-- A desk's MIC key (R119). A desk with no booth ignores it; a LIVE desk goes OFF; an OFF desk goes LIVE,
or is refused or takes over by the interlock of its own booth. -/
def Ev.deskKey (e : Ev) (n : Nat) (x : Seat) : Ev :=
  match x.booth with
  | none => e
  | some b =>
    match e.st.booths.get b with
    | none => e
    | some y =>
      if e.st.deskLive n x then e.deskOff n .key
      else
        match e.st.groupLive (e.st.boothRoom y) y.output with
        | none => e.deskOn n .key
        | some (lb, ly) =>
          match y.takeover, ly.live with
          | true, some m => (e.deskOff m .takeover).deskOn n .key
          | _, m =>
            (e.notify ⟨some (e.st.boothRoom y), some n, .deskRefused b (m.getD 0) lb⟩).place n

/-- A seat leaves the desk list of a booth; the others keep their order (R117). -/
def State.leaveBooth (s : State) (n b : Nat) : State :=
  s.modBooth b (fun y => { y with desks := y.desks.filter (fun d => decide (d ≠ n)) })

/-- A seat joins the desk list of a booth at its tail (R117). -/
def State.joinBooth (s : State) (n b : Nat) : State :=
  s.modBooth b (fun y => { y with desks := joinTail y.desks n })

/-- A seat's booth field changed from one value to another (R117). -/
def State.moveDesk (s : State) (n : Nat) (old new : Option Nat) : State :=
  if old = new then s
  else
    let s1 := match old with | some b => s.leaveBooth n b | none => s
    match new with
    | some b => s1.joinBooth n b
    | none => s1

/-! ## Listen sources (R122) -/

/-- A room's floor language as it counts (R112, R122). -/
def State.floorCounts (s : State) (l : SectionNo) : Nat := s.languageCounts (s.rooms[l]).floorLanguage

/-- The booth listens to the floor by step 1 of R122. -/
def Booth.hearsFloor (y : Booth) (floor : Nat) : Bool :=
  decide (floor = 0) || decide (y.output = floor) || decide (floor ∈ y.sources)

/-- The booth a relay for a language would be taken from: LIVE in the room, producing the language and
itself listening to the floor (R122, step 2). -/
def State.relayFor (s : State) (l : SectionNo) (floor language : Nat) : Option Nat :=
  ((s.group l language).find? (fun c => c.2.live.isSome && c.2.hearsFloor floor)).map Prod.fst

/-- The listen source the pass of R122 gives a booth of the room. -/
def State.listenFor (s : State) (l : SectionNo) (y : Booth) : ListenSource :=
  let floor := s.floorCounts l
  if y.hearsFloor floor then .floor
  else
    match y.sources.findSome? (s.relayFor l floor) with
    | some b => .relay b
    | none => .relayMissing

/-- The notices of a pass: RELAY_MISSING for each booth newly marked, in booth order (R122). -/
def State.relayNotices (s : State) (l : SectionNo) : List Notice :=
  (s.boothsOf l).filterMap (fun c =>
    if c.2.listen ≠ .relayMissing ∧ s.listenFor l c.2 = .relayMissing then
      some ⟨some l, none, .relayMissing c.1 (s.floorCounts l) c.2.sources⟩
    else none)

/-- The listen sources of every booth of the room (R122). -/
def State.passListen (s : State) (l : SectionNo) : State :=
  let s1 := s.setBooths (s.booths.map (fun _ y =>
    if s.boothRoom y = l then { y with listen := s.listenFor l y } else y))
  (s.relayNotices l).foldl State.notify s1

/-! ## Channels (R124, R125) -/

/-- The source of a channel of the room (R125). -/
def State.channelSourceFor (s : State) (l : SectionNo) (language : Nat) : ChannelSource :=
  if language = 0 ∨ language = s.floorCounts l then .floor
  else
    match s.groupLive l language with
    | some (b, _) => .booth b
    | none =>
      match s.group l language with
      | (_, y) :: _ => if y.fillFloor then .floor else .silence
      | [] => .silence

/-- The sources of every channel of the room (R125). -/
def State.passChannels (s : State) (l : SectionNo) : State :=
  s.modRoom l (fun r =>
    { r with channels := r.channels.map (fun h => { h with source := s.channelSourceFor l h.language }) })

/-- The Interpretation Manager recomputes a room: listen sources, then channel sources, which the Level
Engine is handed (R123). -/
def Ev.recompute (e : Ev) (l : SectionNo) : Ev :=
  ({ e with st := (e.st.passListen l).passChannels l }).markSources l

/-- The recomputations due at the end of the event, in order of lead (R123). -/
def Ev.takeListens (e : Ev) : Ev :=
  let due := allSections.filter (fun l => decide (l ∈ e.listens))
  due.foldl Ev.recompute { e with listens := [] }

/-- The languages that have a booth in the room, rising (R124). -/
def State.roomLanguages (s : State) (l : SectionNo) : List Nat :=
  (List.range' 1 24).filter (fun x => (s.boothsOf l).any (fun c => decide (c.2.output = x)))

/-- The channel of a language in a list, or a new one without a carrier; the source of a new one is set by
the recomputation of the same event (R125). -/
def channelOrNew (cs : List Channel) (x : Nat) : Channel :=
  (cs.find? (fun h => decide (h.language = x))).getD ⟨x, .silence, none⟩

/-- A room's channel list after R124: the floor channel, then one channel for each language of its booths;
a channel neither added nor removed keeps its fields. -/
def channelList (cs : List Channel) (languages : List Nat) : List Channel :=
  channelOrNew cs 0 :: languages.map (channelOrNew cs)

end Sys2Proof.Machine
end

