-- ==== Sys2Proof/Machine/CarrierOps.lean ====
section
/-! DEFINITION. The Carrier Allocator (chapter 7): placement, retry, hop, the channels handed on by the
Interpretation Manager, carriers across a composition change, the programme list. -/

namespace Sys2Proof.Machine
open Sys2Proof

/-- The preferred carrier of a channel of the room, read as the placement is made (R133). -/
def State.preferred (s : State) (l : SectionNo) (language : Nat) : Option CarrierNo :=
  let record := if language = 0 then (s.settings l).defaultLanguage else language
  (s.languages.get record).bind (fun x => x.carrier)

/-- A carrier a placement may take: usable in the room, held by no channel of it, not the one excluded
(R133). -/
def State.offers (s : State) (l : SectionNo) (excluded : Option CarrierNo) (c : CarrierNo) : Bool :=
  s.usable l c && !s.heldIn l c && decide (excluded ≠ some c)

/-- The carrier a placement takes: the preferred one, otherwise the lowest-numbered, none where no carrier
qualifies (R133). -/
def State.choose (s : State) (l : SectionNo) (language : Nat) (excluded : Option CarrierNo) :
    Option CarrierNo :=
  match s.preferred l language with
  | some c => if s.offers l excluded c then some c else allCarriers.find? (s.offers l excluded)
  | none => allCarriers.find? (s.offers l excluded)

/-- The carrier field of a channel is set. -/
def State.setCarrier (s : State) (l : SectionNo) (language : Nat) (c : Option CarrierNo) : State :=
  s.modRoom l (fun r =>
    { r with channels := r.channels.map (fun h =>
        if h.language = language then { h with carrier := c } else h) })

/-- A parked channel is retried: where a carrier qualifies it takes it, with CHANNEL_PLACED (R134). -/
def Ev.retryOne (l : SectionNo) (cause : Reason) (e : Ev) (language : Nat) : Ev :=
  match e.st.choose l language none with
  | none => e
  | some c =>
    ((e.on (fun s => s.setCarrier l language (some c))).notify
      ⟨some l, none, .channelPlaced language c cause⟩).markZones l

/-- The languages of the room's parked channels, in list order. -/
def State.parked (s : State) (l : SectionNo) : List Nat :=
  ((s.rooms[l]).channels.filter (fun h => h.carrier.isNone)).map (fun h => h.language)

/-- The room's parked channels but for some are retried in language order (R134). -/
def Ev.retry (e : Ev) (l : SectionNo) (cause : Reason) (skip : List Nat) : Ev :=
  ((e.st.parked l).filter (fun x => decide (x ∉ skip))).foldl (Ev.retryOne l cause) e

/-- A channel added to the room's list is placed, or parked, with its notice (R134). -/
def Ev.placeAdded (l : SectionNo) (e : Ev) (language : Nat) : Ev :=
  match e.st.choose l language none with
  | none => e.notify ⟨some l, none, .channelParked language none .added⟩
  | some c =>
    (e.on (fun s => s.setCarrier l language (some c))).notify
      ⟨some l, none, .channelPlaced language c .added⟩

/-- The channel standing on a carrier hops: to another carrier, or it is parked (R135). -/
def Ev.hop (e : Ev) (l : SectionNo) (c : CarrierNo) (cause : Reason) : Ev :=
  match (e.st.rooms[l]).channels.find? (fun h => decide (h.carrier = some c)) with
  | none => e
  | some h =>
    match e.st.choose l h.language (some c) with
    | some d =>
      ((e.on (fun s => s.setCarrier l h.language (some d))).notify
        ⟨some l, none, .carrierHop h.language c d cause⟩).markZones l
    | none =>
      ((e.on (fun s => s.setCarrier l h.language none)).notify
        ⟨some l, none, .channelParked h.language (some c) cause⟩).markZones l

/-- What R124 changes in a room's list: the languages whose channels go, and those that come. -/
def State.channelsGone (s : State) (l : SectionNo) : List Nat :=
  ((s.rooms[l]).channels.map (fun h => h.language)).filter
    (fun x => decide (x ≠ 0) && decide (x ∉ s.roomLanguages l))

def State.channelsCome (s : State) (l : SectionNo) : List Nat :=
  (s.roomLanguages l).filter (fun x => decide (x ∉ (s.rooms[l]).channels.map (fun h => h.language)))

/-- The room's list is set by R124. -/
def State.formChannels (s : State) (l : SectionNo) : State :=
  s.modRoom l (fun r => { r with channels := channelList r.channels (s.roomLanguages l) })

/-- The channels handed on for one room: after removals one retry of the parked channels, then the
placements of the added ones in language order (R134). -/
def Ev.handOn (e : Ev) (work : SectionNo × List Nat × List Nat) : Ev :=
  let (l, gone, come) := work
  let e1 := if gone = [] then e else (e.retry l .unparked come).markZones l
  if come = [] then e1 else (come.foldl (Ev.placeAdded l) e1).markZones l

/-- The channel lists of some rooms are updated, each room is recomputed, and the channels added and removed
are handed to the Carrier Allocator, rooms in order of lead (R115, R116, R123, R124). Where a WRITE of a booth concerns two
rooms, both are recomputed before the channels of the first are handed on: DESIGN CHOICE, assumption log 19. -/
def Ev.updateChannels (e : Ev) (rooms : List SectionNo) : Ev :=
  let due := allSections.filter (fun l => decide (l ∈ rooms))
  let work := due.map (fun l => (l, e.st.channelsGone l, e.st.channelsCome l))
  let formed := e.on (fun s => due.foldl State.formChannels s)
  let computed := due.foldl Ev.recompute
    { formed with listens := formed.listens.filter (fun l => decide (l ∉ due)) }
  work.foldl Ev.handOn computed

/-! ## The programme list -/

/-- The member sections of some rooms join the programme list in RUNNING: room by room as given, each by section (R139). -/
def State.joinProgrammes (s : State) (rooms : List SectionNo) : State :=
  match s.run with
  | .halted => s
  | .running => s.setProgrammes ((rooms.flatMap s.members).foldl joinTail s.programmes)

/-- The rooms whose channel lists the event changed join the programme list (R139). The order of lead is that of R139 for the
new rooms of a composition change; for several rooms changed by another event it is DESIGN CHOICE, assumption log 17. -/
def Ev.takeZones (e : Ev) : Ev :=
  { e with st := e.st.joinProgrammes (allSections.filter (fun l => decide (l ∈ e.zones))), zones := [] }

/-- A zone programme built from the section's room as it stands (R138, R169). -/
def State.zoneProgramme (s : State) (sec : SectionNo) : List Byte :=
  let l := s.roomOf sec
  let entries := (s.rooms[l]).channels.filterMap (fun h => h.carrier.map (fun c => (c, h.language)))
  [0x50, byte sec.val, byte l.val, byte entries.length]
    ++ entries.flatMap (fun p => [byte p.1.val, byte p.2])

/-! ## Carriers across a composition change (R140 to R142) -/

/-- The carrier of the channel of a language in an old room: none where it had no such channel. -/
def State.oldCarrier (old : State) (language : Nat) (l : SectionNo) : Option (Option CarrierNo) :=
  ((old.rooms[l]).channels.find? (fun h => decide (h.language = language))).map (fun h => h.carrier)

/-- The reference predecessor's carrier: the principal old room's channel, else that of the lowest old lead
(R140). -/
def State.reference (old : State) (drawn : List SectionNo) (principal : Option SectionNo) (language : Nat) :
    Option CarrierNo :=
  match principal.bind (old.oldCarrier language) with
  | some c => c
  | none => (drawn.findSome? (old.oldCarrier language)).getD none

/-- A channel keeps a predecessor's carrier when it is usable in the new room and no channel of the room
holds it yet (R142). -/
def State.keeps (s : State) (l : SectionNo) (c : CarrierNo) : Bool := s.usable l c && !s.heldIn l c

/-- Pass 1 for one channel: it keeps the principal predecessor's carrier where it is usable (R142). -/
def State.keepPrincipal (old : State) (principal : Option SectionNo) (l : SectionNo) (s : State)
    (language : Nat) : State :=
  match principal.bind (old.oldCarrier language) with
  | some (some c) => if s.keeps l c then s.setCarrier l language (some c) else s
  | _ => s

/-- A channel of the room stands on no carrier. -/
def State.unplaced (s : State) (l : SectionNo) (language : Nat) : Bool := decide (language ∈ s.parked l)

/-- Pass 2 for one channel still without a carrier: the first of its other predecessors' carriers, by old
lead, that it can keep (R142). -/
def State.keepOther (old : State) (others : List SectionNo) (l : SectionNo) (s : State) (language : Nat) :
    State :=
  if s.unplaced l language then
    match others.findSome? (fun o =>
      match old.oldCarrier language o with
      | some (some c) => if s.keeps l c then some c else none
      | _ => none) with
    | some c => s.setCarrier l language (some c)
    | none => s
  else s

/-- Pass 3 for one channel still without a carrier: it is placed by R133. -/
def State.placeNew (l : SectionNo) (s : State) (language : Nat) : State :=
  if s.unplaced l language then s.setCarrier l language (s.choose l language none) else s

/-- The carriers of a new room that draws from several old rooms (R142). -/
def State.mergeCarriers (s old : State) (drawn : List SectionNo) (principal : Option SectionNo)
    (l : SectionNo) (languages : List Nat) : State :=
  let s1 := languages.foldl (State.keepPrincipal old principal l) s
  let s2 := languages.foldl
    (State.keepOther old (drawn.filter (fun o => decide (principal ≠ some o))) l) s1
  languages.foldl (State.placeNew l) s2

/-- A division's channel keeps its one predecessor's carrier field (R141). -/
def State.keepDivided (old : State) (drawn : List SectionNo) (l : SectionNo) (s : State) (language : Nat) :
    State :=
  s.setCarrier l language ((drawn.findSome? (old.oldCarrier language)).getD none)

/-- The carriers of a new room that draws from one old room: kept, and the parked channels retried (R141). -/
def State.divideCarriers (s old : State) (drawn : List SectionNo) (l : SectionNo) (languages : List Nat) :
    State :=
  let kept := languages.foldl (State.keepDivided old drawn l) s
  (kept.parked l).foldl (State.placeNew l) kept

/-- The notice of one channel of a new room against its reference predecessor (R140). -/
def carrierNotice (l : SectionNo) (cause : Reason) (language : Nat) (was is : Option CarrierNo) :
    Option Notice :=
  match was, is with
  | some a, some b => if a = b then none else some ⟨some l, none, .carrierHop language a b cause⟩
  | some a, none => some ⟨some l, none, .channelParked language (some a) cause⟩
  | none, some b => some ⟨some l, none, .channelPlaced language b cause⟩
  | none, none => none

/-- The notices of a new room (R140). R140 and R137 do not order those of one room by the passes of R142; language order is
DESIGN CHOICE, assumption log 22. For a room that draws from one old room it is that of the retry (R134, R141). -/
def State.carrierNotices (s old : State) (drawn : List SectionNo) (principal : Option SectionNo)
    (l : SectionNo) (cause : Reason) : List Notice :=
  (s.rooms[l]).channels.filterMap (fun h =>
    carrierNotice l cause h.language (old.reference drawn principal h.language) h.carrier)

/-- The Carrier Allocator takes one new room of a composition change (R140). -/
def State.reconcileCarriers (s old : State) (drawn : List SectionNo) (principal : Option SectionNo)
    (l : SectionNo) (cause : Reason) : State :=
  let languages := (s.rooms[l]).channels.map (fun h => h.language)
  let s1 :=
    match drawn with
    | [_] => s.divideCarriers old drawn l languages
    | _ => s.mergeCarriers old drawn principal l languages
  (s1.carrierNotices old drawn principal l cause).foldl State.notify s1

end Sys2Proof.Machine
end

