-- ==== Sys2Proof/Machine/LevelOps.lean ====
section
/-! DEFINITION. The Level Engine (chapter 8): attenuation, levels and coefficients, the recomputation of rooms
against the shadow, the sources it takes, the send list and the matrix messages. -/

namespace Sys2Proof.Machine
open Sys2Proof

/-! ## Levels -/

/-- The attenuation of N open microphones in steps (R145). -/
def attenuation (n : Nat) : Int :=
  match n with
  | 0 => 0 | 1 => 0 | 2 => 6 | 3 => 10 | 4 => 12 | 5 => 14 | 6 => 16 | 7 => 17 | 8 => 18 | 9 => 19
  | 10 => 20 | 11 => 21 | 12 => 22 | 13 => 22 | 14 => 23 | 15 => 24 | _ => 24

/-- A raw value as a level: above +12 it is +12, below -120 it is MUTE (R146). -/
def levelOf (raw : Int) : Level :=
  if 12 < raw then .steps 12 else if raw < -120 then .mute else .steps raw

/-- The seat's microphone is open (R145). -/
def State.micOpen (s : State) (n : Nat) : Bool := (s.speaker n).isSome || s.chairOpen n

/-- The open-microphone count of a room: its open microphones that are not level-muted (R145). -/
def State.openCount (s : State) (l : SectionNo) : Nat :=
  (if s.muting l then 0 else (s.roomSpeakers l).length) + (s.roomChairs l).length

/-- The microphone level of a delegate or chair (R146). -/
def State.micLevel (s : State) (n : Nat) (x : Seat) : Level :=
  let l := s.roomOf x.section_
  let st := s.settings l
  if !s.micOpen n || (decide (x.kind = .delegate) && s.muting l) then .mute
  else levelOf (st.floorMaster + x.micTrim.getD st.micTrim - attenuation (s.openCount l))

/-- Some neighbour is a delegate or chair of the same room with an open microphone (R147). -/
def State.neighbourOpen (s : State) (x : Seat) : Bool :=
  x.neighbours.any (fun m => s.micOpen m && s.seatIn (s.roomOf x.section_) m)

/-- The loudspeaker level of a delegate or chair (R147). -/
def State.speakerLevel (s : State) (n : Nat) (x : Seat) : Level :=
  let st := s.settings (s.roomOf x.section_)
  let base := st.speakerMaster + x.speakerTrim.getD st.speakerTrim
  if s.micOpen n then .mute
  else if s.neighbourOpen x then levelOf (base - st.duck)
  else levelOf base

/-- The input level of a desk: its booth's gain while it is LIVE (R148). -/
def State.deskLevel (s : State) (n : Nat) (x : Seat) : Level :=
  match x.booth with
  | none => .mute
  | some b =>
    match s.booths.get b with
    | none => .mute
    | some y => if y.live = some n then .steps y.gain else .mute

/-- The three entries of a seat number in RUNNING (R146 to R148). -/
def State.runningLevels (s : State) (n : Nat) : SeatLevels :=
  match s.seats.get n with
  | none => {}
  | some x =>
    match x.kind with
    | .desk => { input := s.deskLevel n x }
    | _ => { input := s.micLevel n x, output := s.speakerLevel n x, bus := some (s.roomOf x.section_) }

/-- The three entries of a seat number: in HALTED every level is MUTE (R154). -/
def State.computedLevels (s : State) (n : Nat) : SeatLevels :=
  match s.run with
  | .running => s.runningLevels n
  | .halted => { bus := (s.runningLevels n).bus }

/-- The room a seat's levels belong to (R145). -/
def State.levelRoom (s : State) (n : Nat) (x : Seat) : Option SectionNo :=
  match x.kind with
  | .desk => s.deskRoom x
  | _ => s.seatRoom n

/-! ## The shadow -/

/-- The shadow entries of a seat number. -/
def Shadow.seat (h : Shadow) (n : Nat) : SeatLevels := (h.seats.get n).getD {}

/-- The key of a channel entry. -/
def channelKey (lead : SectionNo) (language : Nat) : Nat := 25 * lead.val + language

/-- The shadow entry of a channel; none is NONE. -/
def Shadow.channel (h : Shadow) (lead : SectionNo) (language : Nat) : Option ChannelSource :=
  h.channels.get (channelKey lead language)

/-- An entry joins the send list in RUNNING; in HALTED a change is written into the shadow only (R154). -/
def State.placeIfRunning (s : State) (e : Entry) : State :=
  match s.run with
  | .running => s.placeEntry e
  | .halted => s

/-- One seat's entries are computed and compared with the shadow; what differs is written and, in RUNNING,
placed: floor bus, then input, then output (R150). -/
def State.takeSeatLevels (s : State) (n : Nat) : State :=
  let old := s.shadow.seat n
  let new := s.computedLevels n
  let s1 := s.setShadow { s.shadow with seats := s.shadow.seats.store {} n new }
  let s2 := if old.bus ≠ new.bus then s1.placeIfRunning (.bus n) else s1
  let s3 := if old.input ≠ new.input then s2.placeIfRunning (.input n) else s2
  if old.output ≠ new.output then s3.placeIfRunning (.output n) else s3

/-- The seats a recomputation computes: those of the rooms handed and those that left one, by number (R150). -/
def Ev.levelSeats (e : Ev) : List Nat :=
  let inRooms := (e.st.seats.cells.filter (fun c =>
    match e.st.levelRoom c.1 c.2 with
    | some l => decide (l ∈ e.levels)
    | none => false)).map Prod.fst
  (e.seats.foldl (fun (m : FMap Unit) n => m.put n ()) ⟨inRooms.map (fun n => (n, ()))⟩).keys

/-- The recomputation of the rooms handed, once, at the end of the event (R150). -/
def Ev.takeLevels (e : Ev) : Ev := { e with st := e.levelSeats.foldl State.takeSeatLevels e.st, levels := [], seats := [] }

/-! ## Sources -/

/-- A booth's listen source as the Level Engine is handed it: relay missing is FLOOR (R122, R151). -/
def ListenSource.entry : ListenSource → ListenEntry
  | .floor => .floor | .relay b => .relay b | .relayMissing => .floor

/-- A booth's listen source is compared with the shadow and written where it differs (R151). -/
def State.takeListen (place : State → Entry → State) (s : State) (b : Nat) (y : Booth) : State :=
  if s.shadow.booths.get b = some y.listen.entry then s
  else place (s.setShadow { s.shadow with booths := s.shadow.booths.put b y.listen.entry }) (.listen b)

/-- A channel's source is compared with the shadow and written where it differs (R151). -/
def State.takeChannel (place : State → Entry → State) (l : SectionNo) (s : State) (h : Channel) : State :=
  if s.shadow.channel l h.language = some h.source then s
  else
    place (s.setShadow { s.shadow with channels := s.shadow.channels.put (channelKey l h.language) h.source })
      (.channel l.val h.language)

/-- The sources of a recomputed room are taken: booths by number, then channels by language (R123, R151). -/
def State.takeSources (place : State → Entry → State) (s : State) (l : SectionNo) : State :=
  let s1 := (s.boothsOf l).foldl (fun s c => s.takeListen place c.1 c.2) s
  (s1.rooms[l]).channels.foldl (State.takeChannel place l) s1

/-- A channel entry stands for a channel of a room as it is. -/
def State.channelStands (s : State) (key : Nat) : Bool :=
  s.leads.any (fun l => (s.rooms[l]).channels.any (fun h => decide (channelKey l h.language = key)))

/-- The lead of a channel entry leads a room. -/
def State.keyLeads (s : State) (key : Nat) : Bool := s.leads.any (fun l => decide (l.val = key / 25))

/-- A channel entry becomes NONE (R151). -/
def State.clearChannel (place : State → Entry → State) (s : State) (key : Nat) : State :=
  place (s.setShadow { s.shadow with channels := s.shadow.channels.erase key })
    (.channel (key / 25) (key % 25))

/-- A retired booth's entry becomes NONE (R151). -/
def State.clearListen (place : State → Entry → State) (s : State) (b : Nat) : State :=
  place (s.setShadow { s.shadow with booths := s.shadow.booths.erase b }) (.listen b)

/-- Entries that no longer stand for anything are cleared: channels gone from a room's list, then channels of
leads that ceased, then retired booths (R151). R151 orders those of ceased leads by lead and language; for those gone from
the lists of rooms it gives no order, and lead, then language, is DESIGN CHOICE, assumption log 20. -/
def State.clearGone (place : State → Entry → State) (s : State) : State :=
  let gone := s.shadow.channels.keys.filter (fun k => !s.channelStands k)
  let s1 := (gone.filter s.keyLeads).foldl (State.clearChannel place) s
  let s2 := (gone.filter (fun k => !s.keyLeads k)).foldl (State.clearChannel place) s1
  (s.shadow.booths.keys.filter (fun b => (s.booths.get b).isNone)).foldl (State.clearListen place) s2

/-- The sources of one event are taken in the order their rooms were handed, and what is gone is cleared
(R151); an event that hands none has none gone. -/
def Ev.takeSourcesWith (place : State → Entry → State) (e : Ev) : Ev :=
  if e.sources = [] then e
  else { e with st := (e.sources.foldl (State.takeSources place) e.st).clearGone place, sources := [] }

/-- The sources of an event outside STOP. -/
def Ev.takeSources (e : Ev) : Ev := e.takeSourcesWith State.placeIfRunning

/-! ## The send list -/

/-- Every shadow entry in the order of R153. -/
def allEntries : List Entry :=
  (List.range 1024).flatMap (fun n => [.bus n, .input n, .output n])
    ++ (List.range 16).map Entry.listen
    ++ (List.range 16).flatMap (fun l => (List.range 25).map (fun x => Entry.channel l x))

/-- Every shadow entry is placed on the send list; one already there keeps its place (R153). -/
def State.resendAll (s : State) : State :=
  s.setSendList (s.sendList ++ allEntries.filter (fun e => decide (e ∉ s.sendList)))

/-- The coefficients of the levels -120 to -61. -/
def coefficientsLow : List Nat :=
  [16, 17, 18, 19, 21, 22, 23, 25, 26, 28, 29, 31, 33, 35, 37, 39, 41, 44, 46, 49, 52, 55, 58, 62,
    65, 69, 73, 78, 82, 87, 92, 98, 103, 110, 116, 123, 130, 138, 146, 155, 164, 174, 184, 195,
    206, 218, 231, 245, 260, 275, 291, 309, 327, 346, 367, 389, 412, 436, 462, 489]

/-- The coefficients of the levels -60 to -1. -/
def coefficientsMid : List Nat :=
  [518, 549, 581, 616, 652, 691, 732, 775, 821, 870, 921, 976, 1034, 1095, 1160, 1229, 1301, 1379,
    1460, 1547, 1638, 1735, 1838, 1947, 2063, 2185, 2314, 2451, 2597, 2751, 2914, 3086, 3269, 3463,
    3668, 3885, 4115, 4359, 4618, 4891, 5181, 5488, 5813, 6158, 6523, 6909, 7318, 7752, 8211, 8698,
    9213, 9759, 10338, 10950, 11599, 12286, 13014, 13785, 14602, 15467]

/-- The coefficients of the levels 0 to +12. -/
def coefficientsHigh : List Nat :=
  [16384, 17355, 18383, 19472, 20626, 21848, 23143, 24514, 25967, 27506, 29135, 30862, 32690]

/-- The table of the 133 coefficients for the levels -120 to +12 (R149). -/
def coefficientTable : List Nat := coefficientsLow ++ coefficientsMid ++ coefficientsHigh

/-- The coefficient of a level; MUTE is sent as 0 (R149). -/
def Level.coefficient : Level → Nat
  | .mute => 0
  | .steps n => coefficientTable.getD (n + 120).toNat 0

/-- A matrix message built from an entry's value in the shadow (R152, R169; byte order assumption log 15). -/
def State.matrixMessage (s : State) : Entry → List Byte
  | .input n => [0x60] ++ bytes2 n ++ bytes2 (s.shadow.seat n).input.coefficient
  | .output n => [0x61] ++ bytes2 n ++ bytes2 (s.shadow.seat n).output.coefficient
  | .bus n =>
    [0x62] ++ bytes2 n ++ [match (s.shadow.seat n).bus with | some l => byte l.val | none => 0xFF]
  | .listen b =>
    [0x63, byte b] ++ (match s.shadow.booths.get b with
      | some .floor => [0, 0xFF]
      | some (.relay r) => [1, byte r]
      | none => [0xFF, 0xFF])
  | .channel l x =>
    [0x64, byte l, byte x] ++ (match s.shadow.channels.get (25 * l + x) with
      | some .floor => [0, 0xFF]
      | some (.booth b) => [1, byte b]
      | some .silence => [2, 0xFF]
      | none => [0xFF, 0xFF])

/-- The mutes of STOP: every input and output level that is not MUTE becomes MUTE and is placed, in seat
order, input before output (R155). -/
def State.muteSeat (s : State) (n : Nat) : State :=
  let old := s.shadow.seat n
  let s1 := s.setShadow { s.shadow with seats := s.shadow.seats.store {} n { bus := old.bus } }
  let s2 := if old.input ≠ .mute then s1.placeEntry (.input n) else s1
  if old.output ≠ .mute then s2.placeEntry (.output n) else s2

/-- Step 1 of the Level Engine's part of STOP (R155). -/
def State.muteAll (s : State) : State := s.shadow.seats.keys.foldl State.muteSeat s

end Sys2Proof.Machine
end

