-- ==== Sys2Proof/Machine/FloorOps.lean ====
section
/-! DEFINITION. The Floor Manager (chapters 3 and 4): joins, withdrawals, grants and closes, floor language,
priority holds, auto-advance, keys at the floor, limits, unit loss; and the end of an event. -/

namespace Sys2Proof.Machine
open Sys2Proof

/-! ## Notices of the floor -/

/-- A SEAT_STATE notice names the seat and the room that contains its section (R76). -/
def State.seatState (s : State) (n : Nat) (before after : FloorState) (reason : Reason) : Notice :=
  ⟨s.seatRoom n, some n, .seatState before after reason⟩

/-- A REQUEST_REFUSED notice (R63). -/
def State.requestRefused (s : State) (n : Nat) (nextKey : Bool) (reason : Reason) : Notice :=
  ⟨s.seatRoom n, some n, .requestRefused nextKey reason⟩

/-- The floor state of a seat number; IDLE for a free record. -/
def State.floorStateOf (s : State) (n : Nat) : FloorState :=
  match s.seats.get n with
  | some x => s.floorState n x
  | none => .idle

/-! ## Pool -/

/-- The pool without a seat's entry; the others keep their order (R56). -/
def State.leavePool (s : State) (n : Nat) : State :=
  s.setPool (s.pool.filter (fun r => decide (r.seat ≠ n)))

/-- A delegate joins the pool at its tail, with the priority flag of its class (R55). -/
def Ev.join (e : Ev) (n : Nat) (x : Seat) : Ev :=
  ((e.on (fun s => s.setPool (s.pool ++ [⟨n, decide (x.seatClass = .vip)⟩]))).notify
    (e.st.seatState n .idle .waiting .key)).place n

/-- A request is withdrawn with its reason (R56). -/
def Ev.withdraw (reason : Reason) (e : Ev) (n : Nat) : Ev :=
  ((e.on (fun s => s.leavePool n)).notify (e.st.seatState n .waiting .idle reason)).place n

/-! ## Grants and closes -/

/-- The timer a grant or EXTEND starts from a room's settings; none at a speech limit of 0 (R80, R84). -/
def Settings.timer (x : Settings) : Option Timer :=
  if x.speechLimit = 0 then none
  else some { inGrace := false, remaining := x.speechLimit, capturedLimit := x.speechLimit,
              capturedGrace := x.grace }

/-- The floor language a grant of a seat sets in a room (R71). -/
def State.grantLanguage (s : State) (l : SectionNo) (x : Seat) : Nat :=
  if s.languageInUse x.language then x.language else s.languageCounts (s.settings l).defaultLanguage

/-- A room's floor language takes a value; a different one is handed on (R71). -/
def Ev.setLanguage (e : Ev) (l : SectionNo) (value : Nat) : Ev :=
  if (e.st.rooms[l]).floorLanguage = value then e
  else (e.on (fun s => s.modRoom l (fun r => { r with floorLanguage := value }))).markListen l

/-- Steps 1 to 3 of a grant: the pool entry goes, and the seat joins the speaker list with its timer or the
chair set (R58). -/
def State.openSeat (s : State) (l : SectionNo) (n : Nat) (x : Seat) : State :=
  match x.kind with
  | .delegate => (s.leavePool n).setSpeakers (s.speakers ++ [⟨n, (s.settings l).timer⟩])
  | _ => (s.leavePool n).setChairs (s.chairs ++ [n])

/-- A grant opens the microphone of a delegate or chair (R58). -/
def Ev.grant (e : Ev) (n : Nat) (reason : Reason) : Ev :=
  match e.st.seats.get n with
  | none => e
  | some x =>
    let l := e.st.roomOf x.section_
    let before := e.st.floorState n x
    let opened := e.on (fun s => s.openSeat l n x)
    let spoken := if (e.st.rooms[l]).pin then opened else opened.setLanguage l (e.st.grantLanguage l x)
    ((spoken.notify ⟨some l, some n, .seatState before .speaking reason⟩).place n).handRoom l

/-- Steps 1 to 3 of a close: the seat leaves the speaker list, and its timer with it, or the chair set (R58). -/
def State.shutSeat (s : State) (n : Nat) : State :=
  (s.setSpeakers (s.speakers.filter (fun y => decide (y.seat ≠ n)))).setChairs
    (s.chairs.filter (fun c => decide (c ≠ n)))

/-- A close shuts the microphone of an open delegate or chair; for a delegate an auto-advance check of its
room is due at the end of the event (R58). -/
def Ev.close (reason : Reason) (e : Ev) (n : Nat) : Ev :=
  match e.st.seats.get n with
  | none => e
  | some x =>
    let l := e.st.roomOf x.section_
    let before := e.st.floorState n x
    let shut := e.on (fun s => s.shutSeat n)
    let closed :=
      match x.kind with
      | .delegate => shut.markAdvance l
      | _ => shut
    ((closed.notify ⟨some l, some n, .seatState before .idle reason⟩).place n).handRoom l

/-- In a REPLACE room at its limit the oldest speaker is closed with reason REPLACED (R59). -/
def Ev.replaceOldest (e : Ev) (l : SectionNo) : Ev :=
  if e.st.belowLimit l then e
  else
    match e.st.roomSpeakers l with
    | y :: _ => Ev.close .replaced e y.seat
    | [] => e

/-! ## Auto-advance (R60) -/

/-- The three conditions of R60 in a DIRECT room hold, and the head of the queue. -/
def State.advanceHead (s : State) (l : SectionNo) : Option Nat :=
  if (s.settings l).floorMode = .direct ∧ s.belowLimit l = true ∧ s.closingAll l = false then
    (s.queue l).head?.map (fun r => r.seat)
  else none

/-- Heads are granted with reason AUTO until a condition fails, at most `fuel` of them. -/
def Ev.advanceBy (l : SectionNo) : Nat → Ev → Ev
  | 0, e => e
  | fuel + 1, e =>
    match e.st.advanceHead l with
    | none => e
    | some n => Ev.advanceBy l fuel (e.grant n .auto)

/-- The auto-advance check of a room; each grant takes an entry out of the pool, so the pool's length bounds
the grants. -/
def Ev.autoAdvance (e : Ev) (l : SectionNo) : Ev := Ev.advanceBy l e.st.pool.length e

/-- The checks due at the end of the event, in order of lead (R58, R60). -/
def Ev.takeAdvances (e : Ev) : Ev :=
  let due := allSections.filter (fun l => decide (l ∈ e.advance))
  { due.foldl Ev.autoAdvance e with advance := [] }

/-- The end of an event: auto-advance (R60), recomputations of the Interpretation Manager (R123), programme
list (R139), levels (R150), sources (R151). The order is DEDUCED, assumption log 8. -/
def Ev.finish (e : Ev) : State := e.takeAdvances.takeListens.takeZones.takeLevels.takeSources.st

/-! ## Priority holds (R73, R74) -/

/-- At the start and the end of a MUTE_WHILE_HELD hold the room's speaking delegates are placed on their indicator lists
(R74). R74 gives no order among several: speaker-list order, DESIGN CHOICE, assumption log 16. -/
def Ev.placeSpeakers (e : Ev) (l : SectionNo) : Ev :=
  e.on (fun s => s.placeAll ((s.roomSpeakers l).map (fun x => x.seat)))

/-- A hold starts with the lead section's priority action (R74). -/
def Ev.startHold (e : Ev) (l : SectionNo) : Ev :=
  let action := (e.st.settings l).priorityAction
  let held := (e.on (fun s => s.modRoom l (fun r => { r with holdAction := some action }))).handRoom l
  match action with
  | .muteWhileHeld => held.placeSpeakers l
  | .closeAll => ((held.st.roomSpeakers l).map (fun x => x.seat)).foldl (Ev.close .priority) held

/-- A hold ends (R74). -/
def Ev.endHold (e : Ev) (l : SectionNo) : Ev :=
  let action := (e.st.rooms[l]).holdAction
  let ended := (e.on (fun s => s.modRoom l (fun r => { r with holdAction := none }))).handRoom l
  match action with
  | some .muteWhileHeld => ended.placeSpeakers l
  | some .closeAll => ended.markAdvance l
  | none => ended

/-- PRIORITY_DOWN of a chair (R73). -/
def Ev.priorityDown (e : Ev) (n : Nat) (x : Seat) : Ev :=
  let l := e.st.roomOf x.section_
  let holding := (e.st.rooms[l]).holding
  if n ∈ holding then e
  else
    let down := e.on (fun s => s.modRoom l (fun r => { r with holding := holding ++ [n] }))
    if holding = [] then down.startHold l else down

/-- PRIORITY_UP of a chair, and every release that counts as one (R73). -/
def Ev.priorityUp (e : Ev) (n : Nat) (x : Seat) : Ev :=
  let l := e.st.roomOf x.section_
  let holding := (e.st.rooms[l]).holding
  if n ∈ holding then
    let left := holding.filter (fun c => decide (c ≠ n))
    let up := e.on (fun s => s.modRoom l (fun r => { r with holding := left }))
    if left = [] then up.endHold l else up
  else e

/-! ## NEXT (R67) -/

/-- NEXT for a room: the status it answers, with the head of the queue granted where that is OK (R67). -/
def Ev.nextIn (e : Ev) (l : SectionNo) : Status × Ev :=
  match e.st.queue l with
  | [] => (.noRecord, e)
  | r :: _ =>
    if e.st.belowLimit l then (.ok, e.grant r.seat .next)
    else
      match (e.st.settings l).floorMode with
      | .replace => (.ok, (e.replaceOldest l).grant r.seat .next)
      | _ => (.full, e)

/-! ## Keys at the floor (R61, R62) -/

/-- A delegate that can neither be granted nor queued is refused FULL, else it joins the pool (R55, R61). -/
def Ev.joinOrRefuse (e : Ev) (l : SectionNo) (n : Nat) (x : Seat) : Ev :=
  if e.st.queueHasRoom l then e.join n x else e.notify (e.st.requestRefused n false .full)

/-- A delegate's MIC key from IDLE with LOCK clear (R59, R61, R74). -/
def Ev.idleKey (e : Ev) (n : Nat) (x : Seat) : Ev :=
  let l := e.st.roomOf x.section_
  match e.st.closingAll l, (e.st.settings l).floorMode with
  | true, .replace => e.notify (e.st.requestRefused n false .priority)
  | true, _ => e.joinOrRefuse l n x
  | false, .direct => if e.st.belowLimit l then e.grant n .key else e.joinOrRefuse l n x
  | false, .queued => e.joinOrRefuse l n x
  | false, .replace => (e.replaceOldest l).grant n .key

/-- A delegate's MIC key (R61). -/
def Ev.delegateKey (e : Ev) (n : Nat) (x : Seat) : Ev :=
  match e.st.floorState n x with
  | .idle => if x.lock then e.notify (e.st.requestRefused n false .locked) else e.idleKey n x
  | .waiting => Ev.withdraw .cancelled e n
  | .speaking => Ev.close .ownKey e n
  | .warned => Ev.close .ownKey e n
  | .off => e
  | .live => e

/-- A chair's MIC key (R62). -/
def Ev.chairKey (e : Ev) (n : Nat) (x : Seat) : Ev :=
  if e.st.chairOpen n then Ev.close .ownKey e n
  else if x.lock then e.notify (e.st.requestRefused n false .locked)
  else e.grant n .key

/-- A chair's NEXT key (R62). -/
def Ev.chairNext (e : Ev) (n : Nat) (x : Seat) : Ev :=
  match e.nextIn (e.st.roomOf x.section_) with
  | (.noRecord, _) => e.notify (e.st.requestRefused n true .empty)
  | (.full, _) => e.notify (e.st.requestRefused n true .full)
  | (_, done) => done

/-! ## Limits (R70, R101, R102) -/

/-- The room's most recently granted speakers beyond the limit, the latest granted first (R70, R101). -/
def State.overSpeakers (s : State) (l : SectionNo) : List Nat :=
  (((s.roomSpeakers l).drop (s.settings l).speakerLimit).map (fun x => x.seat)).reverse

/-- The entries withdrawn by a lowered queue limit: the latest-arrived without the priority flag first, then
the latest with it (R70, R102). -/
def State.overQueue (s : State) (l : SectionNo) : List Nat :=
  (((s.queue l).drop (s.settings l).queueLimit).map (fun r => r.seat)).reverse

/-- The speakers beyond the limit are closed. -/
def Ev.applySpeakerLimit (e : Ev) (l : SectionNo) (reason : Reason) : Ev :=
  (e.st.overSpeakers l).foldl (Ev.close reason) e

/-- The entries beyond the queue limit are withdrawn. -/
def Ev.applyQueueLimit (e : Ev) (l : SectionNo) (reason : Reason) : Ev :=
  (e.st.overQueue l).foldl (Ev.withdraw reason) e

/-! ## Unit loss (R75) -/

/-- A seat leaves the floor: a waiting delegate's request is withdrawn, an open microphone closed (R53, R75). -/
def Ev.leaveFloor (e : Ev) (n : Nat) (reason : Reason) : Ev :=
  let left := if e.st.waiting n then Ev.withdraw reason e n else e
  if left.st.micOpen n then Ev.close reason left n else left

/-- The loss of a delegate or chair at the floor (R75). -/
def Ev.floorLoss (e : Ev) (n : Nat) (x : Seat) : Ev := (e.leaveFloor n .unitLost).priorityUp n x

/-! ## Clearing a floor (R68, R77) -/

/-- The floor of a room is emptied: delegates in speaker-list order, chairs in chair-set order, queue entries
in pool order (R68, R77). -/
def Ev.clearRoom (reason : Reason) (e : Ev) (l : SectionNo) : Ev :=
  let e1 := ((e.st.roomSpeakers l).map (fun x => x.seat)).foldl (Ev.close reason) e
  let e2 := (e1.st.roomChairs l).foldl (Ev.close reason) e1
  ((e2.st.poolOf l).map (fun r => r.seat)).foldl (Ev.withdraw reason) e2

/-! ## Timers (R81) -/

/-- The timer of a seat in the speaker list is set. -/
def State.setTimer (s : State) (n : Nat) (t : Option Timer) : State :=
  s.setSpeakers (s.speakers.map (fun x => if x.seat = n then { x with timer := t } else x))

end Sys2Proof.Machine
end

