-- ==== Sys2Proof/Machine/PartitionOps.lean ====
section
/-! DEFINITION. The Partition Unit (chapter 1): debounce, the effective state of walls, room composition; and
the composition change as each manager takes it (chapters 5, 6 and 7). -/

namespace Sys2Proof.Machine
open Sys2Proof

/-! ## Contacts and walls -/

/-- The interpreted state: the contact level read through the polarity; true is OPEN (R7). -/
def Wall.interpreted (x : Wall) : Bool :=
  match x.setup.polarity with
  | .madeIsClosed => !x.made
  | .madeIsOpen => x.made

/-- The length of a debounce interval in milliseconds; none for class NONE (R7). -/
def DebounceClass.length : DebounceClass → Option Nat
  | .none => Option.none | .short => some 50 | .medium => some 500 | .long => some 3000

/-- A change of the interpreted state is taken: a running interval ends without effect, and where the state
differs from the sensed state it is sensed at once or a new interval starts (R7). -/
def Wall.interpretedChanged (x : Wall) : Wall :=
  if x.interpreted = x.sensed then { x with interval := none }
  else
    match x.setup.debounceClass.length with
    | none => { x with interval := none, sensed := x.interpreted }
    | some ms => { x with interval := some ms }

/-- The end of a debounce interval: the sensed state takes the interpreted value (R8). -/
def Wall.intervalEnds (x : Wall) : Wall := { x with interval := none, sensed := x.interpreted }

/-- The computed state of a wall; true is OPEN (R11). -/
def Wall.computed (x : Wall) : Bool :=
  match x.setup.pair, x.setup.override with
  | none, _ => false
  | some _, .forceOpen => true
  | some _, .forceClosed => false
  | some _, .follow => x.sensed

/-- Either section of the wall lies in a frozen room (R11, R14). -/
def State.touchesFrozen (s : State) (x : Wall) : Bool :=
  match x.setup.pair with
  | none => false
  | some (a, b) => (s.rooms[s.roomOf a]).frozen || (s.rooms[s.roomOf b]).frozen

/-- A wall is evaluated: it takes its computed state, or is held and its pending flag set or cleared (R11,
R14). -/
def State.evaluated (s : State) (x : Wall) : Wall :=
  if s.touchesFrozen x then { x with pendingFlag := decide (x.computed ≠ x.effective) }
  else { x with effective := x.computed, pendingFlag := false }

/-- The walls whose effective state is OPEN (R16). -/
def State.openWalls (s : State) : List WallNo := allWalls.filter (fun w => (s.walls[w]).effective)

/-! ## Components (R17, R18) -/

/-- One wall's part in forming the components: the two sections it joins take the lower of their leads. -/
def joinWall (labels : Vector SectionNo 16) (x : Wall) : Vector SectionNo 16 :=
  match x.effective, x.setup.pair with
  | true, some (a, b) =>
    let m := min labels[a] labels[b]
    (labels.set a m).set b m
  | _, _ => labels

/-- The walls taken one after another, over and over. -/
def joinWalls (walls : List Wall) : Nat → Vector SectionNo 16 → Vector SectionNo 16
  | 0, labels => labels
  | fuel + 1, labels => joinWalls walls fuel (walls.foldl joinWall labels)

/-- The lead of each section's component: a chain of walls joins at most sixteen sections, so sixteen passes
carry the lowest number along it (R17, R18). -/
def State.components (s : State) : Vector SectionNo 16 :=
  joinWalls s.walls.toList 16 (Vector.ofFn (fun i => i))

/-! ## The composition change (R19) -/

/-- The sections of a component, by its lead. -/
def newMembers (new : Vector SectionNo 16) (l : SectionNo) : List SectionNo :=
  allSections.filter (fun sec => decide (new[sec] = l))

/-- The new rooms a change forms: components that were no room before (R19). -/
def State.newRooms (s : State) (new : Vector SectionNo 16) : List SectionNo :=
  allSections.filter (fun l => decide (new[l] = l) && decide (newMembers new l ≠ s.members l))

/-- The old rooms a change touches: rooms whose members form no one new room (R19). -/
def State.touchedRooms (s : State) (new : Vector SectionNo 16) : List SectionNo :=
  s.leads.filter (fun l => decide (newMembers new l ≠ s.members l))

/-- The old rooms a new room draws from, by lead (R19). -/
def State.drawsFrom (old : State) (members : List SectionNo) : List SectionNo :=
  allSections.filter (fun o => members.any (fun sec => decide (old.roomOf sec = o)))

/-- The new rooms an old room's sections went to, by lead (R19). -/
def State.wentTo (old : State) (new : Vector SectionNo 16) (o : SectionNo) : List SectionNo :=
  allSections.filter (fun l => (old.members o).any (fun sec => decide (new[sec] = l)))

/-- The principal old room of a new room: the lowest old lead whose section the new room holds (R103, R127). -/
def principalOf (members drawn : List SectionNo) : Option SectionNo :=
  drawn.find? (fun o => decide (o ∈ members))

/-- The reconciliation reason of a new room (R98). -/
def reconcileReason (drawn : List SectionNo) : Reason :=
  match drawn with
  | _ :: _ :: _ => .merge
  | _ => .division

/-- The room table and the room fields take the new rooms: entries of ceased leads go out of use, entries of
new rooms start afresh with a clear frozen flag (R19). -/
def State.reformRooms (s : State) (new : Vector SectionNo 16) : State :=
  let fresh := s.newRooms new
  let s1 := s.setSections (vmapIdx s.sections (fun i x => { x with room := new[i] }))
  s1.setRooms (vmapIdx s.rooms (fun l r => if new[l] ≠ l ∨ l ∈ fresh then {} else r))

/-- The room notices of a change: ROOM_DIVIDED by old lead, then ROOM_MERGED by new lead (R21). -/
def State.roomNotices (old : State) (new : Vector SectionNo 16) : List Notice :=
  (old.touchedRooms new).filterMap (fun o =>
    match old.wentTo new o with
    | a :: b :: rest => some ⟨some o, none, .roomDivided (a :: b :: rest)⟩
    | _ => none)
  ++ (old.newRooms new).filterMap (fun l =>
    match old.drawsFrom (newMembers new l) with
    | a :: b :: rest => some ⟨some l, none, .roomMerged (a :: b :: rest)⟩
    | _ => none)

/-! ## The Floor Manager's part (R95 to R104) -/

/-- The holding set carried into a new room: the chairs of the old rooms' sets whose sections lie in it, by
old lead (R99). -/
def State.carriedChairs (s old : State) (l : SectionNo) (drawn : List SectionNo) : List Nat :=
  drawn.flatMap (fun o => ((old.rooms[o]).holding).filter (s.seatIn l))

/-- The hold action carried into a new room: that of the contributing old room of lowest lead (R99). -/
def State.carriedAction (s old : State) (l : SectionNo) (drawn : List SectionNo) : Option PriorityAction :=
  (drawn.find? (fun o => ((old.rooms[o]).holding).any (s.seatIn l))).bind old.hold

/-- Step 2 for one speaker: the hold it stood under and the hold it stands under (R100). -/
def Ev.reconcileHold (old : State) (newHold : Option PriorityAction) (e : Ev) (n : Nat) : Ev :=
  let oldHold := ((old.seatRoom n).bind old.hold)
  match oldHold, newHold with
  | some .closeAll, some .closeAll => e
  | _, some .closeAll => Ev.close .priority e n
  | some .muteWhileHeld, some .muteWhileHeld => e
  | _, some .muteWhileHeld => e.place n
  | some .muteWhileHeld, none => e.place n
  | _, none => e

/-- Step 2: the holding set and hold action are established and their effects applied (R99, R100). -/
def Ev.reconcileHolds (e : Ev) (old : State) (l : SectionNo) (drawn : List SectionNo) : Ev :=
  let holding := e.st.carriedChairs old l drawn
  let action := if holding = [] then none else e.st.carriedAction old l drawn
  let e1 := e.on (fun s => s.modRoom l (fun r => { r with holding := holding, holdAction := action }))
  ((e1.st.roomSpeakers l).map (fun x => x.seat)).foldl (Ev.reconcileHold old action) e1

/-- Step 5: the floor language and pin of a new room (R103). -/
def State.reconcileLanguage (s old : State) (l : SectionNo) (principal : Option SectionNo) : State :=
  match principal with
  | some o => s.modRoom l (fun r =>
      { r with floorLanguage := (old.rooms[o]).floorLanguage, pin := (old.rooms[o]).pin })
  | none => s.modRoom l (fun r =>
      { r with floorLanguage := s.languageCounts (s.settings l).defaultLanguage, pin := false })

/-- The Floor Manager takes one new room completely (R95). -/
def Ev.reconcileFloor (old : State) (e : Ev) (l : SectionNo) : Ev :=
  let members := e.st.members l
  let drawn := old.drawsFrom members
  let reason := reconcileReason drawn
  let e1 := e.reconcileHolds old l drawn
  let e2 := e1.applySpeakerLimit l reason
  let e3 := e2.applyQueueLimit l reason
  let e4 := e3.on (fun s => s.reconcileLanguage old l (principalOf members drawn))
  e4.autoAdvance l

/-! ## The Interpretation Manager's part (R126, R127) -/

/-- The booth of a group kept LIVE (R127). -/
def keptBooth (old : State) (principal : Option SectionNo) (live : List (Nat × Booth)) : Option Nat :=
  match live.filter (fun c => decide (some (old.roomOf c.2.home) = principal)) with
  | [c] => some c.1
  | _ => live.head?.map Prod.fst

/-- The LIVE desks of a room that its new language groups no longer allow, in booth number order (R127). -/
def State.conflictDesks (s old : State) (l : SectionNo) (principal : Option SectionNo) : List Nat :=
  (s.boothsOf l).filterMap (fun c =>
    let live := (s.group l c.2.output).filter (fun g => g.2.live.isSome)
    match live with
    | _ :: _ :: _ => if keptBooth old principal live = some c.1 then none else c.2.live
    | _ => none)

/-- The desks of a room's booths, in booth and desk-list order. -/
def State.roomDesks (s : State) (l : SectionNo) : List Nat := (s.boothsOf l).flatMap (fun c => c.2.desks)

/-- The Interpretation Manager takes one new room completely (R126). The desks whose indicators changed are placed
after it in booth and desk-list order, behind those that step 1 placed (R120; DESIGN CHOICE, assumption log 10). -/
def Ev.reconcileBooths (old : State) (e : Ev) (l : SectionNo) : Ev :=
  let members := e.st.members l
  let principal := principalOf members (old.drawsFrom members)
  let off := e.st.conflictDesks old l principal
  let e1 := off.foldl (fun e n => e.deskOff n .merge) e
  let e2 := e1.on (fun s => s.modRoom l (fun r => { r with channels := channelList [] (s.roomLanguages l) }))
  let e3 := e2.recompute l
  e3.on (fun s => s.placeChanged old (s.roomDesks l))

/-! ## The whole change (R20) -/

/-- The Carrier Allocator takes one new room (R140). -/
def Ev.reconcileCarriers (old : State) (e : Ev) (l : SectionNo) : Ev :=
  let members := e.st.members l
  let drawn := old.drawsFrom members
  e.on (fun s => s.reconcileCarriers old drawn (principalOf members drawn) l (reconcileReason drawn))

/-- A composition change is taken whole: room table and notices, the Floor Manager, the Interpretation
Manager, the Carrier Allocator; the new rooms then join the programme list and are handed to the Level Engine
(R19, R20, R95, R126, R139, R140). -/
def Ev.compositionChange (e : Ev) (new : Vector SectionNo 16) : Ev :=
  let old := e.st
  let fresh := old.newRooms new
  let e1 := e.on (fun s => (old.roomNotices new).foldl State.notify (s.reformRooms new))
  let e2 := fresh.foldl (Ev.reconcileFloor old) e1
  let e3 := fresh.foldl (Ev.reconcileBooths old) { e2 with advance := [], listens := [] }
  let e4 := fresh.foldl (Ev.reconcileCarriers old) { e3 with listens := [] }
  fresh.foldl Ev.handRoom (fresh.foldl Ev.markZones e4)

/-- Room composition is recomputed; a change is issued where a component differs from the rooms (R18). -/
def Ev.recompose (e : Ev) : Ev :=
  let new := e.st.components
  if (allSections.all (fun sec => decide (new[sec] = e.st.roomOf sec))) then e else e.compositionChange new

/-! ## Evaluations and their reports (R11, R15, R16) -/

/-- The WALL notice of a change of effective state, where its report enable is on; it names the room the
recomputation gives the lower-numbered section (R16). -/
def State.wallNotice (s : State) (w : WallNo) : Option Notice :=
  let x := s.walls[w]
  if (if x.effective then x.setup.reportOpening else x.setup.reportClosing) then
    some ⟨x.setup.pair.map (fun p => (s.components)[p.1]), none, .wall w x.effective s.openWalls⟩
  else none

/-- The walls of a list whose effective state differs from before are reported in wall order, and rooms are
recomputed once (R15, R16, R18). -/
def Ev.reportWalls (e : Ev) (before : State) (ws : List WallNo) : Ev :=
  let changed := ws.filter (fun w => decide ((before.walls[w]).effective ≠ (e.st.walls[w]).effective))
  match changed with
  | [] => e
  | _ =>
    let s := e.st
    ((changed.filterMap s.wallNotice).foldl Ev.notify e).recompose

/-- A wall is evaluated, its change reported and followed by recomputation (R11). -/
def Ev.evaluateWall (e : Ev) (w : WallNo) : Ev :=
  (e.on (fun s => s.modWall w s.evaluated)).reportWalls e.st [w]

/-- The walls a THAW of a room evaluates: those with a section in it, and those pending (R15). -/
def State.thawWalls (s : State) (l : SectionNo) : List WallNo :=
  allWalls.filter (fun w =>
    let x := s.walls[w]
    x.pendingFlag || (match x.setup.pair with
      | some (a, b) => decide (s.roomOf a = l) || decide (s.roomOf b = l)
      | none => false))

/-- The walls of a THAW are released together, then reported (R15). -/
def Ev.releaseWalls (e : Ev) (ws : List WallNo) : Ev :=
  (e.on (fun s => ws.foldl (fun s w => s.modWall w s.evaluated) s)).reportWalls e.st ws

end Sys2Proof.Machine
end

