-- ==== Sys2Proof/Machine/TrunkOps.lean ====
section
/-! DEFINITION. The Trunk Controllers (chapter 2): scan rounds and gaps, presence, bindings and releases, key
events, roll calls, unit accesses, the end of scanning. -/

namespace Sys2Proof.Machine
open Sys2Proof

/-! ## Scan rounds (R29 to R31) -/

/-- The addresses a scan round polls: every bound PRESENT seat, and every ABSENT one at round counter 0
(R30). -/
def State.roundList (s : State) (t : TrunkNo) : List Nat :=
  ((s.bound t).filter (fun p => s.isPresent p.2 || decide ((s.trunks[t]).roundCounter = 0))).map Prod.fst

/-- A scan round begins: its list is fixed, and a round that polls no unit consists of a single gap (R30). -/
def State.beginRound (s : State) (t : TrunkNo) : State :=
  match s.roundList t with
  | [] => s.modTrunk t (fun u => { u with toPoll := [], hadGap := true, line := .gap .release })
  | a :: rest => s.modTrunk t (fun u => { u with toPoll := a :: rest, hadGap := false, line := .poll })

/-- The counter advances at the end of a round, from 15 back to 0 (R30). -/
def nextCounter (n : RoundCount) : RoundCount := if n = 15 then 0 else n + 1

/-- A scan round ends; a roll call round is due if a roll call is RUNNING, else the next round begins (R30). -/
def State.endRound (s : State) (t : TrunkNo) : State :=
  let s1 := s.modTrunk t (fun u => { u with roundCounter := nextCounter u.roundCounter, toPoll := [] })
  if (s.trunks[t]).rollCall.isSome then s1.modTrunk t (fun u => { u with line := .roundDue })
  else s1.beginRound t

/-- What the trunk's gap still has to send from a stage on (R31). -/
def Trunk.offer (u : Trunk) : GapStage → Option GapStage
  | .release =>
    if u.releases ≠ [] then some .release
    else
      match u.access with
      | .waiting _ => some .access
      | _ => if u.indicators ≠ [] then some .indicator else none
  | .access =>
    match u.access with
    | .waiting _ => some .access
    | _ => if u.indicators ≠ [] then some .indicator else none
  | .indicator => if u.indicators ≠ [] then some .indicator else none

/-- The trunk rests: it stands in the single gap of a round with nothing to send, no seat is bound and no roll call waits
(DESIGN CHOICE, assumption log 9). -/
def State.resting (s : State) (t : TrunkNo) : Bool :=
  let u := s.trunks[t]
  match u.line with
  | .gap .release =>
    (u.offer .release).isNone && decide (u.toPoll = []) && decide (s.bound t = []) && u.rollCall.isNone
  | _ => false

/-- The trunk's next move where nothing has to be sent before it: a gap with nothing to send ends, an address
released meanwhile is skipped, a round without addresses left ends, after a single gap where it has polled no
unit (R30, R31). None: it stays where it is, as it does where it rests (DESIGN CHOICE, assumption log 9). -/
def State.advanceLine (s : State) (t : TrunkNo) : Option State :=
  let u := s.trunks[t]
  match u.line with
  | .gap stage =>
    match u.offer stage with
    | some _ => none
    | none =>
      if s.resting t then none
      else some (s.modTrunk t (fun u => { u with hadGap := true, line := .poll }))
  | .poll =>
    match u.toPoll with
    | a :: rest =>
      if (s.seatAt t a).isSome then none else some (s.modTrunk t (fun u => { u with toPoll := rest }))
    | [] =>
      if u.hadGap then some (s.endRound t)
      else some (s.modTrunk t (fun u => { u with hadGap := true, line := .gap .release }))
  | _ => none

/-- The trunk is brought to its next exchange, in at most `fuel` moves. -/
def State.settleBy (t : TrunkNo) : Nat → State → State
  | 0, s => s
  | fuel + 1, s =>
    match s.advanceLine t with
    | none => s
    | some s1 => State.settleBy t fuel s1

/-- A trunk that has come to rest is marked: from now on rounds go by uncounted (DESIGN CHOICE, assumption log 9). -/
def State.markRest (s : State) (t : TrunkNo) : State :=
  if s.resting t then s.modTrunk t (fun u => { u with rested := true }) else s

/-- The trunk is brought to its next exchange, or to rest: at most the addresses of its round to skip, and sixteen rounds
with no unit to poll, each a gap and an end (R30, R31). -/
def State.settle (s : State) (t : TrunkNo) : State :=
  (State.settleBy t ((s.trunks[t]).toPoll.length + 64) s).markRest t

/-- Scanning begins on a trunk (R29). -/
def State.startScan (s : State) (t : TrunkNo) : State :=
  let s1 := if (s.trunks[t]).releaseAll then s.sendTrunk t [0x04, 0xFF] else s
  let s2 := s1.modTrunk t (fun u => { u with releaseAll := false, roundCounter := 0, rested := false })
  let s3 := s2.placeAll ((s2.bound t).map Prod.snd)
  (s3.beginRound t).settle t

/-- The poll's or gap exchange's end: the gap goes on from a stage (R30, R31). -/
def State.enterGap (s : State) (t : TrunkNo) (stage : GapStage) : State :=
  (s.modTrunk t (fun u => { u with hadGap := true, line := .gap stage })).settle t

/-! ## Presence (R33, R34) -/

/-- A UNIT_LOST or UNIT_FOUND notice names the seat and the room that contains its section (R33, R34, R117). -/
def State.unitNotice (s : State) (n : Nat) (d : Detail) : Notice := ⟨s.seatRoom n, some n, d⟩

/-- A unit is declared ABSENT and its loss handed to its manager (R33). -/
def Ev.unitLost (e : Ev) (n : Nat) : Ev :=
  match e.st.seats.get n with
  | none => e
  | some x =>
    match x.binding with
    | none => e
    | some (t, a) =>
      let e1 := (e.on (fun s => s.modSeat n (fun y => { y with present := false, misses := 3 }))).notify
        (e.st.unitNotice n (.unitLost t a))
      match x.kind with
      | .desk => e1.deskOffIfLive n .unitLost
      | _ => e1.floorLoss n x

/-- A miss on a PRESENT seat: the third declares the unit ABSENT; an ABSENT seat's miss count stays (R32,
R33). -/
def Ev.miss (e : Ev) (n : Nat) (x : Seat) : Ev :=
  if x.present then
    if x.misses + 1 < 3 then e.on (fun s => s.modSeat n (fun y => { y with misses := x.misses + 1 }))
    else e.unitLost n
  else e

/-- A valid reply from an ABSENT seat makes the unit PRESENT (R34). -/
def Ev.unitFound (e : Ev) (t : TrunkNo) (a n : Nat) : Ev :=
  ((e.on (fun s => s.modSeat n (fun y =>
      { y with present := true, misses := 0, keyMark := .none }))).notify
    (e.st.unitNotice n (.unitFound t a))).place n

/-! ## Key events (R35) -/

/-- The keys of a poll reply (R169). -/
inductive Key where
  | mic | next | priorityDown | priorityUp
deriving DecidableEq, Repr

/-- What a valid poll reply carries: its key, and the mark with it (R32, R169). -/
def Key.ofCode (b : Byte) : Option Key :=
  match b.toNat with
  | 1 => some .mic | 2 => some .next | 3 => some .priorityDown | 4 => some .priorityUp | _ => none

/-- A key event handed on according to the kind of the seat and of the key (R35). -/
def Ev.handKey (e : Ev) (n : Nat) (x : Seat) (k : Key) : Ev :=
  match x.kind, k with
  | .delegate, .mic => e.delegateKey n x
  | .delegate, _ => e
  | .chair, .mic => e.chairKey n x
  | .chair, .next => e.chairNext n x
  | .chair, .priorityDown => e.priorityDown n x
  | .chair, .priorityUp => e.priorityUp n x
  | .desk, .mic => e.deskKey n x
  | .desk, _ => e

/-- A key event of a valid reply: a mark already held is a repeat and is discarded (R35). -/
def Ev.keyEvent (e : Ev) (n : Nat) (k : Key) (mark : KeyMark) : Ev :=
  match e.st.seats.get n with
  | none => e
  | some x =>
    if x.keyMark = mark then e
    else (e.on (fun s => s.modSeat n (fun y => { y with keyMark := mark }))).handKey n x k

/-- A poll reply's contents: valid or not, and the key event of a valid one. A key code above 4, or a key
with a mark other than 0 and 1, fails the check (R32). -/
def pollContents (a : Nat) (bytes : List Byte) : Option (Option (Key × KeyMark)) :=
  if checkPasses 0x81 5 bytes && decide ((bytes.getD 1 0).toNat = a) then
    let key := bytes.getD 2 0
    let mark := bytes.getD 3 0
    if key = 0 then some none
    else
      match Key.ofCode key, mark.toNat with
      | some k, 0 => some (some (k, .zero))
      | some k, 1 => some (some (k, .one))
      | _, _ => none
  else none

/-- A valid poll reply of a bound seat (R32, R34). -/
def Ev.pollValid (e : Ev) (t : TrunkNo) (a n : Nat) (x : Seat) (key : Option (Key × KeyMark)) : Ev :=
  let e1 :=
    if x.present then e.on (fun s => s.modSeat n (fun y => { y with misses := 0 }))
    else e.unitFound t a n
  match key with
  | some (k, m) => e1.keyEvent n k m
  | none => e1

/-! ## Bindings (R28, R41, R42) -/

/-- An address joins the release list at its tail, without duplicates (R28). -/
def Trunk.placeRelease (u : Trunk) (a : Nat) : Trunk := { u with releases := joinTail u.releases a }

/-- A seat's binding is released (R28). -/
def State.releaseBinding (s : State) (n : Nat) : State :=
  match (s.seats.get n).bind (fun x => x.binding) with
  | none => s
  | some (t, a) =>
    (s.modTrunk t (fun u =>
        { u.placeRelease a with indicators := u.indicators.filter (fun m => decide (m ≠ n)) })).modSeat n
      (fun y => { y with binding := none, present := false, misses := 0, keyMark := .none })

/-- One more found, or refused, in the trunk's roll call. -/
def State.countFound (s : State) (t : TrunkNo) : State :=
  s.modTrunk t (fun u => { u with rollCall := u.rollCall.map (fun r => { r with found := r.found + 1 }) })

def State.countRefused (s : State) (t : TrunkNo) : State :=
  s.modTrunk t (fun u => { u with rollCall := u.rollCall.map (fun r => { r with refused := r.refused + 1 }) })

/-- An assignment frame; address 0 is a refusal (R41, R169; byte order assumption log 15). -/
def State.assign (s : State) (t : TrunkNo) (serial : Word) (a : Nat) : State :=
  s.sendTrunk t ([0x07, 0xFF] ++ bytes4 serial.toNat ++ [byte a])

/-- A unit is refused (R41). -/
def Ev.refuseUnit (e : Ev) (t : TrunkNo) (serial : Word) : Ev :=
  e.on (fun s => (s.assign t serial 0).countRefused t)

/-- A seat is bound to an address (R41). -/
def Ev.bind (e : Ev) (t : TrunkNo) (a n : Nat) (serial : Word) : Ev :=
  let s1 := e.st.modSeat n (fun y =>
    { y with binding := some (t, a), present := true, misses := 0, keyMark := .none })
  let e1 := (e.on (fun _ => (s1.placeIndicator n).notify (s1.unitNotice n (.unitFound t a))))
  e1.on (fun s => (s.assign t serial a).countFound t)

/-- The in-use seat that holds a serial. -/
def State.serialSeat (s : State) (serial : Word) : Option (Nat × Seat) :=
  s.seats.cells.find? (fun c => decide (c.2.serial = some serial))

/-- The lowest-numbered free seat record (R41). -/
def State.freeSeat (s : State) : Option Nat := (List.range 1024).find? (fun n => (s.seats.get n).isNone)

/-- The record a roll call creates (R41). -/
def rollCallSeat (kind : Kind) (serial : Word) (sec : SectionNo) : Seat where
  kind := kind
  seatClass := .ordinary
  section_ := sec
  language := 0
  micTrim := none
  speakerTrim := none
  booth := none
  neighbours := []
  lock := false
  mark := false
  serial := some serial
  binding := none
  present := false
  misses := 0
  keyMark := .none

/-- A SINGLE whose serial no in-use seat holds: a record is created and bound, or the unit refused (R41,
point 3). -/
def Ev.newUnit (e : Ev) (t : TrunkNo) (serial : Word) (kind : Option Kind) : Ev :=
  match kind, e.st.freeSeat, e.st.lowestFree t with
  | some k, some n, some a =>
    let x := rollCallSeat k serial (e.st.trunks[t]).defaultSection
    (((e.on (fun s => s.setSeats (s.seats.put n x))).handSeat n).handSeatRoom n).bind t a n serial
  | _, _, _ => e.refuseUnit t serial

/-- A SINGLE whose serial an unbound seat holds (R41, point 2). -/
def Ev.knownUnit (e : Ev) (t : TrunkNo) (serial : Word) (kind : Option Kind) (n : Nat) (x : Seat) : Ev :=
  match decide (kind = some x.kind), e.st.lowestFree t with
  | true, some a => e.bind t a n serial
  | _, _ => e.refuseUnit t serial

/-- A SINGLE of a seat bound on this trunk: the seat keeps its address (R42). -/
def Ev.readdress (e : Ev) (t : TrunkNo) (serial : Word) (a n : Nat) (x : Seat) : Ev :=
  let e1 := (e.on (fun s => s.modSeat n (fun y =>
    { y with present := true, misses := 0, keyMark := .none }))).place n
  let e2 := if x.present then e1 else e1.notify (e.st.unitNotice n (.unitFound t a))
  e2.on (fun s => (s.assign t serial a).countFound t)

/-- A SINGLE of a seat bound on another trunk: it is rebound here where an address is free (R42). -/
def Ev.rebind (e : Ev) (t : TrunkNo) (serial : Word) (n : Nat) (x : Seat) : Ev :=
  match e.st.lowestFree t with
  | none => e.refuseUnit t serial
  | some a =>
    let e1 := if x.present then e.unitLost n else e
    (e1.on (fun s => s.releaseBinding n)).bind t a n serial

/-- A SINGLE whose serial a bound seat holds (R42). -/
def Ev.boundUnit (e : Ev) (t : TrunkNo) (serial : Word) (kind : Option Kind) (n : Nat) (x : Seat)
    (u : TrunkNo) (a : Nat) : Ev :=
  if kind = some x.kind then
    if u = t then e.readdress t serial a n x else e.rebind t serial n x
  else e.refuseUnit t serial

/-- A SINGLE is resolved against the seat table at the moment it is heard (R41). -/
def Ev.single (e : Ev) (t : TrunkNo) (serial : Word) (kind : Option Kind) : Ev :=
  match e.st.serialSeat serial with
  | none => e.newUnit t serial kind
  | some (n, x) =>
    match x.binding with
    | some (u, a) => e.boundUnit t serial kind n x u a
    | none => e.knownUnit t serial kind n x

/-! ## Roll call rounds (R40, R43) -/

/-- The adjustment of Q at a round's end (R43). -/
def adjustQ (q singles collisions : Nat) : Nat :=
  let n := 2 ^ q
  if n < 2 * collisions then min 8 (q + 1)
  else if collisions = 0 ∧ n < 2 * (n - collisions - singles) then q - 1
  else q

/-- The ROLLCALL_DONE notice (R43, R44). -/
def rollcallNotice (t : TrunkNo) (r : RollCall) (mark : Reason) : Notice :=
  ⟨none, none, .rollcallDone t r.found r.refused r.round r.q mark⟩

/-- The roll call after a round of which the counts are taken (R43). -/
def RollCall.afterRound (r : RollCall) : RollCall :=
  { r with
    q := adjustQ r.q r.singles r.collisions
    emptyRun := if r.singles = 0 ∧ r.collisions = 0 then r.emptyRun + 1 else 0
    round := r.round + 1
    singles := 0
    collisions := 0 }

/-- The end mark of a roll call that ends after a round (R43). -/
def RollCall.endMark (r : RollCall) : Option Reason :=
  if r.emptyRun = r.emptyToEnd then some .ended else if r.round = 64 then some .roundLimit else none

/-- The end of a roll call round; the next scan round begins after it (R30, R43). -/
def State.endRollRound (s : State) (t : TrunkNo) : State :=
  match (s.trunks[t]).rollCall with
  | none => s
  | some r =>
    let r1 := r.afterRound
    let s1 :=
      match r1.endMark with
      | some mark => (s.modTrunk t (fun u => { u with rollCall := none })).notify (rollcallNotice t r1 mark)
      | none => s.modTrunk t (fun u => { u with rollCall := some r1 })
    (s1.beginRound t).settle t

/-- A slot's exchange ends: the next slot is due, or the round ends after its last slot (R40). -/
def State.endSlot (s : State) (t : TrunkNo) (slot : Nat) : State :=
  match (s.trunks[t]).rollCall with
  | none => s
  | some r =>
    if slot + 1 < 2 ^ r.q then s.modTrunk t (fun u => { u with line := .slotDue (slot + 1) })
    else s.endRollRound t

/-- A slot reply's contents: the serial and the kind of a SINGLE; none is a COLLISION (R40, R169; byte order
assumption log 15). -/
def slotContents (bytes : List Byte) : Option (Word × Option Kind) :=
  if checkPasses 0x86 7 bytes then
    some (word (bytes.getD 1 0) (bytes.getD 2 0) (bytes.getD 3 0) (bytes.getD 4 0),
      Kind.ofCode (bytes.getD 5 0))
  else none

/-- A single, or a collision, counted in the round. -/
def State.countSlot (s : State) (t : TrunkNo) (single : Bool) : State :=
  s.modTrunk t (fun u => { u with rollCall := u.rollCall.map (fun r =>
    if single then { r with singles := r.singles + 1 } else { r with collisions := r.collisions + 1 }) })

/-! ## Unit accesses (R46, R47) -/

/-- The UNIT_ACCESS_DONE notice names the seat bound at the address at completion (R46). -/
def State.accessNotice (s : State) (t : TrunkNo) (r : AccessRequest) (status : AccessStatus) (value : Half) :
    Notice :=
  match s.seatAt t r.address with
  | some n => ⟨s.seatRoom n, some n, .unitAccessDone t r status value⟩
  | none => ⟨none, none, .unitAccessDone t r status value⟩

/-- An access completes: the state becomes IDLE and the notice is generated (R46). -/
def State.completeAccess (s : State) (t : TrunkNo) (r : AccessRequest) (status : AccessStatus) (value : Half) :
    State :=
  (s.modTrunk t (fun u => { u with access := .idle })).notify (s.accessNotice t r status value)

/-- An access reply's value, where its check passes and it carries the access's address and parameter (R46; byte
order assumption log 15). -/
def accessContents (r : AccessRequest) (bytes : List Byte) : Option Half :=
  if checkPasses 0x88 6 bytes && decide ((bytes.getD 1 0).toNat = r.address)
      && decide ((bytes.getD 2 0).toNat = r.parameter) then
    some (half (bytes.getD 3 0) (bytes.getD 4 0))
  else none

/-! ## The end of scanning (R25, R48) -/

/-- A release frame still on the line counts as not sent: its address returns to the head of the release list
(R28). Whether it is still there is an open value (DESIGN CHOICE, assumption log 3). -/
def State.cutRelease (s : State) (t : TrunkNo) : State :=
  match (s.trunks[t]).releasing with
  | none => s
  | some a =>
    if Config.openCut s.free t.val then
      s.modTrunk t (fun u =>
        { u with releasing := none, releases := a :: u.releases.filter (fun b => decide (b ≠ a)) })
    else s.modTrunk t (fun u => { u with releasing := none })

/-- A RUNNING roll call ends with ABORTED (R44). -/
def State.abortRollCall (s : State) (t : TrunkNo) : State :=
  match (s.trunks[t]).rollCall with
  | none => s
  | some r => (s.modTrunk t (fun u => { u with rollCall := none })).notify (rollcallNotice t r .aborted)

/-- A unit access in hand completes with ABORTED (R47). -/
def State.abortAccess (s : State) (t : TrunkNo) : State :=
  match (s.trunks[t]).access with
  | .idle => s
  | .waiting r => s.completeAccess t r .aborted 0
  | .sent r => s.completeAccess t r .aborted 0

/-- The exchange in progress is abandoned, scanning ends, the roll call and then the access are aborted (R25,
R48). -/
def State.endScan (s : State) (t : TrunkNo) : State :=
  let s1 := (s.cutRelease t).modTrunk t (fun u => { u with line := .idle, toPoll := [], sending := false })
  (s1.abortRollCall t).abortAccess t

/-- The trunk's indicator list is emptied (R36). -/
def State.emptyIndicators (s : State) (t : TrunkNo) : State :=
  s.modTrunk t (fun u => { u with indicators := [] })

/-- A trunk's part of STOP (R48). -/
def State.stopTrunk (s : State) (t : TrunkNo) : State := (s.endScan t).emptyIndicators t

end Sys2Proof.Machine
end

