-- ==== Sys2Proof/Machine/Clock.lean ====
section
/-! DEFINITION. Time: one millisecond in which no command waits. The controller's clock drives the debounce
intervals (R7, R8), the speech timers (R81) and the reply windows (R32); what falls due is a command of the
table and is put in the queue (DESIGN CHOICE, assumption log 1). -/

namespace Sys2Proof.Machine
open Sys2Proof

/-- A speech timer one millisecond on: its remaining value falls by one at each whole second (R81). A timer
that has reached 0 waits for its expiry to be taken. -/
def Timer.tick (t : Timer) : Timer :=
  if t.remaining = 0 then t
  else if t.millis + 1 < 1000 then { t with millis := t.millis + 1 }
  else { t with remaining := t.remaining - 1, millis := 0 }

/-- A speaker one millisecond on. -/
def Speaker.tick (x : Speaker) : Speaker := { x with timer := x.timer.map Timer.tick }

/-- The expiry that falls due for a speaker in this millisecond (R81). -/
def Speaker.due (x : Speaker) : Option Instr :=
  match x.timer with
  | none => none
  | some t =>
    if t.remaining = 1 ∧ t.millis = 999 then
      some (if t.inGrace then .graceExpiry x.seat else .mainExpiry x.seat)
    else none

/-- A wall one millisecond on. -/
def Wall.tick (x : Wall) : Wall := { x with interval := x.interval.map (fun ms => ms - 1) }

/-- The debounce interval of a wall ends in this millisecond. -/
def Wall.due (w : WallNo) (x : Wall) : Option Instr := if x.interval = some 1 then some (.debounceEnd w) else none

/-- A reply window of 400 µs that is open closes within the millisecond (R32). -/
def Trunk.due (t : TrunkNo) (u : Trunk) : Option Instr :=
  match u.line with
  | .polling _ => some (.pollNoReply t)
  | .accessing => some (.accessNoReply t)
  | .slotOpen _ => some (.slotEmpty t)
  | _ => none

/-- What falls due in the millisecond: reply windows by trunk, debounce intervals by wall, expiries in
speaker-list order (DESIGN CHOICE, assumption log 1). -/
def State.due (s : State) : List Instr :=
  allTrunks.filterMap (fun t => (s.trunks[t]).due t)
    ++ allWalls.filterMap (fun w => (s.walls[w]).due w)
    ++ s.speakers.filterMap Speaker.due

/-- The clock one millisecond on: intervals and timers count, a frame on a trunk is complete. -/
def State.countDown (s : State) : State :=
  ((s.setWalls (vmapIdx s.walls (fun _ x => x.tick))).setSpeakers (s.speakers.map Speaker.tick)).setTrunks
    (vmapIdx s.trunks (fun _ u => { u with releasing := none, sending := false }))

/-- One millisecond with no command waiting; while RESET is low nothing runs (R170). -/
def State.tick (s : State) : State := if s.resetLow then s else s.countDown.setPending s.due

end Sys2Proof.Machine
end

