-- ==== Sys2Proof/Machine/Operands.lean ====
section
/-! DEFINITION. The operands of the requests: which seat or room a key names, and the field checks of each
WRITE in the order its rule gives, each field completely before the next, the first refused field giving the
status (R160). -/

namespace Sys2Proof.Machine
open Sys2Proof

/-- A check: the status that refuses, or the value taken. -/
abbrev Checked (α : Type) := Except Status α

/-- A field refused with a status where a condition fails. -/
def refuseUnless (c : Bool) (st : Status) : Checked Unit := if c then .ok () else .error st

/-- A field refused BAD_VALUE outside its values. -/
def valueOf {α : Type} (o : Option α) : Checked α :=
  match o with
  | some x => .ok x
  | none => .error .badValue

/-- An on/off field: 1 is on, 0 off (R168); another byte means an open value (DESIGN CHOICE, assumption log 3). -/
def onOff (free place : Nat) (b : Byte) : Bool :=
  match b.toNat with
  | 0 => false
  | 1 => true
  | _ => Config.openFlag free place

/-! ## Keys -/

/-- The seat number a key names (R51, R64): below 1024 and in use. -/
def State.seatOf (s : State) (key : Half) : Checked (Nat × Seat) :=
  if key.toNat < 1024 then
    match s.seats.get key.toNat with
    | some x => .ok (key.toNat, x)
    | none => .error .noRecord
  else .error .badKey

/-- The room a key names (R64). -/
def State.roomKey (s : State) (key : Half) : Checked SectionNo :=
  match s.leadOf key with
  | some l => .ok l
  | none => .error .badKey

/-- The rooms a key of CLEAR FLOOR or SELECT names: one room, or all in its all form (R68, R90, R168). -/
def State.roomsKey (s : State) (key : Half) : Checked (List SectionNo) :=
  if key = 0xFFFF#16 then .ok s.leads
  else
    match s.leadOf key with
    | some l => .ok [l]
    | none => .error .badKey

/-- A request taken in RUNNING only (R159). -/
def State.needRunning (s : State) : Checked Unit := refuseUnless (decide (s.run = .running)) .wrongState

/-! ## SECTION (R1, R2) -/

/-- The fields of a SECTION write. -/
def State.checkSection (s : State) (f : SectionWrite) : Checked Settings := do
  let mode ← valueOf (FloorMode.ofCode f.floorMode)
  let action ← valueOf (PriorityAction.ofCode f.priorityAction)
  let language := f.defaultLanguage.toNat
  refuseUnless (decide (language ≤ 24)) .badValue
  refuseUnless (decide (language = 0) || s.languageInUse language) .noRecord
  pure
    { floorMode := mode
      speakerLimit := clampNat 1 8 f.speakerLimit.toNat
      queueLimit := clampNat 0 64 f.queueLimit.toNat
      speechLimit := clampNat 0 3600 f.speechLimit.toNat
      grace := clampNat 0 600 f.grace.toNat
      floorMaster := clampInt (-120) 0 f.floorMaster.toInt
      speakerMaster := clampInt (-120) 0 f.speakerMaster.toInt
      micTrim := clampInt (-24) 24 f.micTrim.toInt
      speakerTrim := clampInt (-24) 24 f.speakerTrim.toInt
      duck := clampNat 0 40 f.duck.toNat
      priorityAction := action
      defaultLanguage := language }

/-! ## WALL (R5, R6) -/

/-- The sections field of a WALL write: both bytes 0xFF is UNCONNECTED, else two distinct sections, held lower
first (R5, R168). -/
def wallPair (first second : Byte) : Checked (Option (SectionNo × SectionNo)) :=
  if first = 0xFF#8 ∧ second = 0xFF#8 then .ok none
  else if h : first.toNat < 16 ∧ second.toNat < 16 ∧ first ≠ second then
    let a : SectionNo := ⟨first.toNat, h.1⟩
    let b : SectionNo := ⟨second.toNat, h.2.1⟩
    .ok (some (min a b, max a b))
  else .error .badValue

/-- The fields of a WALL write; the sections of an OPEN wall may not change (R6, R12). -/
def State.checkWall (s : State) (w : WallNo) (f : WallWrite) : Checked WallSetup := do
  let x := s.walls[w]
  let pair ← wallPair f.first f.second
  refuseUnless (decide (pair = x.setup.pair) || !x.effective) .wrongState
  let polarity ← valueOf (Polarity.ofCode f.polarity)
  let debounceClass ← valueOf (DebounceClass.ofCode f.debounceClass)
  let override ← valueOf (Override.ofCode f.override)
  pure
    { pair := pair
      polarity := polarity
      debounceClass := debounceClass
      reportOpening := onOff s.free 4 f.reportOpening
      reportClosing := onOff s.free 5 f.reportClosing
      override := override }

/-! ## SEAT (R27, R50, R51) -/

/-- The seat is active: its kind and section may not change (R51). -/
def State.seatActive (s : State) (n : Nat) (x : Seat) : Bool :=
  (match s.floorState n x with
    | .idle => false
    | .off => false
    | _ => true)
  || (s.rooms[s.roomOf x.section_]).holding.any (fun c => c == n)

/-- An optional trim; 0x80 is absent, any other byte is clamped (R50, R168). -/
def trimOf (b : Byte) : Option Int := if b = 0x80#8 then none else some (clampInt (-24) 24 b.toInt)

/-- The neighbour numbers a SEAT write lists; places beyond the count are ignored (R168; DEDUCED, assumption
log 12). -/
def writtenNeighbours (f : SeatWrite) : List Nat :=
  ([f.neighbour0, f.neighbour1, f.neighbour2, f.neighbour3].take f.neighbourCount.toNat).map BitVec.toNat

/-- The serial a SEAT write carries: absent where bit 2 of the flag byte is clear (R168). -/
def writtenSerial (f : SeatWrite) : Option Word := if f.flags.getLsbD 2 then some f.serial else none

/-- The booth field a SEAT write carries; 0xFF is absent (R168). -/
def writtenBooth (f : SeatWrite) : Option Nat := if f.booth = 0xFF#8 then none else some f.booth.toNat

/-- The booth field, range then reference (R51, point 6). -/
def State.checkBoothNamed (s : State) (n : Nat) (kind : Kind) (booth : Option Nat) : Checked Unit :=
  match booth with
  | none => .ok ()
  | some b =>
    if kind = .desk ∧ b ≤ 15 then
      match s.booths.get b with
      | none => .error .noRecord
      | some y => refuseUnless (decide ((y.desks.filter (fun d => decide (d ≠ n))).length < 3)) .full
    else .error .badValue

/-- The booth field of a LIVE desk may not change (R51, point 6). -/
def State.checkBoothState (s : State) (n : Nat) (old : Option Seat) (booth : Option Nat) : Checked Unit :=
  match old with
  | some x => refuseUnless (decide (booth = x.booth) || !s.deskLive n x) .wrongState
  | none => .ok ()

/-- The neighbour list, range then reference (R51, point 7). -/
def State.checkNeighbours (s : State) (n : Nat) (f : SeatWrite) : Checked Unit := do
  let ns := writtenNeighbours f
  refuseUnless (decide (f.neighbourCount.toNat ≤ 4)) .badValue
  refuseUnless (ns.all (fun m => decide (m < 1024)) && decide ns.Nodup && decide (n ∉ ns)) .badValue
  refuseUnless (ns.all (fun m => (s.seats.get m).isSome)) .noRecord

/-- The unit serial: no other in-use seat holds it (R27). -/
def State.checkSerialNew (s : State) (n : Nat) (serial : Option Word) : Checked Unit :=
  refuseUnless (decide (serial = none) ||
    s.seats.cells.all (fun c => decide (c.1 = n) || decide (c.2.serial ≠ serial))) .badValue

/-- The unit serial of a bound seat may not change (R27). -/
def checkSerialBound (old : Option Seat) (serial : Option Word) : Checked Unit :=
  match old with
  | some x => refuseUnless (decide (serial = x.serial) || x.binding.isNone) .wrongState
  | none => .ok ()

/-- The fields of a SEAT write in the order of R51; the binding fields and, for a new record, their values at
creation by the host (R26). -/
def State.checkSeat (s : State) (n : Nat) (f : SeatWrite) : Checked Seat := do
  let old := s.seats.get n
  let stays (c : Seat → Bool) : Bool := match old with | some x => c x || !s.seatActive n x | none => true
  let kind ← valueOf (Kind.ofCode f.kind)
  refuseUnless (stays (fun x => decide (x.kind = kind))) .wrongState
  let seatClass ← valueOf (SeatClass.ofCode f.seatClass)
  let section_ ← valueOf (if h : f.section_.toNat < 16 then some (⟨f.section_.toNat, h⟩ : SectionNo) else none)
  refuseUnless (stays (fun x => decide (x.section_ = section_))) .wrongState
  refuseUnless (decide (f.language.toNat ≤ 24)) .badValue
  refuseUnless (decide (f.language.toNat = 0) || s.languageInUse f.language.toNat) .noRecord
  s.checkBoothNamed n kind (writtenBooth f)
  s.checkBoothState n old (writtenBooth f)
  s.checkNeighbours n f
  s.checkSerialNew n (writtenSerial f)
  checkSerialBound old (writtenSerial f)
  pure
    { kind := kind
      seatClass := if kind = .delegate then seatClass else .ordinary
      section_ := section_
      language := f.language.toNat
      micTrim := trimOf f.micTrim
      speakerTrim := trimOf f.speakerTrim
      booth := writtenBooth f
      neighbours := writtenNeighbours f
      lock := f.flags.getLsbD 0
      mark := f.flags.getLsbD 1
      serial := writtenSerial f
      binding := old.bind (fun x => x.binding)
      present := (old.map (fun x => x.present)).getD false
      misses := (old.map (fun x => x.misses)).getD 0
      keyMark := (old.map (fun x => x.keyMark)).getD .none }

/-! ## LANGUAGE (R111) -/

/-- An upper-case letter or a digit (R111). -/
def codeCharacter (b : Byte) : Bool :=
  (decide (0x41 ≤ b.toNat) && decide (b.toNat ≤ 0x5A)) || (decide (0x30 ≤ b.toNat) && decide (b.toNat ≤ 0x39))

/-- The fields of a LANGUAGE write, code first (R111). -/
def checkLanguage (f : LanguageWrite) : Checked Language := do
  refuseUnless (codeCharacter f.code0 && codeCharacter f.code1 && codeCharacter f.code2) .badValue
  let carrier ← valueOf (if f.carrier = 0xFF#8 then some none
    else if h : f.carrier.toNat < 32 then some (some (⟨f.carrier.toNat, h⟩ : CarrierNo)) else none)
  pure { code0 := f.code0, code1 := f.code1, code2 := f.code2, carrier := carrier }

/-- The language number of a key, 1 to 24 (R111). -/
def languageKey (key : Half) : Checked Nat :=
  if 1 ≤ key.toNat ∧ key.toNat ≤ 24 then .ok key.toNat else .error .badKey

/-! ## BOOTH (R113, R114) -/

/-- The source languages a BOOTH write lists; places beyond the count are ignored (R168). -/
def writtenSources (f : BoothWrite) : List Nat :=
  ([f.source0, f.source1, f.source2, f.source3].take f.sourceCount.toNat).map BitVec.toNat

/-- The fields of a BOOTH write in the order of R114; a new record is SILENT with an empty desk list (R113). -/
def State.checkBooth (s : State) (b : Nat) (f : BoothWrite) : Checked Booth := do
  let old := s.booths.get b
  let stays (c : Booth → Bool) : Bool := match old with | some y => c y || y.live.isNone | none => true
  let output := f.output.toNat
  let sources := writtenSources f
  refuseUnless (decide (1 ≤ output) && decide (output ≤ 24)) .badValue
  refuseUnless (s.languageInUse output) .noRecord
  refuseUnless (stays (fun y => decide (y.output = output))) .wrongState
  refuseUnless (decide (1 ≤ f.sourceCount.toNat) && decide (f.sourceCount.toNat ≤ 4)
    && sources.all (fun x => decide (1 ≤ x) && decide (x ≤ 24)) && decide sources.Nodup
    && decide (output ∉ sources)) .badValue
  refuseUnless (sources.all s.languageInUse) .noRecord
  let home ← valueOf (if h : f.home.toNat < 16 then some (⟨f.home.toNat, h⟩ : SectionNo) else none)
  refuseUnless (stays (fun y => decide (y.home = home))) .wrongState
  let takeover ← valueOf (secondOfTwo f.interlock)
  let silence ← valueOf (secondOfTwo f.fill)
  pure
    { output := output
      sources := sources
      home := home
      takeover := takeover
      fillFloor := !silence
      gain := clampInt (-24) 12 f.gain.toInt
      desks := (old.map (fun y => y.desks)).getD []
      live := old.bind (fun y => y.live)
      listen := (old.map (fun y => y.listen)).getD .floor }

/-- The booth number of a key and its record (R114, R116). -/
def State.boothOf (s : State) (key : Half) : Checked (Nat × Booth) :=
  if key.toNat < 16 then
    match s.booths.get key.toNat with
    | some y => .ok (key.toNat, y)
    | none => .error .noRecord
  else .error .badKey

/-! ## SELECTOR, TRUNK (R25, R86, R87) -/

/-- The fields of a SELECTOR write (R86). -/
def State.checkSelector (s : State) (f : SelectorWrite) : Checked Selector := do
  let matchField ← valueOf (MatchField.ofCode f.matchField)
  let target ← valueOf (secondOfTwo f.target)
  let action ← valueOf (SelectAction.ofCode f.action)
  pure
    { enabled := onOff s.free 0 f.enabled
      matchField := matchField
      matchValue := f.matchValue
      matchMask := f.matchMask
      targetMark := target
      action := action }

/-- The fields of a TRUNK write: enabled, default section, start Q, empty rounds to end (R24). -/
def State.checkTrunk (s : State) (f : TrunkWrite) : Checked (Bool × SectionNo × Nat × Nat) := do
  let sec ← valueOf (if h : f.defaultSection.toNat < 16 then some (⟨f.defaultSection.toNat, h⟩ : SectionNo)
    else none)
  pure (onOff s.free 0 f.enabled, sec, clampNat 0 8 f.startQ.toNat, clampNat 1 4 f.emptyRounds.toNat)

end Sys2Proof.Machine
end

