-- ==== Sys2Proof/Machine/Records.lean ====
section
/-! DEFINITION. The records as a READ returns them, byte for byte (R168), and the response header (R157). -/

namespace Sys2Proof.Machine
open Sys2Proof

/-- The bits 1 to 17 of the notice enables (R168). -/
def enableBits : Word := 0x3FFFE#32

/-- The VENUE record, 12 bytes; the enable bits without a kind read as an open value (DESIGN CHOICE, assumption log 3). -/
def State.venueRecord (s : State) : List Byte :=
  let v := s.venue
  let enables := (v.enables &&& enableBits) ||| (Config.openWord s.free &&& ~~~enableBits)
  [byte v.threshold, byte v.hysteresis] ++ bytes4 enables.toNat ++ bytes2 v.mask.toNat
    ++ [flagByte v.global, s.run.code, byte s.notices.queue.length, flagByte s.notices.overflow]

/-- The zone noise field: the carriers whose flag the section holds (R4). -/
def State.zoneNoise (s : State) (sec : SectionNo) : List CarrierNo :=
  allCarriers.filter (fun c => (s.carriers[c]).flags[sec])

/-- The SECTION record, 19 bytes. -/
def State.sectionRecord (s : State) (sec : SectionNo) : List Byte :=
  let x := s.settings sec
  [x.floorMode.code, byte x.speakerLimit, byte x.queueLimit] ++ bytes2 x.speechLimit ++ bytes2 x.grace
    ++ [signedByte x.floorMaster, signedByte x.speakerMaster, signedByte x.micTrim,
      signedByte x.speakerTrim, byte x.duck, x.priorityAction.code, byte x.defaultLanguage,
      byte (s.roomOf sec).val]
    ++ bytes4 (bitSet ((s.zoneNoise sec).map Fin.val) 32)

/-- The WALL record, 11 bytes. -/
def State.wallRecord (s : State) (w : WallNo) : List Byte :=
  let x := s.walls[w]
  (match x.setup.pair with
    | some (a, b) => [byte a.val, byte b.val]
    | none => [0xFF, 0xFF])
    ++ [x.setup.polarity.code, x.setup.debounceClass.code, flagByte x.setup.reportOpening,
      flagByte x.setup.reportClosing, x.setup.override.code, flagByte x.sensed, flagByte x.effective,
      flagByte x.pendingFlag, flagByte x.interval.isSome]

/-- The ROOM record, 8 bytes (R22). -/
def State.roomRecord (s : State) (l : SectionNo) : List Byte :=
  let r := s.rooms[l]
  bytes2 (bitSet ((s.members l).map Fin.val) 16)
    ++ [byte l.val, flagByte r.frozen, flagByte (!r.holding.isEmpty), byte r.floorLanguage,
      flagByte r.pin, byte r.channels.length]

/-- An optional trim; 0x80 is absent. -/
def trimByte : Option Int → Byte
  | some n => signedByte n
  | none => 0x80

/-- The SEAT record, 26 bytes; the spare flag bits read as an open value (DESIGN CHOICE, assumption log 3). -/
def State.seatRecord (s : State) (n : Nat) (x : Seat) : List Byte :=
  let flags : Byte :=
    (if x.lock then 1 else 0) ||| (if x.mark then 2 else 0) ||| (if x.serial.isSome then 4 else 0)
      ||| (Config.openByte s.free &&& 0xF8)
  let place (i : Nat) : List Byte := match x.neighbours[i]? with | some k => bytes2 k | none => [0xFF, 0xFF]
  [x.kind.code, x.seatClass.code, byte x.section_.val, byte x.language, trimByte x.micTrim,
    trimByte x.speakerTrim, (match x.booth with | some b => byte b | none => 0xFF), flags,
    byte x.neighbours.length]
    ++ place 0 ++ place 1 ++ place 2 ++ place 3
    ++ bytes4 (match x.serial with | some k => k.toNat | none => 0)
    ++ (match x.binding with
      | some (t, a) => [byte t.val, byte a]
      | none => [0xFF, 0])
    ++ [flagByte x.present, byte x.misses, (s.floorState n x).code]

/-- The BOOTH record, 23 bytes. -/
def State.boothRecord (s : State) (y : Booth) : List Byte :=
  let place (i : Nat) : List Byte := match y.desks[i]? with | some k => bytes2 k | none => [0xFF, 0xFF]
  [byte y.output, byte y.sources.length] ++ fourLanguages y.sources
    ++ [byte y.home.val, flagByte y.takeover, (if y.fillFloor then 0 else 1), signedByte y.gain,
      byte y.desks.length]
    ++ place 0 ++ place 1 ++ place 2
    ++ (match y.live with
      | some n => [1] ++ bytes2 n
      | none => [0, 0xFF, 0xFF])
    ++ (match y.listen with
      | .floor => [0, 0xFF]
      | .relay b => [1, byte b]
      | .relayMissing => [2, 0xFF])
    ++ [byte (s.boothRoom y).val]

/-- The LANGUAGE record, 4 bytes. -/
def Language.record (x : Language) : List Byte := [x.code0, x.code1, x.code2, carrierByte x.carrier]

/-- The rooms in which a channel stands on the carrier (R130). -/
def State.roomsUsing (s : State) (c : CarrierNo) : List SectionNo := s.leads.filter (fun l => s.heldIn l c)

/-- The CARRIER record, 5 bytes. -/
def State.carrierRecord (s : State) (c : CarrierNo) : List Byte :=
  let x := s.carriers[c]
  [flagByte x.enabled]
    ++ bytes2 (bitSet ((allSections.filter (fun sec => x.flags[sec])).map Fin.val) 16)
    ++ bytes2 (bitSet ((s.roomsUsing c).map Fin.val) 16)

/-- The CHANNELS view (R124, R168). -/
def State.channelsRecord (s : State) (l : SectionNo) : List Byte :=
  let cs := (s.rooms[l]).channels
  byte cs.length :: cs.flatMap (fun h =>
    [byte h.language] ++ (match h.source with
      | .floor => [0, 0xFF]
      | .booth b => [1, byte b]
      | .silence => [2, 0xFF]) ++ [carrierByte h.carrier])

/-- The QUEUE view (R69, R168). -/
def State.queueRecord (s : State) (l : SectionNo) : List Byte :=
  let q := s.queue l
  byte q.length :: q.flatMap (fun r => bytes2 r.seat ++ [flagByte r.priority])

/-- The SPEAKERS view (R69, R79, R168). -/
def State.speakersRecord (s : State) (l : SectionNo) : List Byte :=
  let xs := s.roomSpeakers l
  let cs := s.roomChairs l
  [byte xs.length]
    ++ xs.flatMap (fun x => bytes2 x.seat ++ [x.state.code] ++ (match x.timer with
      | some t => (if t.inGrace then 2 else 1) :: bytes2 t.remaining
      | none => [0, 0, 0]))
    ++ bytes2 cs.length ++ cs.flatMap bytes2

/-- The SELECTOR record, 6 bytes. -/
def Selector.record (x : Selector) : List Byte :=
  [flagByte x.enabled, x.matchField.code, x.matchValue, x.matchMask, flagByte x.targetMark, x.action.code]

/-- The TRUNK record, 17 bytes. -/
def State.trunkRecord (s : State) (t : TrunkNo) : List Byte :=
  let x := s.trunks[t]
  let seats := s.bound t
  [flagByte x.enabled, byte x.defaultSection.val, byte x.startQ, byte x.emptyRounds, flagByte x.scanning]
    ++ (match x.rollCall with
      | some r => [1, byte r.round, byte r.q] ++ bytes2 r.found ++ bytes2 r.refused
      | none => [0, 0, 0, 0, 0, 0, 0])
    ++ [(match x.access with | .idle => 0 | .waiting _ => 1 | .sent _ => 2),
      byte x.indicators.length, byte x.releases.length, byte seats.length,
      byte (seats.filter (fun p => s.isPresent p.2)).length]

/-- The IDENT record: vendor 0x3C71, part 0x2410, silicon revision 1 (R162). -/
def identRecord : List Byte := [0x3C, 0x71, 0x24, 0x10, 1]

/-- The response header as a transfer that begins now shifts it out (R157, R168). -/
def State.header (s : State) (status : Status) (dataLength : Nat) : List Byte :=
  [status.code, s.run.code, byte s.notices.queue.length, flagByte s.notices.overflow] ++ bytes2 dataLength

end Sys2Proof.Machine
end

