-- ==== Sys2Proof/Machine/PortOps.lean ====
section
/-! DEFINITION. The Control Port's transfers (R156, R157, R171): an accepted transfer, a request taken and its
response filled, and what RESET does to every command but its own. -/

namespace Sys2Proof.Machine
open Sys2Proof

/-- A response without record data. -/
def answer (st : Status) : Response := ⟨st, []⟩

/-- What a transfer shifts out that carries a response: the header taken now, then the record data (R157). -/
def State.responseBytes (s : State) (r : Response) : List Byte := s.header r.status r.data.length ++ r.data

/-- A transfer is accepted: READY goes low, the response buffer is shifted out and emptied (R156, R157). -/
def State.acceptTransfer (s : State) : State :=
  s.setPort
    { phase := .taking
      buffer := none
      shift := .bytes (match s.port.buffer with
        | some r => s.responseBytes r
        | none => []) }

/-- The request of an accepted transfer is taken whole; its response fills the buffer and READY goes high
(R156). -/
def State.takeRequest (s : State) (take : State → State × Response) : State :=
  let (s1, r) := take s
  s1.setPort { phase := .free, buffer := some r, shift := s.port.shift }

/-- A transfer carried on while RESET is low, or begun under it, shifts 0xFF and its request is not taken; at
its end the port is deselected (R171). -/
def State.deadTransfer (s : State) : State := s.setPort { s.port with phase := .free, shift := .ones }

/-- A host request. With a transfer accepted, the transfer ends and the request is taken; with the port free,
the whole transfer is made; under RESET, or in a transfer RESET cut off, nothing is taken (R156, R171;
DESIGN CHOICE, assumption log 5). -/
def State.request (s : State) (take : State → State × Response) : State :=
  if s.resetLow then s.deadTransfer
  else
    match s.port.phase with
    | .free => s.acceptTransfer.takeRequest take
    | .taking => s.takeRequest take
    | .inHand => s.takeRequest take
    | .stale => s.deadTransfer

/-- A request whose checks either refuse it with a status and no effect, or take it with its effect. -/
def checked {α : Type} (c : Checked α) (effect : α → State × Response) (s : State) : State × Response :=
  match c with
  | .error st => (s, answer st)
  | .ok x => effect x

/-- An event or send that is taken while RESET is high; under RESET none is (R170). -/
def State.outOfReset (s : State) (f : State → State) : State := if s.resetLow then s else f s

end Sys2Proof.Machine
end

