-- ==== Sys2Proof/Machine/CarrierCommands.lean ====
section
/-! DEFINITION. The commands of the Carrier Allocator (chapter 7): WRITE of a carrier, a noise report, the
sending of a zone programme. -/

namespace Sys2Proof.Machine
open Sys2Proof

/-! ## Usability (R131, R136) -/

/-- The rooms, by lead, in which a carrier is usable in one state and not in another. -/
def State.usableOnlyIn (s t : State) (c : CarrierNo) : List SectionNo :=
  s.leads.filter (fun l => s.usable l c && !t.usable l c)

/-- A carrier record changed: the channels on it hop where it ceased to be usable, then the parked channels are
retried where it became usable, rooms in order of lead (R131, R134, R135). -/
def Ev.usabilityChanged (e : Ev) (before : State) (c : CarrierNo) (cause : Reason) : Ev :=
  let hopped := (before.usableOnlyIn e.st c).foldl (fun e l => e.hop l c cause) e
  (e.st.usableOnlyIn before c).foldl (fun e l => e.retry l .unparked []) hopped

/-- A carrier record is stored and its change taken. -/
def State.storeCarrier (s : State) (c : CarrierNo) (x : Carrier) (cause : Reason) : State :=
  ((s.setCarriers (s.carriers.set c x)).event.usabilityChanged s c cause).finish

/-! ## WRITE (R130, R131) -/

/-- The carrier record of a WRITE. -/
def State.writtenCarrier (s : State) (f : CarrierWrite) : Carrier where
  enabled := onOff s.free 0 f.enabled
  flags := Vector.ofFn (fun i => f.flags.getLsbD i.val)

/-- The cause of the hops of a carrier write (R131). -/
def writeCause (old new : Carrier) : Reason := if old.enabled && !new.enabled then .disabled else .interference

/-- A carrier write (R131). -/
def State.writeCarrier (s : State) (c : CarrierNo) (x : Carrier) : State :=
  (s.storeCarrier c x (writeCause s.carriers[c] x)).spendFree

/-- WRITE_CARRIER (R130). -/
def execWriteCarrier (key : Half) (f : CarrierWrite) (s : State) : Host.Outcome State Fault Refusal :=
  .next (s.request (fun s =>
    match keyBelow 32 key with
    | none => (s, answer .badKey)
    | some c => (s.writeCarrier c (s.writtenCarrier f), answer .ok)))

/-! ## Noise reports (R136) -/

/-- The section, carrier and figure of a noise report; none where its check fails or it names no section or
carrier (R136, R169). -/
def noiseContents (bytes : List Byte) : Option (SectionNo × CarrierNo × Nat) :=
  if checkPasses 0xD0 5 bytes then
    if h : (bytes.getD 1 0).toNat < 16 ∧ (bytes.getD 2 0).toNat < 32 then
      some (⟨(bytes.getD 1 0).toNat, h.1⟩, ⟨(bytes.getD 2 0).toNat, h.2⟩, (bytes.getD 3 0).toNat)
    else none
  else none

/-- The flag a report leaves: set at the threshold or above, cleared below threshold less hysteresis, else as
it was (R136). -/
def Venue.noiseFlag (v : Venue) (flag : Bool) (figure : Nat) : Bool :=
  if v.threshold ≤ figure then true
  else if (figure : Int) < (v.threshold : Int) - (v.hysteresis : Int) then false
  else flag

/-- A valid report; one that leaves its flag as it was has no further effect (R136). -/
def State.takeNoise (s : State) (sec : SectionNo) (c : CarrierNo) (figure : Nat) : State :=
  let x := s.carriers[c]
  let flag := s.venue.noiseFlag x.flags[sec] figure
  if flag = x.flags[sec] then s
  else s.storeCarrier c { x with flags := x.flags.set sec flag } .interference

/-- NOISE_REPORT (R136). -/
def execNoiseReport (bytes : List Byte) (s : State) : Host.Outcome State Fault Refusal :=
  .next (s.outOfReset (fun s =>
    match noiseContents bytes with
    | some (sec, c, figure) => s.takeNoise sec c figure
    | none => s))

/-! ## Zone programmes (R138, R139) -/

/-- The head of the programme list is sent its programme, built from its room as it stands (R139). -/
def State.sendProgramme (s : State) : State :=
  match s.run, s.programmes with
  | .running, sec :: rest => (s.setProgrammes rest).setRadiatorLine (sealFrame (s.zoneProgramme sec))
  | _, _ => s

/-- ZONE_PROGRAMME_SEND (R139). -/
def execZoneProgrammeSend (s : State) : Host.Outcome State Fault Refusal :=
  .next (s.outOfReset State.sendProgramme)

end Sys2Proof.Machine
end

