-- ==== Sys2Proof/Machine/FloorCommands.lean ====
section
/-! DEFINITION. The host's requests on the floor (chapter 3, R64 to R68, R72): GRANT, CLOSE, WITHDRAW,
PROMOTE, NEXT, CLEAR FLOOR, PIN and UNPIN. -/

namespace Sys2Proof.Machine
open Sys2Proof

/-! ## Checks (R64) -/

/-- The checks of a request that names a seat: key, record, run state where the request needs RUNNING, kind
(R64). -/
def State.floorSeat (s : State) (key : Half) (running : Bool) : Checked (Nat × Seat) := do
  let p ← s.seatOf key
  refuseUnless (!running || decide (s.run = .running)) .wrongState
  refuseUnless (decide (p.2.kind ≠ .desk)) .wrongState
  pure p

/-! ## GRANT (R65) -/

/-- The checks of GRANT: those of R64, then the seat present, its microphone shut, and for a delegate its room
below its limit or in REPLACE mode (R65). -/
def State.checkGrant (s : State) (key : Half) : Checked (Nat × Seat) := do
  let p ← s.floorSeat key true
  let l := s.roomOf p.2.section_
  refuseUnless p.2.present .wrongState
  refuseUnless (!s.micOpen p.1) .wrongState
  refuseUnless (decide (p.2.kind = .chair) || s.belowLimit l || decide ((s.settings l).floorMode = .replace)) .full
  pure p

/-- A seat is granted; a delegate in a full REPLACE room after its oldest speaker is closed (R65). -/
def State.grantSeat (s : State) (n : Nat) (x : Seat) : State :=
  match x.kind with
  | .delegate => ((s.event.replaceOldest (s.roomOf x.section_)).grant n .granted).finish
  | _ => (s.event.grant n .granted).finish

/-- GRANT (R65). -/
def execGrant (key : Half) (s : State) : Host.Outcome State Fault Refusal :=
  .next (s.request (fun s => checked (s.checkGrant key) (fun p => (s.grantSeat p.1 p.2, answer .ok)) s))

/-! ## CLOSE, WITHDRAW, PROMOTE (R66) -/

/-- The checks of CLOSE: an open microphone (R66). -/
def State.checkClose (s : State) (key : Half) : Checked Nat := do
  let p ← s.floorSeat key false
  refuseUnless (s.micOpen p.1) .wrongState
  pure p.1

/-- CLOSE (R66). -/
def execClose (key : Half) (s : State) : Host.Outcome State Fault Refusal :=
  .next (s.request (fun s =>
    checked (s.checkClose key) (fun n => ((Ev.close .closed s.event n).finish, answer .ok)) s))

/-- The checks of WITHDRAW and PROMOTE: a WAITING delegate (R66). -/
def State.checkWaiting (s : State) (key : Half) : Checked Nat := do
  let p ← s.floorSeat key false
  refuseUnless (decide (p.2.kind = .delegate) && s.waiting p.1) .wrongState
  pure p.1

/-- WITHDRAW (R66). -/
def execWithdraw (key : Half) (s : State) : Host.Outcome State Fault Refusal :=
  .next (s.request (fun s =>
    checked (s.checkWaiting key) (fun n => ((Ev.withdraw .withdrawn s.event n).finish, answer .ok)) s))

/-- The priority flag of a seat's pool entry is set; the entry keeps its place (R66). -/
def State.promote (s : State) (n : Nat) : State :=
  s.setPool (s.pool.map (fun r => if r.seat = n then { r with priority := true } else r))

/-- PROMOTE (R66). -/
def execPromote (key : Half) (s : State) : Host.Outcome State Fault Refusal :=
  .next (s.request (fun s => checked (s.checkWaiting key) (fun n => (s.promote n, answer .ok)) s))

/-! ## NEXT (R67) -/

/-- A room named in RUNNING (R64). -/
def State.runningRoom (s : State) (key : Half) : Checked SectionNo := do
  let l ← s.roomKey key
  s.needRunning
  pure l

/-- NEXT for a room: a status that refuses it changes nothing (R67). -/
def State.nextRequest (s : State) (l : SectionNo) : State × Response :=
  match s.event.nextIn l with
  | (.ok, e) => (e.finish, answer .ok)
  | (st, _) => (s, answer st)

/-- NEXT (R67). -/
def execNext (key : Half) (s : State) : Host.Outcome State Fault Refusal :=
  .next (s.request (fun s => checked (s.runningRoom key) s.nextRequest s))

/-! ## CLEAR FLOOR (R68) -/

/-- The floors of some rooms are cleared, in order of lead (R68). -/
def State.clearFloors (s : State) (rooms : List SectionNo) : State :=
  (rooms.foldl (Ev.clearRoom .cleared) s.event).finish

/-- CLEAR_FLOOR (R68). -/
def execClearFloor (key : Half) (s : State) : Host.Outcome State Fault Refusal :=
  .next (s.request (fun s => checked (s.roomsKey key) (fun rooms => (s.clearFloors rooms, answer .ok)) s))

/-! ## PIN and UNPIN (R72) -/

/-- The checks of PIN: room, then language (R72). -/
def State.checkPin (s : State) (key : Half) (language : Byte) : Checked SectionNo := do
  let l ← s.roomKey key
  refuseUnless (decide (language.toNat ≤ 24)) .badValue
  refuseUnless (decide (language.toNat = 0) || s.languageInUse language.toNat) .noRecord
  pure l

/-- A room is pinned to a language; a changed floor language is handed on (R72). -/
def State.pinRoom (s : State) (l : SectionNo) (language : Nat) : State :=
  ((s.event.setLanguage l language).on (fun s => s.modRoom l (fun r => { r with pin := true }))).finish

/-- PIN (R72). -/
def execPin (key : Half) (language : Byte) (s : State) : Host.Outcome State Fault Refusal :=
  .next (s.request (fun s =>
    checked (s.checkPin key language) (fun l => (s.pinRoom l language.toNat, answer .ok)) s))

/-- UNPIN (R72). -/
def execUnpin (key : Half) (s : State) : Host.Outcome State Fault Refusal :=
  .next (s.request (fun s =>
    checked (s.roomKey key) (fun l => (s.modRoom l (fun r => { r with pin := false }), answer .ok)) s))

end Sys2Proof.Machine
end

