-- ==== Sys2Proof/WellFormed.lean ====
section
/-! DEFINITION. Which commands a sender can form. A request's key and fields are whatever a frame can
carry, so every request is well formed; an event names a seat of the seat table, and a reply that has
begun holds at least one byte and at most the bytes its type calls for (R32, R169). -/

namespace Sys2Proof

/-- A reply has begun and ends at the latest with the bytes its type calls for (R32). -/
def replyWithin (most : Nat) (bytes : List Byte) : Bool :=
  !bytes.isEmpty && decide (bytes.length ≤ most)

/-- The well-formed commands. -/
def Instr.wf : Instr → Bool
  | .pollReply _ bytes => replyWithin 5 bytes
  | .accessReply _ bytes => replyWithin 6 bytes
  | .slotReply _ bytes => replyWithin 7 bytes
  | .noiseReport bytes => replyWithin 5 bytes
  | .lateReply _ bytes => !bytes.isEmpty
  | .mainExpiry seat => decide (seat < 1024)
  | .graceExpiry seat => decide (seat < 1024)
  | .hardwareReset => true
  | .resetAsserted => true
  | .transferInReset _ => true
  | .notReadyTransfer => true
  | .noOp => true
  | .read _ _ => true
  | .writeVenue _ _ => true
  | .writeSection _ _ => true
  | .writeWall _ _ => true
  | .writeSeat _ _ => true
  | .writeBooth _ _ => true
  | .writeLanguage _ _ => true
  | .writeCarrier _ _ => true
  | .writeSelector _ _ => true
  | .writeTrunk _ _ => true
  | .retireSeat _ => true
  | .retireBooth _ => true
  | .retireLanguage _ => true
  | .start => true
  | .stop => true
  | .freeze _ => true
  | .thaw _ => true
  | .grant _ => true
  | .close _ => true
  | .withdraw _ => true
  | .promote _ => true
  | .next _ => true
  | .clearFloor _ => true
  | .pin _ _ => true
  | .unpin _ => true
  | .extend _ => true
  | .select _ => true
  | .closeMarked _ => true
  | .rollCall _ => true
  | .unitAccess _ _ _ _ _ => true
  | .resend => true
  | .takeNotice => true
  | .clearOverflow => true
  | .rawContactChange _ _ => true
  | .debounceEnd _ => true
  | .pollSend _ => true
  | .pollNoReply _ => true
  | .indicatorSend _ => true
  | .releaseSend _ => true
  | .accessSend _ => true
  | .accessNoReply _ => true
  | .roundStart _ => true
  | .slotSend _ => true
  | .slotEmpty _ => true
  | .zoneProgrammeSend => true
  | .matrixMessageSend => true
  | .transferAccepted => true
  | .badFrameRequest _ => true

end Sys2Proof
end

