-- ==== Sys2Proof/Decode.lean ====
section
/-! DEFINITION. The frames of the control port (R158, R168): a request frame read as the command it spells,
rejecting by BAD_FRAME, and the frame of a request. No row of spec/opcode_table.json gives bits, so no table
word spells a command. -/

namespace Sys2Proof
open Sys2Proof.Machine

/-- The command a table word spells: the table gives its rows no bits, so there is none (DESIGN CHOICE,
assumption log 14). -/
def decodeTableWord (_nbits _w : Nat) : Option Instr := none

/-- The table of a code (R168). -/
def tableOfCode (b : Byte) : Option Table :=
  match b.toNat with
  | 0x01 => some .venue | 0x02 => some .section_ | 0x03 => some .wall | 0x04 => some .room
  | 0x05 => some .seat | 0x06 => some .booth | 0x07 => some .language | 0x08 => some .carrier
  | 0x09 => some .channels | 0x0A => some .queue | 0x0B => some .speakers | 0x0C => some .selector
  | 0x0D => some .trunk | 0x0E => some .ident | _ => none

/-- The code of a table (R168). -/
def tableCode : Table → Byte
  | .venue => 0x01 | .section_ => 0x02 | .wall => 0x03 | .room => 0x04 | .seat => 0x05 | .booth => 0x06
  | .language => 0x07 | .carrier => 0x08 | .channels => 0x09 | .queue => 0x0A | .speakers => 0x0B
  | .selector => 0x0C | .trunk => 0x0D | .ident => 0x0E

/-- The request a WRITE frame spells, from its table code, its key and its field bytes, whose number must be
the length of the table's READ record; a table that has no WRITE spells none (R158, R160, R168). -/
def parseWrite (table : Byte) (key : Half) (fields : List Byte) : Option Instr :=
  match table.toNat, fields with
  | 0x01, [th, hy, e3, e2, e1, e0, m1, m0, g, _, _, _] =>
    some (.writeVenue key ⟨th, hy, word e3 e2 e1 e0, half m1 m0, g⟩)
  | 0x02, [fm, sl, ql, s1, s0, g1, g0, fM, sM, mt, st, du, pa, dl, _, _, _, _, _] =>
    some (.writeSection key ⟨fm, sl, ql, half s1 s0, half g1 g0, fM, sM, mt, st, du, pa, dl⟩)
  | 0x03, [a, b, po, cl, ro, rc, ov, _, _, _, _] => some (.writeWall key ⟨a, b, po, cl, ro, rc, ov⟩)
  | 0x05, [ki, cl, se, la, mt, st, bo, fl, nc, a1, a0, b1, b0, c1, c0, d1, d0, u3, u2, u1, u0, _, _, _, _, _] =>
    some (.writeSeat key ⟨ki, cl, se, la, mt, st, bo, fl, nc, half a1 a0, half b1 b0, half c1 c0, half d1 d0,
      word u3 u2 u1 u0⟩)
  | 0x06, [ou, sc, a, b, c, d, ho, il, fi, ga, _, _, _, _, _, _, _, _, _, _, _, _, _] =>
    some (.writeBooth key ⟨ou, sc, a, b, c, d, ho, il, fi, ga⟩)
  | 0x07, [a, b, c, ca] => some (.writeLanguage key ⟨a, b, c, ca⟩)
  | 0x08, [en, f1, f0, _, _] => some (.writeCarrier key ⟨en, half f1 f0⟩)
  | 0x0C, [en, mf, mv, mm, ta, ac] => some (.writeSelector key ⟨en, mf, mv, mm, ta, ac⟩)
  | 0x0D, [en, ds, sq, er, _, _, _, _, _, _, _, _, _, _, _, _, _] => some (.writeTrunk key ⟨en, ds, sq, er⟩)
  | _, _ => none

/-- The request a RETIRE frame spells: SEAT, BOOTH and LANGUAGE records retire (R158). -/
def parseRetire (table : Byte) (key : Half) : Option Instr :=
  match table.toNat with
  | 0x05 => some (.retireSeat key)
  | 0x06 => some (.retireBooth key)
  | 0x07 => some (.retireLanguage key)
  | _ => none

/-- The request a frame of a kind that names no table spells (R159, R168). -/
def parsePlain (kind : Byte) (key : Half) (fields : List Byte) : Option Instr :=
  match kind.toNat, fields with
  | 0x00, [] => some .noOp
  | 0x10, [] => some .start
  | 0x11, [] => some .stop
  | 0x18, [] => some (.freeze key)
  | 0x19, [] => some (.thaw key)
  | 0x21, [] => some (.grant key)
  | 0x22, [] => some (.close key)
  | 0x23, [] => some (.withdraw key)
  | 0x24, [] => some (.promote key)
  | 0x25, [] => some (.next key)
  | 0x26, [] => some (.clearFloor key)
  | 0x27, [language] => some (.pin key language)
  | 0x28, [] => some (.unpin key)
  | 0x29, [] => some (.select key)
  | 0x2A, [] => some (.closeMarked key)
  | 0x2B, [] => some (.extend key)
  | 0x30, [] => some (.rollCall key)
  | 0x31, [address, parameter, direction, v1, v0] =>
    some (.unitAccess key address parameter direction (half v1 v0))
  | 0x38, [] => some .resend
  | 0x40, [] => some .takeNotice
  | 0x41, [] => some .clearOverflow
  | _, _ => none

/-- The request of a kind, a table code, a key and exactly the field bytes the header states (R158). -/
def parseFields (kind table : Byte) (key : Half) (fields : List Byte) : Option Instr :=
  match kind.toNat with
  | 0x01 =>
    match tableOfCode table, fields with
    | some t, [] => some (.read t key)
    | _, _ => none
  | 0x02 => parseWrite table key fields
  | 0x03 =>
    match fields with
    | [] => parseRetire table key
    | _ => none
  | _ => if table = 0 then parsePlain kind key fields else none

/-- The request a frame spells; none where a check of R158 fails. Bytes beyond the stated length are
padding. -/
def parseRequest (bytes : List Byte) : Option Instr :=
  match bytes with
  | sync :: kind :: table :: k1 :: k0 :: n1 :: n0 :: rest =>
    let length := (half n1 n0).toNat
    if sync = 0xA5#8 ∧ length ≤ rest.length then
      parseFields kind table (half k1 k0) (rest.take length)
    else none
  | _ => none

/-- The command a transfer's bytes are: the request they spell, or a request answered BAD_FRAME (R158). -/
def frameCommand (bytes : List Byte) : Instr :=
  match parseRequest bytes with
  | some i => i
  | none => .badFrameRequest bytes

/-- A request frame (R168). -/
def requestFrame (kind table : Byte) (key : Half) (fields : List Byte) : List Byte :=
  [0xA5, kind, table] ++ bytes2 key.toNat ++ bytes2 fields.length ++ fields

/-- Read-only bytes of a WRITE: their value is ignored (R160). -/
def ignored (n : Nat) : List Byte := List.replicate n 0

/-- The frame of a host request; none for a command that is no request. -/
def encodeRequest : Instr → Option (List Byte)
  | .noOp => some (requestFrame 0x00 0 0 [])
  | .read t key => some (requestFrame 0x01 (tableCode t) key [])
  | .writeVenue key f => some (requestFrame 0x02 0x01 key
      ([f.threshold, f.hysteresis] ++ bytes4 f.enables.toNat ++ bytes2 f.mask.toNat ++ [f.global] ++ ignored 3))
  | .writeSection key f => some (requestFrame 0x02 0x02 key
      ([f.floorMode, f.speakerLimit, f.queueLimit] ++ bytes2 f.speechLimit.toNat ++ bytes2 f.grace.toNat
        ++ [f.floorMaster, f.speakerMaster, f.micTrim, f.speakerTrim, f.duck, f.priorityAction,
          f.defaultLanguage] ++ ignored 5))
  | .writeWall key f => some (requestFrame 0x02 0x03 key
      ([f.first, f.second, f.polarity, f.debounceClass, f.reportOpening, f.reportClosing, f.override]
        ++ ignored 4))
  | .writeSeat key f => some (requestFrame 0x02 0x05 key
      ([f.kind, f.seatClass, f.section_, f.language, f.micTrim, f.speakerTrim, f.booth, f.flags,
        f.neighbourCount] ++ bytes2 f.neighbour0.toNat ++ bytes2 f.neighbour1.toNat
        ++ bytes2 f.neighbour2.toNat ++ bytes2 f.neighbour3.toNat ++ bytes4 f.serial.toNat ++ ignored 5))
  | .writeBooth key f => some (requestFrame 0x02 0x06 key
      ([f.output, f.sourceCount, f.source0, f.source1, f.source2, f.source3, f.home, f.interlock, f.fill,
        f.gain] ++ ignored 13))
  | .writeLanguage key f => some (requestFrame 0x02 0x07 key [f.code0, f.code1, f.code2, f.carrier])
  | .writeCarrier key f => some (requestFrame 0x02 0x08 key ([f.enabled] ++ bytes2 f.flags.toNat ++ ignored 2))
  | .writeSelector key f => some (requestFrame 0x02 0x0C key
      [f.enabled, f.matchField, f.matchValue, f.matchMask, f.target, f.action])
  | .writeTrunk key f => some (requestFrame 0x02 0x0D key
      ([f.enabled, f.defaultSection, f.startQ, f.emptyRounds] ++ ignored 13))
  | .retireSeat key => some (requestFrame 0x03 0x05 key [])
  | .retireBooth key => some (requestFrame 0x03 0x06 key [])
  | .retireLanguage key => some (requestFrame 0x03 0x07 key [])
  | .start => some (requestFrame 0x10 0 0 [])
  | .stop => some (requestFrame 0x11 0 0 [])
  | .freeze key => some (requestFrame 0x18 0 key [])
  | .thaw key => some (requestFrame 0x19 0 key [])
  | .grant key => some (requestFrame 0x21 0 key [])
  | .close key => some (requestFrame 0x22 0 key [])
  | .withdraw key => some (requestFrame 0x23 0 key [])
  | .promote key => some (requestFrame 0x24 0 key [])
  | .next key => some (requestFrame 0x25 0 key [])
  | .clearFloor key => some (requestFrame 0x26 0 key [])
  | .pin key language => some (requestFrame 0x27 0 key [language])
  | .unpin key => some (requestFrame 0x28 0 key [])
  | .select key => some (requestFrame 0x29 0 key [])
  | .closeMarked key => some (requestFrame 0x2A 0 key [])
  | .extend key => some (requestFrame 0x2B 0 key [])
  | .rollCall key => some (requestFrame 0x30 0 key [])
  | .unitAccess key address parameter direction value =>
    some (requestFrame 0x31 0 key ([address, parameter, direction] ++ bytes2 value.toNat))
  | .resend => some (requestFrame 0x38 0 0 [])
  | .takeNotice => some (requestFrame 0x40 0 0 [])
  | .clearOverflow => some (requestFrame 0x41 0 0 [])
  | .hardwareReset => none
  | .resetAsserted => none
  | .transferInReset _ => none
  | .notReadyTransfer => none
  | .rawContactChange _ _ => none
  | .debounceEnd _ => none
  | .pollSend _ => none
  | .pollReply _ _ => none
  | .pollNoReply _ => none
  | .indicatorSend _ => none
  | .releaseSend _ => none
  | .accessSend _ => none
  | .accessReply _ _ => none
  | .accessNoReply _ => none
  | .roundStart _ => none
  | .slotSend _ => none
  | .slotReply _ _ => none
  | .slotEmpty _ => none
  | .mainExpiry _ => none
  | .graceExpiry _ => none
  | .noiseReport _ => none
  | .zoneProgrammeSend => none
  | .matrixMessageSend => none
  | .transferAccepted => none
  | .badFrameRequest _ => none
  | .lateReply _ _ => none

end Sys2Proof
end

