-- ==== Sys2Proof/Machine/PortCommands.lean ====
section
/-! DEFINITION. The commands of the Control Port and of RESET (chapters 9 and 11): reset, transfers, NO_OP,
READ, the VENUE record, START and STOP, the notice queue. -/

namespace Sys2Proof.Machine
open Sys2Proof

/-! ## Reset (R170, R171) -/

/-- A wall as hardware reset leaves it: its sensed state is taken from its contact (R5, R170). -/
def resetWall (made : Bool) : Wall := { made := made, sensed := !made }

/-- A transfer is in hand and the port selected: an accepted transfer that nothing has yet shown to have ended
counts as still selected (DESIGN CHOICE, assumption log 5); one that a NOT_READY transfer has followed has ended,
though its request is still in hand (R156, R171). -/
def Port.selected (p : Port) : Bool :=
  match p.phase with
  | .free => false | .inHand => false | .taking => true | .stale => true

/-- The port as hardware reset leaves it: a transfer still selected shifts 0xFF to its end, and READY waits for
the host to deselect it; the response buffer holds the reset response (R157, R171). -/
def resetPort (p : Port) : Port :=
  if p.selected then { phase := .stale, shift := .ones } else { shift := p.shift }

/-- The state as RESET rises: every record at its reset value, each wall sensed from its contact (R170). -/
def State.afterReset (s : State) : State :=
  (((State.reset.setPending s.pending).setFree s.free).setPort (resetPort s.port)).setWalls
    (vmapIdx s.walls (fun _ x => resetWall x.made))

/-- HARDWARE_RESET (R170). -/
def execHardwareReset (s : State) : Host.Outcome State Fault Refusal := .next s.afterReset

/-- The port as RESET falls: a selected transfer is cut off and stays selected; a request in hand is not taken
(R156, R171). -/
def fallPort (p : Port) : Port :=
  if p.selected then { p with phase := .stale, shift := .ones } else { p with phase := .free }

/-- RESET_ASSERTED: exchanges and frames are cut off, and no event is taken until RESET rises (R170). -/
def execResetAsserted (s : State) : Host.Outcome State Fault Refusal :=
  .next (if s.resetLow then s
    else ((s.setResetLow true).setPort (fallPort s.port)).setTrunks
      (vmapIdx s.trunks (fun _ u => { u with line := .idle, sending := false })))

/-- TRANSFER_IN_RESET: 0xFF in every byte, the request not taken; READY can rise from the deselect on (R171).
With RESET high and no such transfer still selected there is none to carry on. -/
def execTransferInReset (ended : Bool) (s : State) : Host.Outcome State Fault Refusal :=
  .next (if s.resetLow || decide (s.port.phase = .stale) then
      s.setPort { s.port with phase := if ended then .free else .stale, shift := .ones }
    else s)

/-! ## Transfers (R156 to R158) -/

/-- NOT_READY_TRANSFER: a NOT_READY header, the bytes shifted in ignored, the response buffer kept; the accepted
transfer has ended before it and the port is deselected after it, with the request still in hand (R156); while RESET
is low, 0xFF (R171). -/
def execNotReadyTransfer (s : State) : Host.Outcome State Fault Refusal :=
  .next (if s.resetLow then s.deadTransfer
    else if s.port.phase = .taking ∨ s.port.phase = .inHand then
      s.setPort { s.port with phase := .inHand, shift := .bytes (s.header .notReady 0) }
    else s)

/-- TRANSFER_ACCEPTED (R156, R157). -/
def execTransferAccepted (s : State) : Host.Outcome State Fault Refusal :=
  .next (s.outOfReset (fun s => if s.port.phase = .free then s.acceptTransfer else s))

/-- BAD_FRAME_REQUEST: bytes that fail a check of R158 are answered BAD_FRAME and nothing else is done. Bytes
that pass are the request they spell, which has its own command. -/
def execBadFrameRequest (bytes : List Byte) (s : State) : Host.Outcome State Fault Refusal :=
  .next (match parseRequest bytes with
    | some _ => s
    | none => s.request (fun s => (s, answer .badFrame)))

/-- NO_OP is answered OK and changes nothing (R159). -/
def execNoOp (s : State) : Host.Outcome State Fault Refusal := .next (s.request (fun s => (s, answer .ok)))

/-! ## READ (R160) -/

/-- A READ of a table of records that always exist, by number. -/
def readFixed (n : Nat) (key : Half) (record : Fin n → List Byte) : Response :=
  match keyBelow n key with
  | some i => ⟨.ok, record i⟩
  | none => answer .badKey

/-- A READ of a table keyed by lead (R22, R69, R124). -/
def State.readLead (s : State) (key : Half) (record : SectionNo → List Byte) : Response :=
  match s.leadOf key with
  | some l => ⟨.ok, record l⟩
  | none => answer .badKey

/-- A READ of a record in use, or the status of its checks. -/
def readChecked {α : Type} (c : Checked α) (record : α → List Byte) : Response :=
  match c with
  | .ok x => ⟨.ok, record x⟩
  | .error st => answer st

/-- The language record a key names. -/
def State.languageOf (s : State) (key : Half) : Checked (Nat × Language) :=
  match languageKey key with
  | .error st => .error st
  | .ok n =>
    match s.languages.get n with
    | some x => .ok (n, x)
    | none => .error .noRecord

/-- The response to a READ: the record as it stands, after the key and record checks (R160, R168). -/
def State.readTable (s : State) (table : Table) (key : Half) : Response :=
  match table with
  | .venue => readFixed 1 key (fun _ => s.venueRecord)
  | .section_ => readFixed 16 key s.sectionRecord
  | .wall => readFixed 24 key s.wallRecord
  | .room => s.readLead key s.roomRecord
  | .seat => readChecked (s.seatOf key) (fun p => s.seatRecord p.1 p.2)
  | .booth => readChecked (s.boothOf key) (fun p => s.boothRecord p.2)
  | .language => readChecked (s.languageOf key) (fun p => p.2.record)
  | .carrier => readFixed 32 key s.carrierRecord
  | .channels => s.readLead key s.channelsRecord
  | .queue => s.readLead key s.queueRecord
  | .speakers => s.readLead key s.speakersRecord
  | .selector => readFixed 8 key (fun i => (s.selectors[i]).record)
  | .trunk => readFixed 4 key s.trunkRecord
  | .ident => readFixed 1 key (fun _ => identRecord)

/-- READ changes no record; it uses up one open value (DESIGN CHOICE, assumption log 3). -/
def execRead (table : Table) (key : Half) (s : State) : Host.Outcome State Fault Refusal :=
  .next (s.request (fun s => (s.spendFree, s.readTable table key)))

/-! ## VENUE (R161) -/

/-- The VENUE record a write leaves: threshold and hysteresis clamped (R132), the rest as written. -/
def State.writtenVenue (s : State) (f : VenueWrite) : Venue where
  threshold := clampNat 0 255 f.threshold.toNat
  hysteresis := clampNat 0 64 f.hysteresis.toNat
  enables := f.enables
  mask := f.mask
  global := onOff s.free 8 f.global

/-- WRITE_VENUE (R161). -/
def execWriteVenue (key : Half) (f : VenueWrite) (s : State) : Host.Outcome State Fault Refusal :=
  .next (s.request (fun s =>
    if key = 0 then ((s.setVenue (s.writtenVenue f)).spendFree, answer .ok) else (s, answer .badKey)))

/-! ## START and STOP (R163, R164) -/

/-- A seat's entries are computed and written without joining the send list (R154). -/
def State.writeSeatLevels (s : State) (n : Nat) : State :=
  s.setShadow { s.shadow with seats := s.shadow.seats.store {} n (s.computedLevels n) }

/-- The Level Engine's part of START: every room recomputed, then every entry placed (R154). -/
def State.startLevels (s : State) : State := (s.seats.keys.foldl State.writeSeatLevels s).resendAll

/-- The trunks' part of START: each enabled trunk begins scanning (R163). -/
def State.startTrunks (s : State) : State :=
  allTrunks.foldl (fun s t => if (s.trunks[t]).enabled then s.startScan t else s) s

/-- START in HALTED (R163). -/
def State.startRunning (s : State) : State :=
  let s1 := (s.setRun .running).startLevels
  (s1.setProgrammes (allSections.foldl joinTail s1.programmes)).startTrunks

/-- START (R163). -/
def execStart (s : State) : Host.Outcome State Fault Refusal :=
  .next (s.request (fun s =>
    match s.run with
    | .running => (s, answer .wrongState)
    | .halted => (s.startRunning, answer .ok)))

/-- Every holding set is emptied, ending every hold (R77). -/
def State.dropHolds (s : State) : State :=
  s.setRooms (vmapIdx s.rooms (fun _ r => { r with holding := [], holdAction := none }))

/-- The LIVE desks, in booth number order (R129). -/
def State.liveDesks (s : State) : List Nat := s.booths.cells.filterMap (fun c => c.2.live)

/-- Steps 2 and 3 of STOP: the floors emptied room by room, the desks switched off and their rooms recomputed
(R77, R129). -/
def State.stopFloors (s : State) : Ev :=
  let e := s.leads.foldl (Ev.clearRoom .stop) s.event
  let e1 := e.on State.dropHolds
  (e1.st.liveDesks.foldl (fun e n => e.deskOff n .stop) e1).takeListens

/-- The FLOOR_STOPPED notice, with what steps 2 and 3 closed, withdrew and switched off (R164). -/
def stoppedNotice (before after : State) : Notice :=
  ⟨none, none, .floorStopped
    ((before.speakers.length - after.speakers.length) + (before.chairs.length - after.chairs.length))
    (before.pool.length - after.pool.length) before.liveDesks.length⟩

/-- STOP in RUNNING, in the steps of R164. -/
def State.stopHalted (s : State) : State :=
  let e := (s.setRun .halted).stopFloors
  let s1 := allTrunks.foldl State.stopTrunk e.st
  let s2 := (s1.setProgrammes []).muteAll
  let s3 := (({ e with st := s2 }).takeSourcesWith State.placeEntry).st
  (s3.notify (stoppedNotice s e.st)).spendFree

/-- STOP (R164). -/
def execStop (s : State) : Host.Outcome State Fault Refusal :=
  .next (s.request (fun s =>
    match s.run with
    | .halted => (s, answer .wrongState)
    | .running => (s.stopHalted, answer .ok)))

/-! ## The notice queue (R166) -/

/-- TAKE_NOTICE (R166). -/
def execTakeNotice (s : State) : Host.Outcome State Fault Refusal :=
  .next (s.request (fun s =>
    match s.notices.queue with
    | [] => (s, answer .noRecord)
    | n :: rest => (s.setNotices { s.notices with queue := rest }, ⟨.ok, n.bytes⟩)))

/-- CLEAR_OVERFLOW (R166). -/
def execClearOverflow (s : State) : Host.Outcome State Fault Refusal :=
  .next (s.request (fun s => (s.setNotices { s.notices with overflow := false }, answer .ok)))

end Sys2Proof.Machine
end

