-- ==== Sys2Proof/Machine/InterpCommands.lean ====
section
/-! DEFINITION. The commands of the Interpretation Manager (chapter 6): WRITE and RETIRE of a language and of a
booth. -/

namespace Sys2Proof.Machine
open Sys2Proof

/-! ## Languages (R111, R112) -/

/-- The rooms whose floor language has a number are due a recomputation (R112). -/
def Ev.markLanguage (e : Ev) (n : Nat) : Ev :=
  (e.st.leads.filter (fun l => decide ((e.st.rooms[l]).floorLanguage = n))).foldl Ev.markListen e

/-- A language record takes its fields; a created one makes its number count (R111, R112). -/
def State.writeLanguage (s : State) (n : Nat) (x : Language) : State :=
  let stored := s.setLanguages (s.languages.put n x)
  if s.languageInUse n then stored else (stored.event.markLanguage n).finish

/-- The checks of a LANGUAGE write: key, then fields (R111). -/
def checkWriteLanguage (key : Half) (f : LanguageWrite) : Checked (Nat × Language) := do
  let n ← languageKey key
  let x ← checkLanguage f
  pure (n, x)

/-- WRITE_LANGUAGE (R111). -/
def execWriteLanguage (key : Half) (f : LanguageWrite) (s : State) : Host.Outcome State Fault Refusal :=
  .next (s.request (fun s =>
    checked (checkWriteLanguage key f) (fun p => (s.writeLanguage p.1 p.2, answer .ok)) s))

/-- An in-use booth names a language as its output or in its source list (R112). -/
def State.languageNamed (s : State) (n : Nat) : Bool :=
  s.booths.cells.any (fun c => decide (c.2.output = n) || decide (n ∈ c.2.sources))

/-- The checks of a LANGUAGE retirement (R112). -/
def State.checkRetireLanguage (s : State) (key : Half) : Checked Nat := do
  let n ← languageKey key
  refuseUnless (s.languageInUse n) .noRecord
  refuseUnless (!s.languageNamed n) .inUse
  pure n

/-- A language record is freed, and its number counts as 0 (R112). -/
def State.retireLanguage (s : State) (n : Nat) : State :=
  ((s.setLanguages (s.languages.erase n)).event.markLanguage n).finish

/-- RETIRE_LANGUAGE (R112). -/
def execRetireLanguage (key : Half) (s : State) : Host.Outcome State Fault Refusal :=
  .next (s.request (fun s =>
    checked (s.checkRetireLanguage key) (fun n => (s.retireLanguage n, answer .ok)) s))

/-! ## Booths (R114, R115) -/

/-- The rooms whose languages a booth write may change: that of the record before and that after (R115). -/
def State.boothRooms (s : State) (old : Option Booth) (y : Booth) : List SectionNo :=
  match old with
  | none => [s.boothRoom y]
  | some x => [s.boothRoom x, s.boothRoom y]

/-- A booth was created, or its output language or home section changed (R115). -/
def boothRegroups (old : Option Booth) (y : Booth) : Bool :=
  match old with
  | none => true
  | some x => decide (x.output ≠ y.output) || decide (x.home ≠ y.home)

/-- A booth's source list or fill changed (R115). -/
def boothResources (old : Option Booth) (y : Booth) : Bool :=
  match old with
  | none => false
  | some x => decide (x.sources ≠ y.sources) || decide (x.fillFloor ≠ y.fillFloor)

/-- A booth's gain or home section changed, so that desk levels may (R115, R150). -/
def boothLevels (old : Option Booth) (y : Booth) : Bool :=
  match old with
  | none => false
  | some x => decide (x.gain ≠ y.gain) || decide (x.home ≠ y.home)

/-- The changes of a booth write (R115, R120). The desks whose indicators changed are placed last, in booth and
desk-list order (DESIGN CHOICE, assumption log 10). -/
def Ev.boothChanged (e : Ev) (before : State) (old : Option Booth) (y : Booth) : Ev :=
  let rooms := e.st.boothRooms old y
  let handed := if boothLevels old y then rooms.foldl Ev.handRoom e else e
  let sourced :=
    if boothRegroups old y then handed.updateChannels rooms
    else if boothResources old y then handed.markListen (e.st.boothRoom y) else handed
  sourced.on (fun s => s.placeChanged before s.allDesks)

/-- A booth record takes its fields, and its changes are taken (R114, R115). -/
def State.writeBooth (s : State) (b : Nat) (y : Booth) : State :=
  ((s.setBooths (s.booths.put b y)).event.boothChanged s (s.booths.get b) y).finish

/-- The checks of a BOOTH write: key, then fields (R114). -/
def State.checkWriteBooth (s : State) (key : Half) (f : BoothWrite) : Checked (Nat × Booth) :=
  if key.toNat < 16 then (s.checkBooth key.toNat f).map (fun y => (key.toNat, y)) else .error .badKey

/-- WRITE_BOOTH (R114). -/
def execWriteBooth (key : Half) (f : BoothWrite) (s : State) : Host.Outcome State Fault Refusal :=
  .next (s.request (fun s =>
    checked (s.checkWriteBooth key f) (fun p => (s.writeBooth p.1 p.2, answer .ok)) s))

/-! ## Retirement of a booth (R116) -/

/-- Step 1: the LIVE desk of the booth is switched OFF (R116). -/
def Ev.silence (e : Ev) (y : Booth) : Ev :=
  match y.live with
  | some n => e.deskOff n .boothRetired
  | none => e

/-- Step 2: every seat of the desk list has its booth field cleared (R116). -/
def State.clearBooth (s : State) (y : Booth) : State :=
  y.desks.foldl (fun s n => s.modSeat n (fun x => { x with booth := none })) s

/-- The retirement of a booth in the steps of R116. -/
def State.retireBooth (s : State) (b : Nat) (y : Booth) : State :=
  let l := s.boothRoom y
  let silent := s.event.silence y
  let freed := silent.on (fun s => (s.clearBooth y).setBooths (s.booths.erase b))
  let placed := freed.on (fun s => s.placeChanged silent.st y.desks)
  ((y.desks.foldl Ev.handSeat (placed.handRoom l)).updateChannels [l]).finish

/-- RETIRE_BOOTH (R116). -/
def execRetireBooth (key : Half) (s : State) : Host.Outcome State Fault Refusal :=
  .next (s.request (fun s => checked (s.boothOf key) (fun p => (s.retireBooth p.1 p.2, answer .ok)) s))

end Sys2Proof.Machine
end

