-- ==== Sys2Proof/Machine/MatrixCommands.lean ====
section
/-! DEFINITION. The commands of the Level Engine (chapter 8): RESEND and the sending of a matrix message. -/

namespace Sys2Proof.Machine
open Sys2Proof

/-- RESEND (R153). -/
def execResend (s : State) : Host.Outcome State Fault Refusal :=
  .next (s.request (fun s => (s.resendAll, answer .ok)))

/-- The head of the send list is sent, built from its value in the shadow now (R152). -/
def State.sendMatrix (s : State) : State :=
  match s.sendList with
  | e :: rest => (s.setSendList rest).setMatrixLine (sealFrame (s.matrixMessage e))
  | [] => s

/-- MATRIX_MESSAGE_SEND, in both run states (R152). -/
def execMatrixMessageSend (s : State) : Host.Outcome State Fault Refusal :=
  .next (s.outOfReset State.sendMatrix)

end Sys2Proof.Machine
end

