-- ==== Sys2Proof/Machine/PartitionCommands.lean ====
section
/-! DEFINITION. The commands of the Partition Unit (chapter 1): WRITE of a section and of a wall, FREEZE and
THAW, a raw change at a contact, the end of a debounce interval. -/

namespace Sys2Proof.Machine
open Sys2Proof

/-! ## Sections (R2, R3, R70) -/

/-- The fields the Level Engine takes from the settings (R3). -/
def Settings.levelFields (x : Settings) : List Int :=
  [x.floorMaster, x.speakerMaster, x.micTrim, x.speakerTrim, x.duck]

/-- The changed settings of a lead section are taken for its room, in the order of R70; what changes its levels
hands the room to the Level Engine (R3). -/
def Ev.settingsChanged (e : Ev) (l : SectionNo) (old new : Settings) : Ev :=
  let e1 := if old.speakerLimit = new.speakerLimit then e else e.applySpeakerLimit l .limit
  let e2 := if old.queueLimit = new.queueLimit then e1 else e1.applyQueueLimit l .limit
  let e3 := if old.floorMode = new.floorMode ∧ old.speakerLimit = new.speakerLimit then e2
    else e2.markAdvance l
  if old.levelFields = new.levelFields then e3 else e3.handRoom l

/-- A section record takes its settings; a section that leads its room hands on what changed (R3). -/
def State.writeSection (s : State) (n : SectionNo) (x : Settings) : State :=
  let stored := s.setSections (vmod s.sections n (fun y => { y with settings := x }))
  if s.isLead n then (stored.event.settingsChanged n (s.settings n) x).finish else stored

/-- The checks of a SECTION write: key, then fields (R2). -/
def State.checkWriteSection (s : State) (key : Half) (f : SectionWrite) : Checked (SectionNo × Settings) :=
  match keyBelow 16 key with
  | none => .error .badKey
  | some n => (s.checkSection f).map (fun x => (n, x))

/-- WRITE_SECTION (R2). -/
def execWriteSection (key : Half) (f : SectionWrite) (s : State) : Host.Outcome State Fault Refusal :=
  .next (s.request (fun s =>
    checked (s.checkWriteSection key f) (fun p => (s.writeSection p.1 p.2, answer .ok)) s))

/-! ## Walls (R6) -/

/-- A wall record takes its writable fields; a reversed polarity changes the interpreted state (R7), and then
the wall is evaluated, and rooms recomputed where its effective state changed (R6). -/
def State.writeWall (s : State) (w : WallNo) (x : WallSetup) : State :=
  let stored := s.modWall w (fun y => { y with setup := x })
  let read :=
    if (s.walls[w]).setup.polarity = x.polarity then stored else stored.modWall w Wall.interpretedChanged
  ((read.event.evaluateWall w).finish).spendFree

/-- The checks of a WALL write: key, then fields (R6). -/
def State.checkWriteWall (s : State) (key : Half) (f : WallWrite) : Checked (WallNo × WallSetup) :=
  match keyBelow 24 key with
  | none => .error .badKey
  | some w => (s.checkWall w f).map (fun x => (w, x))

/-- WRITE_WALL (R6). -/
def execWriteWall (key : Half) (f : WallWrite) (s : State) : Host.Outcome State Fault Refusal :=
  .next (s.request (fun s =>
    checked (s.checkWriteWall key f) (fun p => (s.writeWall p.1 p.2, answer .ok)) s))

/-! ## FREEZE and THAW (R13, R15) -/

/-- FREEZE (R13). -/
def execFreeze (key : Half) (s : State) : Host.Outcome State Fault Refusal :=
  .next (s.request (fun s =>
    checked (s.roomKey key) (fun l => (s.modRoom l (fun r => { r with frozen := true }), answer .ok)) s))

/-- A frozen room is thawed and its walls released together; a room that is not frozen is left (R15). -/
def State.thaw (s : State) (l : SectionNo) : State :=
  if (s.rooms[l]).frozen then
    let cleared := s.modRoom l (fun r => { r with frozen := false })
    (cleared.event.releaseWalls (cleared.thawWalls l)).finish
  else s

/-- THAW (R15). -/
def execThaw (key : Half) (s : State) : Host.Outcome State Fault Refusal :=
  .next (s.request (fun s => checked (s.roomKey key) (fun l => (s.thaw l, answer .ok)) s))

/-! ## Contacts (R7, R8) -/

/-- A wall is evaluated where its sensed state changed (R8, R11). -/
def State.senseWall (s before : State) (w : WallNo) : State :=
  if (before.walls[w]).sensed = (s.walls[w]).sensed then s else (s.event.evaluateWall w).finish

/-- A sample that differs from the one before it changes the interpreted state (R7). -/
def State.sampleContact (s : State) (w : WallNo) (made : Bool) : State :=
  if (s.walls[w]).made = made then s
  else (s.modWall w (fun x => Wall.interpretedChanged { x with made := made })).senseWall s w

/-- RAW_CONTACT_CHANGE (R7). While RESET is low the level changes and no event is taken (R170). -/
def execRawContactChange (wall : WallNo) (made : Bool) (s : State) : Host.Outcome State Fault Refusal :=
  .next (if s.resetLow then s.modWall wall (fun x => { x with made := made }) else s.sampleContact wall made)

/-- The end of a wall's debounce interval (R8); an interval that a later sample started anew has time left and does
not end (R7; assumption log 6). -/
def State.endInterval (s : State) (w : WallNo) : State :=
  if (s.walls[w]).interval = some 0 then (s.modWall w Wall.intervalEnds).senseWall s w else s

/-- DEBOUNCE_END (R8); a wall on which no interval has run out has none to end. -/
def execDebounceEnd (wall : WallNo) (s : State) : Host.Outcome State Fault Refusal :=
  .next (s.outOfReset (fun s => s.endInterval wall))

end Sys2Proof.Machine
end

