-- ==== Sys2Proof/Machine/SeatCommands.lean ====
section
/-! DEFINITION. The commands on the seat table (chapter 3, R51 to R53): WRITE and RETIRE of a seat. -/

namespace Sys2Proof.Machine
open Sys2Proof

/-! ## WRITE (R52) -/

/-- The room a seat's levels belong to is handed to the Level Engine (R145, R150). -/
def Ev.handLevelRoom (e : Ev) (n : Nat) (x : Seat) : Ev :=
  match e.st.levelRoom n x with
  | some l => e.handRoom l
  | none => e

/-- A created seat joins its booth's desk list, and its room is handed on (R117, R150). -/
def Ev.seatCreated (e : Ev) (n : Nat) (x : Seat) : Ev :=
  ((e.on (fun s => s.moveDesk n none x.booth)).handSeat n).handLevelRoom n x

/-- LOCK was set on a WAITING seat (R52). -/
def Ev.lockWaiting (e : Ev) (n : Nat) (old new : Seat) : Ev :=
  if !old.lock && new.lock && e.st.waiting n then Ev.withdraw .locked e n else e

/-- The kind or section of a seat changed: its old and its new room are handed on (R52). -/
def Ev.seatMoved (e : Ev) (n : Nat) (old new : Seat) : Ev :=
  if old.kind = new.kind ∧ old.section_ = new.section_ then e
  else
    (((e.handRoom (e.st.roomOf old.section_)).handRoom (e.st.roomOf new.section_)).handDeskRoom new).handSeat n

/-- A trim or the neighbour list of a seat changed (R52). -/
def Ev.seatTrimmed (e : Ev) (n : Nat) (old new : Seat) : Ev :=
  if old.micTrim = new.micTrim ∧ old.speakerTrim = new.speakerTrim ∧ old.neighbours = new.neighbours then e
  else e.handLevelRoom n new

/-- The changes of a seat record in use, in the order of R52. -/
def Ev.seatChanged (e : Ev) (before : State) (n : Nat) (old new : Seat) : Ev :=
  let moved := (e.lockWaiting n old new).on (fun s => s.moveDesk n old.booth new.booth)
  ((moved.seatMoved n old new).seatTrimmed n old new).on (fun s => s.placeChanged before [n])

/-- A seat record takes its fields, and its changes are taken (R51, R52). -/
def State.writeSeat (s : State) (n : Nat) (x : Seat) : State :=
  let e := (s.setSeats (s.seats.put n x)).event
  match s.seats.get n with
  | none => (e.seatCreated n x).finish
  | some old => (e.seatChanged s n old x).finish

/-- The checks of a SEAT write: key, then fields (R51). -/
def State.checkWriteSeat (s : State) (key : Half) (f : SeatWrite) : Checked (Nat × Seat) :=
  if key.toNat < 1024 then (s.checkSeat key.toNat f).map (fun x => (key.toNat, x)) else .error .badKey

/-- WRITE_SEAT (R51). -/
def execWriteSeat (key : Half) (f : SeatWrite) (s : State) : Host.Outcome State Fault Refusal :=
  .next (s.request (fun s => checked (s.checkWriteSeat key f) (fun p => (s.writeSeat p.1 p.2, answer .ok)) s))

/-! ## RETIRE (R53) -/

/-- Step 1: the seat leaves the floor, or the desk goes OFF and leaves its booth (R53, R121). -/
def Ev.retireFloor (e : Ev) (n : Nat) (x : Seat) : Ev :=
  match x.kind with
  | .desk => ((e.handDeskRoom x).deskOffIfLive n .retired).on (fun s => s.moveDesk n x.booth none)
  | _ => (e.handSeatRoom n).leaveFloor n .retired

/-- Step 3: the seat number leaves every neighbour list that names it (R53). -/
def State.forgetNeighbour (s : State) (n : Nat) : State :=
  s.setSeats (s.seats.map (fun _ y => { y with neighbours := y.neighbours.filter (fun m => decide (m ≠ n)) }))

/-- The seats whose neighbour lists name a seat. -/
def State.namedBy (s : State) (n : Nat) : List Nat :=
  (s.seats.cells.filter (fun c => decide (n ∈ c.2.neighbours))).map Prod.fst

/-- Step 3 with the rooms whose lists changed handed on (R53). -/
def Ev.retireNeighbour (e : Ev) (n : Nat) : Ev :=
  (e.st.namedBy n).foldl Ev.handSeatRoom (e.on (fun s => s.forgetNeighbour n))

/-- The retirement of a seat in the steps of R53; the auto-advance it calls for follows the last. -/
def State.retireSeat (s : State) (n : Nat) (x : Seat) : State :=
  let left := (s.event.retireFloor n x).priorityUp n x
  let freed := ((left.retireNeighbour n).on (fun s => s.releaseBinding n)).on
    (fun s => s.setSeats (s.seats.erase n))
  (freed.handSeat n).finish

/-- RETIRE_SEAT (R53). -/
def execRetireSeat (key : Half) (s : State) : Host.Outcome State Fault Refusal :=
  .next (s.request (fun s => checked (s.seatOf key) (fun p => (s.retireSeat p.1 p.2, answer .ok)) s))

end Sys2Proof.Machine
end

