-- ==== Sys2Proof/Machine/SelectCommands.lean ====
section
/-! DEFINITION. The commands of chapter 4: EXTEND, the expiries of the speech timers, WRITE of a selector,
SELECT and CLOSE MARKED. -/

namespace Sys2Proof.Machine
open Sys2Proof

/-! ## EXTEND (R84) -/

/-- The checks of EXTEND in the order of R84. -/
def State.checkExtend (s : State) (key : Half) : Checked (Nat × Seat) := do
  let p ← s.seatOf key
  s.needRunning
  refuseUnless (decide (p.2.kind = .delegate)) .wrongState
  refuseUnless (s.speaker p.1).isSome .wrongState
  pure p

/-- A speaker is given a fresh allowance; a WARNED one becomes SPEAKING (R84). -/
def State.extend (s : State) (n : Nat) (x : Seat) : State :=
  let timed := s.event.on (fun s => s.setTimer n (s.settings (s.roomOf x.section_)).timer)
  match s.floorState n x with
  | .warned => ((timed.notify (s.seatState n .warned .speaking .extended)).place n).finish
  | _ => timed.finish

/-- EXTEND (R84). -/
def execExtend (key : Half) (s : State) : Host.Outcome State Fault Refusal :=
  .next (s.request (fun s => checked (s.checkExtend key) (fun p => (s.extend p.1 p.2, answer .ok)) s))

/-! ## Expiries (R82, R83) -/

/-- The running timer of a seat. -/
def State.timer (s : State) (n : Nat) : Option Timer := (s.speaker n).bind (fun x => x.timer)

/-- A timer restarted in phase GRACE with its captured grace (R82). -/
def Timer.toGrace (t : Timer) : Timer :=
  { t with inGrace := true, remaining := t.capturedGrace, millis := 0 }

/-- The expiry of a timer in phase MAIN: a warning, or the close of a speaker without grace (R82). -/
def State.mainExpires (s : State) (n : Nat) (t : Timer) : State :=
  if t.capturedGrace = 0 then (Ev.close .time s.event n).finish
  else
    let warned := s.event.on (fun s => s.setTimer n (some t.toGrace))
    (((warned.notify (s.seatState n .speaking .warned .warning)).notify
      ⟨s.seatRoom n, some n, .timeWarning t.capturedGrace⟩).place n).finish

/-- A timer expires in a phase: its remaining value has reached 0 there (R81). One that EXTEND has restarted
meanwhile has time left, and the expiry does not happen (R85; assumption log 6). -/
def Timer.expired (t : Timer) (grace : Bool) : Bool := decide (t.inGrace = grace) && decide (t.remaining = 0)

/-- MAIN_EXPIRY (R82); a seat without a timer that has run out in phase MAIN has none to expire (R85). -/
def execMainExpiry (seat : Nat) (s : State) : Host.Outcome State Fault Refusal :=
  .next (s.outOfReset (fun s =>
    match s.timer seat with
    | some t => if t.expired false then s.mainExpires seat t else s
    | none => s))

/-- GRACE_EXPIRY (R83); a seat without a timer that has run out in phase GRACE has none to expire (R85). -/
def execGraceExpiry (seat : Nat) (s : State) : Host.Outcome State Fault Refusal :=
  .next (s.outOfReset (fun s =>
    match s.timer seat with
    | some t => if t.expired true then (Ev.close .time s.event seat).finish else s
    | none => s))

/-! ## Selectors (R86 to R89) -/

/-- The checks of a SELECTOR write: key, then fields (R87). -/
def State.checkWriteSelector (s : State) (key : Half) (f : SelectorWrite) : Checked (SelectorNo × Selector) :=
  match keyBelow 8 key with
  | none => .error .badKey
  | some n => (s.checkSelector f).map (fun x => (n, x))

/-- WRITE_SELECTOR (R87). -/
def execWriteSelector (key : Half) (f : SelectorWrite) (s : State) : Host.Outcome State Fault Refusal :=
  .next (s.request (fun s =>
    checked (s.checkWriteSelector key f)
      (fun p => ((s.setSelectors (s.selectors.set p.1 p.2)).spendFree, answer .ok)) s))

/-- The value a match field gives a seat (R88). -/
def State.matchValue (s : State) (field : MatchField) (x : Seat) : Byte :=
  match field with
  | .section_ => byte x.section_.val
  | .class_ => if x.kind = .delegate then x.seatClass.code else 0
  | .language => byte (s.languageCounts x.language)
  | .trunk => match x.binding with | some (t, _) => byte t.val | none => 0xFF
  | .kind => x.kind.code

/-- A seat matches a selector: its value and the match value agree wherever the mask has a one (R88). -/
def State.matches (s : State) (sel : Selector) (x : Seat) : Bool :=
  decide (s.matchValue sel.matchField x &&& sel.matchMask = sel.matchValue &&& sel.matchMask)

/-- The pair of effects of an action, on a matching seat and on another (R89). -/
def SelectAction.effects : SelectAction → FlagEffect × FlagEffect
  | .setClear => (.set, .clear) | .setKeep => (.set, .keep) | .keepClear => (.keep, .clear)
  | .flipKeep => (.flip, .keep) | .clearSet => (.clear, .set) | .clearKeep => (.clear, .keep)
  | .keepSet => (.keep, .set) | .keepFlip => (.keep, .flip)

/-- What an effect makes of a flag (R89). -/
def FlagEffect.apply : FlagEffect → Bool → Bool
  | .set, _ => true | .clear, _ => false | .keep, b => b | .flip, b => !b

/-- A seat taken through one selector; one that is off is passed over (R89, R90). -/
def State.through (s : State) (x : Seat) (sel : Selector) : Seat :=
  if sel.enabled then
    let effect := if s.matches sel x then sel.action.effects.1 else sel.action.effects.2
    if sel.targetMark then { x with mark := effect.apply x.mark } else { x with lock := effect.apply x.lock }
  else x

/-! ## SELECT (R90, R91) -/

/-- A seat is a seat of the run over some rooms (R90). -/
def State.inRun (s : State) (rooms : List SectionNo) (x : Seat) : Bool :=
  decide (x.kind ≠ .desk) && decide (s.roomOf x.section_ ∈ rooms)

/-- Every seat of the run taken through the selectors in number order (R90). -/
def State.runSelectors (s : State) (rooms : List SectionNo) : State :=
  s.setSeats (s.seats.map (fun _ x =>
    if s.inRun rooms x then s.selectors.toList.foldl s.through x else x))

/-- The WAITING seats of the run that now have LOCK set, in pool order (R91). -/
def State.lockedWaiting (s : State) (rooms : List SectionNo) : List Nat :=
  (s.pool.map (fun r => r.seat)).filter (fun n =>
    match s.seats.get n with
    | some x => x.lock && s.inRun rooms x
    | none => false)

/-- A SELECT run, then the floor consequences of the new LOCK flags (R90, R91). -/
def State.select (s : State) (rooms : List SectionNo) : State :=
  let flagged := s.runSelectors rooms
  ((flagged.lockedWaiting rooms).foldl (Ev.withdraw .locked) flagged.event).finish

/-- SELECT (R90). -/
def execSelect (key : Half) (s : State) : Host.Outcome State Fault Refusal :=
  .next (s.request (fun s => checked (s.roomsKey key) (fun rooms => (s.select rooms, answer .ok)) s))

/-! ## CLOSE MARKED (R93) -/

/-- The checks of CLOSE MARKED: room, then run state (R93). -/
def State.checkCloseMarked (s : State) (key : Half) : Checked SectionNo := do
  let l ← s.roomKey key
  s.needRunning
  pure l

/-- A seat carries MARK. -/
def State.marked (s : State) (n : Nat) : Bool :=
  match s.seats.get n with
  | some x => x.mark
  | none => false

/-- The marked speakers of a room in speaker-list order, then its marked open chairs in chair-set order (R93). -/
def State.closeMarked (s : State) (l : SectionNo) : State :=
  let speakers := ((s.roomSpeakers l).map (fun x => x.seat)).filter s.marked
  let chairs := (s.roomChairs l).filter s.marked
  ((speakers ++ chairs).foldl (Ev.close .marked) s.event).finish

/-- CLOSE_MARKED (R93). -/
def execCloseMarked (key : Half) (s : State) : Host.Outcome State Fault Refusal :=
  .next (s.request (fun s =>
    checked (s.checkCloseMarked key) (fun l => (s.closeMarked l, answer .ok)) s))

end Sys2Proof.Machine
end

