-- ==== Sys2Proof/Machine/TrunkCommands.lean ====
section
/-! DEFINITION. The commands of the Trunk Controllers (chapter 2): WRITE of a trunk, ROLL CALL and UNIT ACCESS;
the polls and gaps of a scan round; the slots of a roll call round. A send or a reply that does not fit where
the trunk stands leaves the state as it is: no such exchange is in hand (R31, R32; DESIGN CHOICE, assumption log 2). -/

namespace Sys2Proof.Machine
open Sys2Proof

/-! ## WRITE (R24, R25) -/

/-- The trunk's losses at a disable: every PRESENT seat bound to it, in address order (R25). -/
def State.presentOn (s : State) (t : TrunkNo) : List Nat := ((s.bound t).map Prod.snd).filter s.isPresent

/-- The enabled field went from on to off (R25). -/
def State.disableTrunk (s : State) (t : TrunkNo) : State :=
  let ended := (s.endScan t).event
  let lost := (ended.st.presentOn t).foldl Ev.unitLost ended
  (lost.on (fun s => s.emptyIndicators t)).finish

/-- The enabled field went from off to on: in RUNNING scanning begins (R25). -/
def State.enableTrunk (s : State) (t : TrunkNo) : State :=
  match s.run with
  | .running => s.startScan t
  | .halted => s

/-- A trunk record takes its fields, and a change of the enabled field is taken (R25). -/
def State.writeTrunk (s : State) (t : TrunkNo) (x : Bool × SectionNo × Nat × Nat) : State :=
  let (enabled, sec, q, rounds) := x
  let stored := s.modTrunk t (fun u =>
    { u with enabled := enabled, defaultSection := sec, startQ := q, emptyRounds := rounds })
  (match (s.trunks[t]).enabled, enabled with
    | true, false => stored.disableTrunk t
    | false, true => stored.enableTrunk t
    | _, _ => stored).spendFree

/-- The checks of a TRUNK write: key, then fields (R24, R25). -/
def State.checkWriteTrunk (s : State) (key : Half) (f : TrunkWrite) :
    Checked (TrunkNo × Bool × SectionNo × Nat × Nat) :=
  match keyBelow 4 key with
  | none => .error .badKey
  | some t => (s.checkTrunk f).map (fun x => (t, x))

/-- WRITE_TRUNK (R25). -/
def execWriteTrunk (key : Half) (f : TrunkWrite) (s : State) : Host.Outcome State Fault Refusal :=
  .next (s.request (fun s =>
    checked (s.checkWriteTrunk key f) (fun p => (s.writeTrunk p.1 p.2, answer .ok)) s))

/-! ## ROLL CALL (R39) -/

/-- The trunk scans: RUNNING and enabled, as ROLL CALL and UNIT ACCESS ask (R39, R45). -/
def State.trunkReady (s : State) (t : TrunkNo) : Bool := decide (s.run = .running) && (s.trunks[t]).enabled

/-- The checks of ROLL CALL (R39). -/
def State.checkRollCall (s : State) (key : Half) : Checked TrunkNo := do
  match keyBelow 4 key with
  | none => .error .badKey
  | some t =>
    refuseUnless (s.trunkReady t) .wrongState
    refuseUnless (s.trunks[t]).rollCall.isNone .busy
    pure t

/-- The roll call a trunk's settings start (R39). -/
def Trunk.freshRollCall (u : Trunk) : RollCall where
  round := 0
  q := u.startQ
  found := 0
  refused := 0
  emptyRun := 0
  emptyToEnd := u.emptyRounds
  singles := 0
  collisions := 0

/-- The round counter as a roll call finds it (R30). On a trunk with no bound seat that has rested the rounds since then are
not told, and it is an open value (DESIGN CHOICE, assumption log 3 and 9). -/
def State.counterNow (s : State) (t : TrunkNo) : RoundCount :=
  if (s.trunks[t]).rested = true ∧ s.bound t = [] then Config.openRound s.free t.val else (s.trunks[t]).roundCounter

/-- A roll call is accepted (R39). -/
def State.startRollCall (s : State) (t : TrunkNo) : State :=
  (s.modTrunk t (fun u =>
    { u with rollCall := some u.freshRollCall, roundCounter := s.counterNow t, rested := false })).spendFree

/-- ROLL_CALL (R39). -/
def execRollCall (key : Half) (s : State) : Host.Outcome State Fault Refusal :=
  .next (s.request (fun s =>
    checked (s.checkRollCall key) (fun t => (s.startRollCall t, answer .accepted)) s))

/-! ## UNIT ACCESS (R45) -/

/-- The access a UNIT ACCESS names: address 1 to 254, parameter 0 to 63, direction READ or WRITE (R45). -/
def accessOf (address parameter direction : Byte) (value : Half) : Option AccessRequest :=
  if 1 ≤ address.toNat ∧ address.toNat ≤ 254 ∧ parameter.toNat ≤ 63 then
    (secondOfTwo direction).map (fun write =>
      { address := address.toNat, parameter := parameter.toNat, write := write, value := value })
  else none

/-- The checks of UNIT ACCESS in the order of R45. -/
def State.checkAccess (s : State) (key : Half) (address parameter direction : Byte) (value : Half) :
    Checked (TrunkNo × AccessRequest) := do
  match keyBelow 4 key with
  | none => .error .badKey
  | some t =>
    let r ← valueOf (accessOf address parameter direction value)
    refuseUnless (s.trunkReady t) .wrongState
    refuseUnless (decide ((s.trunks[t]).access = .idle)) .busy
    pure (t, r)

/-- UNIT_ACCESS (R45). -/
def execUnitAccess (key : Half) (address parameter direction : Byte) (value : Half) (s : State) :
    Host.Outcome State Fault Refusal :=
  .next (s.request (fun s =>
    checked (s.checkAccess key address parameter direction value)
      (fun p => (s.modTrunk p.1 (fun u => { u with access := .waiting p.2 }), answer .accepted)) s))

/-! ## Polls (R30, R32) -/

/-- The key mark a poll frame carries: that held for the seat (R32). -/
def State.markAt (s : State) (n : Nat) : KeyMark :=
  match s.seats.get n with
  | some x => x.keyMark
  | none => .none

/-- The next address of the scan round is polled (R30, R32). -/
def State.poll (s : State) (t : TrunkNo) : Option State :=
  let u := s.trunks[t]
  match u.line, u.toPoll with
  | .poll, a :: rest =>
    (s.seatAt t a).map (fun n =>
      (s.sendTrunk t [0x01, byte a, (s.markAt n).code]).modTrunk t (fun u =>
        { u with line := .polling a, toPoll := rest }))
  | _, _ => none

/-- POLL_SEND (R30, R32). -/
def execPollSend (trunk : TrunkNo) (s : State) : Host.Outcome State Fault Refusal :=
  .next (s.outOfReset (fun s => ((s.settle trunk).poll trunk).getD s))

/-- The end of a poll's exchange: what it brought is taken for the seat bound at the address, and the gap
follows (R30, R32); a binding released meanwhile leaves nothing to take (R28). -/
def State.endPoll (s : State) (t : TrunkNo) (take : Ev → Nat → Nat → Seat → Ev) : State :=
  match (s.trunks[t]).line with
  | .polling a =>
    let taken :=
      match s.seatAt t a with
      | none => s
      | some n =>
        match s.seats.get n with
        | some x => (take s.event a n x).finish
        | none => s
    (taken.frameDone t).enterGap t .release
  | _ => s

/-- What a poll reply brings: a valid one by R32, R34 and R35, another as a miss (R33). -/
def Ev.pollHeard (t : TrunkNo) (bytes : List Byte) (e : Ev) (a n : Nat) (x : Seat) : Ev :=
  match pollContents a bytes with
  | some key => e.pollValid t a n x key
  | none => e.miss n x

/-- POLL_REPLY (R32). -/
def execPollReply (trunk : TrunkNo) (bytes : List Byte) (s : State) : Host.Outcome State Fault Refusal :=
  .next (s.outOfReset (fun s => s.endPoll trunk (Ev.pollHeard trunk bytes)))

/-- POLL_NO_REPLY (R32, R33). -/
def execPollNoReply (trunk : TrunkNo) (s : State) : Host.Outcome State Fault Refusal :=
  .next (s.outOfReset (fun s => s.endPoll trunk (fun e _ n x => e.miss n x)))

/-! ## Gaps (R31) -/

/-- What the trunk, brought to its next exchange, sends in the gap it stands in. -/
def Trunk.gapOffer (u : Trunk) : Option GapStage :=
  match u.line with
  | .gap stage => u.offer stage
  | _ => none

/-- The indicator frame of a seat, where it is PRESENT (R38). -/
def State.sendIndicator (s : State) (t : TrunkNo) (n : Nat) : State :=
  match s.seats.get n with
  | some x =>
    match x.present, x.binding with
    | true, some (_, a) => s.sendTrunk t [0x02, byte a, (s.indicator n).code]
    | _, _ => s
  | none => s

/-- The head of the indicator list is served, and the gap ends (R31, R38). -/
def State.serveIndicator (s : State) (t : TrunkNo) : State :=
  match (s.trunks[t]).gapOffer, (s.trunks[t]).indicators with
  | some .indicator, n :: rest =>
    (((s.modTrunk t (fun u => { u with indicators := rest })).sendIndicator t n).modTrunk t
      (fun u => { u with hadGap := true, line := .poll })).settle t
  | _, _ => s

/-- INDICATOR_SEND (R38). -/
def execIndicatorSend (trunk : TrunkNo) (s : State) : Host.Outcome State Fault Refusal :=
  .next (s.outOfReset (fun s =>
    if ((s.settle trunk).trunks[trunk]).gapOffer = some .indicator then (s.settle trunk).serveIndicator trunk
    else s))

/-- The oldest address of the release list is released (R28, R31). -/
def State.serveRelease (s : State) (t : TrunkNo) : State :=
  match (s.trunks[t]).gapOffer, (s.trunks[t]).releases with
  | some .release, a :: rest =>
    ((s.sendTrunk t [0x03, byte a]).modTrunk t (fun u =>
      { u with releases := rest, releasing := some a })).enterGap t .access
  | _, _ => s

/-- RELEASE_SEND (R28). -/
def execReleaseSend (trunk : TrunkNo) (s : State) : Host.Outcome State Fault Refusal :=
  .next (s.outOfReset (fun s =>
    if ((s.settle trunk).trunks[trunk]).gapOffer = some .release then (s.settle trunk).serveRelease trunk
    else s))

/-- The address of an access is bound to a seat that is ABSENT (R46). -/
def State.accessAbsent (s : State) (t : TrunkNo) (r : AccessRequest) : Bool :=
  match s.seatAt t r.address with
  | some n => !s.isPresent n
  | none => false

/-- The value of an access frame; for READ an open value (R45, R169; DESIGN CHOICE, assumption log 3). -/
def State.accessValue (s : State) (r : AccessRequest) : Half := if r.write then r.value else Config.openHalf s.free

/-- The access frame is sent and its reply window opens (R46, R169). Its direction byte is 0 for READ and 1 for WRITE: DESIGN
CHOICE, assumption log 21; byte order assumption log 15. -/
def State.sendAccess (s : State) (t : TrunkNo) (r : AccessRequest) : State :=
  ((s.sendTrunk t ([0x08, byte r.address, byte r.parameter, flagByte r.write]
      ++ bytes2 (s.accessValue r).toNat)).modTrunk t (fun u =>
    { u with access := .sent r, line := .accessing })).spendFree

/-- A WAITING access is taken up (R46). -/
def State.serveAccess (s : State) (t : TrunkNo) : State :=
  match (s.trunks[t]).gapOffer, (s.trunks[t]).access with
  | some .access, .waiting r =>
    if s.accessAbsent t r then (s.completeAccess t r .noReply 0).enterGap t .indicator else s.sendAccess t r
  | _, _ => s

/-- ACCESS_SEND (R46). -/
def execAccessSend (trunk : TrunkNo) (s : State) : Host.Outcome State Fault Refusal :=
  .next (s.outOfReset (fun s =>
    if ((s.settle trunk).trunks[trunk]).gapOffer = some .access then (s.settle trunk).serveAccess trunk
    else s))

/-- The end of an access exchange with what its reply brought; the gap goes on (R31, R46). -/
def State.endAccess (s : State) (t : TrunkNo) (heard : AccessRequest → Option Half) : State :=
  match (s.trunks[t]).line, (s.trunks[t]).access with
  | .accessing, .sent r =>
    ((match heard r with
      | some v => s.completeAccess t r .ok (if r.write then 0 else v)
      | none => s.completeAccess t r .noReply 0).frameDone t).enterGap t .indicator
  | _, _ => s

/-- ACCESS_REPLY (R46). -/
def execAccessReply (trunk : TrunkNo) (bytes : List Byte) (s : State) : Host.Outcome State Fault Refusal :=
  .next (s.outOfReset (fun s => s.endAccess trunk (fun r => accessContents r bytes)))

/-- ACCESS_NO_REPLY (R46). -/
def execAccessNoReply (trunk : TrunkNo) (s : State) : Host.Outcome State Fault Refusal :=
  .next (s.outOfReset (fun s => s.endAccess trunk (fun _ => none)))

/-! ## Roll call rounds (R40) -/

/-- A roll call round begins: its round-start frame, marked in the first round of a roll call (R40). -/
def State.startRollRound (s : State) (t : TrunkNo) : Option State :=
  match (s.trunks[t]).line, (s.trunks[t]).rollCall with
  | .roundDue, some r =>
    some ((s.sendTrunk t [0x05, 0xFF, byte r.q, flagByte (decide (r.round = 0))]).modTrunk t (fun u =>
      { u with rollCall := some { r with singles := 0, collisions := 0 }, line := .slotDue 0 }))
  | _, _ => none

/-- ROUND_START (R40). -/
def execRoundStart (trunk : TrunkNo) (s : State) : Host.Outcome State Fault Refusal :=
  .next (s.outOfReset (fun s => ((s.settle trunk).startRollRound trunk).getD s))

/-- The next slot frame, opening the slot's reply window (R40; byte order assumption log 15). -/
def State.sendSlot (s : State) (t : TrunkNo) : State :=
  match (s.trunks[t]).line with
  | .slotDue k =>
    (s.sendTrunk t ([0x06, 0xFF] ++ bytes2 k)).modTrunk t (fun u => { u with line := .slotOpen k })
  | _ => s

/-- SLOT_SEND (R40). -/
def execSlotSend (trunk : TrunkNo) (s : State) : Host.Outcome State Fault Refusal :=
  .next (s.outOfReset (fun s => s.sendSlot trunk))

/-- A reply in an open slot: a SINGLE, resolved before the next slot, or a COLLISION (R40, R41). In the last slot of a round
the SINGLE's event is finished, with the AUTO grants it owes (R58), before the round ends (R43): DESIGN CHOICE, assumption
log 18. -/
def State.hearSlot (s : State) (t : TrunkNo) (bytes : List Byte) : State :=
  match (s.trunks[t]).line with
  | .slotOpen k =>
    (match slotContents bytes with
      | some (serial, kind) => (((s.frameDone t).countSlot t true).event.single t serial kind).finish
      | none => (s.frameDone t).countSlot t false).endSlot t k
  | _ => s

/-- SLOT_REPLY (R40). -/
def execSlotReply (trunk : TrunkNo) (bytes : List Byte) (s : State) : Host.Outcome State Fault Refusal :=
  .next (s.outOfReset (fun s => s.hearSlot trunk bytes))

/-- An EMPTY slot (R40). -/
def State.passSlot (s : State) (t : TrunkNo) : State :=
  match (s.trunks[t]).line with
  | .slotOpen k => (s.frameDone t).endSlot t k
  | _ => s

/-- SLOT_EMPTY (R40). -/
def execSlotEmpty (trunk : TrunkNo) (s : State) : Host.Outcome State Fault Refusal :=
  .next (s.outOfReset (fun s => s.passSlot trunk))

/-- LATE_REPLY: a reply outside its window, or to an exchange abandoned, is ignored (R32). -/
def execLateReply (_trunk : TrunkNo) (_bytes : List Byte) (s : State) : Host.Outcome State Fault Refusal := .next s

end Sys2Proof.Machine
end

