-- ==== Sys2Proof/Machine/Dispatch.lean ====
section
/-! DEFINITION. The commands' dispatch: one arm per constructor of `Instr`, each one call of its meaning. -/

namespace Sys2Proof.Machine
open Sys2Proof

def exec (i : Instr) (s : State) : Host.Outcome State Fault Refusal :=
  match i with
  | .hardwareReset => Sys2Proof.Machine.execHardwareReset s
  | .resetAsserted => Sys2Proof.Machine.execResetAsserted s
  | .transferInReset ended => Sys2Proof.Machine.execTransferInReset ended s
  | .notReadyTransfer => Sys2Proof.Machine.execNotReadyTransfer s
  | .noOp => Sys2Proof.Machine.execNoOp s
  | .read table key => Sys2Proof.Machine.execRead table key s
  | .writeVenue key f => Sys2Proof.Machine.execWriteVenue key f s
  | .writeSection key f => Sys2Proof.Machine.execWriteSection key f s
  | .writeWall key f => Sys2Proof.Machine.execWriteWall key f s
  | .writeSeat key f => Sys2Proof.Machine.execWriteSeat key f s
  | .writeBooth key f => Sys2Proof.Machine.execWriteBooth key f s
  | .writeLanguage key f => Sys2Proof.Machine.execWriteLanguage key f s
  | .writeCarrier key f => Sys2Proof.Machine.execWriteCarrier key f s
  | .writeSelector key f => Sys2Proof.Machine.execWriteSelector key f s
  | .writeTrunk key f => Sys2Proof.Machine.execWriteTrunk key f s
  | .retireSeat key => Sys2Proof.Machine.execRetireSeat key s
  | .retireBooth key => Sys2Proof.Machine.execRetireBooth key s
  | .retireLanguage key => Sys2Proof.Machine.execRetireLanguage key s
  | .start => Sys2Proof.Machine.execStart s
  | .stop => Sys2Proof.Machine.execStop s
  | .freeze key => Sys2Proof.Machine.execFreeze key s
  | .thaw key => Sys2Proof.Machine.execThaw key s
  | .grant key => Sys2Proof.Machine.execGrant key s
  | .close key => Sys2Proof.Machine.execClose key s
  | .withdraw key => Sys2Proof.Machine.execWithdraw key s
  | .promote key => Sys2Proof.Machine.execPromote key s
  | .next key => Sys2Proof.Machine.execNext key s
  | .clearFloor key => Sys2Proof.Machine.execClearFloor key s
  | .pin key language => Sys2Proof.Machine.execPin key language s
  | .unpin key => Sys2Proof.Machine.execUnpin key s
  | .extend key => Sys2Proof.Machine.execExtend key s
  | .select key => Sys2Proof.Machine.execSelect key s
  | .closeMarked key => Sys2Proof.Machine.execCloseMarked key s
  | .rollCall key => Sys2Proof.Machine.execRollCall key s
  | .unitAccess key address parameter direction value => Sys2Proof.Machine.execUnitAccess key address parameter direction value s
  | .resend => Sys2Proof.Machine.execResend s
  | .takeNotice => Sys2Proof.Machine.execTakeNotice s
  | .clearOverflow => Sys2Proof.Machine.execClearOverflow s
  | .rawContactChange wall made => Sys2Proof.Machine.execRawContactChange wall made s
  | .debounceEnd wall => Sys2Proof.Machine.execDebounceEnd wall s
  | .pollSend trunk => Sys2Proof.Machine.execPollSend trunk s
  | .pollReply trunk bytes => Sys2Proof.Machine.execPollReply trunk bytes s
  | .pollNoReply trunk => Sys2Proof.Machine.execPollNoReply trunk s
  | .indicatorSend trunk => Sys2Proof.Machine.execIndicatorSend trunk s
  | .releaseSend trunk => Sys2Proof.Machine.execReleaseSend trunk s
  | .accessSend trunk => Sys2Proof.Machine.execAccessSend trunk s
  | .accessReply trunk bytes => Sys2Proof.Machine.execAccessReply trunk bytes s
  | .accessNoReply trunk => Sys2Proof.Machine.execAccessNoReply trunk s
  | .roundStart trunk => Sys2Proof.Machine.execRoundStart trunk s
  | .slotSend trunk => Sys2Proof.Machine.execSlotSend trunk s
  | .slotReply trunk bytes => Sys2Proof.Machine.execSlotReply trunk bytes s
  | .slotEmpty trunk => Sys2Proof.Machine.execSlotEmpty trunk s
  | .mainExpiry seat => Sys2Proof.Machine.execMainExpiry seat s
  | .graceExpiry seat => Sys2Proof.Machine.execGraceExpiry seat s
  | .noiseReport bytes => Sys2Proof.Machine.execNoiseReport bytes s
  | .zoneProgrammeSend => Sys2Proof.Machine.execZoneProgrammeSend s
  | .matrixMessageSend => Sys2Proof.Machine.execMatrixMessageSend s
  | .transferAccepted => Sys2Proof.Machine.execTransferAccepted s
  | .badFrameRequest bytes => Sys2Proof.Machine.execBadFrameRequest bytes s
  | .lateReply trunk bytes => Sys2Proof.Machine.execLateReply trunk bytes s

end Sys2Proof.Machine
end

