-- ==== Sys2Proof/Safety.lean ====
section
/-! DEFINITION. The terms the statements are made in: the parts of the state and which of them a command may
change, when the port takes a request and what it answers, and the invariants. -/

namespace Sys2Proof.Machine
open Sys2Proof

/-! ## The parts of the state -/

/-- The parts of the state: every field of every record belongs to one of them. -/
inductive Part where
  | pending | free | resetLow | port | run | venue | notices
  /-- The settings of the sections (R1). -/
  | settings
  /-- The room fields of the sections (R4, R17). -/
  | composition
  /-- The writable fields of the walls (R5). -/
  | wallSetup
  /-- The contact levels, sensed states and debounce intervals of the walls (R7, R8). -/
  | wallSense
  /-- The effective states and pending flags of the walls (R11, R14). -/
  | wallState
  | frozen | holds | floorLanguage | pin
  /-- The languages of the rooms' channels with their carriers (R124, R132). -/
  | carriersHeld
  /-- The languages of the rooms' channels with their sources (R125). -/
  | channelSources
  /-- Kind, class, section, language, trims and serial of the seats (R50). -/
  | seatSetup
  | seatBooth | neighbours | seatFlags
  | binding
  /-- The present states and miss counts of the seats (R26). -/
  | presence
  | keyMark
  /-- The request pool (R54). -/
  | pool
  /-- The seats of the speaker list in its order (R57). -/
  | speakers
  /-- The timers of the speaker list in its order (R79). -/
  | timers
  | chairs | selectors
  | trunkSetup
  /-- Where a trunk's scan round stands (R29 to R31), and whether its frame is still on the line (R170). -/
  | line
  /-- The round counter and the release-all mark of a trunk (R29, R30), and its mark of uncounted rounds. -/
  | round
  | indicators | releases | releasing | rollCall | access | lastFrame
  | languages
  /-- Output, sources, home, interlock, fill and gain of the booths (R113). -/
  | boothSetup
  | desks | liveDesk | listen
  | carriers | programmes | shadow | sendList | radiatorLine | matrixLine
deriving DecidableEq, Repr

/-- The fields of a seat record that only a host write or a roll call's creation sets. -/
def Seat.setup (x : Seat) :
    Kind × SeatClass × SectionNo × Nat × Option Int × Option Int × Option Word :=
  (x.kind, x.seatClass, x.section_, x.language, x.micTrim, x.speakerTrim, x.serial)

/-- The writable fields of a booth record. -/
def Booth.setup (y : Booth) : Nat × List Nat × SectionNo × Bool × Bool × Int :=
  (y.output, y.sources, y.home, y.takeover, y.fillFloor, y.gain)

/-- The writable fields of a trunk record. -/
def Trunk.setup (u : Trunk) : Bool × SectionNo × Nat × Nat :=
  (u.enabled, u.defaultSection, u.startQ, u.emptyRounds)

/-- Two tables hold the same of a field, record by record. -/
def sameIn {α β : Type} (f : α → β) (m n : FMap α) : Prop := ∀ k, (n.get k).map f = (m.get k).map f

/-- Two vectors of records hold the same of a field, record by record. -/
def sameAt {α β : Type} {n : Nat} (f : α → β) (v w : Vector α n) : Prop := ∀ i : Fin n, f w[i] = f v[i]

/-- A part of the state is the same in two states. -/
def Part.same : Part → State → State → Prop
  | .pending, s, t => t.pending = s.pending
  | .free, s, t => t.free = s.free
  | .resetLow, s, t => t.resetLow = s.resetLow
  | .port, s, t => t.port = s.port
  | .run, s, t => t.run = s.run
  | .venue, s, t => t.venue = s.venue
  | .notices, s, t => t.notices = s.notices
  | .settings, s, t => sameAt Section.settings s.sections t.sections
  | .composition, s, t => sameAt Section.room s.sections t.sections
  | .wallSetup, s, t => sameAt Wall.setup s.walls t.walls
  | .wallSense, s, t => sameAt (fun x : Wall => (x.made, x.sensed, x.interval)) s.walls t.walls
  | .wallState, s, t => sameAt (fun x : Wall => (x.effective, x.pendingFlag)) s.walls t.walls
  | .frozen, s, t => sameAt Room.frozen s.rooms t.rooms
  | .holds, s, t => sameAt (fun r : Room => (r.holding, r.holdAction)) s.rooms t.rooms
  | .floorLanguage, s, t => sameAt Room.floorLanguage s.rooms t.rooms
  | .pin, s, t => sameAt Room.pin s.rooms t.rooms
  | .carriersHeld, s, t =>
    sameAt (fun r : Room => r.channels.map (fun h => (h.language, h.carrier))) s.rooms t.rooms
  | .channelSources, s, t =>
    sameAt (fun r : Room => r.channels.map (fun h => (h.language, h.source))) s.rooms t.rooms
  | .seatSetup, s, t => sameIn Seat.setup s.seats t.seats
  | .seatBooth, s, t => sameIn Seat.booth s.seats t.seats
  | .neighbours, s, t => sameIn Seat.neighbours s.seats t.seats
  | .seatFlags, s, t => sameIn (fun x : Seat => (x.lock, x.mark)) s.seats t.seats
  | .binding, s, t => sameIn Seat.binding s.seats t.seats
  | .presence, s, t => sameIn (fun x : Seat => (x.present, x.misses)) s.seats t.seats
  | .keyMark, s, t => sameIn Seat.keyMark s.seats t.seats
  | .pool, s, t => t.pool = s.pool
  | .speakers, s, t => t.speakers.map Speaker.seat = s.speakers.map Speaker.seat
  | .timers, s, t => t.speakers.map Speaker.timer = s.speakers.map Speaker.timer
  | .chairs, s, t => t.chairs = s.chairs
  | .selectors, s, t => t.selectors = s.selectors
  | .trunkSetup, s, t => sameAt Trunk.setup s.trunks t.trunks
  | .line, s, t => sameAt (fun u : Trunk => (u.line, u.toPoll, u.hadGap, u.sending)) s.trunks t.trunks
  | .round, s, t => sameAt (fun u : Trunk => (u.roundCounter, u.releaseAll, u.rested)) s.trunks t.trunks
  | .indicators, s, t => sameAt Trunk.indicators s.trunks t.trunks
  | .releases, s, t => sameAt Trunk.releases s.trunks t.trunks
  | .releasing, s, t => sameAt Trunk.releasing s.trunks t.trunks
  | .rollCall, s, t => sameAt Trunk.rollCall s.trunks t.trunks
  | .access, s, t => sameAt Trunk.access s.trunks t.trunks
  | .lastFrame, s, t => sameAt Trunk.lastFrame s.trunks t.trunks
  | .languages, s, t => sameIn id s.languages t.languages
  | .boothSetup, s, t => sameIn Booth.setup s.booths t.booths
  | .desks, s, t => sameIn Booth.desks s.booths t.booths
  | .liveDesk, s, t => sameIn Booth.live s.booths t.booths
  | .listen, s, t => sameIn Booth.listen s.booths t.booths
  | .carriers, s, t => t.carriers = s.carriers
  | .programmes, s, t => t.programmes = s.programmes
  | .shadow, s, t => t.shadow = s.shadow
  | .sendList, s, t => t.sendList = s.sendList
  | .radiatorLine, s, t => t.radiatorLine = s.radiatorLine
  | .matrixLine, s, t => t.matrixLine = s.matrixLine

/-- Every part of the state but those listed is the same in two states: the frame of a change. -/
def Changes (parts : List Part) (s t : State) : Prop := ∀ p, p ∉ parts → p.same s t

/-! ## What each command may change -/

/-- What the opening and closing of microphones and the requests to speak may change, with the recomputations
that follow (R55 to R60, R71, R76, R122, R125, R150, R151). -/
def floorParts : List Part :=
  [.notices, .pool, .speakers, .timers, .chairs, .floorLanguage, .indicators, .listen, .channelSources,
    .shadow, .sendList]

/-- What the closing of microphones and the withdrawal of requests may change where no grant follows (R56, R58, R68,
R77). -/
def shutParts : List Part :=
  [.notices, .pool, .speakers, .timers, .chairs, .indicators, .shadow, .sendList]

/-- What a recomputation of listen and channel sources may change (R122, R123, R125, R151). -/
def sourceParts : List Part := [.notices, .listen, .channelSources, .shadow, .sendList]

/-- What a change of a wall's effective state may change beyond it: the rooms, and every room's floor, booths and
channels (R19, R20, R95 to R104, R126, R127, R139, R140). -/
def roomParts : List Part :=
  floorParts ++ [.composition, .frozen, .holds, .pin, .carriersHeld, .liveDesk, .programmes]

/-- The fields of a seat record. -/
def seatParts : List Part := [.seatSetup, .seatBooth, .neighbours, .seatFlags, .binding, .presence, .keyMark]

/-- What the loss of a unit may change (R33, R75, R121). -/
def lossParts : List Part := floorParts ++ [.presence, .holds, .liveDesk]

/-- What a frame put on a trunk changes: the frame, and where the trunk stands after it (R30, R31, R169). -/
def lineParts : List Part := [.line, .round]

/-- Every part but the queue of commands and the count of open values. -/
def recordParts : List Part :=
  [.resetLow, .port, .run, .venue] ++ roomParts ++ [.settings, .wallSetup, .wallSense, .wallState] ++ seatParts
    ++ [.selectors, .trunkSetup, .line, .round, .releases, .releasing, .rollCall, .access, .lastFrame, .languages,
      .boothSetup, .desks, .carriers, .radiatorLine, .matrixLine]

/-- The parts a command may change, by the rules of its chapter. -/
def parts : Instr → List Part
  | .hardwareReset => recordParts
  | .resetAsserted => [.resetLow, .port, .line]
  | .transferInReset _ => [.port]
  | .notReadyTransfer => [.port]
  | .noOp => [.port]
  | .read _ _ => [.port, .free]
  | .writeVenue _ _ => [.port, .free, .venue]
  | .writeSection _ _ => .port :: .settings :: floorParts
  | .writeWall _ _ => [.port, .free, .wallSetup, .wallSense, .wallState] ++ roomParts
  | .writeSeat _ _ => .port :: .desks :: seatParts ++ floorParts
  | .writeBooth _ _ =>
    [.port, .boothSetup, .desks, .liveDesk, .indicators, .carriersHeld, .programmes] ++ sourceParts
  | .writeLanguage _ _ => .port :: .languages :: sourceParts
  | .writeCarrier _ _ => [.port, .free, .carriers, .notices, .carriersHeld, .programmes]
  | .writeSelector _ _ => [.port, .free, .selectors]
  | .writeTrunk _ _ =>
    [.port, .free, .trunkSetup, .line, .round, .releases, .releasing, .rollCall, .access, .lastFrame] ++ lossParts
  | .retireSeat _ => [.port, .desks, .liveDesk, .holds, .releases] ++ seatParts ++ floorParts
  | .retireBooth _ =>
    [.port, .seatBooth, .boothSetup, .desks, .liveDesk, .indicators, .carriersHeld, .programmes] ++ sourceParts
  | .retireLanguage _ => .port :: .languages :: sourceParts
  | .start => [.port, .run, .shadow, .sendList, .programmes, .indicators, .releasing, .lastFrame] ++ lineParts
  | .stop =>
    [.port, .free, .run, .holds, .liveDesk, .listen, .channelSources, .programmes, .line, .releases, .releasing,
      .rollCall, .access] ++ shutParts
  | .freeze _ => [.port, .frozen]
  | .thaw _ => .port :: .wallState :: roomParts
  | .grant _ => .port :: floorParts
  | .close _ => .port :: floorParts
  | .withdraw _ => [.port, .pool, .notices, .indicators]
  | .promote _ => [.port, .pool]
  | .next _ => .port :: floorParts
  | .clearFloor _ => .port :: shutParts
  | .pin _ _ => .port :: .pin :: .floorLanguage :: sourceParts
  | .unpin _ => [.port, .pin]
  | .extend _ => [.port, .timers, .notices, .indicators]
  | .select _ => [.port, .seatFlags, .pool, .notices, .indicators]
  | .closeMarked _ => .port :: floorParts
  | .rollCall _ => [.port, .free, .rollCall, .round]
  | .unitAccess _ _ _ _ _ => [.port, .access]
  | .resend => [.port, .sendList]
  | .takeNotice => [.port, .notices]
  | .clearOverflow => [.port, .notices]
  | .rawContactChange _ _ => .wallSense :: .wallState :: roomParts
  | .debounceEnd _ => .wallSense :: .wallState :: roomParts
  | .pollSend _ => [.lastFrame, .releasing] ++ lineParts
  | .pollReply _ _ => .keyMark :: lineParts ++ lossParts
  | .pollNoReply _ => lineParts ++ lossParts
  | .indicatorSend _ => [.indicators, .lastFrame, .releasing] ++ lineParts
  | .releaseSend _ => [.releases, .lastFrame, .releasing] ++ lineParts
  | .accessSend _ => [.access, .lastFrame, .releasing, .free, .notices] ++ lineParts
  | .accessReply _ _ => [.access, .notices] ++ lineParts
  | .accessNoReply _ => [.access, .notices] ++ lineParts
  | .roundStart _ => [.rollCall, .lastFrame, .releasing] ++ lineParts
  | .slotSend _ => [.line, .lastFrame, .releasing]
  | .slotReply _ _ => [.rollCall, .lastFrame, .releasing, .releases] ++ seatParts ++ lineParts ++ lossParts
  | .slotEmpty _ => [.rollCall, .notices] ++ lineParts
  | .mainExpiry _ => floorParts
  | .graceExpiry _ => floorParts
  | .noiseReport _ => [.carriers, .notices, .carriersHeld, .programmes]
  | .zoneProgrammeSend => [.programmes, .radiatorLine]
  | .matrixMessageSend => [.sendList, .matrixLine]
  | .transferAccepted => [.port]
  | .badFrameRequest _ => [.port]
  | .lateReply _ _ => []

/-! ## Invariants -/

/-- The tables and lists are held in their one form: a wall names its lower section first (R5), record keys rise, no
list holds an item twice, the notice queue holds at most 64, and the bytes of every frame on a line sum to 0 modulo 256
(R36, R139, R152, R166, R169). -/
structure Tidy (s : State) : Prop where
  pairs : ∀ (w : WallNo) (a b : SectionNo), (s.walls[w]).setup.pair = some (a, b) → a < b
  seats : s.seats.wf = true
  languages : s.languages.wf = true
  booths : s.booths.wf = true
  shadowSeats : s.shadow.seats.wf = true
  shadowBooths : s.shadow.booths.wf = true
  shadowChannels : s.shadow.channels.wf = true
  notices : s.notices.queue.length ≤ 64
  sends : s.sendList.Nodup
  programmes : s.programmes.Nodup
  indicators : ∀ t : TrunkNo, (s.trunks[t]).indicators.Nodup
  releases : ∀ t : TrunkNo, (s.trunks[t]).releases.Nodup
  frames : ∀ t : TrunkNo, sumBytes (s.trunks[t]).lastFrame = 0
  radiator : sumBytes s.radiatorLine = 0
  matrix : sumBytes s.matrixLine = 0

/-- Two sections are joined by one effectively open wall (R17). -/
def State.joined (s : State) (a b : SectionNo) : Prop :=
  ∃ w : WallNo, (s.walls[w]).effective = true ∧
    ((s.walls[w]).setup.pair = some (a, b) ∨ (s.walls[w]).setup.pair = some (b, a))

/-- Two sections are connected through a chain of effectively open walls (R17). -/
def State.connected (s : State) : SectionNo → SectionNo → Prop := Relation.ReflTransGen s.joined

/-- Two sections are in one room exactly when a chain of effectively open walls connects them, and the lead of a
room is its lowest section (R17). -/
structure RoomsFollowWalls (s : State) : Prop where
  rooms : ∀ a b : SectionNo, s.roomOf a = s.roomOf b ↔ s.connected a b
  leads : ∀ a : SectionNo, s.roomOf (s.roomOf a) = s.roomOf a ∧ s.roomOf a ≤ a

/-- The floor is in order: the speaker list names delegates, the chair set chairs and the pool delegates that do not
speak and carry no LOCK, all PRESENT, each once (R54, R55, R57); the pool holds at most 256 (R54); no room has more
speaking delegates than its speaker limit or a longer queue than its queue limit (R54, R59, R70, R101, R102); and no
head of a queue is left that auto-advance would grant (R60). -/
structure FloorInOrder (s : State) : Prop where
  limits : ∀ l : SectionNo, 1 ≤ (s.settings l).speakerLimit
  speakers : ∀ y ∈ s.speakers, ∃ x, s.seats.get y.seat = some x ∧ x.kind = .delegate ∧ x.present = true
  chairs : ∀ c ∈ s.chairs, ∃ x, s.seats.get c = some x ∧ x.kind = .chair ∧ x.present = true
  waiting : ∀ r ∈ s.pool, ∃ x, s.seats.get r.seat = some x ∧ x.kind = .delegate ∧ x.present = true ∧
    x.lock = false ∧ r.seat ∉ s.speakers.map Speaker.seat
  speakersOnce : (s.speakers.map Speaker.seat).Nodup
  chairsOnce : s.chairs.Nodup
  poolOnce : (s.pool.map Request.seat).Nodup
  capacity : s.pool.length ≤ 256
  within : ∀ l : SectionNo, s.isLead l = true → (s.roomSpeakers l).length ≤ (s.settings l).speakerLimit
  queues : ∀ l : SectionNo, s.isLead l = true → (s.poolOf l).length ≤ (s.settings l).queueLimit
  advanced : ∀ l : SectionNo, s.isLead l = true → s.advanceHead l = none

/-- The desks are in order: a booth's desk list holds, once each and at most three, exactly the desks whose booth
field names it (R117); its LIVE desk is one of them; and in a room at most one booth of an output language is LIVE
(R118, R119). -/
structure DesksInOrder (s : State) : Prop where
  named : ∀ n x b, s.seats.get n = some x → x.booth = some b →
    x.kind = .desk ∧ ∃ y, s.booths.get b = some y ∧ n ∈ y.desks
  listed : ∀ b y, s.booths.get b = some y → y.desks.Nodup ∧ y.desks.length ≤ 3 ∧
    ∀ n ∈ y.desks, ∃ x, s.seats.get n = some x ∧ x.booth = some b
  live : ∀ b y n, s.booths.get b = some y → y.live = some n → n ∈ y.desks
  groups : ∀ b c y z, s.booths.get b = some y → s.booths.get c = some z → y.live.isSome = true →
    z.live.isSome = true → s.boothRoom y = s.boothRoom z → y.output = z.output → b = c

/-- In every room, every carrier a channel stands on is usable there, and no other channel of the room stands on
it (R132); a room's channels have different languages (R124). -/
structure CarriersApart (s : State) : Prop where
  leads : ∀ a : SectionNo, s.roomOf (s.roomOf a) = s.roomOf a
  languages : ∀ l : SectionNo, ((s.rooms[l]).channels.map Channel.language).Nodup
  apart : ∀ l : SectionNo, ((s.rooms[l]).channels.filterMap Channel.carrier).Nodup
  usable : ∀ l : SectionNo, s.isLead l = true →
    ∀ h ∈ (s.rooms[l]).channels, ∀ c, h.carrier = some c → s.usable l c = true

/-- The languages of a room's channel list are the floor channel's 0 and, rising, those that a booth of the room produces
(R124). -/
def channelsFormed (t : State) (l : SectionNo) : Prop :=
  ((t.rooms[l]).channels.map Channel.language) =
    0 :: (List.range' 1 24).filter (fun x => t.booths.cells.any (fun c =>
      decide (t.roomOf c.2.home = l) && decide (c.2.output = x)))

/-- The channel list of every room is the one its booths form (R124). -/
def ChannelsFollowBooths (s : State) : Prop := ∀ l : SectionNo, s.isLead l = true → channelsFormed s l

/-- Every invariant of this file. -/
structure InOrder (s : State) : Prop where
  tidy : Tidy s
  rooms : RoomsFollowWalls s
  floor : FloorInOrder s
  desks : DesksInOrder s
  carriers : CarriersApart s
  channels : ChannelsFollowBooths s

/-! ## The port -/

/-- The port takes a request: RESET is high, and no transfer that RESET cut off is still selected (R156,
R171). -/
def State.takes (s : State) : Prop := s.resetLow = false ∧ s.port.phase ≠ .stale

/-- The port after a request is answered: READY high, the response in the buffer; the transfer that carried the
request shifted out the response before it (R156, R157). -/
def State.portAfter (s : State) (r : Response) : Port where
  phase := .free
  buffer := some r
  shift :=
    match s.port.phase with
    | .free => .bytes (match s.port.buffer with
        | some q => s.responseBytes q
        | none => [])
    | _ => s.port.shift

/-- A command answers a response with the port as after any request, and leads to a state. -/
def answers (c : Instr) (s : State) (r : Response) (t : State) : Prop :=
  exec c s = .next t ∧ t.port = s.portAfter r

/-- A request refused with a status has no other effect (R159, R160). -/
def refused (c : Instr) (s : State) (st : Status) : Prop :=
  exec c s = .next (s.setPort (s.portAfter ⟨st, []⟩))

/-- The notice queue of a state begins with that of another followed by some notices, those the filter and the
bound of the queue let through (R165, R166). -/
def noticesFirst (s t : State) (ns : List Notice) : Prop :=
  ∃ more, t.notices.queue = (ns.foldl State.notify s).notices.queue ++ more

/-- Some seats, one after another, were each placed on the indicator list of the trunk they are bound to: a seat joins at
the tail or keeps the place it had, one that is not bound is ignored, and nothing else joined or left a list (R36). -/
def placed (s t : State) (ns : List Nat) : Prop :=
  ∀ k : TrunkNo, (t.trunks[k]).indicators =
    (ns.filter (fun n => decide (((s.seats.get n).bind Seat.binding).map Prod.fst = some k))).foldl joinTail
      (s.trunks[k]).indicators

/-- A key names a room: the number of a section that is at present a lead (R13, R64). -/
def State.names (s : State) (key : Half) (l : SectionNo) : Prop := key.toNat = l.val ∧ s.roomOf l = l

/-- The attenuation of N open microphones, N from 1 to 16, in steps (R145). -/
def attenuations : List Int := [0, 6, 10, 12, 14, 16, 17, 18, 19, 20, 21, 22, 22, 23, 24, 24]

/-- The three shadow entries of an in-use seat, spelled from the records (R145 to R148, R154): a microphone that is
open and not muted by a hold stands at the floor master, its trim and less the attenuation of the room's open
microphones that are not muted; a loudspeaker at the speaker master and its trim, less the duck depth beside an open
neighbour of its room, and MUTE beside its own open microphone; a LIVE desk at its booth's gain. -/
def levelsBy (t : State) (n : Nat) (x : Seat) : SeatLevels :=
  let l := t.roomOf x.section_
  let set := t.settings l
  let muted : Bool := decide ((t.rooms[l]).holding ≠ [] ∧ (t.rooms[l]).holdAction = some .muteWhileHeld)
  let speaks (m : Nat) : Bool := decide (m ∈ t.speakers.map Speaker.seat)
  let isOpen (m : Nat) : Bool := speaks m || decide (m ∈ t.chairs)
  let count : Nat := (if muted then 0 else (t.speakers.filter (fun y => t.seatIn l y.seat)).length)
    + (t.chairs.filter (t.seatIn l)).length
  let clamped (g : Int) : Level := if 12 < g then .steps 12 else if g < -120 then .mute else .steps g
  let gain := set.floorMaster + x.micTrim.getD set.micTrim - attenuations.getD (min count 16 - 1) 0
  let base := set.speakerMaster + x.speakerTrim.getD set.speakerTrim
  let ducked : Bool := x.neighbours.any (fun m => isOpen m && t.seatIn l m)
  let running : SeatLevels :=
    match x.kind with
    | .desk =>
      { input := match x.booth.bind t.booths.get with
          | some y => if y.live = some n then .steps y.gain else .mute
          | none => .mute }
    | _ =>
      { input := if isOpen n && !(decide (x.kind = .delegate) && muted) then clamped gain else .mute
        output := if isOpen n then .mute else clamped (if ducked then base - set.duck else base)
        bus := some l }
  match t.run with
  | .running => running
  | .halted => { bus := running.bus }

/-- A shadow entry has another value in the later state; a channel entry is that of a language 0 to 24 (R144). -/
def entryChanged (s t : State) : Entry → Prop
  | .input n => (t.shadow.seat n).input ≠ (s.shadow.seat n).input
  | .output n => (t.shadow.seat n).output ≠ (s.shadow.seat n).output
  | .bus n => (t.shadow.seat n).bus ≠ (s.shadow.seat n).bus
  | .listen b => t.shadow.booths.get b ≠ s.shadow.booths.get b
  | .channel l x => x < 25 ∧ t.shadow.channels.get (25 * l + x) ≠ s.shadow.channels.get (25 * l + x)

/-- The place of a seat's entry among those of one recomputation: by seat, the floor bus, then the input, then the
output level (R150); none for a source entry. -/
def Entry.seatPlace : Entry → Option Nat
  | .bus n => some (3 * n)
  | .input n => some (3 * n + 1)
  | .output n => some (3 * n + 2)
  | .listen _ => none
  | .channel _ _ => none

/-- One event's entries join in the order of the recomputation, the seat entries before the source entries (R150, R151). -/
def Entry.before (a b : Entry) : Prop :=
  match a.seatPlace, b.seatPlace with
  | some i, some j => i < j
  | none, some _ => False
  | _, none => True

/-- What an event did to the send list: in RUNNING exactly the entries whose value it changed joined at the tail, but
for those that waited already and keep their place; in HALTED none joined (R150, R151, R152, R154). -/
structure EntriesListed (s t : State) : Prop where
  halted : s.run = .halted → t.sendList = s.sendList
  running : s.run = .running → ∃ joined, t.sendList = s.sendList ++ joined ∧
    (∀ e, e ∈ joined ↔ entryChanged s t e ∧ e ∉ s.sendList) ∧ joined.Pairwise Entry.before

/-- The room that computes a seat's levels: that of its section, for a desk that of its booth (R145). -/
def State.levelsIn (t : State) (y : Seat) : Option SectionNo :=
  match y.kind with
  | .desk => (y.booth.bind t.booths.get).map (fun z => t.roomOf z.home)
  | _ => some (t.roomOf y.section_)

/-- The Level Engine has taken a room: the shadow of every seat of it holds the levels and the bus that R145 to R148 give
by the state as it stands, and what differed is due to be sent (R150, R152, R154). The desks and the send list rest on
the lists being in their one form. -/
structure LevelsTaken (s t : State) (l : SectionNo) : Prop where
  seats : ∀ m y, t.seats.get m = some y → y.kind ≠ .desk → t.roomOf y.section_ = l → t.shadow.seat m = levelsBy t m y
  desks : InOrder s → ∀ m y, t.seats.get m = some y → t.levelsIn y = some l → t.shadow.seat m = levelsBy t m y
  listed : InOrder s → EntriesListed s t

/-- The source of a channel of a room, spelled from the records (R125): FLOOR for the floor channel and for the floor
language as it counts, else the LIVE booth of the language's group, else the fill of the group's lowest booth. -/
def channelSourced (t : State) (l : SectionNo) (language : Nat) (source : ChannelSource) : Prop :=
  let spoken := (t.rooms[l]).floorLanguage
  let floor := if (t.languages.get spoken).isSome then spoken else 0
  let group := t.booths.cells.filter (fun c => decide (t.roomOf c.2.home = l ∧ c.2.output = language))
  if language = 0 ∨ language = floor then source = .floor
  else
    match group.find? (fun c => c.2.live.isSome), group.head? with
    | some c, _ => source = .booth c.1
    | none, some c => source = if c.2.fillFloor then .floor else .silence
    | none, none => True

/-- The shadow's source entries of a room are those of its booths, a relay missing standing as FLOOR, and of the channels
of its list, NONE for every other language; the entries of a section that leads no room and of a free booth are NONE
(R122, R151). -/
structure SourcesShown (t : State) (l : SectionNo) : Prop where
  booths : ∀ b y, t.booths.get b = some y → t.roomOf y.home = l → t.shadow.booths.get b = some (match y.listen with
    | .relay c => .relay c
    | .floor => .floor
    | .relayMissing => .floor)
  channels : ∀ x, x < 25 → t.shadow.channel l x =
    ((t.rooms[l]).channels.find? (fun h => decide (h.language = x))).map Channel.source
  noLead : ∀ i : SectionNo, t.isLead i = false → ∀ x, x < 25 → t.shadow.channel i x = none
  noBooth : ∀ b, t.booths.get b = none → t.shadow.booths.get b = none

/-- The Interpretation Manager has taken a room: the listen source of every booth of it is that of the pass, and the
source of every channel of it that of R125, by the state as it stands; the shadow shows them, and what differed is due to
be sent (R122, R123, R125, R151, R152, R154). The shadow and the send list rest on the lists being in their one form. -/
structure SourcesTaken (s t : State) (l : SectionNo) : Prop where
  listens : ∀ b y, t.booths.get b = some y → t.boothRoom y = l → y.listen = t.listenFor l y
  channels : ∀ h ∈ (t.rooms[l]).channels, channelSourced t l h.language h.source
  shown : InOrder s → SourcesShown t l
  listed : InOrder s → EntriesListed s t

/-- Every bound seat whose indicator state an event changed stands on its trunk's indicator list (R36, R120). -/
def IndicatorsShown (s t : State) : Prop :=
  ∀ n x k a, s.seats.get n = some x → x.binding = some (k, a) → s.indicator n ≠ t.indicator n →
    n ∈ (t.trunks[k]).indicators

/-- A microphone of a room was opened: the room's floor language is set unless it is pinned, a changed one is handed
on, and the room is given to the Level Engine (R58, R71). -/
structure Granted (s t : State) (x : Seat) (l : SectionNo) : Prop where
  language : (t.rooms[l]).floorLanguage =
    if (s.rooms[l]).pin then (s.rooms[l]).floorLanguage
    else if s.languageInUse x.language then x.language
    else s.languageCounts (s.settings l).defaultLanguage
  others : ∀ m : SectionNo, m ≠ l → (t.rooms[m]).floorLanguage = (s.rooms[m]).floorLanguage
  handed : (t.rooms[l]).floorLanguage ≠ (s.rooms[l]).floorLanguage → SourcesTaken s t l
  levels : LevelsTaken s t l

/-- The heads that the auto-advance check of a room grants while some number of its delegates speak: in a DIRECT room
outside a CLOSE_ALL hold the first entries of its queue, up to the speaker limit (R60). -/
def State.headsAt (s : State) (l : SectionNo) (speaking : Nat) : List Nat :=
  if (s.settings l).floorMode = .direct ∧ s.closingAll l = false then
    ((s.queue l).take ((s.settings l).speakerLimit - speaking)).map Request.seat
  else []

/-- The notices of the heads granted in a room by auto-advance, in their order (R60, R76). -/
def autoNotices (l : SectionNo) (heads : List Nat) : List Notice :=
  heads.map (fun k => ⟨some l, some k, .seatState .waiting .speaking .auto⟩)

/-- A room's floor language after some heads were granted one after another: a pinned one stands, and otherwise the
last head's language is spoken, or the default of the room's lead where that is free (R71). -/
def State.spokenAfter (s : State) (l : SectionNo) (spoken : Nat) (pin : Bool) (heads : List Nat) : Nat :=
  match pin, heads.getLast?.bind s.seats.get with
  | false, some x =>
    if s.languageInUse x.language then x.language else s.languageCounts (s.settings l).defaultLanguage
  | _, _ => spoken

/-- An open microphone of a room was closed with a reason; after a delegate's, the first entries of the room's queue
were granted in order by auto-advance, each with its AUTO notice; the seat closed and then those granted were placed on
their indicator lists (R36, R58, R60, R71). -/
structure Closed (s t : State) (n : Nat) (l : SectionNo) (r : Reason) : Prop where
  shut : t.micOpen n = false
  rest :
    let heads := if n ∈ s.chairs then [] else s.headsAt l ((s.roomSpeakers l).length - 1)
    t.speakers = s.speakers.filter (fun y => decide (y.seat ≠ n))
      ++ heads.map (fun k => ⟨k, (s.settings l).timer⟩) ∧
    t.pool = s.pool.filter (fun q => decide (q.seat ∉ heads)) ∧
    (t.rooms[l]).floorLanguage =
      s.spokenAfter l (s.rooms[l]).floorLanguage (s.rooms[l]).pin heads ∧
    noticesFirst s t (⟨some l, some n, .seatState (s.floorStateOf n) .idle r⟩ :: autoNotices l heads) ∧
    placed s t (n :: heads)
  chairs : t.chairs = s.chairs.filter (fun c => decide (c ≠ n))
  advanced : n ∉ s.chairs → t.advanceHead l = none
  handed : (t.rooms[l]).floorLanguage ≠ (s.rooms[l]).floorLanguage → SourcesTaken s t l
  levels : LevelsTaken s t l

/-- RELAY_MISSING of the booths of a room newly marked, in number order (R122). -/
def State.relayNoticesTo (s t : State) (l : SectionNo) : List Notice :=
  t.booths.cells.filterMap (fun c =>
    if t.roomOf c.2.home = l ∧ c.2.listen = .relayMissing ∧
        (s.booths.get c.1).map Booth.listen ≠ some .relayMissing then
      some ⟨some l, none, .relayMissing c.1 (t.languageCounts (t.rooms[l]).floorLanguage) c.2.sources⟩
    else none)

/-! ## Seats that leave: the loss of units, and RETIRE -/

/-- Seats that leave are all that a room's holding set held: its hold ends (R73, R75). -/
def State.holdEnds (s : State) (ns : List Nat) (l : SectionNo) : Bool :=
  decide ((s.rooms[l]).holding ≠ []) && (s.rooms[l]).holding.all (fun c => decide (c ∈ ns) && s.seatIn l c)

/-- The heads a room grants by auto-advance after seats left: where a delegate of it was closed or its CLOSE_ALL hold
ended, in a DIRECT room that no CLOSE_ALL hold holds, the first entries left in its queue, up to its limit (R60, R75). -/
def State.headsLeft (s : State) (ns : List Nat) (l : SectionNo) : List Nat :=
  let ended := s.holdEnds ns l
  if ((∃ y ∈ s.roomSpeakers l, y.seat ∈ ns) ∨ (ended = true ∧ s.hold l = some .closeAll)) ∧
      (s.settings l).floorMode = .direct ∧ (s.closingAll l = false ∨ ended = true) then
    (((s.queue l).filter (fun q => decide (q.seat ∉ ns))).take ((s.settings l).speakerLimit
      - ((s.roomSpeakers l).filter (fun y => decide (y.seat ∉ ns))).length)).map Request.seat
  else []

/-- The notice of a seat that leaves, by what it was: WAITING, an open microphone, or a LIVE desk (R53, R75, R121). -/
def State.leavingNotices (s : State) (n : Nat) (r : Reason) : List Notice :=
  match s.seats.get n with
  | none => []
  | some x =>
    (if s.waiting n then [⟨some (s.roomOf x.section_), some n, .seatState .waiting .idle r⟩] else [])
    ++ (if s.micOpen n then [⟨some (s.roomOf x.section_), some n, .seatState (s.floorStateOf n) .idle r⟩] else [])
    ++ ((x.booth.bind (fun b => (s.booths.get b).map (fun y => (b, y)))).toList.filter
      (fun c => decide (c.2.live = some n))).map
        (fun c => ⟨some (s.roomOf c.2.home), some n, .deskState c.1 .live .off r⟩)

/-- The notices an event in which seats left ends with: the AUTO grants by lead, then RELAY_MISSING by lead (R60, R122,
R123; that order is DEDUCED, assumption log 8). -/
def State.endNotices (s t : State) (ns : List Nat) : List Notice :=
  allSections.flatMap (fun l => autoNotices l (s.headsLeft ns l)) ++ allSections.flatMap (s.relayNoticesTo t)

/-- The seats placed on their indicator lists as seats leave: those of them that were WAITING or open, the speakers that
stay where a MUTE_WHILE_HELD hold ends, and the heads granted (R36, R56, R58, R74). -/
def State.shownLeft (s : State) (ns : List Nat) : List Nat :=
  ns.filter (fun n => s.waiting n || s.micOpen n)
  ++ allSections.flatMap (fun l => if s.holdEnds ns l = true ∧ s.hold l = some .muteWhileHeld then
      ((s.roomSpeakers l).map Speaker.seat).filter (fun n => decide (n ∉ ns)) else [])
  ++ allSections.flatMap (s.headsLeft ns)

/-- Delegates and chairs have left the floor, by the loss of their units or by RETIRE: no list and no holding set of their
rooms has them, the others keep their order, a hold they alone held has ended, and the heads due are granted in their rooms
by lead, with timer and floor language. Levels and sources follow; the seats of `shownLeft` stand on their indicator lists,
but on a trunk that the event disabled (R53, R58, R60, R71, R73 to R75, R150). -/
structure FloorLeft (s t : State) (ns : List Nat) : Prop where
  speakers : t.speakers = s.speakers.filter (fun y => decide (y.seat ∉ ns))
    ++ allSections.flatMap (fun l => (s.headsLeft ns l).map (fun n => ⟨n, (s.settings l).timer⟩))
  pool : t.pool = s.pool.filter (fun q => decide (q.seat ∉ ns ∧ ∀ l, q.seat ∉ s.headsLeft ns l))
  chairs : t.chairs = s.chairs.filter (fun c => decide (c ∉ ns))
  holds : ∀ l : SectionNo,
    (t.rooms[l]).holding = (s.rooms[l]).holding.filter (fun c => !(decide (c ∈ ns) && s.seatIn l c)) ∧
    (t.rooms[l]).holdAction = if s.holdEnds ns l then none else (s.rooms[l]).holdAction
  language : ∀ l : SectionNo,
    (t.rooms[l]).floorLanguage = s.spokenAfter l (s.rooms[l]).floorLanguage (s.rooms[l]).pin (s.headsLeft ns l) ∧
    ((t.rooms[l]).floorLanguage ≠ (s.rooms[l]).floorLanguage → SourcesTaken s t l)
  levels : ∀ l : SectionNo, (∃ n ∈ ns, s.seatIn l n = true ∧ s.micOpen n = true) ∨ s.holdEnds ns l = true ∨
    s.headsLeft ns l ≠ [] → LevelsTaken s t l
  shown : ∀ m ∈ s.shownLeft ns, ∀ x k a, t.seats.get m = some x → x.binding = some (k, a) →
    (t.trunks[k]).enabled = (s.trunks[k]).enabled → m ∈ (t.trunks[k]).indicators

/-- Of the LIVE desks exactly those that left are switched OFF, and the sources and levels of their rooms taken (R121,
R123, R150). -/
def DesksLeft (s t : State) (ns : List Nat) : Prop :=
  ∀ b y, s.booths.get b = some y → (t.booths.get b).map Booth.live = some (y.live.filter (fun n => decide (n ∉ ns))) ∧
    ∀ n ∈ ns, y.live = some n → SourcesTaken s t (s.roomOf y.home) ∧ LevelsTaken s t (s.roomOf y.home)

/-- The reply window of a poll is open on a trunk, and a seat is bound at the address polled (R32). -/
structure Polled (s : State) (k : TrunkNo) (a n : Nat) (x : Seat) : Prop where
  high : s.resetLow = false
  line : (s.trunks[k]).line = .polling a
  address : a < 256
  bound : s.seatAt k a = some n
  seat : s.seats.get n = some x

/-- A PRESENT seat is polled, and a key event with a mark would be a new one: the seat does not hold it (R35). -/
structure KeyAwaited (s : State) (k : TrunkNo) (a n : Nat) (x : Seat) (mark : Byte) : Prop extends
    Polled s k a n x where
  present : x.present = true
  new : (mark = 0#8 ∧ x.keyMark ≠ .zero) ∨ (mark = 1#8 ∧ x.keyMark ≠ .one)

/-- The poll reply of an address with a key and its mark (R169). -/
def keyReply (k : TrunkNo) (a : Nat) (key mark : Byte) : Instr := .pollReply k (sealFrame [0x81, byte a, key, mark])

/-- The seat after a new key event of a valid reply: no miss, and the event's mark held (R32, R35). -/
def keyHeld (x : Seat) (mark : Byte) : Seat :=
  { x with misses := 0, keyMark := if mark = 0#8 then .zero else .one }

/-- A new key event is discarded: the seat takes its mark and its misses are cleared, as for any valid reply, and beyond
that the reply only ends the poll (R32, R35). -/
def keyDiscarded (s : State) (k : TrunkNo) (a n : Nat) (x : Seat) (key mark : Byte) : Prop :=
  ∃ t, exec (keyReply k a key mark) s = .next t ∧ t.seats.get n = some (keyHeld x mark) ∧
    (∀ m, m ≠ n → t.seats.get m = s.seats.get m) ∧ Changes (.keyMark :: .presence :: lineParts) s t

/-- An on/off byte that has a code (R168). -/
def onOffByte (b : Byte) : Prop := b = 0#8 ∨ b = 1#8

/-! ## Scan rounds -/

/-- A gap that begins has something to send: an address due a release, a WAITING access, or a seat due its indicator
(R31). -/
def Trunk.gapDue (u : Trunk) : Prop := u.releases ≠ [] ∨ (∃ r, u.access = .waiting r) ∨ u.indicators ≠ []

/-- The gap a trunk stands in has nothing left to send, and so passes at once (R31). -/
def Trunk.gapPassed (u : Trunk) : Prop :=
  match u.line with
  | .gap .release => ¬ u.gapDue
  | .gap .access => (∀ r, u.access ≠ .waiting r) ∧ u.indicators = []
  | .gap .indicator => u.indicators = []
  | _ => False

/-- The addresses that a scan round of a round counter polls, rising: the bound seats that are PRESENT, and at counter 0 the
ABSENT ones too (R30). -/
def State.polledAt (m : State) (k : TrunkNo) (c : RoundCount) : List Nat :=
  ((m.bound k).filter (fun p => m.isPresent p.2 || decide (c = 0))).map Prod.fst

/-- The addresses left of the present scan round that a seat is still bound to: one released meanwhile is skipped (R30). -/
def State.leftToPoll (m : State) (u : Trunk) (k : TrunkNo) : List Nat :=
  u.toPoll.dropWhile (fun b => (m.seatAt k b).isNone)

/-- The round counter after a scan round (R30). -/
def roundAfter (c : RoundCount) : RoundCount := if c = 15 then 0 else c + 1

/-- Where a trunk stands in its rounds: its line, its round counter and the addresses left to poll. -/
def State.standsAt (t : State) (k : TrunkNo) (line : Line) (c : RoundCount) (toPoll : List Nat) : Prop :=
  (t.trunks[k]).line = line ∧ (t.trunks[k]).roundCounter = c ∧ (t.trunks[k]).toPoll = toPoll

/-- A scan round of a round counter has begun over the seats of a state, and the trunk stands at its first exchange. A round
that polls no unit is a single gap: the trunk stands in it where something is due there, and else the gap passes, a RUNNING
roll call has its round, and with none such rounds go by until counter 0, at which the ABSENT seats are polled (R30, R31). A
trunk with neither a bound seat nor a roll call rests in its gap (the model's, assumption log 9). -/
structure RoundBegins (m t : State) (k : TrunkNo) (c : RoundCount) : Prop where
  polls : m.polledAt k c ≠ [] → t.standsAt k .poll c (m.polledAt k c)
  gap : m.polledAt k c = [] → (t.trunks[k]).gapDue ∨ (m.bound k = [] ∧ (t.trunks[k]).rollCall = none) →
    t.standsAt k (.gap .release) c []
  called : m.polledAt k c = [] → ¬ (t.trunks[k]).gapDue → (t.trunks[k]).rollCall ≠ none →
    t.standsAt k .roundDue (roundAfter c) []
  absent : m.polledAt k c = [] → ¬ (t.trunks[k]).gapDue → (t.trunks[k]).rollCall = none → m.bound k ≠ [] →
    t.standsAt k .poll 0 ((m.bound k).map Prod.fst)

/-- A scan round of a round counter has ended: the counter advances by one, from 15 to 0; a roll call round is due if a roll
call is RUNNING, and else the next scan round begins (R30). -/
structure RoundEnds (m t : State) (k : TrunkNo) (c : RoundCount) : Prop where
  called : (t.trunks[k]).rollCall ≠ none → t.standsAt k .roundDue (roundAfter c) []
  begins : (t.trunks[k]).rollCall = none → RoundBegins m t k (roundAfter c)

/-- A trunk comes to rest, with rounds uncounted, only where it has no bound seat and no roll call (the model's, assumption
log 9). -/
def restsOnlyBare (s m t : State) (k : TrunkNo) : Prop :=
  (t.trunks[k]).rested = true → (s.trunks[k]).rested = true ∨ (m.bound k = [] ∧ (t.trunks[k]).rollCall = none)

/-- The scan round of a trunk goes on after a gap, over the seats of a state: at the next listed address that is still
bound; where none is left the round ends (R30, R31). -/
structure RoundGoesOn (s m t : State) (k : TrunkNo) : Prop where
  next : m.leftToPoll (s.trunks[k]) k ≠ [] →
    t.standsAt k .poll (s.trunks[k]).roundCounter (m.leftToPoll (s.trunks[k]) k)
  ends : m.leftToPoll (s.trunks[k]) k = [] → RoundEnds m t k (s.trunks[k]).roundCounter
  rests : restsOnlyBare s m t k

/-- A poll is followed by its gap: the trunk stands in it where something is due there, and else it passes at once and the
round goes on (R30, R31), unless the trunk has neither a bound seat nor a roll call and rests (the model's, assumption log 9). -/
structure GapFollows (s t : State) (k : TrunkNo) : Prop where
  due : (t.trunks[k]).gapDue → t.standsAt k (.gap .release) (s.trunks[k]).roundCounter (s.trunks[k]).toPoll
  passed : ¬ (t.trunks[k]).gapDue → t.bound k ≠ [] ∨ (t.trunks[k]).rollCall ≠ none → RoundGoesOn s t t k
  rests : restsOnlyBare s t t k

/-- A trunk is brought to its next exchange. At its next poll, or in a gap that has nothing left to send, it goes on with its
round; a round that has polled no unit has its single gap first, which holds the trunk where something is due (R30, R31). On a
trunk with neither a bound seat nor a roll call that gap is its rest (the model's, assumption log 9). -/
structure BroughtOn (s t : State) (k : TrunkNo) : Prop where
  poll : (s.trunks[k]).line = .poll → (s.leftToPoll (s.trunks[k]) k = [] → (s.trunks[k]).hadGap = true) →
    RoundGoesOn s s t k
  passed : (s.trunks[k]).gapPassed →
    s.bound k ≠ [] ∨ (s.trunks[k]).rollCall ≠ none ∨ (s.trunks[k]).line ≠ .gap .release → RoundGoesOn s s t k
  single : (s.trunks[k]).line = .poll → s.leftToPoll (s.trunks[k]) k = [] → (s.trunks[k]).hadGap = false →
    ((s.trunks[k]).gapDue → t.standsAt k (.gap .release) (s.trunks[k]).roundCounter []) ∧
    (¬ (s.trunks[k]).gapDue → s.bound k ≠ [] ∨ (s.trunks[k]).rollCall ≠ none →
      RoundEnds s t k (s.trunks[k]).roundCounter)
  others : ∀ j : TrunkNo, j ≠ k → t.trunks[j] = s.trunks[j]
  frame : Changes lineParts s t

/-- Scanning has begun on a trunk: a release-all frame was sent if the trunk's release-all mark was set, which is now clear;
every bound seat stands on the indicator list, placed in address order after those already on it; and the first round has
begun, at round counter 0 and so over every bound address (R29, R30). DIR is high after the frame (assumption log 11). -/
structure ScanBegins (s t : State) (k : TrunkNo) : Prop where
  scanning : (t.trunks[k]).scanning = true
  mark : (t.trunks[k]).releaseAll = false
  told : (s.trunks[k]).releaseAll = true → (t.trunks[k]).lastFrame = [0x04#8, 0xFF#8, 0xFD#8] ∧ t.dirPin k = true
  silent : (s.trunks[k]).releaseAll = false → (t.trunks[k]).lastFrame = (s.trunks[k]).lastFrame
  shown : Tidy s → (t.trunks[k]).indicators = ((s.bound k).map Prod.snd).foldl joinTail (s.trunks[k]).indicators
  round : RoundBegins s t k 0
  polls : s.bound k ≠ [] → t.standsAt k .poll 0 ((s.bound k).map Prod.fst)
  counted : (t.trunks[k]).rested = true → s.bound k = [] ∧ (t.trunks[k]).rollCall = none

/-! ## A composition change -/

/-- The rooms of the later state that were no room before: the new rooms of a composition change, by lead (R19). -/
def State.formed (s t : State) : List SectionNo := t.leads.filter (fun l => decide (t.members l ≠ s.members l))

/-- The old rooms a room draws from, by lead (R19). -/
def State.drawn (s t : State) (l : SectionNo) : List SectionNo :=
  s.leads.filter (fun o => (s.members o).any (fun i => decide (t.roomOf i = l)))

/-- The principal old room of a new room: the lowest old lead whose section it holds (R103, R127). -/
def State.principal (s t : State) (l : SectionNo) : Option SectionNo :=
  (s.drawn t l).find? (fun o => decide (t.roomOf o = l))

/-- The room notices of a change: ROOM_DIVIDED for each old room whose sections went to two or more rooms, then
ROOM_MERGED for each new room that draws from two or more (R21). -/
def State.roomNoticesTo (s t : State) : List Notice :=
  s.leads.filterMap (fun o =>
    let went := t.leads.filter (fun l => (s.members o).any (fun i => decide (t.roomOf i = l)))
    if 2 ≤ went.length then some ⟨some o, none, .roomDivided went⟩ else none)
  ++ (s.formed t).filterMap (fun l =>
    if 2 ≤ (s.drawn t l).length then some ⟨some l, none, .roomMerged (s.drawn t l)⟩ else none)

/-- The reconciliation reason of a new room (R98). -/
def State.reasonTo (s t : State) (l : SectionNo) : Reason := if 2 ≤ (s.drawn t l).length then .merge else .division

/-- The delegate speakers of a new room, in grant order, that its hold leaves open: a CLOSE_ALL hold closes those that
did not stand under one (R100). -/
def State.heldOpen (s t : State) (l : SectionNo) : List Speaker :=
  s.speakers.filter (fun y => t.seatIn l y.seat &&
    (decide (t.hold l ≠ some .closeAll) || decide ((s.seatRoom y.seat).bind s.hold = some .closeAll)))

/-- The queue of a new room before its limit is applied: the pool's entries of its seats (R97). -/
def State.queueTo (s t : State) (l : SectionNo) : List Request := (s.setSections t.sections).queue l

/-- The speakers and the queue entries of a new room that its limits keep (R101, R102). -/
def State.keptSpeakers (s t : State) (l : SectionNo) : List Speaker :=
  (s.heldOpen t l).take (t.settings l).speakerLimit

def State.keptQueue (s t : State) (l : SectionNo) : List Request := (s.queueTo t l).take (t.settings l).queueLimit

/-- The heads that the new room then grants (R104). -/
def State.headsTo (s t : State) (l : SectionNo) : List Nat :=
  if (t.settings l).floorMode = .direct ∧ t.closingAll l = false then
    ((s.keptQueue t l).take ((t.settings l).speakerLimit - (s.keptSpeakers t l).length)).map Request.seat
  else []

/-- The Floor Manager's notices of a new room: PRIORITY closures, limit closures, withdrawals, AUTO grants (R106). -/
def State.floorNoticesTo (s t : State) (l : SectionNo) : List Notice :=
  let r := s.reasonTo t l
  (s.speakers.filter (fun y => t.seatIn l y.seat && decide (y ∉ s.heldOpen t l))).map
      (fun y => ⟨some l, some y.seat, .seatState y.state .idle .priority⟩)
    ++ ((s.heldOpen t l).drop (t.settings l).speakerLimit).reverse.map
      (fun y => ⟨some l, some y.seat, .seatState y.state .idle r⟩)
    ++ ((s.queueTo t l).drop (t.settings l).queueLimit).reverse.map
      (fun q => ⟨some l, some q.seat, .seatState .waiting .idle r⟩)
    ++ autoNotices l (s.headsTo t l)

/-- The LIVE booths of a new room that share an output language, by number (R127). -/
def State.liveTogether (s t : State) (l : SectionNo) (language : Nat) : List (Nat × Booth) :=
  s.booths.cells.filter (fun c =>
    decide (t.roomOf c.2.home = l ∧ c.2.output = language) && c.2.live.isSome)

/-- The booth kept LIVE of several: the one whose home lies in the principal old room, if exactly one does, else the
lowest (R127). -/
def State.keptLive (s t : State) (l : SectionNo) (language : Nat) : Option Nat :=
  match (s.liveTogether t l language).filter (fun c => decide (some (s.roomOf c.2.home) = s.principal t l)) with
  | [c] => some c.1
  | _ => (s.liveTogether t l language).head?.map Prod.fst

/-- The Interpretation Manager's notices of a new room: the desks switched off by booth number, then RELAY_MISSING for
each booth newly marked (R122, R127). -/
def State.boothNoticesTo (s t : State) (l : SectionNo) : List Notice :=
  let here := s.booths.cells.filter (fun c => decide (t.roomOf c.2.home = l))
  here.filterMap (fun c => match c.2.live with
      | some n => if s.keptLive t l c.2.output = some c.1 then none
        else some ⟨some l, some n, .deskState c.1 .live .off .merge⟩
      | none => none)
    ++ here.filterMap (fun c =>
      if c.2.listen ≠ .relayMissing ∧ (t.booths.get c.1).map Booth.listen = some .relayMissing then
        some ⟨some l, none, .relayMissing c.1 (t.languageCounts (t.rooms[l]).floorLanguage) c.2.sources⟩
      else none)

/-- The carrier field of an old room's channel of a language; none where it has no such channel (R140). -/
def State.carrierOf (s : State) (language : Nat) (o : SectionNo) : Option (Option CarrierNo) :=
  ((s.rooms[o]).channels.find? (fun h => decide (h.language = language))).map Channel.carrier

/-- The carrier a channel of a new room keeps from its principal predecessor (R142, pass 1). -/
def State.keptFirst (s t : State) (l : SectionNo) (language : Nat) : Option CarrierNo :=
  ((s.principal t l).bind (s.carrierOf language)).join.bind (fun c => if t.usable l c then some c else none)

/-- The carriers that the channels of a new room keep, channel by channel: in a division that of the one predecessor;
in a merge that of the principal old room where it is usable, and otherwise, in language order, the first of the other
old rooms' that is usable and not kept by another channel (R141, R142). -/
def State.keepsTo (s t : State) (l : SectionNo) (keeps : List (Option CarrierNo)) : Prop :=
  let languages := (t.rooms[l]).channels.map Channel.language
  keeps.length = languages.length ∧
  ∀ i x, languages[i]? = some x → keeps[i]? = some (
    match s.drawn t l, s.keptFirst t l x with
    | [o], _ => (s.carrierOf x o).join
    | _, some c => some c
    | drawn, none =>
      ((drawn.filter (fun o => decide (some o ≠ s.principal t l))).filterMap
        (fun o => (s.carrierOf x o).join)).find? (fun c =>
          t.usable l c && decide (c ∉ languages.filterMap (s.keptFirst t l)) && decide (some c ∉ keeps.take i)))

/-- A channel list in the midst of placements: the channels before place i have their final carriers, the others those
of a list of carriers given (R133). -/
def midway (channels : List Channel) (carriers : List (Option CarrierNo)) (i : Nat) : List Channel :=
  (channels.zip carriers).mapIdx (fun j p => if j < i then p.1 else { p.1 with carrier := p.2 })

/-- The carrier that a placement gives a channel of a room whose channel list stands as given (R133). -/
def State.chooseIn (t : State) (l : SectionNo) (channels : List Channel) (language : Nat)
    (excluded : Option CarrierNo) : Option CarrierNo :=
  (t.modRoom l (fun r => { r with channels := channels })).choose l language excluded

/-- The Carrier Allocator has taken a new room: a channel that keeps a carrier stands on it, and each other is placed
in language order, seeing the placements before it (R141, R142). -/
def State.carriersTo (s t : State) (l : SectionNo) : Prop :=
  ∃ keeps, s.keepsTo t l keeps ∧ ∀ i h, (t.rooms[l]).channels[i]? = some h →
    h.carrier = ((keeps[i]?).join).or (t.chooseIn l (midway (t.rooms[l]).channels keeps i) h.language none)

/-- The Carrier Allocator's notices of a new room, each channel compared with its reference predecessor: that of the
principal old room if it has one, else that of the lowest old lead (R137, R140). For a merged room language order is the
model's choice, assumption log 22. -/
def State.carrierNoticesTo (s t : State) (l : SectionNo) : List Notice :=
  let cause := s.reasonTo t l
  (t.rooms[l]).channels.filterMap (fun h =>
    let reference : Option CarrierNo :=
      (((s.principal t l).bind (s.carrierOf h.language)).or
        ((s.drawn t l).findSome? (s.carrierOf h.language))).join
    match reference, h.carrier with
    | some c, some d => if c = d then none else some ⟨some l, none, .carrierHop h.language c d cause⟩
    | some c, none => some ⟨some l, none, .channelParked h.language (some c) cause⟩
    | none, some d => some ⟨some l, none, .channelPlaced h.language d cause⟩
    | none, none => none)

/-- The zones of some rooms join the programme list in RUNNING, and none does in HALTED (R139). -/
def zonesDue (s t : State) (rooms : List SectionNo) : Prop :=
  t.programmes = if s.run = .running then (rooms.flatMap t.members).foldl joinTail s.programmes else s.programmes

/-- What a composition change leaves, from the rooms before and after it (R19 to R21, R95 to R106, R126, R127, R139 to
R142, R150), after some first notices of the event: its notices; each new room's hold, speakers, queue, grants, floor
language, pin, LIVE desks, channels and carriers; zones, levels and indicators. A room it does not touch keeps all of its
entry, the frozen flag too, but that of a room that THAW names (R13, R15, R19). -/
structure Reformed (s t : State) (first : List Notice) (thawed : Option SectionNo) : Prop where
  notices : t.notices = ((first ++ s.roomNoticesTo t ++ (s.formed t).flatMap (s.floorNoticesTo t)
    ++ (s.formed t).flatMap (s.boothNoticesTo t)
    ++ (s.formed t).flatMap (s.carrierNoticesTo t)).foldl State.notify s).notices
  fresh : ∀ l ∈ s.formed t, (t.rooms[l]).frozen = false
  untouched : ∀ l, t.isLead l = true → l ∉ s.formed t → (t.rooms[l]).holding = (s.rooms[l]).holding ∧
    (t.rooms[l]).holdAction = (s.rooms[l]).holdAction ∧ (t.rooms[l]).floorLanguage = (s.rooms[l]).floorLanguage ∧
    (t.rooms[l]).pin = (s.rooms[l]).pin ∧ (t.rooms[l]).channels = (s.rooms[l]).channels ∧
    (thawed ≠ some l → (t.rooms[l]).frozen = (s.rooms[l]).frozen)
  holds : ∀ l ∈ s.formed t,
    (t.rooms[l]).holding = (s.drawn t l).flatMap (fun o => (s.rooms[o]).holding.filter (t.seatIn l)) ∧
    ((t.rooms[l]).holding ≠ [] → (t.rooms[l]).holdAction =
      ((s.drawn t l).find? (fun o => (s.rooms[o]).holding.any (t.seatIn l))).bind s.hold)
  speakers : t.speakers =
    s.speakers.filter (fun y => decide (∀ l ∈ s.formed t, t.seatIn l y.seat = true → y ∈ s.keptSpeakers t l))
      ++ (s.formed t).flatMap (fun l => (s.headsTo t l).map (fun n => ⟨n, (t.settings l).timer⟩))
  pool : t.pool = s.pool.filter (fun r => decide (∀ l ∈ s.formed t, t.seatIn l r.seat = true →
    r ∈ s.keptQueue t l ∧ r.seat ∉ s.headsTo t l))
  chairs : t.chairs = s.chairs
  language : ∀ l ∈ s.formed t,
    (t.rooms[l]).pin = (match s.principal t l with
      | some o => (s.rooms[o]).pin
      | none => false) ∧
    (t.rooms[l]).floorLanguage = s.spokenAfter l (match s.principal t l with
      | some o => (s.rooms[o]).floorLanguage
      | none => s.languageCounts (s.settings l).defaultLanguage) (t.rooms[l]).pin (s.headsTo t l)
  desks : ∀ b y, s.booths.get b = some y → (t.booths.get b).map Booth.live = some (
    if t.roomOf y.home ∈ s.formed t ∧ s.keptLive t (t.roomOf y.home) y.output ≠ some b then none else y.live)
  sources : ∀ l ∈ s.formed t, channelsFormed t l ∧ SourcesTaken s t l
  carriers : ∀ l ∈ s.formed t, s.carriersTo t l
  zones : zonesDue s t (s.formed t)
  levels : ∀ n x l, s.seats.get n = some x → l ∈ s.formed t → t.levelsIn x = some l →
    t.shadow.seat n = levelsBy t n x
  listed : EntriesListed s t
  indicators : IndicatorsShown s t

end Sys2Proof.Machine
end

