-- ==== Sys2Proof/Certificates/Slice0/Obligations.lean ====
section
/-! DEFINITION. The statements for the provers. `takes`, `answers`, `refused`, `Changes` and the invariants are those
of Safety.lean. A statement that rests on a choice of the model says so and names the log entry. -/

open Sys2Proof Sys2Proof.Machine

/-! ## The machine and its commands -/

/-- One step takes the command at the front of the queue and runs it on the state with the queue's rest (the model's
way of sending commands, assumption log 1). -/
def Obligations.StepTakesTheFrontCommand : Prop :=
  ∀ (c : Instr) (rest : List Instr) (s : State), step (s.setPending (c :: rest)) = exec c (s.setPending rest)

/-- With no command waiting a step is one millisecond: nothing at all under RESET (R170); else debounce intervals and
speech timers count (R7, R81), a frame on a trunk is complete (DIR falls), and exactly what falls due is put in the queue:
the end of an interval, the expiry of a timer, the close of a reply window (R8, R32, R82, R83). The millisecond per idle
step is the model's choice (assumption log 1; the frame's end, assumption log 11). -/
def Obligations.IdleStepIsOneMillisecond : Prop :=
  ∀ s : State, s.pending = [] →
    (s.resetLow = true → step s = .next s) ∧
    (s.resetLow = false → ∃ t, step s = .next t ∧
      Changes [.pending, .wallSense, .timers, .releasing, .line] s t ∧
      (∀ w : WallNo, t.walls[w] = { s.walls[w] with interval := (s.walls[w]).interval.map (fun ms => ms - 1) }) ∧
      t.speakers = s.speakers.map Speaker.tick ∧
      (∀ k : TrunkNo, t.trunks[k] = { s.trunks[k] with releasing := none, sending := false }) ∧
      (∀ c : Instr, c ∈ t.pending ↔
        (∃ w : WallNo, (s.walls[w]).interval = some 1 ∧ c = .debounceEnd w) ∨
        (∃ y ∈ s.speakers, ∃ m, y.timer = some m ∧ m.remaining = 1 ∧ m.millis = 999 ∧
          c = if m.inGrace then .graceExpiry y.seat else .mainExpiry y.seat) ∨
        (∃ k : TrunkNo, (∃ a, (s.trunks[k]).line = .polling a) ∧ c = .pollNoReply k) ∨
        (∃ k : TrunkNo, (s.trunks[k]).line = .accessing ∧ c = .accessNoReply k) ∨
        (∃ k : TrunkNo, (∃ i, (s.trunks[k]).line = .slotOpen i) ∧ c = .slotEmpty k)))

/-- A timer counts whole seconds from its start: after k thousand milliseconds its remaining value has fallen by k, and
it stays at 0 (R81; the millisecond is the model's, assumption log 1). -/
def Obligations.TimerCountsWholeSeconds : Prop :=
  ∀ (m : Timer) (k : Nat), m.millis = 0 → Timer.tick^[1000 * k] m = { m with remaining := m.remaining - k }

/-- Every command completes in every state, and none touches the queue of commands that wait (the model's reading of a
command that does not fit, assumption log 2). -/
def Obligations.EveryCommandCompletes : Prop :=
  ∀ (c : Instr) (s : State), ∃ t, exec c s = .next t ∧ t.pending = s.pending

/-- The frame of every command: a command changes no part of the state but those its row of `parts` lists. -/
def Obligations.EveryCommandKeepsItsFrame : Prop :=
  ∀ (c : Instr) (s t : State), exec c s = .next t → Changes (parts c) s t

/-- While RESET is low no command but the rise of RESET has an effect but on the port and on the contact levels: no
sensed state, interval, record, list, line or output changes (R170, R171). -/
def Obligations.NothingIsTakenUnderReset : Prop :=
  ∀ (c : Instr) (s : State), s.resetLow = true → c ≠ .hardwareReset → ∃ t, exec c s = .next t ∧
    Changes [.port, .wallSense] s t ∧
    ∀ w : WallNo, t.walls[w] = { s.walls[w] with made := (t.walls[w]).made }

/-- Whatever the state, HARDWARE_RESET leaves every record at its reset value, each wall sensed from its contact, every
list empty and the run state HALTED; the contact levels stand. What the model's own fields hold is its choice: the
commands that wait stand (assumption log 1), the count of open values stands and no release frame is held to be on a line
(assumption log 3), no frame is recorded as sent (assumption log 13) and no trunk has rested (assumption log 9) (R1, R4, R5, R17, R23, R24, R49,
R71, R73, R78, R86, R94, R111, R129, R130, R143, R144, R161, R163, R166, R170). -/
def Obligations.HardwareResetLeavesResetValues : Prop :=
  ∀ s : State, ∃ t, exec .hardwareReset s = .next t ∧
    t.pending = s.pending ∧ t.free = s.free ∧ t.resetLow = false ∧ t.run = .halted ∧
    t.venue = { threshold := 128, hysteresis := 16, enables := 0x3FFFE#32, mask := 0xFFFF#16, global := true } ∧
    t.notices = { queue := [], overflow := false } ∧
    (∀ i : SectionNo, t.sections[i] =
      { settings :=
          { floorMode := .direct, speakerLimit := 4, queueLimit := 32, speechLimit := 0, grace := 30,
            floorMaster := 0, speakerMaster := -12, micTrim := 0, speakerTrim := 0, duck := 12,
            priorityAction := .muteWhileHeld, defaultLanguage := 0 }
        room := i }) ∧
    (∀ w : WallNo, t.walls[w] =
      { setup :=
          { pair := none, polarity := .madeIsClosed, debounceClass := .medium, reportOpening := true,
            reportClosing := true, override := .follow }
        made := (s.walls[w]).made, sensed := !(s.walls[w]).made, effective := false, pendingFlag := false,
        interval := none }) ∧
    (∀ l : SectionNo, t.rooms[l] =
      { frozen := false, holding := [], holdAction := none, floorLanguage := 0, pin := false,
        channels := [⟨0, .floor, none⟩] }) ∧
    (∀ n, t.seats.get n = none) ∧ t.pool = [] ∧ t.speakers = [] ∧ t.chairs = [] ∧
    (∀ i : SelectorNo, t.selectors[i] =
      { enabled := false, matchField := .section_, matchValue := 0, matchMask := 0, targetMark := false,
        action := .setClear }) ∧
    (∀ k : TrunkNo, t.trunks[k] =
      { enabled := true, defaultSection := 0, startQ := 4, emptyRounds := 2, line := .idle, roundCounter := 0,
        toPoll := [], hadGap := false, releaseAll := true, indicators := [], releases := [], releasing := none,
        rollCall := none, access := .idle, lastFrame := [], sending := false, rested := false }) ∧
    (∀ n, t.languages.get n = none) ∧ (∀ n, t.booths.get n = none) ∧
    (∀ c : CarrierNo, (t.carriers[c]).enabled = false ∧ ∀ i : SectionNo, (t.carriers[c]).flags[i] = false) ∧
    t.programmes = [] ∧ t.sendList = [] ∧
    (∀ n, t.shadow.seat n = { input := .mute, output := .mute, bus := none }) ∧
    (∀ b, t.shadow.booths.get b = none) ∧
    (∀ (l : SectionNo) (x : Nat), x < 25 → t.shadow.channel l x = if x = 0 then some .floor else none)

/-- RESET and the outputs. RESET_ASSERTED holds READY and every DIR output low, negates NOTICE, ends every exchange and
cuts off an accepted transfer that is still selected; so they stay while RESET is low. A transfer carried on under RESET,
or begun under it and still selected after the rise, shifts 0xFF in every byte and nothing is taken; READY rises with
RESET where the port is not selected, as it is not once a NOT_READY transfer has followed the accepted one, else when the
host deselects it; the buffer then holds the reset response (R156, R157, R170, R171; an accepted transfer that nothing has
shown to have ended counts as selected, assumption log 5). -/
def Obligations.ResetHoldsThePort : Prop :=
  (∀ s : State, s.resetLow = true → s.readyPin = false ∧ s.noticePin = false ∧ ∀ k : TrunkNo, s.dirPin k = false) ∧
  (∀ s : State, s.resetLow = false → ∃ t, exec .resetAsserted s = .next t ∧ t.resetLow = true ∧
    t.readyPin = false ∧ t.noticePin = false ∧ (∀ k : TrunkNo, (t.trunks[k]).line = .idle ∧ t.dirPin k = false) ∧
    t.port.phase = (if s.port.phase = .free ∨ s.port.phase = .inHand then .free else .stale) ∧
    Changes [.resetLow, .port, .line] s t) ∧
  (∀ (s : State) (ended : Bool), (s.resetLow = true ∨ s.port.phase = .stale) →
    ∃ t, exec (.transferInReset ended) s = .next t ∧ (∀ i, t.port.shift.at i = 0xFF#8) ∧
      t.port.phase = (if ended then .free else .stale) ∧ t.port.buffer = s.port.buffer ∧ Changes [.port] s t) ∧
  (∀ s : State, ∃ t, exec .hardwareReset s = .next t ∧ t.port.buffer = some ⟨.ok, []⟩ ∧
    t.readyPin = decide (s.port.phase = .free ∨ s.port.phase = .inHand) ∧ t.noticePin = false ∧
    ∀ k : TrunkNo, t.dirPin k = false)

/-- A transfer. TRANSFER_ACCEPTED takes READY low, empties the response buffer and shifts out the response it held, its
header with the run state, notice count and overflow mark of that moment, and 0x00 beyond it; a transfer begun before the
request is taken shifts a NOT_READY header of its own moment, leaves the buffer, and leaves the request in hand with READY
low; NO_OP, as any request, then fills the buffer and takes READY high (R156, R157, R159, R168). -/
def Obligations.TransferConversation : Prop :=
  ∀ (s : State) (r : Response), s.resetLow = false → s.port.phase = .free → s.port.buffer = some r →
    ∃ t, exec .transferAccepted s = .next t ∧ t.readyPin = false ∧ t.port.phase = .taking ∧ t.port.buffer = none ∧
      (∀ i, t.port.shift.at i =
        ([r.status.code, s.run.code, byte s.notices.queue.length, flagByte s.notices.overflow]
          ++ bytes2 r.data.length ++ r.data).getD i 0) ∧
      Changes [.port] s t ∧
      ∀ u : State, u.resetLow = false → (u.port.phase = .taking ∨ u.port.phase = .inHand) →
        (∃ v, exec .notReadyTransfer u = .next v ∧ v.port.buffer = u.port.buffer ∧ v.port.phase = .inHand ∧
          v.readyPin = false ∧
          (∀ i, v.port.shift.at i =
            [0x02#8, u.run.code, byte u.notices.queue.length, flagByte u.notices.overflow, 0#8, 0#8].getD i 0) ∧
          Changes [.port] u v) ∧
        (∃ v, exec .noOp u = .next v ∧ v.port.buffer = some ⟨.ok, []⟩ ∧ v.readyPin = true ∧
          v.port.shift = u.port.shift ∧ Changes [.port] u v)

/-- A request whose transfer is accepted first and which is taken at the transfer's end leaves the same state as the
request taken in one command (the model's two ways to send a request, assumption log 5; R156). -/
def Obligations.SplitTransferEqualsWhole : Prop :=
  ∀ (c : Instr) (s : State), (encodeRequest c).isSome = true → s.resetLow = false → s.port.phase = .free →
    ∃ t, exec .transferAccepted s = .next t ∧ exec c t = exec c s

/-! ## Frames of requests -/

/-- Every request's frame, with any padding after it, is read back as exactly that request, whatever its key and fields
(R158, R159, R160, R168). -/
def Obligations.RequestFramesReadBack : Prop :=
  ∀ (c : Instr) (frame padding : List Byte), encodeRequest c = some frame →
    parseRequest (frame ++ padding) = some c

/-- The field length that a kind and table code call for: none where the kind is unknown or does not allow the table
(R158, R159, R160, R168). -/
def requestLength (kind table : Byte) : Option Nat :=
  match kind.toNat, table.toNat with
  | 0x01, t => if 1 ≤ t ∧ t ≤ 14 then some 0 else none
  | 0x02, 1 => some 12 | 0x02, 2 => some 19 | 0x02, 3 => some 11 | 0x02, 5 => some 26 | 0x02, 6 => some 23
  | 0x02, 7 => some 4 | 0x02, 8 => some 5 | 0x02, 12 => some 6 | 0x02, 13 => some 17
  | 0x03, 5 => some 0 | 0x03, 6 => some 0 | 0x03, 7 => some 0
  | 0x27, 0 => some 1 | 0x31, 0 => some 5
  | k, 0 => if k ∈ [0x00, 0x10, 0x11, 0x18, 0x19, 0x21, 0x22, 0x23, 0x24, 0x25, 0x26, 0x28, 0x29, 0x2A, 0x2B,
      0x30, 0x38, 0x40, 0x41] then some 0 else none
  | _, _ => none

/-- The checks of a frame, in their order: a complete header, the sync byte, a known kind with a table it allows, the
length they call for, and as many bytes as it states. Bytes that pass them all are a request; any others are answered
BAD_FRAME, with no other effect (R158). -/
def Obligations.FrameChecksDecide : Prop :=
  ∀ bytes : List Byte,
    ((parseRequest bytes).isSome = true ↔
      7 ≤ bytes.length ∧ bytes.head? = some 0xA5#8 ∧
      requestLength (bytes.getD 1 0) (bytes.getD 2 0) = some (half (bytes.getD 5 0) (bytes.getD 6 0)).toNat ∧
      7 + (half (bytes.getD 5 0) (bytes.getD 6 0)).toNat ≤ bytes.length) ∧
    ∀ s : State, s.takes → (parseRequest bytes).isSome = false → refused (.badFrameRequest bytes) s .badFrame

/-! ## READ -/

/-- The status of a READ: the table's key range, the leads of the tables keyed by lead, the records in use (R22, R51,
R69, R111, R114, R124, R160). -/
def readStatus (s : State) (table : Table) (key : Half) : Status :=
  let k := key.toNat
  let below (n : Nat) : Status := if k < n then .ok else .badKey
  let lead : Status := if ∃ l : SectionNo, k = l.val ∧ s.roomOf l = l then .ok else .badKey
  match table with
  | .venue => below 1 | .section_ => below 16 | .wall => below 24 | .carrier => below 32 | .selector => below 8
  | .trunk => below 4 | .ident => below 1
  | .room => lead | .channels => lead | .queue => lead | .speakers => lead
  | .seat => if k < 1024 then (if (s.seats.get k).isSome then .ok else .noRecord) else .badKey
  | .booth => if k < 16 then (if (s.booths.get k).isSome then .ok else .noRecord) else .badKey
  | .language => if 1 ≤ k ∧ k ≤ 24 then (if (s.languages.get k).isSome then .ok else .noRecord) else .badKey

/-- The length of a record as a READ returns it (R168); a view counts its entries. -/
def readLength (s : State) (table : Table) (key : Half) : Nat :=
  let l : SectionNo := Fin.ofNat 16 key.toNat
  match table with
  | .venue => 12 | .section_ => 19 | .wall => 11 | .room => 8 | .seat => 26 | .booth => 23 | .language => 4
  | .carrier => 5 | .selector => 6 | .trunk => 17 | .ident => 5
  | .channels => 1 + 4 * (s.rooms[l]).channels.length
  | .queue => 1 + 3 * (s.queue l).length
  | .speakers => 3 + 6 * (s.roomSpeakers l).length + 2 * (s.roomChairs l).length

/-- The bytes of a record as a READ returns it, field by field in the layout of R168. The bits to which R168 gives no field
are left open: the enables of no kind, and the bits 3 to 7 of a seat's flags (assumption log 3). -/
def recordRead (s : State) (table : Table) (key : Half) (data : List Byte) : Prop :=
  let n := key.toNat
  let i : SectionNo := Fin.ofNat 16 n
  let flag (b : Bool) : Byte := if b then 1 else 0
  let seatOr (m : Option Nat) : List Byte := bytes2 (m.getD 0xFFFF)
  match table with
  | .venue => ∃ e : Word, (∀ j, 1 ≤ j → j ≤ 17 → e.getLsbD j = s.venue.enables.getLsbD j) ∧
      data = [byte s.venue.threshold, byte s.venue.hysteresis] ++ bytes4 e.toNat ++ bytes2 s.venue.mask.toNat
        ++ [flag s.venue.global, flag (s.run = .running), byte s.notices.queue.length, flag s.notices.overflow]
  | .section_ => ∃ noise : Word, (∀ c : CarrierNo, noise.getLsbD c.val = (s.carriers[c]).flags[i]) ∧
      let x := s.settings i
      data = [match x.floorMode with | .direct => 0 | .queued => 1 | .replace => 2, byte x.speakerLimit,
          byte x.queueLimit] ++ bytes2 x.speechLimit ++ bytes2 x.grace
        ++ [signedByte x.floorMaster, signedByte x.speakerMaster, signedByte x.micTrim, signedByte x.speakerTrim,
          byte x.duck, match x.priorityAction with | .muteWhileHeld => 0 | .closeAll => 1, byte x.defaultLanguage,
          byte (s.roomOf i).val] ++ bytes4 noise.toNat
  | .wall =>
      let x := s.walls[(Fin.ofNat 24 n : WallNo)]
      data = (match x.setup.pair with | some (a, b) => [byte a.val, byte b.val] | none => [0xFF, 0xFF])
        ++ [match x.setup.polarity with | .madeIsClosed => 0 | .madeIsOpen => 1,
          match x.setup.debounceClass with | .none => 0 | .short => 1 | .medium => 2 | .long => 3,
          flag x.setup.reportOpening, flag x.setup.reportClosing,
          match x.setup.override with | .follow => 0 | .forceOpen => 1 | .forceClosed => 2,
          flag x.sensed, flag x.effective, flag x.pendingFlag, flag x.interval.isSome]
  | .room => ∃ members : Half, (∀ j : SectionNo, members.getLsbD j.val = decide (s.roomOf j = i)) ∧
      let r := s.rooms[i]
      data = bytes2 members.toNat ++ [byte i.val, flag r.frozen, flag (r.holding ≠ []), byte r.floorLanguage, flag r.pin,
        byte r.channels.length]
  | .seat => ∀ x, s.seats.get n = some x → ∃ flags : Byte, flags.getLsbD 0 = x.lock ∧ flags.getLsbD 1 = x.mark ∧
      flags.getLsbD 2 = x.serial.isSome ∧
      data = [match x.kind with | .delegate => 0 | .chair => 1 | .desk => 2,
          match x.seatClass with | .ordinary => 0 | .vip => 1, byte x.section_.val, byte x.language,
          (x.micTrim.map signedByte).getD 0x80, (x.speakerTrim.map signedByte).getD 0x80,
          (x.booth.map byte).getD 0xFF, flags, byte x.neighbours.length]
        ++ seatOr x.neighbours[0]? ++ seatOr x.neighbours[1]? ++ seatOr x.neighbours[2]? ++ seatOr x.neighbours[3]?
        ++ bytes4 ((x.serial.map BitVec.toNat).getD 0)
        ++ (match x.binding with | some (k, a) => [byte k.val, byte a] | none => [0xFF, 0])
        ++ [flag x.present, byte x.misses, match s.floorStateOf n with
          | .idle => 0 | .waiting => 1 | .speaking => 2 | .warned => 3 | .off => 4 | .live => 5]
  | .booth => ∀ y, s.booths.get n = some y →
      data = [byte y.output, byte y.sources.length, byte (y.sources.getD 0 0), byte (y.sources.getD 1 0),
          byte (y.sources.getD 2 0), byte (y.sources.getD 3 0), byte y.home.val, flag y.takeover, flag (!y.fillFloor),
          signedByte y.gain, byte y.desks.length]
        ++ seatOr y.desks[0]? ++ seatOr y.desks[1]? ++ seatOr y.desks[2]? ++ [flag y.live.isSome] ++ seatOr y.live
        ++ (match y.listen with | .floor => [0, 0xFF] | .relay b => [1, byte b] | .relayMissing => [2, 0xFF])
        ++ [byte (s.roomOf y.home).val]
  | .language => ∀ x, s.languages.get n = some x →
      data = [x.code0, x.code1, x.code2, (x.carrier.map (fun c => byte c.val)).getD 0xFF]
  | .carrier => ∃ flags rooms : Half,
      let c : CarrierNo := Fin.ofNat 32 n
      (∀ j : SectionNo, flags.getLsbD j.val = (s.carriers[c]).flags[j] ∧
        rooms.getLsbD j.val = (s.isLead j && (s.rooms[j]).channels.any (fun h => decide (h.carrier = some c)))) ∧
      data = [flag (s.carriers[c]).enabled] ++ bytes2 flags.toNat ++ bytes2 rooms.toNat
  | .channels =>
      data = byte (s.rooms[i]).channels.length :: (s.rooms[i]).channels.flatMap (fun h =>
        [byte h.language] ++ (match h.source with | .floor => [0, 0xFF] | .booth b => [1, byte b] | .silence => [2, 0xFF])
          ++ [(h.carrier.map (fun c => byte c.val)).getD 0xFF])
  | .queue => data = byte (s.queue i).length :: (s.queue i).flatMap (fun r => bytes2 r.seat ++ [flag r.priority])
  | .speakers =>
      data = byte (s.roomSpeakers i).length :: (s.roomSpeakers i).flatMap (fun y => bytes2 y.seat
          ++ (match y.timer with
            | none => [2, 0, 0, 0]
            | some m => (if m.inGrace then [3, 2] else [2, 1]) ++ bytes2 m.remaining))
        ++ bytes2 (s.roomChairs i).length ++ (s.roomChairs i).flatMap bytes2
  | .selector =>
      let x := s.selectors[(Fin.ofNat 8 n : SelectorNo)]
      data = [flag x.enabled, x.matchField.code, x.matchValue, x.matchMask, flag x.targetMark, x.action.code]
  | .trunk =>
      let k : TrunkNo := Fin.ofNat 4 n
      let u := s.trunks[k]
      data = [flag u.enabled, byte u.defaultSection.val, byte u.startQ, byte u.emptyRounds, flag (u.line ≠ .idle)]
        ++ (match u.rollCall with
          | some r => [1, byte r.round, byte r.q] ++ bytes2 r.found ++ bytes2 r.refused
          | none => [0, 0, 0, 0, 0, 0, 0])
        ++ [match u.access with | .idle => 0 | .waiting _ => 1 | .sent _ => 2, byte u.indicators.length,
          byte u.releases.length, byte (s.bound k).length, byte ((s.bound k).filter (fun p => s.isPresent p.2)).length]
  | .ident => data = [0x3C, 0x71, 0x24, 0x10, 1]

/-- READ answers by the key and record checks of its table; an accepted READ returns its record byte for byte in the layout
of its table, a refused one no data; no record changes (R22, R69, R79, R124, R130, R160, R162, R168; it uses up one open value of
the model, assumption log 3). -/
def Obligations.ReadAnswersByItsTable : Prop :=
  ∀ (table : Table) (key : Half) (s : State), s.takes → ∃ r : Response,
    exec (.read table key) s = .next { s with port := s.portAfter r, free := s.free + 1 } ∧
    r.status = readStatus s table key ∧
    (readStatus s table key ≠ .ok → r.data = []) ∧
    (readStatus s table key = .ok → r.data.length = readLength s table key ∧ recordRead s table key r.data)

/-! ## The VENUE record, the notice queue, START and STOP -/

/-- WRITE of the VENUE record: every key but 0 is refused BAD_KEY; else every field takes its value, the hysteresis at
most 64, and the NOTICE output follows the written global enable at once (R160, R161, R167). -/
def Obligations.VenueWriteTakesEffect : Prop :=
  ∀ (key : Half) (f : VenueWrite) (s : State), s.takes →
    (key ≠ 0#16 → refused (.writeVenue key f) s .badKey) ∧
    (key = 0#16 → ∃ t, answers (.writeVenue key f) s ⟨.ok, []⟩ t ∧
      t.venue.threshold = f.threshold.toNat ∧ t.venue.hysteresis = min 64 f.hysteresis.toNat ∧
      t.venue.enables = f.enables ∧ t.venue.mask = f.mask ∧
      (f.global = 0#8 → t.venue.global = false) ∧ (f.global = 1#8 → t.venue.global = true) ∧
      t.noticePin = (t.venue.global && decide (s.notices.queue ≠ [])) ∧
      Changes [.port, .free, .venue] s t)

/-- The code of a reason, cause, end mark or key refusal, by the numbering of R168. -/
def reasonByte : Reason → Byte
  | .key => 0x20 | .granted => 0x21 | .next => 0x22 | .auto => 0x23 | .cancelled => 0x24 | .withdrawn => 0x25
  | .ownKey => 0x26 | .closed => 0x27 | .replaced => 0x28 | .limit => 0x29 | .priority => 0x2A | .locked => 0x18
  | .marked => 0x2B | .time => 0x2C | .warning => 0x2D | .extended => 0x2E | .merge => 0x2F | .division => 0x30
  | .unitLost => 0x31 | .retired => 0x32 | .cleared => 0x33 | .stop => 0x34 | .takeover => 0x35
  | .boothRetired => 0x36 | .full => 0x37 | .empty => 0x38 | .interference => 0x40 | .disabled => 0x41
  | .added => 0x42 | .unparked => 0x43 | .ended => 0x48 | .roundLimit => 0x49 | .aborted => 0x4A

/-- The code of a floor or desk state, those of the seat record's floor state (R168). -/
def stateByte : FloorState → Byte
  | .idle => 0 | .waiting => 1 | .speaking => 2 | .warned => 3 | .off => 4 | .live => 5

/-- A notice's kind code and detail, field by field by the notice table of R168; a set is the 2 or 3 bytes that hold the
bit of each member. The floor states and the direction have the codes of the fields they repeat, 0 READ and 1 WRITE
(R168). -/
def noticeDetail : Detail → Nat × (List Byte → Prop)
  | .wall w opened walls => (1, fun bytes => ∃ set : BitVec 24, (∀ v : WallNo, set.getLsbD v.val = decide (v ∈ walls)) ∧
      bytes = [byte w.val, if opened then 1 else 0] ++ bytes3 set.toNat)
  | .roomMerged leads => (2, fun bytes => ∃ set : Half, (∀ l : SectionNo, set.getLsbD l.val = decide (l ∈ leads)) ∧
      bytes = bytes2 set.toNat)
  | .roomDivided leads => (3, fun bytes => ∃ set : Half, (∀ l : SectionNo, set.getLsbD l.val = decide (l ∈ leads)) ∧
      bytes = bytes2 set.toNat)
  | .seatState before after r => (4, fun bytes => bytes = [stateByte before, stateByte after, reasonByte r])
  | .requestRefused next r => (5, fun bytes => bytes = [if next then 2 else 1, reasonByte r])
  | .timeWarning grace => (6, fun bytes => bytes = bytes2 grace)
  | .unitLost k a => (7, fun bytes => bytes = [byte k.val, byte a])
  | .unitFound k a => (8, fun bytes => bytes = [byte k.val, byte a])
  | .rollcallDone k found refused rounds q mark => (9, fun bytes =>
      bytes = [byte k.val] ++ bytes2 found ++ bytes2 refused ++ [byte rounds, byte q, reasonByte mark])
  | .unitAccessDone k r status value => (10, fun bytes => bytes =
      [byte k.val, byte r.address, byte r.parameter, if r.write then 1 else 0,
        match status with | .ok => 0 | .noReply => 1 | .aborted => 2] ++ bytes2 value.toNat)
  | .deskState b before after r => (11, fun bytes =>
      bytes = [byte b, stateByte before, stateByte after, reasonByte r])
  | .deskRefused b seat booth => (12, fun bytes => bytes = [byte b] ++ bytes2 seat ++ [byte booth])
  | .relayMissing b language sources => (13, fun bytes => bytes = [byte b, byte language, byte sources.length,
      byte (sources.getD 0 0), byte (sources.getD 1 0), byte (sources.getD 2 0), byte (sources.getD 3 0)])
  | .carrierHop language old new cause => (14, fun bytes =>
      bytes = [byte language, byte old.val, byte new.val, reasonByte cause])
  | .channelParked language old cause => (15, fun bytes =>
      bytes = [byte language, (old.map (fun c => byte c.val)).getD 0xFF, reasonByte cause])
  | .channelPlaced language new cause => (16, fun bytes => bytes = [byte language, byte new.val, reasonByte cause])
  | .floorStopped closed withdrawn desks => (17, fun bytes =>
      bytes = bytes2 closed ++ bytes2 withdrawn ++ [byte desks])

/-- The bytes of a notice record as TAKE NOTICE returns it: the kind, the room lead, the seat, the detail's length and the
detail (R168). -/
def noticeRead (n : Notice) (data : List Byte) : Prop :=
  ∃ detail, (noticeDetail n.detail).2 detail ∧
    data = [byte (noticeDetail n.detail).1, (n.room.map (fun l => byte l.val)).getD 0xFF]
      ++ bytes2 (n.seat.getD 0xFFFF) ++ [byte detail.length] ++ detail

/-- A notice whose kind is enabled, and whose room, if it names one, is in the mask, joins the tail of a queue of fewer
than 64, and at a full queue is dropped and sets the mark; any other is dropped without a trace. TAKE NOTICE returns the
record of the oldest, byte for byte in the layout and the codes of a notice record, and removes it, and finds NO_RECORD on an
empty queue; CLEAR OVERFLOW clears the mark and removes none (R165, R166, R168). -/
def Obligations.NoticesQueueInOrder : Prop :=
  ∀ s : State,
    (∀ n : Notice,
      let passes := s.venue.enables.getLsbD (noticeDetail n.detail).1 = true ∧
        ∀ l : SectionNo, n.room = some l → s.venue.mask.getLsbD l.val = true
      (¬ passes → s.notify n = s) ∧
      (passes → s.notices.queue.length < 64 →
        s.notify n = { s with notices := { queue := s.notices.queue ++ [n], overflow := s.notices.overflow } }) ∧
      (passes → 64 ≤ s.notices.queue.length →
        s.notify n = { s with notices := { queue := s.notices.queue, overflow := true } })) ∧
    (s.takes →
      (∀ n rest, s.notices.queue = n :: rest → ∃ data t, noticeRead n data ∧
        answers .takeNotice s ⟨.ok, data⟩ t ∧ t.notices = { queue := rest, overflow := s.notices.overflow } ∧ Changes [.port, .notices] s t) ∧
      (s.notices.queue = [] → refused .takeNotice s .noRecord) ∧
      ∃ t, answers .clearOverflow s ⟨.ok, []⟩ t ∧
        t.notices = { queue := s.notices.queue, overflow := false } ∧ Changes [.port, .notices] s t)

/-- START in HALTED: the run state becomes RUNNING; every seat in use has the microphone, loudspeaker or desk level and
the floor bus that the level rules give, which for a delegate or chair on an empty floor are a MUTE microphone and a
loudspeaker at its base level; the whole shadow and all sixteen sections are due to be sent; each enabled trunk begins to
scan as `ScanBegins` says: a release-all frame if its mark was set, every bound seat on its indicator list, the first round over
every bound address; a disabled trunk is left. In RUNNING it is refused WRONG_STATE (R29, R30, R31, R139, R145 to R148, R154,
R163; the rest of a trunk without seats, assumption log 9; DIR, assumption log 11). -/
def Obligations.StartBeginsRunning : Prop :=
  ∀ s : State, s.takes →
    (s.run = .running → refused .start s .wrongState) ∧
    (s.run = .halted → Tidy s → ∃ t, answers .start s ⟨.ok, []⟩ t ∧ t.run = .running ∧
      (∀ n x, s.seats.get n = some x → t.shadow.seat n = levelsBy t n x) ∧
      (s.speakers = [] → s.chairs = [] → ∀ n x, s.seats.get n = some x → x.kind ≠ .desk →
        let base := (s.settings (s.roomOf x.section_)).speakerMaster
          + x.speakerTrim.getD (s.settings (s.roomOf x.section_)).speakerTrim
        t.shadow.seat n =
          { input := .mute
            output := if 12 < base then .steps 12 else if base < -120 then .mute else .steps base
            bus := some (s.roomOf x.section_) }) ∧
      t.sendList = s.sendList ++ allEntries.filter (fun e => decide (e ∉ s.sendList)) ∧
      (s.programmes = [] → t.programmes = List.finRange 16) ∧
      (∀ k : TrunkNo, (s.trunks[k]).enabled = false → t.trunks[k] = s.trunks[k]) ∧
      (∀ k : TrunkNo, (s.trunks[k]).enabled = true → ScanBegins s t k) ∧
      Changes (parts .start) s t)

/-- The notices of a trunk whose scanning ends: ROLLCALL_DONE with the counts so far and mark ABORTED, then UNIT_ACCESS_DONE
with status ABORTED, which names the seat bound at the address (R44, R46, R47, R48). -/
def abortNotices (s : State) (k : TrunkNo) : List Notice :=
  let done (r : AccessRequest) : Notice :=
    ⟨(s.seatAt k r.address).bind s.seatRoom, s.seatAt k r.address, .unitAccessDone k r .aborted 0⟩
  (s.trunks[k]).rollCall.toList.map (fun r => ⟨none, none, .rollcallDone k r.found r.refused r.round r.q .aborted⟩)
  ++ match (s.trunks[k]).access with
    | .idle => []
    | .waiting r => [done r]
    | .sent r => [done r]

/-- The SEAT_STATE notices of floors emptied with a reason: room by room in order of lead the speakers in speaker-list
order, the open chairs in chair-set order, the entries of the queue in pool order (R68, R77). -/
def emptiedNotices (s : State) (rooms : List SectionNo) (reason : Reason) : List Notice :=
  rooms.flatMap (fun l =>
    (s.roomSpeakers l).map (fun y => ⟨some l, some y.seat, .seatState y.state .idle reason⟩)
      ++ (s.roomChairs l).map (fun c => ⟨some l, some c, .seatState .speaking .idle reason⟩)
      ++ (s.poolOf l).map (fun r => ⟨some l, some r.seat, .seatState .waiting .idle reason⟩))

/-- STOP in RUNNING: the run state becomes HALTED; the speaker list, the chair set, the pool and every holding set are
empty and every booth SILENT; every trunk is idle with no roll call, access or indicator due; every level is MUTE, and
those that were not are due to be sent; no zone is due a programme; floor languages and pins stand. The notices stand in their
order: SEAT_STATE room by room, DESK_STATE by booth, RELAY_MISSING by lead, ROLLCALL_DONE and UNIT_ACCESS_DONE with ABORTED
trunk by trunk, and last FLOOR_STOPPED, which counts what was closed, withdrawn and switched off. A room where a desk was
switched off takes its sources anew, and exactly the shadow entries that changed are due to be sent, the mutes before the
sources. In HALTED it is refused WRONG_STATE (R44, R47, R48, R77, R129, R143, R151, R155, R164). -/
def Obligations.StopEmptiesEverything : Prop :=
  ∀ s : State, s.takes →
    (s.run = .halted → refused .stop s .wrongState) ∧
    (s.run = .running → Tidy s → RoomsFollowWalls s → FloorInOrder s → DesksInOrder s →
      ∃ t, answers .stop s ⟨.ok, []⟩ t ∧ t.run = .halted ∧
        t.speakers = [] ∧ t.chairs = [] ∧ t.pool = [] ∧ (∀ l : SectionNo, (t.rooms[l]).holding = []) ∧
        (∀ b y, t.booths.get b = some y → y.live = none) ∧
        (∀ l : SectionNo, (t.rooms[l]).floorLanguage = (s.rooms[l]).floorLanguage ∧
          (t.rooms[l]).pin = (s.rooms[l]).pin) ∧
        (∀ k : TrunkNo, (t.trunks[k]).line = .idle ∧ t.dirPin k = false ∧ (t.trunks[k]).rollCall = none ∧
          (t.trunks[k]).access = .idle ∧ (t.trunks[k]).indicators = [] ∧
          ((s.trunks[k]).releasing = none → (t.trunks[k]).releases = (s.trunks[k]).releases)) ∧
        t.programmes = [] ∧
        (∀ n, t.shadow.seat n = { input := .mute, output := .mute, bus := (s.shadow.seat n).bus }) ∧
        (∀ n, ((s.shadow.seat n).input ≠ .mute → .input n ∈ t.sendList) ∧
          ((s.shadow.seat n).output ≠ .mute → .output n ∈ t.sendList)) ∧
        (InOrder s → EntriesListed s t) ∧
        (∀ b y, s.booths.get b = some y → y.live.isSome = true → SourcesTaken s t (s.roomOf y.home)) ∧
        (let stopped : Notice := ⟨none, none, .floorStopped (s.speakers.length + s.chairs.length) s.pool.length
            (s.booths.cells.filter (fun c => c.2.live.isSome)).length⟩;
          t.notices = ((emptiedNotices s s.leads .stop
            ++ s.booths.cells.flatMap (fun c => c.2.live.toList.map (fun n =>
              (⟨some (s.roomOf c.2.home), some n, .deskState c.1 .live .off .stop⟩ : Notice)))
            ++ allSections.flatMap (s.relayNoticesTo t) ++ (List.finRange 4).flatMap (abortNotices s)
            ++ [stopped]).foldl State.notify s).notices) ∧
        Changes (parts .stop) s t)

/-! ## Walls and rooms -/

/-- FREEZE sets the frozen flag of the room it names, also of one already frozen, in either run state; a key that names
no room at present is refused BAD_KEY (R13). -/
def Obligations.FreezeSetsTheFrozenFlag : Prop :=
  ∀ (key : Half) (s : State), s.takes →
    ((¬ ∃ l, s.names key l) → refused (.freeze key) s .badKey) ∧
    ∀ l, s.names key l → ∃ t, answers (.freeze key) s ⟨.ok, []⟩ t ∧ (t.rooms[l]).frozen = true ∧
      (∀ m : SectionNo, m ≠ l → (t.rooms[m]).frozen = (s.rooms[m]).frozen) ∧ Changes [.port, .frozen] s t ∧
      ((s.rooms[l]).frozen = true → Changes [.port] s t)

/-- The WALL notice of a wall whose effective state differs between two states, where the report of that change is on:
its new state, the open walls, and the lead that the recomputation gives its lower section (R16). -/
def wallReport (s t : State) (w : WallNo) : Option Notice :=
  let y := t.walls[w]
  if (s.walls[w]).effective ≠ y.effective ∧ (if y.effective then y.setup.reportOpening else y.setup.reportClosing) = true
  then some ⟨y.setup.pair.map (fun p => t.roomOf p.1), none,
    .wall w y.effective ((List.finRange 24).filter (fun v => (t.walls[v]).effective))⟩
  else none

/-- THAW. A room that is not frozen is left as it is. Otherwise its flag clears, and every wall with a section in it and
every pending wall is released: one that still has a section in another frozen room is held and its pending flag set or
cleared, every other takes its computed state. All take their states before the notices, in wall order, each with the
same snapshot and the lead that the recomputation gives the lower section. One composition change, which may merge and
divide, then leaves each new room as `Reformed` says: room notices, hold, speakers, queue and grants, floor language and
pin, LIVE desks, channels, carriers, zones, levels and indicators (R11, R14, R15, R16, R18 to R21, R95 to R106, R124 to
R127, R139 to R142, R150;
the order of a merged room's carrier notices is the model's, assumption log 22). -/
def Obligations.ThawReleasesWallsTogether : Prop :=
  ∀ (key : Half) (s : State), s.takes →
    ((¬ ∃ l, s.names key l) → refused (.thaw key) s .badKey) ∧
    ∀ l, s.names key l →
      ((s.rooms[l]).frozen = false → ∃ t, answers (.thaw key) s ⟨.ok, []⟩ t ∧ Changes [.port] s t) ∧
      ((s.rooms[l]).frozen = true → ∃ t, answers (.thaw key) s ⟨.ok, []⟩ t ∧ (t.rooms[l]).frozen = false ∧
        (∀ w : WallNo,
          let x := s.walls[w]
          let touches (p : SectionNo → Prop) : Prop := ∃ a b, x.setup.pair = some (a, b) ∧ (p a ∨ p b)
          let released := x.pendingFlag = true ∨ touches (fun a => s.roomOf a = l)
          let held := touches (fun a => s.roomOf a ≠ l ∧ (s.rooms[s.roomOf a]).frozen = true)
          (¬ released → t.walls[w] = x) ∧
          (released → held → t.walls[w] = { x with pendingFlag := decide (x.computed ≠ x.effective) }) ∧
          (released → ¬ held → t.walls[w] = { x with effective := x.computed, pendingFlag := false })) ∧
        (let reported := (List.finRange 24).filterMap (fun w => wallReport s t w);
          noticesFirst s t reported ∧
          (InOrder s → Reformed s t reported (some l))) ∧
        Changes (.port :: .wallState :: roomParts) s t)

/-- The status of a WALL write: the sections, their change on an OPEN wall, and the enumerations, in the order of R5
(R5, R6, R12, R168). -/
def wallWriteStatus (x : Wall) (f : WallWrite) : Status :=
  let same : Bool :=
    match x.setup.pair with
    | none => decide (f.first = 0xFF#8 ∧ f.second = 0xFF#8)
    | some (a, b) => decide ((f.first.toNat = a.val ∧ f.second.toNat = b.val) ∨
        (f.first.toNat = b.val ∧ f.second.toNat = a.val))
  if ¬ (f.first = 0xFF#8 ∧ f.second = 0xFF#8) ∧
      (16 ≤ f.first.toNat ∨ 16 ≤ f.second.toNat ∨ f.first = f.second) then .badValue
  else if same = false ∧ x.effective = true then .wrongState
  else if 2 ≤ f.polarity.toNat ∨ 4 ≤ f.debounceClass.toNat ∨ 3 ≤ f.override.toNat then .badValue
  else .ok

/-- WRITE of a wall: refused by the first refused field with no change; else all fields are stored, the pair lower section
first, and the wall is evaluated under them: held with its pending flag set or cleared while a section of its new pair lies
in a frozen room, otherwise at its computed state. With the polarity as it was, the debounce is not touched. A change of its
effective state is reported where the written enable of it is on, and the rooms are then as `Reformed` says (R5, R6, R9, R10,
R11, R12, R14, R16, R18 to R21, R95 to R106, R124 to R127, R139 to R142, R150;
the order of a merged room's carrier notices is the model's, assumption log 22). -/
def Obligations.WallWriteIsEvaluated : Prop :=
  ∀ (key : Half) (f : WallWrite) (s : State), s.takes →
    (24 ≤ key.toNat → refused (.writeWall key f) s .badKey) ∧
    ∀ w : WallNo, key.toNat = w.val → Tidy s →
      let x := s.walls[w]
      (wallWriteStatus x f ≠ .ok → refused (.writeWall key f) s (wallWriteStatus x f)) ∧
      (wallWriteStatus x f = .ok → ∃ t, answers (.writeWall key f) s ⟨.ok, []⟩ t ∧
        let y := t.walls[w]
        (∀ a b : SectionNo, f.first.toNat = a.val → f.second.toNat = b.val →
          y.setup.pair = some (min a b, max a b)) ∧
        (f.first = 0xFF#8 → y.setup.pair = none) ∧
        y.setup.polarity.code = f.polarity ∧ y.setup.debounceClass.code = f.debounceClass ∧
        y.setup.override.code = f.override ∧
        (onOffByte f.reportOpening → flagByte y.setup.reportOpening = f.reportOpening) ∧
        (onOffByte f.reportClosing → flagByte y.setup.reportClosing = f.reportClosing) ∧
        (y.setup.polarity = x.setup.polarity → y.sensed = x.sensed ∧ y.interval = x.interval) ∧
        (y.setup.polarity ≠ x.setup.polarity →
          (y.interpreted = x.sensed → y.sensed = x.sensed ∧ y.interval = none) ∧
          (y.interpreted ≠ x.sensed →
            (y.setup.debounceClass = .none → y.sensed = y.interpreted ∧ y.interval = none) ∧
            (y.setup.debounceClass ≠ .none → y.sensed = x.sensed ∧ y.interval = y.setup.debounceClass.length))) ∧
        (let held := ∃ a b, y.setup.pair = some (a, b) ∧
            ((s.rooms[s.roomOf a]).frozen = true ∨ (s.rooms[s.roomOf b]).frozen = true);
          (held → y.effective = x.effective ∧ y.pendingFlag = decide (y.computed ≠ x.effective)) ∧
          (¬ held → y.effective = y.computed ∧ y.pendingFlag = false)) ∧
        (∀ v : WallNo, v ≠ w → t.walls[v] = s.walls[v]) ∧
        ((t.walls[w]).effective = x.effective →
          Changes [.port, .free, .wallSetup, .wallSense, .wallState] s t) ∧
        noticesFirst s t (wallReport s t w).toList ∧ (InOrder s → Reformed s t (wallReport s t w).toList none) ∧
        Changes (parts (.writeWall key f)) s t)

/-- A sample that differs from the one before it ends a running interval; where the state it is read as differs from the
sensed state, class NONE senses it at once and any other class starts an interval of its full length. The end of an interval
senses the interpreted state, and a change of the sensed state is evaluated: a change of the effective state is reported
where its enable is on, and the rooms are then as `Reformed` says. A sample that does not differ does nothing, nor does, in
the model's reading, an end on a wall where no interval runs (assumption log 2) or where one that was started anew has time
left (assumption log 6) (R7, R8, R11, R14, R16, R18 to R21, R95 to R106, R124 to R127, R139 to R142, R150;
the order of a merged room's carrier notices is the model's, assumption log 22). -/
def Obligations.ContactsAreDebounced : Prop :=
  ∀ (s : State) (w : WallNo), s.resetLow = false →
    let x := s.walls[w]
    let read (made : Bool) : Bool := match x.setup.polarity with
      | .madeIsClosed => !made
      | .madeIsOpen => made
    let held := ∃ a b, x.setup.pair = some (a, b) ∧
      ((s.rooms[s.roomOf a]).frozen = true ∨ (s.rooms[s.roomOf b]).frozen = true)
    let sensedNow (t : State) (o : Bool) : Prop :=
      let y := t.walls[w]
      y.sensed = o ∧ y.interval = none ∧ y.setup = x.setup ∧
      (o ≠ x.sensed → ¬ held → y.effective = y.computed ∧ y.pendingFlag = false) ∧
      (o ≠ x.sensed → held → y.effective = x.effective ∧ y.pendingFlag = decide (y.computed ≠ x.effective)) ∧
      (o = x.sensed → Changes [.wallSense] s t) ∧
      noticesFirst s t (wallReport s t w).toList ∧ (InOrder s → Reformed s t (wallReport s t w).toList none)
    exec (.rawContactChange w x.made) s = .next s ∧
    (∃ t, exec (.rawContactChange w (!x.made)) s = .next t ∧ (t.walls[w]).made = !x.made ∧
      (∀ v : WallNo, v ≠ w → t.walls[v] = s.walls[v]) ∧ Changes (.wallSense :: .wallState :: roomParts) s t ∧
      (read (!x.made) = x.sensed → (t.walls[w]).interval = none ∧ (t.walls[w]).sensed = x.sensed ∧
        Changes [.wallSense] s t) ∧
      (read (!x.made) ≠ x.sensed → x.setup.debounceClass = .none → sensedNow t (read (!x.made))) ∧
      (read (!x.made) ≠ x.sensed → x.setup.debounceClass ≠ .none →
        (t.walls[w]).interval = (match x.setup.debounceClass with
          | .none => none | .short => some 50 | .medium => some 500 | .long => some 3000) ∧
        (t.walls[w]).sensed = x.sensed ∧ Changes [.wallSense] s t)) ∧
    (x.interval ≠ some 0 → exec (.debounceEnd w) s = .next s) ∧
    (x.interval = some 0 → ∃ t, exec (.debounceEnd w) s = .next t ∧ (t.walls[w]).made = x.made ∧
      sensedNow t (read x.made) ∧ (∀ v : WallNo, v ≠ w → t.walls[v] = s.walls[v]) ∧
      Changes (.wallSense :: .wallState :: roomParts) s t)

/-- The status of a SECTION write: the refusing fields in the order of R1 (R1, R2). -/
def sectionWriteStatus (s : State) (f : SectionWrite) : Status :=
  if 3 ≤ f.floorMode.toNat then .badValue
  else if 2 ≤ f.priorityAction.toNat then .badValue
  else if 24 < f.defaultLanguage.toNat then .badValue
  else if f.defaultLanguage ≠ 0#8 ∧ s.languages.get f.defaultLanguage.toNat = none then .noRecord
  else .ok

/-- WRITE of a section: refused by the first refused field with no change; else every setting takes its value, at the
nearest limit of its range. A section that does not lead its room changes nothing else. In a room whose lead is written,
the speakers beyond the speaker limit, latest granted first, and the queue entries beyond the queue limit are gone, with
reason LIMIT; a DIRECT room outside a CLOSE_ALL hold then grants the first entries left in its queue up to the limit, in
order, each with its AUTO notice; and nothing else leaves or joins a list. Each of those seats is placed on its indicator
list. A changed floor language reaches the room's sources, and changed levels its shadow entries (R1, R2, R3, R36, R60, R70,
R71, R150). -/
def Obligations.SectionWriteTakesEffect : Prop :=
  ∀ (key : Half) (f : SectionWrite) (s : State), s.takes →
    (16 ≤ key.toNat → refused (.writeSection key f) s .badKey) ∧
    ∀ i : SectionNo, key.toNat = i.val →
      (sectionWriteStatus s f ≠ .ok → refused (.writeSection key f) s (sectionWriteStatus s f)) ∧
      (sectionWriteStatus s f = .ok → ∃ t, answers (.writeSection key f) s ⟨.ok, []⟩ t ∧
        (let x := t.settings i;
          x.floorMode.code = f.floorMode ∧ x.speakerLimit = max 1 (min 8 f.speakerLimit.toNat) ∧
          x.queueLimit = min 64 f.queueLimit.toNat ∧ x.speechLimit = min 3600 f.speechLimit.toNat ∧
          x.grace = min 600 f.grace.toNat ∧ x.floorMaster = max (-120) (min 0 f.floorMaster.toInt) ∧
          x.speakerMaster = max (-120) (min 0 f.speakerMaster.toInt) ∧
          x.micTrim = max (-24) (min 24 f.micTrim.toInt) ∧ x.speakerTrim = max (-24) (min 24 f.speakerTrim.toInt) ∧
          x.duck = min 40 f.duck.toNat ∧ x.priorityAction.code = f.priorityAction ∧
          x.defaultLanguage = f.defaultLanguage.toNat) ∧
        (∀ j : SectionNo, j ≠ i → t.settings j = s.settings j) ∧
        (s.isLead i = false → Changes [.port, .settings] s t) ∧
        (t.settings i = s.settings i → Changes [.port] s t) ∧
        (s.isLead i = true → FloorInOrder s →
          let limit := (t.settings i).speakerLimit
          let longest := (t.settings i).queueLimit
          let closed := ((s.roomSpeakers i).drop limit).reverse
          let out := ((s.queue i).drop longest).reverse
          let heads := if (t.settings i).floorMode = .direct ∧ s.closingAll i = false then
              (((s.queue i).take longest).take (limit - ((s.roomSpeakers i).take limit).length)).map Request.seat
            else []
          (t.roomSpeakers i).length ≤ limit ∧ (t.poolOf i).length ≤ longest ∧
          noticesFirst s t (closed.map (fun y => ⟨some i, some y.seat, .seatState y.state .idle .limit⟩)
            ++ out.map (fun r => ⟨some i, some r.seat, .seatState .waiting .idle .limit⟩) ++ autoNotices i heads) ∧
          t.speakers = s.speakers.filter (fun y => decide (y ∉ closed))
            ++ heads.map (fun n => ⟨n, (t.settings i).timer⟩) ∧
          t.pool = s.pool.filter (fun r => decide (r ∉ out ∧ r.seat ∉ heads)) ∧ t.chairs = s.chairs ∧
          placed s t (closed.map Speaker.seat ++ out.map Request.seat ++ heads) ∧
          (t.rooms[i]).floorLanguage = t.spokenAfter i (s.rooms[i]).floorLanguage (s.rooms[i]).pin heads ∧
          ((t.rooms[i]).floorLanguage ≠ (s.rooms[i]).floorLanguage → SourcesTaken s t i) ∧
          ((t.settings i).levelFields ≠ (s.settings i).levelFields ∨ closed ≠ [] ∨ heads ≠ [] →
            LevelsTaken s t i)) ∧
        Changes (parts (.writeSection key f)) s t)

/-! ## The speaking floor -/

/-- The status that refuses a request naming a seat before its own rules, none where none does (R64). -/
def seatRefusal (s : State) (key : Half) (running : Bool) : Option Status :=
  if 1024 ≤ key.toNat then some .badKey
  else
    match s.seats.get key.toNat with
    | none => some .noRecord
    | some x =>
      if running = true ∧ s.run = .halted then some .wrongState
      else if x.kind = .desk then some .wrongState else none

/-- GRANT opens the microphone of a PRESENT delegate or chair that is not open: a chair joins the chair set; a delegate
leaves the pool and joins the speaker list, with a timer of its room's speech limit and grace unless that limit is 0; in a
full REPLACE room the oldest speaker is closed before it, in any other full room the request is refused FULL. The seats
closed and opened are placed on their indicator lists. ABSENT and open seats are refused WRONG_STATE (R58, R64, R65, R71,
R80). -/
def Obligations.GrantOpensAMicrophone : Prop :=
  ∀ (key : Half) (s : State), s.takes →
    (∀ st, seatRefusal s key true = some st → refused (.grant key) s st) ∧
    ∀ x, seatRefusal s key true = none → s.seats.get key.toNat = some x →
      let n := key.toNat
      let l := s.roomOf x.section_
      let entry : Speaker :=
        { seat := n
          timer := if (s.settings l).speechLimit = 0 then none
            else some
              { inGrace := false, remaining := (s.settings l).speechLimit,
                capturedLimit := (s.settings l).speechLimit, capturedGrace := (s.settings l).grace, millis := 0 } }
      let opened : Notice := ⟨some l, some n, .seatState (s.floorStateOf n) .speaking .granted⟩
      (x.present = false ∨ s.micOpen n = true → refused (.grant key) s .wrongState) ∧
      (x.present = true → s.micOpen n = false → FloorInOrder s →
        (x.kind = .chair → ∃ t, answers (.grant key) s ⟨.ok, []⟩ t ∧ t.chairs = s.chairs ++ [n] ∧
          t.speakers = s.speakers ∧ t.pool = s.pool ∧ Granted s t x l ∧ noticesFirst s t [opened] ∧
          placed s t [n] ∧ Changes (.port :: floorParts) s t) ∧
        (x.kind = .delegate → s.belowLimit l = true → ∃ t, answers (.grant key) s ⟨.ok, []⟩ t ∧
          t.chairs = s.chairs ∧ t.speakers = s.speakers ++ [entry] ∧
          t.pool = s.pool.filter (fun r => decide (r.seat ≠ n)) ∧ Granted s t x l ∧ noticesFirst s t [opened] ∧
          placed s t [n] ∧ Changes (.port :: floorParts) s t) ∧
        (x.kind = .delegate → s.belowLimit l = false → (s.settings l).floorMode ≠ .replace →
          refused (.grant key) s .full) ∧
        (x.kind = .delegate → s.belowLimit l = false → (s.settings l).floorMode = .replace →
          ∃ y ys t, s.roomSpeakers l = y :: ys ∧ answers (.grant key) s ⟨.ok, []⟩ t ∧ t.chairs = s.chairs ∧
            t.speakers = s.speakers.filter (fun z => decide (z.seat ≠ y.seat)) ++ [entry] ∧
            t.pool = s.pool.filter (fun r => decide (r.seat ≠ n)) ∧ Granted s t x l ∧
            noticesFirst s t [⟨some l, some y.seat, .seatState y.state .idle .replaced⟩, opened] ∧
            placed s t [y.seat, n] ∧ Changes (.port :: floorParts) s t))

/-- CLOSE shuts the open microphone of a delegate or chair, which leaves its list with its timer, and is followed by the
auto-advance of a DIRECT room; a seat that is not open is refused WRONG_STATE (R58, R60, R64, R66). -/
def Obligations.CloseShutsAMicrophone : Prop :=
  ∀ (key : Half) (s : State), s.takes →
    (∀ st, seatRefusal s key false = some st → refused (.close key) s st) ∧
    ∀ x, seatRefusal s key false = none → s.seats.get key.toNat = some x →
      (s.micOpen key.toNat = false → refused (.close key) s .wrongState) ∧
      (s.micOpen key.toNat = true → FloorInOrder s → ∃ t, answers (.close key) s ⟨.ok, []⟩ t ∧
        Closed s t key.toNat (s.roomOf x.section_) .closed ∧ Changes (.port :: floorParts) s t)

/-- WITHDRAW removes the pool entry of a WAITING delegate, with its notice and its indicator; PROMOTE sets the priority
flag of the entry in its place, with neither. On a chair or a seat that does not wait both are refused WRONG_STATE
(R56, R64, R66). -/
def Obligations.WaitingRequestsLeaveOrRise : Prop :=
  ∀ (key : Half) (s : State), s.takes →
    (∀ st, seatRefusal s key false = some st → refused (.withdraw key) s st ∧ refused (.promote key) s st) ∧
    ∀ x, seatRefusal s key false = none → s.seats.get key.toNat = some x →
      let n := key.toNat
      (x.kind = .chair ∨ s.waiting n = false →
        refused (.withdraw key) s .wrongState ∧ refused (.promote key) s .wrongState) ∧
      (x.kind = .delegate → s.waiting n = true →
        (∃ t, answers (.withdraw key) s ⟨.ok, []⟩ t ∧ t.pool = s.pool.filter (fun r => decide (r.seat ≠ n)) ∧
          t.notices = (s.notify ⟨some (s.roomOf x.section_), some n, .seatState .waiting .idle .withdrawn⟩).notices ∧
          placed s t [n] ∧ Changes [.port, .pool, .notices, .indicators] s t) ∧
        (∃ t, answers (.promote key) s ⟨.ok, []⟩ t ∧
          t.pool = s.pool.map (fun r => if r.seat = n then ⟨n, true⟩ else r) ∧ Changes [.port, .pool] s t))

/-- NEXT grants the head of a room's queue, in a full REPLACE room after closing the oldest speaker, and places each of the two
seats on its indicator list; an empty queue is answered NO_RECORD, a full room of another mode FULL, and in HALTED a room named is answered WRONG_STATE (R64, R67). -/
def Obligations.NextGrantsTheHead : Prop :=
  ∀ (key : Half) (s : State), s.takes →
    ((¬ ∃ l, s.names key l) → refused (.next key) s .badKey) ∧
    ∀ l, s.names key l →
      (s.run = .halted → refused (.next key) s .wrongState) ∧
      (s.run = .running → s.queue l = [] → refused (.next key) s .noRecord) ∧
      (s.run = .running → ∀ r rest, s.queue l = r :: rest →
        (s.belowLimit l = false → (s.settings l).floorMode ≠ .replace → refused (.next key) s .full) ∧
        (FloorInOrder s → ∀ x, s.seats.get r.seat = some x →
          let granted : Notice := ⟨some l, some r.seat, .seatState .waiting .speaking .next⟩
          (s.belowLimit l = true → ∃ t, answers (.next key) s ⟨.ok, []⟩ t ∧
            t.speakers = s.speakers ++ [⟨r.seat, (s.settings l).timer⟩] ∧ t.chairs = s.chairs ∧
            t.pool = s.pool.filter (fun q => decide (q.seat ≠ r.seat)) ∧ Granted s t x l ∧
            noticesFirst s t [granted] ∧ placed s t [r.seat] ∧ Changes (.port :: floorParts) s t) ∧
          (s.belowLimit l = false → (s.settings l).floorMode = .replace →
            ∃ y ys t, s.roomSpeakers l = y :: ys ∧ answers (.next key) s ⟨.ok, []⟩ t ∧
              t.speakers = s.speakers.filter (fun z => decide (z.seat ≠ y.seat))
                ++ [⟨r.seat, (s.settings l).timer⟩] ∧ t.chairs = s.chairs ∧
              t.pool = s.pool.filter (fun q => decide (q.seat ≠ r.seat)) ∧ Granted s t x l ∧
              noticesFirst s t [⟨some l, some y.seat, .seatState y.state .idle .replaced⟩, granted] ∧
              placed s t [y.seat, r.seat] ∧ Changes (.port :: floorParts) s t)))

/-- The seats of a room's floor as emptying it takes them: speakers, open chairs, queue entries (R68). -/
def emptiedSeats (s : State) (l : SectionNo) : List Nat :=
  (s.roomSpeakers l).map Speaker.seat ++ s.roomChairs l ++ (s.poolOf l).map Request.seat

/-- CLEAR FLOOR of a room closes its speakers, then its open chairs, and withdraws its queue in pool order, each with reason
CLEARED, places each of those seats on its indicator list and grants nothing after it; the all form does so room by room in
order of lead and leaves the whole floor empty. A room with a microphone closed has its levels taken. Floor languages, pins,
holds and seat flags stand (R36, R64, R68, R150). -/
def Obligations.ClearFloorEmptiesRooms : Prop :=
  ∀ (key : Half) (s : State), s.takes →
    let kept : List Part :=
      [.port, .notices, .pool, .speakers, .timers, .chairs, .indicators, .shadow, .sendList]
    ((¬ ∃ l, s.names key l) → key ≠ 0xFFFF#16 → refused (.clearFloor key) s .badKey) ∧
    (∀ l, s.names key l → FloorInOrder s → ∃ t, answers (.clearFloor key) s ⟨.ok, []⟩ t ∧
      t.speakers = s.speakers.filter (fun y => !s.seatIn l y.seat) ∧
      t.chairs = s.chairs.filter (fun c => !s.seatIn l c) ∧
      t.pool = s.pool.filter (fun r => !s.seatIn l r.seat) ∧
      t.notices = ((emptiedNotices s [l] .cleared).foldl State.notify s).notices ∧ placed s t (emptiedSeats s l) ∧
      (s.roomSpeakers l ≠ [] ∨ s.roomChairs l ≠ [] → LevelsTaken s t l) ∧ Changes kept s t) ∧
    (key = 0xFFFF#16 → FloorInOrder s → RoomsFollowWalls s → ∃ t, answers (.clearFloor key) s ⟨.ok, []⟩ t ∧
      t.speakers = [] ∧ t.chairs = [] ∧ t.pool = [] ∧
      t.notices = ((emptiedNotices s s.leads .cleared).foldl State.notify s).notices ∧
      placed s t (s.leads.flatMap (emptiedSeats s)) ∧
      (∀ l : SectionNo, s.roomSpeakers l ≠ [] ∨ s.roomChairs l ≠ [] → LevelsTaken s t l) ∧ Changes kept s t)

/-- PIN sets a room's floor language and its pin, and a changed value is handed on; UNPIN clears the pin and nothing else.
A language above 24 is refused BAD_VALUE and a free one NO_RECORD (R71, R72). -/
def Obligations.PinHoldsTheFloorLanguage : Prop :=
  ∀ (key : Half) (language : Byte) (s : State), s.takes →
    ((¬ ∃ l, s.names key l) → refused (.pin key language) s .badKey ∧ refused (.unpin key) s .badKey) ∧
    ∀ l, s.names key l →
      (24 < language.toNat → refused (.pin key language) s .badValue) ∧
      (1 ≤ language.toNat → language.toNat ≤ 24 → s.languages.get language.toNat = none →
        refused (.pin key language) s .noRecord) ∧
      (language.toNat ≤ 24 → language = 0#8 ∨ (s.languages.get language.toNat).isSome = true →
        ∃ t, answers (.pin key language) s ⟨.ok, []⟩ t ∧ (t.rooms[l]).pin = true ∧
          (t.rooms[l]).floorLanguage = language.toNat ∧
          (∀ m : SectionNo, m ≠ l → (t.rooms[m]).pin = (s.rooms[m]).pin ∧
            (t.rooms[m]).floorLanguage = (s.rooms[m]).floorLanguage) ∧
          ((s.rooms[l]).floorLanguage = language.toNat → Changes [.port, .pin] s t) ∧
          ((s.rooms[l]).floorLanguage ≠ language.toNat → SourcesTaken s t l) ∧
          Changes (.port :: .pin :: .floorLanguage :: sourceParts) s t) ∧
      (∃ t, answers (.unpin key) s ⟨.ok, []⟩ t ∧ (t.rooms[l]).pin = false ∧
        (∀ m : SectionNo, m ≠ l → (t.rooms[m]).pin = (s.rooms[m]).pin) ∧ Changes [.port, .pin] s t)

/-- A timer in MAIN that has run out warns its speaker and starts again in GRACE with the captured grace, or closes the speaker
where that is 0; one in GRACE closes it. An expiry taken where the seat's timer has time left, as after an EXTEND taken
first, does not happen; nor, in the model's reading, does one of a phase that the timer is not in or of a seat without one
(assumption log 2 and 6). EXTEND gives a speaker the timer of its room as it stands, and makes a WARNED one SPEAKING (R81,
R82, R83, R84, R85). -/
def Obligations.TimersWarnCloseAndExtend : Prop :=
  (∀ (s : State) (n : Nat) (m : Timer) (x : Seat), s.resetLow = false → FloorInOrder s →
    (⟨n, some m⟩ : Speaker) ∈ s.speakers → s.seats.get n = some x →
    let l := s.roomOf x.section_
    (m.remaining = 0 → m.inGrace = false → 0 < m.capturedGrace → ∃ t, exec (.mainExpiry n) s = .next t ∧
      t.speakers = s.speakers.map (fun y => if y.seat = n then
        ⟨n, some { m with inGrace := true, remaining := m.capturedGrace, millis := 0 }⟩ else y) ∧
      t.notices = ((s.notify ⟨some l, some n, .seatState .speaking .warned .warning⟩).notify
        ⟨some l, some n, .timeWarning m.capturedGrace⟩).notices ∧
      placed s t [n] ∧ Changes [.timers, .notices, .indicators] s t) ∧
    (m.remaining = 0 → m.inGrace = false → m.capturedGrace = 0 → ∃ t, exec (.mainExpiry n) s = .next t ∧
      Closed s t n l .time ∧ Changes floorParts s t) ∧
    (m.remaining = 0 → m.inGrace = true → ∃ t, exec (.graceExpiry n) s = .next t ∧ Closed s t n l .time ∧
      Changes floorParts s t) ∧
    (m.inGrace = true ∨ m.remaining ≠ 0 → exec (.mainExpiry n) s = .next s) ∧
    (m.inGrace = false ∨ m.remaining ≠ 0 → exec (.graceExpiry n) s = .next s)) ∧
  (∀ (s : State) (n : Nat), (∀ m, (⟨n, some m⟩ : Speaker) ∉ s.speakers) →
    exec (.mainExpiry n) s = .next s ∧ exec (.graceExpiry n) s = .next s) ∧
  (∀ (key : Half) (s : State), s.takes →
    (1024 ≤ key.toNat → refused (.extend key) s .badKey) ∧
    (key.toNat < 1024 → s.seats.get key.toNat = none → refused (.extend key) s .noRecord) ∧
    (∀ x, key.toNat < 1024 → s.seats.get key.toNat = some x →
      (s.run = .halted ∨ x.kind ≠ .delegate ∨ key.toNat ∉ s.speakers.map Speaker.seat →
        refused (.extend key) s .wrongState) ∧
      (s.run = .running → FloorInOrder s → ∀ y ∈ s.speakers, y.seat = key.toNat →
        ∃ t, answers (.extend key) s ⟨.ok, []⟩ t ∧
          t.speakers = s.speakers.map (fun z => if z.seat = key.toNat then
            ⟨z.seat, (s.settings (s.roomOf x.section_)).timer⟩ else z) ∧
          (y.state = .speaking → Changes [.port, .timers] s t) ∧
          (y.state = .warned → placed s t [key.toNat] ∧ Changes [.port, .timers, .notices, .indicators] s t ∧
            t.notices = (s.notify ⟨some (s.roomOf x.section_), some key.toNat,
              .seatState .warned .speaking .extended⟩).notices))))

/-! ## Selectors -/

/-- What a selector does to a seat: its field gives the seat a value, the seat matches when that value and the match value
agree wherever the mask has a one, and the action's effect on a matching seat or on another is taken by the target flag
alone (R88, R89). -/
def Obligations.SelectorActions : Prop :=
  ∀ (s : State) (x : Seat) (sel : Selector),
    let value : Nat := match sel.matchField with
      | .section_ => x.section_.val
      | .class_ => if x.kind = .delegate ∧ x.seatClass = .vip then 1 else 0
      | .language => if (s.languages.get x.language).isSome then x.language else 0
      | .trunk => match x.binding with
        | some (k, _) => k.val
        | none => 255
      | .kind => if x.kind = .delegate then 0 else 1
    let agrees := ∀ i, i < 8 → sel.matchMask.getLsbD i = true → value.testBit i = sel.matchValue.getLsbD i
    let flag := if sel.targetMark then x.mark else x.lock
    let result (b : Bool) : Prop :=
      s.through x sel = if sel.targetMark then { x with mark := b } else { x with lock := b }
    (x.kind ≠ .desk → (s.matches sel x = true ↔ agrees)) ∧
    (sel.enabled = false → s.through x sel = x) ∧
    (sel.enabled = true → s.matches sel x = true →
      ((sel.action = .setClear ∨ sel.action = .setKeep) → result true) ∧
      ((sel.action = .clearSet ∨ sel.action = .clearKeep) → result false) ∧
      ((sel.action = .keepClear ∨ sel.action = .keepSet ∨ sel.action = .keepFlip) → result flag) ∧
      (sel.action = .flipKeep → result (!flag))) ∧
    (sel.enabled = true → s.matches sel x = false →
      ((sel.action = .clearSet ∨ sel.action = .keepSet) → result true) ∧
      ((sel.action = .setClear ∨ sel.action = .keepClear) → result false) ∧
      ((sel.action = .setKeep ∨ sel.action = .clearKeep ∨ sel.action = .flipKeep) → result flag) ∧
      (sel.action = .keepFlip → result (!flag)))

/-- SELECT takes every delegate and chair of the rooms named through the selectors in number order and leaves every other
seat; the WAITING seats of the run that then carry LOCK are withdrawn in pool order with reason LOCKED, each placed on its
indicator list, and no microphone, level or language changes (R36, R90, R91). -/
def Obligations.SelectRunsTheSelectors : Prop :=
  ∀ (key : Half) (s : State), s.takes →
    ((¬ ∃ l, s.names key l) → key ≠ 0xFFFF#16 → refused (.select key) s .badKey) ∧
    ∀ rooms : List SectionNo,
      ((key = 0xFFFF#16 ∧ rooms = s.leads) ∨ ∃ l, s.names key l ∧ rooms = [l]) →
      let inRun (x : Seat) : Bool := decide (x.kind ≠ .desk ∧ s.roomOf x.section_ ∈ rooms)
      ∃ t, answers (.select key) s ⟨.ok, []⟩ t ∧
        (∀ n, t.seats.get n = (s.seats.get n).map (fun x =>
          if inRun x then s.selectors.toList.foldl s.through x else x)) ∧
        (let locked (n : Nat) : Bool := match t.seats.get n with
            | some x => x.lock && inRun x
            | none => false;
          t.pool = s.pool.filter (fun r => !locked r.seat) ∧
          t.notices = (((s.pool.map Request.seat).filter locked).foldl
            (fun u n => u.notify ⟨s.seatRoom n, some n, .seatState .waiting .idle .locked⟩) s).notices ∧
          placed s t ((s.pool.map Request.seat).filter locked)) ∧
        Changes [.port, .seatFlags, .pool, .notices, .indicators] s t

/-- CLOSE MARKED closes the marked speakers of a room in speaker-list order, then its marked open chairs, with reason
MARKED; where a delegate was closed, a DIRECT room then grants the first entries of its queue up to its limit, in order,
each with its AUTO notice. Every seat closed or granted is placed on its indicator list. In HALTED a room named is answered
WRONG_STATE (R36, R58, R60, R71, R93). -/
def Obligations.CloseMarkedClosesTheMarked : Prop :=
  ∀ (key : Half) (s : State), s.takes →
    ((¬ ∃ l, s.names key l) → refused (.closeMarked key) s .badKey) ∧
    ∀ l, s.names key l →
      (s.run = .halted → refused (.closeMarked key) s .wrongState) ∧
      (s.run = .running → FloorInOrder s →
        let marked (n : Nat) : Bool := s.seatIn l n && (match s.seats.get n with
          | some x => x.mark
          | none => false)
        let closed := s.speakers.filter (fun y => marked y.seat)
        let shut := s.chairs.filter marked
        let heads := if closed = [] then [] else s.headsAt l ((s.roomSpeakers l).length - closed.length)
        ∃ t : State, answers (.closeMarked key) s ⟨.ok, []⟩ t ∧
          t.chairs = s.chairs.filter (fun c => !marked c) ∧
          t.speakers = s.speakers.filter (fun y => !marked y.seat)
            ++ heads.map (fun n => ⟨n, (s.settings l).timer⟩) ∧
          t.pool = s.pool.filter (fun r => decide (r.seat ∉ heads)) ∧
          (t.rooms[l]).floorLanguage = s.spokenAfter l (s.rooms[l]).floorLanguage (s.rooms[l]).pin heads ∧
          ((t.rooms[l]).floorLanguage ≠ (s.rooms[l]).floorLanguage → SourcesTaken s t l) ∧
          (closed ≠ [] ∨ shut ≠ [] → LevelsTaken s t l) ∧
          noticesFirst s t (closed.map (fun y => ⟨some l, some y.seat, .seatState y.state .idle .marked⟩)
            ++ shut.map (fun n => ⟨some l, some n, .seatState .speaking .idle .marked⟩) ++ autoNotices l heads) ∧
          placed s t (closed.map Speaker.seat ++ shut ++ heads) ∧
          (∀ n x, s.seats.get n = some x → t.seats.get n = some x) ∧ Changes (.port :: floorParts) s t)

/-- The SELECTOR table. A key above 7 is refused BAD_KEY; a WRITE whose match field, target or action has no value is
refused BAD_VALUE and changes nothing; any other stores all six fields, which a READ returns; a RETIRE frame naming the table
is answered BAD_FRAME. All of this in both run states (R86, R87; the enabled byte is 0 or 1, assumption log 3). -/
def Obligations.SelectorTableHoldsSixFields : Prop :=
  ∀ (key : Half) (f : SelectorWrite) (s : State), s.takes →
    (8 ≤ key.toNat → refused (.writeSelector key f) s .badKey ∧
      ∃ t, answers (.read .selector key) s ⟨.badKey, []⟩ t) ∧
    (∀ rest, refused (.badFrameRequest ([0xA5, 0x03, 0x0C] ++ rest)) s .badFrame) ∧
    ∀ i : SelectorNo, key.toNat = i.val →
      (let x := s.selectors[i];
        ∃ t, answers (.read .selector key) s ⟨.ok, [flagByte x.enabled, x.matchField.code, x.matchValue, x.matchMask,
          flagByte x.targetMark, x.action.code]⟩ t ∧ Changes [.port, .free] s t) ∧
      ((5 ≤ f.matchField.toNat ∨ 2 ≤ f.target.toNat ∨ 8 ≤ f.action.toNat) →
        refused (.writeSelector key f) s .badValue) ∧
      (f.matchField.toNat < 5 → f.target.toNat < 2 → f.action.toNat < 8 → onOffByte f.enabled →
        ∃ t, answers (.writeSelector key f) s ⟨.ok, []⟩ t ∧
          (∀ j : SelectorNo, j ≠ i → t.selectors[j] = s.selectors[j]) ∧ Changes [.port, .free, .selectors] s t ∧
          (let x := t.selectors[i];
            flagByte x.enabled = f.enabled ∧ x.matchField.code = f.matchField ∧ x.matchValue = f.matchValue ∧
            x.matchMask = f.matchMask ∧ flagByte x.targetMark = f.target ∧ x.action.code = f.action) ∧
          ∃ u, answers (.read .selector key) t
            ⟨.ok, [f.enabled, f.matchField, f.matchValue, f.matchMask, f.target, f.action]⟩ u ∧
            Changes [.port, .free] t u)

/-! ## The seat table -/

/-- The status of a SEAT write on a seat number: every field checked whole before the next, in the order of R51 (R27, R50,
R51, R168; places beyond the neighbour count are ignored, assumption log 12). -/
def seatWriteStatus (s : State) (n : Nat) (f : SeatWrite) : Status :=
  let old := s.seats.get n
  let active : Bool :=
    match old with
    | some x => decide ((s.floorState n x ≠ .idle ∧ s.floorState n x ≠ .off) ∨
        n ∈ (s.rooms[s.roomOf x.section_]).holding)
    | none => false
  let differs (g : Seat → Bool) : Bool := match old with | some x => !g x | none => false
  let places := ([f.neighbour0, f.neighbour1, f.neighbour2, f.neighbour3].take f.neighbourCount.toNat).map BitVec.toNat
  let serial := if f.flags.getLsbD 2 then some f.serial else none
  if 3 ≤ f.kind.toNat then .badValue
  else if active && differs (fun x => decide (x.kind.code = f.kind)) then .wrongState
  else if 2 ≤ f.seatClass.toNat then .badValue
  else if 16 ≤ f.section_.toNat then .badValue
  else if active && differs (fun x => decide (x.section_.val = f.section_.toNat)) then .wrongState
  else if 24 < f.language.toNat then .badValue
  else if f.language ≠ 0#8 ∧ s.languages.get f.language.toNat = none then .noRecord
  else if f.booth ≠ 0xFF#8 ∧ (f.kind ≠ 2#8 ∨ 15 < f.booth.toNat) then .badValue
  else if f.booth ≠ 0xFF#8 ∧ s.booths.get f.booth.toNat = none then .noRecord
  else if f.booth ≠ 0xFF#8 ∧ (match s.booths.get f.booth.toNat with
      | some y => decide (3 ≤ (y.desks.filter (fun d => decide (d ≠ n))).length)
      | none => false) = true then .full
  else if differs (fun x => decide (x.booth = if f.booth = 0xFF#8 then none else some f.booth.toNat)
      || !s.deskLive n x) then .wrongState
  else if 4 < f.neighbourCount.toNat ∨ (∃ m ∈ places, 1024 ≤ m) ∨ ¬ places.Nodup ∨ n ∈ places then .badValue
  else if ∃ m ∈ places, s.seats.get m = none then .noRecord
  else if serial ≠ none ∧ ∃ c ∈ s.seats.cells, c.1 ≠ n ∧ c.2.serial = serial then .badValue
  else if differs (fun x => decide (x.serial = serial) || x.binding.isNone) then .wrongState
  else .ok

/-- WRITE of a seat: refused by the first refused field with no change; else every field takes its value, absent and
clamped into its range, a chair or desk holding class ORDINARY; a created seat is unbound and ABSENT, another keeps its
binding, presence, misses and key mark. LOCK set on a WAITING seat withdraws its request; the desk lists follow the booth
field; no other seat changes. A created seat, or one whose kind, section, trims or neighbour list changed, has its levels and
those of its old and its new room taken; any other write, a change of booth alone too, leaves the levels; a seat of changed
indicator is placed (R26, R27, R50, R51, R52, R117, R145 to R148, R150; neighbour places beyond the count are ignored,
assumption log 12). -/
def Obligations.SeatWriteTakesEffect : Prop :=
  ∀ (key : Half) (f : SeatWrite) (s : State), s.takes →
    (1024 ≤ key.toNat → refused (.writeSeat key f) s .badKey) ∧
    (key.toNat < 1024 →
      let n := key.toNat
      let old := s.seats.get n
      (seatWriteStatus s n f ≠ .ok → refused (.writeSeat key f) s (seatWriteStatus s n f)) ∧
      (seatWriteStatus s n f = .ok → ∃ (t : State) (x : Seat), answers (.writeSeat key f) s ⟨.ok, []⟩ t ∧
        t.seats.get n = some x ∧ (∀ m, m ≠ n → t.seats.get m = s.seats.get m) ∧
        x.kind.code = f.kind ∧
        (x.seatClass = .vip ↔ f.kind = 0#8 ∧ f.seatClass = 1#8) ∧
        x.section_.val = f.section_.toNat ∧ x.language = f.language.toNat ∧
        x.micTrim = (if f.micTrim = 0x80#8 then none else some (max (-24) (min 24 f.micTrim.toInt))) ∧
        x.speakerTrim = (if f.speakerTrim = 0x80#8 then none else some (max (-24) (min 24 f.speakerTrim.toInt))) ∧
        x.booth = (if f.booth = 0xFF#8 then none else some f.booth.toNat) ∧
        x.neighbours = ([f.neighbour0, f.neighbour1, f.neighbour2, f.neighbour3].take
          f.neighbourCount.toNat).map BitVec.toNat ∧
        x.lock = f.flags.getLsbD 0 ∧ x.mark = f.flags.getLsbD 1 ∧
        x.serial = (if f.flags.getLsbD 2 then some f.serial else none) ∧
        (old = none → x.binding = none ∧ x.present = false ∧ x.misses = 0 ∧ x.keyMark = .none) ∧
        (∀ z, old = some z → x.binding = z.binding ∧ x.present = z.present ∧ x.misses = z.misses ∧
          x.keyMark = z.keyMark) ∧
        (∀ b y, s.booths.get b = some y → ∃ w, t.booths.get b = some w ∧
          w.desks = if old.bind Seat.booth = x.booth then y.desks
            else if x.booth = some b then joinTail y.desks n
            else if old.bind Seat.booth = some b then y.desks.filter (fun d => decide (d ≠ n)) else y.desks) ∧
        (let withdrawn := s.waiting n = true ∧ x.lock = true ∧ ∃ z, old = some z ∧ z.lock = false;
          (withdrawn → t.pool = s.pool.filter (fun r => decide (r.seat ≠ n)) ∧
            noticesFirst s t [⟨some (s.roomOf x.section_), some n, .seatState .waiting .idle .locked⟩]) ∧
          (¬ withdrawn → t.pool = s.pool ∧ t.notices = s.notices)) ∧
        (let moved := ∀ z, old = some z → z.kind ≠ x.kind ∨ z.section_ ≠ x.section_;
          let tuned := ∀ z, old = some z → z.micTrim ≠ x.micTrim ∨ z.speakerTrim ≠ x.speakerTrim ∨
            z.neighbours ≠ x.neighbours;
          (moved ∨ tuned → InOrder s → EntriesListed s t ∧ ∀ l, t.levelsIn x = some l → LevelsTaken s t l) ∧
          (moved → InOrder s → t.shadow.seat n = levelsBy t n x) ∧
          (¬ moved → ¬ tuned → t.shadow = s.shadow ∧ t.sendList = s.sendList) ∧
          (moved → ∀ z, old = some z → LevelsTaken s t (s.roomOf z.section_) ∧ LevelsTaken s t (s.roomOf x.section_))) ∧
        (∀ z, old = some z → ∀ (k : TrunkNo) (a : Nat), z.binding = some (k, a) → s.indicator n ≠ t.indicator n →
          n ∈ (t.trunks[k]).indicators) ∧
        (old = some x → Changes [.port] s t) ∧
        Changes ([.port, .desks, .pool, .notices, .indicators, .shadow, .sendList] ++ seatParts) s t))

/-- RETIRE of a seat: it leaves the floor with reason RETIRED, its room's holding set, its booth's desk list and every
neighbour list, and a LIVE desk goes OFF; the floor and the booths are left as `FloorLeft` and `DesksLeft` say, the heads due
granted at the end, and the notices are those of its leaving, AUTO and RELAY_MISSING. Its address goes on its trunk's release
list and it leaves the indicator list; its record is free and its shadow entries are MUTE, MUTE and NONE; other seats keep all
else. The levels of its room and of the rooms whose neighbour lists changed are taken, a LIVE desk's room takes its sources
anew, and every other seat of changed indicator is placed (R28, R36, R53, R58, R60, R73, R120, R121, R122, R148, R150, R151;
the order of the last notices, assumption log 8). -/
def Obligations.RetireSeatFreesTheSeat : Prop :=
  ∀ (key : Half) (s : State), s.takes →
    (1024 ≤ key.toNat → refused (.retireSeat key) s .badKey) ∧
    (key.toNat < 1024 → s.seats.get key.toNat = none → refused (.retireSeat key) s .noRecord) ∧
    ∀ x, key.toNat < 1024 → s.seats.get key.toNat = some x → Tidy s → FloorInOrder s → DesksInOrder s →
      let n := key.toNat
      ∃ t, answers (.retireSeat key) s ⟨.ok, []⟩ t ∧ t.seats.get n = none ∧
        (∀ m, m ≠ n → t.seats.get m = (s.seats.get m).map (fun y =>
          { y with neighbours := y.neighbours.filter (fun k => decide (k ≠ n)) })) ∧
        t.micOpen n = false ∧ t.waiting n = false ∧ n ∉ (t.rooms[s.roomOf x.section_]).holding ∧
        FloorLeft s t [n] ∧ DesksLeft s t [n] ∧
        t.notices = ((s.leavingNotices n .retired ++ s.endNotices t [n]).foldl State.notify s).notices ∧
        (∀ b y, t.booths.get b = some y → n ∉ y.desks ∧ y.live ≠ some n) ∧
        (∀ (k : TrunkNo) (a : Nat), x.binding = some (k, a) →
          (t.trunks[k]).releases = joinTail (s.trunks[k]).releases a ∧ n ∉ (t.trunks[k]).indicators) ∧
        t.shadow.seat n = { input := .mute, output := .mute, bus := none } ∧
        (x.kind ≠ .desk → LevelsTaken s t (s.roomOf x.section_)) ∧
        (∀ m y, m ≠ n → s.seats.get m = some y → n ∈ y.neighbours → LevelsTaken s t (s.roomOf y.section_)) ∧
        (∀ b y, s.booths.get b = some y → y.live = some n →
          SourcesTaken s t (s.roomOf y.home) ∧ LevelsTaken s t (s.roomOf y.home)) ∧
        (∀ m z k a, m ≠ n → s.seats.get m = some z → z.binding = some (k, a) → z.kind = .desk →
          s.indicator m ≠ t.indicator m → m ∈ (t.trunks[k]).indicators) ∧
        (InOrder s → ∀ m z k a, m ≠ n → s.seats.get m = some z → z.binding = some (k, a) →
          s.indicator m ≠ t.indicator m → m ∈ (t.trunks[k]).indicators)

/-! ## Languages, booths and carriers -/

/-- The LANGUAGE table. A WRITE checks the code, then the carrier, stores both, and a READ returns them; a created language
makes its number count in every room whose floor language has it. RETIRE of a free one is NO_RECORD, of one a booth names
IN_USE; any other is freed, and where it was the floor language every booth listens to the floor (R111, R112). -/
def Obligations.LanguageTableIsHeld : Prop :=
  ∀ (key : Half) (f : LanguageWrite) (s : State), s.takes →
    let code (b : Byte) : Prop := (0x41 ≤ b.toNat ∧ b.toNat ≤ 0x5A) ∨ (0x30 ≤ b.toNat ∧ b.toNat ≤ 0x39)
    (key.toNat = 0 ∨ 24 < key.toNat →
      refused (.writeLanguage key f) s .badKey ∧ refused (.retireLanguage key) s .badKey) ∧
    (1 ≤ key.toNat → key.toNat ≤ 24 →
      (¬ (code f.code0 ∧ code f.code1 ∧ code f.code2) ∨ (f.carrier ≠ 0xFF#8 ∧ 32 ≤ f.carrier.toNat) →
        refused (.writeLanguage key f) s .badValue) ∧
      (code f.code0 → code f.code1 → code f.code2 → (f.carrier = 0xFF#8 ∨ f.carrier.toNat < 32) →
        ∃ t, answers (.writeLanguage key f) s ⟨.ok, []⟩ t ∧
          (∀ m, m ≠ key.toNat → t.languages.get m = s.languages.get m) ∧
          (∃ u, answers (.read .language key) t ⟨.ok, [f.code0, f.code1, f.code2, f.carrier]⟩ u) ∧
          ((s.languages.get key.toNat).isSome = true → Changes [.port, .languages] s t) ∧
          (s.languages.get key.toNat = none → ∀ l : SectionNo, s.isLead l = true →
            (s.rooms[l]).floorLanguage = key.toNat → SourcesTaken s t l) ∧
          Changes (.port :: .languages :: sourceParts) s t) ∧
      (s.languages.get key.toNat = none → refused (.retireLanguage key) s .noRecord) ∧
      (∀ b y, (s.languages.get key.toNat).isSome = true → s.booths.get b = some y →
        y.output = key.toNat ∨ key.toNat ∈ y.sources → refused (.retireLanguage key) s .inUse) ∧
      ((s.languages.get key.toNat).isSome = true → Tidy s →
        (∀ b y, s.booths.get b = some y → y.output ≠ key.toNat ∧ key.toNat ∉ y.sources) →
        ∃ t, answers (.retireLanguage key) s ⟨.ok, []⟩ t ∧ t.languages.get key.toNat = none ∧
          (∀ m, m ≠ key.toNat → t.languages.get m = s.languages.get m) ∧
          (∀ l : SectionNo, s.isLead l = true → (s.rooms[l]).floorLanguage = key.toNat → SourcesTaken s t l ∧
            ∀ b y, t.booths.get b = some y → t.boothRoom y = l → y.listen = .floor) ∧
          Changes (.port :: .languages :: sourceParts) s t))

/-- The status of a BOOTH write: every field checked whole before the next, in the order of R114 (R113, R114). -/
def boothWriteStatus (s : State) (b : Nat) (f : BoothWrite) : Status :=
  let places := ([f.source0, f.source1, f.source2, f.source3].take f.sourceCount.toNat).map BitVec.toNat
  let differs (g : Booth → Bool) : Bool :=
    match s.booths.get b with
    | some y => y.live.isSome && !g y
    | none => false
  if f.output = 0#8 ∨ 24 < f.output.toNat then .badValue
  else if s.languages.get f.output.toNat = none then .noRecord
  else if differs (fun y => decide (y.output = f.output.toNat)) then .wrongState
  else if f.sourceCount = 0#8 ∨ 4 < f.sourceCount.toNat ∨ (∃ x ∈ places, x = 0 ∨ 24 < x) ∨ ¬ places.Nodup ∨
      f.output.toNat ∈ places then .badValue
  else if ∃ x ∈ places, s.languages.get x = none then .noRecord
  else if 16 ≤ f.home.toNat then .badValue
  else if differs (fun y => decide (y.home.val = f.home.toNat)) then .wrongState
  else if 2 ≤ f.interlock.toNat then .badValue
  else if 2 ≤ f.fill.toNat then .badValue
  else .ok

/-- The Carrier Allocator has taken the channels added to a room and removed from it: a placed channel that stays keeps its
carrier; where one was removed the parked channels that stay are placed, in language order, and otherwise stay parked; then
the added ones are placed in language order; each sees those placed before it (R124, R133, R134). -/
def channelsHanded (s t : State) (l : SectionNo) : Prop :=
  let now := (t.rooms[l]).channels
  let gone := ∃ g ∈ (s.rooms[l]).channels, g.language ∉ now.map Channel.language
  let stood (h : Channel) : Option CarrierNo := (s.carrierOf h.language l).join
  let added (h : Channel) : Bool := (s.carrierOf h.language l).isNone
  let earlier (g h : Channel) : Bool :=
    (!added g && added h) || (decide (added g = added h) && decide (g.language < h.language))
  ∀ h ∈ now,
    (stood h ≠ none → h.carrier = stood h) ∧
    (stood h = none → added h = false → ¬ gone → h.carrier = none) ∧
    (stood h = none → added h = true ∨ gone → h.carrier = t.chooseIn l
      (now.map (fun g => if (stood g).isSome || earlier g h then g else { g with carrier := none })) h.language none)

/-- The Carrier Allocator's notices of a room: CHANNEL_PLACED of the parked channels retried, then that or CHANNEL_PARKED of
the added ones, each in language order (R134, R137). -/
def handedNotices (s t : State) (l : SectionNo) : List Notice :=
  (t.rooms[l]).channels.filterMap (fun h => match s.carrierOf h.language l, h.carrier with
    | some none, some c => some ⟨some l, none, .channelPlaced h.language c .unparked⟩
    | _, _ => none)
  ++ (t.rooms[l]).channels.filterMap (fun h => match s.carrierOf h.language l, h.carrier with
    | none, some c => some ⟨some l, none, .channelPlaced h.language c .added⟩
    | none, none => some ⟨some l, none, .channelParked h.language none .added⟩
    | some _, _ => none)

/-- The rooms of a list, by lead, whose channel lists have other languages than before. -/
def relisted (s t : State) (rooms : List SectionNo) : List SectionNo :=
  allSections.filter (fun l => decide (l ∈ rooms ∧
    (t.rooms[l]).channels.map Channel.language ≠ (s.rooms[l]).channels.map Channel.language))

/-- WRITE of a booth: refused by the first refused field with no change; else every field takes its value, the gain
clamped, and the desk list and the LIVE desk stand. A created booth, or one whose language or home changed, forms the channel
lists of its rooms anew; those rooms, and the booth's room where its sources or fill changed, are recomputed, with
RELAY_MISSING for the booths newly marked; then, room by room, the parked channels are retried where one was removed and the
added ones placed, with their notices, and zone programmes are due. A changed gain reaches the level of the LIVE desk, and
the desks of changed indicator are placed (R36, R113, R114, R115, R120, R122, R124, R133, R134, R137, R139, R148, R150, R151; the
order of rooms on the programme list is the model's, assumption log 17; that both rooms of a moved booth are recomputed
before channels are handed on, assumption log 19). -/
def Obligations.BoothWriteTakesEffect : Prop :=
  ∀ (key : Half) (f : BoothWrite) (s : State), s.takes →
    (16 ≤ key.toNat → refused (.writeBooth key f) s .badKey) ∧
    (key.toNat < 16 →
      let b := key.toNat
      (boothWriteStatus s b f ≠ .ok → refused (.writeBooth key f) s (boothWriteStatus s b f)) ∧
      (boothWriteStatus s b f = .ok → ∃ (t : State) (y : Booth), answers (.writeBooth key f) s ⟨.ok, []⟩ t ∧
        t.booths.get b = some y ∧ y.output = f.output.toNat ∧
        y.sources = ([f.source0, f.source1, f.source2, f.source3].take f.sourceCount.toNat).map BitVec.toNat ∧
        y.home.val = f.home.toNat ∧ flagByte y.takeover = f.interlock ∧
        (f.fill = 0#8 → y.fillFloor = true) ∧ (f.fill = 1#8 → y.fillFloor = false) ∧
        y.gain = max (-24) (min 12 f.gain.toInt) ∧
        y.desks = ((s.booths.get b).map Booth.desks).getD [] ∧ y.live = (s.booths.get b).bind Booth.live ∧
        (∀ c, c ≠ b → (t.booths.get c).map (fun z => (z.setup, z.desks, z.live)) =
          (s.booths.get c).map (fun z => (z.setup, z.desks, z.live))) ∧
        (let regrouped := ∀ z, s.booths.get b = some z → z.output ≠ y.output ∨ z.home ≠ y.home;
          let resourced := ∀ z, s.booths.get b = some z → z.sources ≠ y.sources ∨ z.fillFloor ≠ y.fillFloor;
          (regrouped → channelsFormed t (s.roomOf y.home) ∧ SourcesTaken s t (s.roomOf y.home) ∧
            ∀ z, s.booths.get b = some z → channelsFormed t (s.roomOf z.home) ∧ SourcesTaken s t (s.roomOf z.home)) ∧
          (resourced → SourcesTaken s t (s.roomOf y.home)) ∧
          (Tidy s → CarriersApart s → ChannelsFollowBooths s → ∀ rooms : List SectionNo,
            (∀ l, l ∈ rooms ↔ (l = s.roomOf y.home ∧ (regrouped ∨ resourced)) ∨
              (regrouped ∧ ∃ z, s.booths.get b = some z ∧ l = s.roomOf z.home)) →
            (∀ l : SectionNo, s.isLead l = true → channelsHanded s t l) ∧ zonesDue s t (relisted s t rooms) ∧
            t.notices = (((allSections.filter (fun l => decide (l ∈ rooms))).flatMap (s.relayNoticesTo t)
              ++ (allSections.filter (fun l => decide (l ∈ rooms))).flatMap (handedNotices s t)).foldl
                State.notify s).notices)) ∧
        (∀ z, s.booths.get b = some z → z.gain ≠ y.gain ∨ z.home ≠ y.home →
          LevelsTaken s t (s.roomOf y.home) ∧ LevelsTaken s t (s.roomOf z.home)) ∧
        (InOrder s → IndicatorsShown s t ∧ ∀ (n : Nat) (z : Booth), s.booths.get b = some z → z.gain ≠ y.gain →
          y.live = some n → t.shadow.seat n = { input := if s.run = .running then .steps y.gain else .mute }) ∧
        (s.booths.get b = some y → Changes [.port] s t) ∧
        Changes (parts (.writeBooth key f)) s t))

/-- RETIRE of a booth: its LIVE desk goes OFF with reason BOOTH_RETIRED, every desk of its list has no booth and stays in
use, the record is free, and the former room's channel list and sources are those of the booths left, a removed channel's
carrier being given to the parked channels, with their notices; its desks' levels are taken and the desks of changed indicator
placed (R36, R116, R120, R122, R124, R134, R137, R139, R148, R150, R151). -/
def Obligations.RetireBoothFreesTheBooth : Prop :=
  ∀ (key : Half) (s : State), s.takes →
    (16 ≤ key.toNat → refused (.retireBooth key) s .badKey) ∧
    (key.toNat < 16 → s.booths.get key.toNat = none → refused (.retireBooth key) s .noRecord) ∧
    ∀ y, key.toNat < 16 → s.booths.get key.toNat = some y → Tidy s → DesksInOrder s →
      ∃ t, answers (.retireBooth key) s ⟨.ok, []⟩ t ∧ t.booths.get key.toNat = none ∧
        (∀ c, c ≠ key.toNat → (t.booths.get c).map (fun z => (z.setup, z.desks, z.live)) =
          (s.booths.get c).map (fun z => (z.setup, z.desks, z.live))) ∧
        (∀ n, t.seats.get n = (s.seats.get n).map (fun x =>
          if n ∈ y.desks then { x with booth := none } else x)) ∧
        channelsFormed t (s.boothRoom y) ∧ SourcesTaken s t (s.boothRoom y) ∧
        (CarriersApart s → ChannelsFollowBooths s → (∀ l : SectionNo, s.isLead l = true → channelsHanded s t l) ∧
          zonesDue s t (relisted s t [s.boothRoom y]) ∧
          t.notices = ((y.live.toList.map (fun n =>
              (⟨some (s.boothRoom y), some n, .deskState key.toNat .live .off .boothRetired⟩ : Notice))
            ++ s.relayNoticesTo t (s.boothRoom y) ++ handedNotices s t (s.boothRoom y)).foldl State.notify s).notices) ∧
        t.shadow.booths.get key.toNat = none ∧ (InOrder s → IndicatorsShown s t) ∧
        (∀ n, y.live = some n → t.shadow.seat n = {} ∧
          noticesFirst s t [⟨some (s.boothRoom y), some n, .deskState key.toNat .live .off .boothRetired⟩]) ∧
        Changes (parts (.retireBooth key)) s t

/-- The pass over a room's booths. With a floor language that counts as 0, or for a booth that produces it or has it as a
source, the booth listens to FLOOR; any other takes, for the first language of its source list that has one, a relay from the
lowest LIVE booth of the room that produces it and itself listens to FLOOR, and where none has is marked relay missing. A
relay is thus never taken from a booth that relays. RELAY_MISSING is generated for each newly marked booth, in number order
(R112, R122). -/
def Obligations.RelaysComeFromTheFloor : Prop :=
  ∀ (s : State) (l : SectionNo) (b : Nat) (y : Booth), Tidy s → s.booths.get b = some y → s.boothRoom y = l →
    let t := s.passListen l
    let floor := if (s.languages.get (s.rooms[l]).floorLanguage).isSome then (s.rooms[l]).floorLanguage else 0
    let hears (z : Booth) : Prop := floor = 0 ∨ z.output = floor ∨ floor ∈ z.sources
    let relay (language c : Nat) : Prop := ∃ z, s.booths.get c = some z ∧ s.boothRoom z = l ∧
      z.output = language ∧ z.live.isSome = true ∧ hears z
    ∃ z, t.booths.get b = some z ∧ z = { y with listen := z.listen } ∧
      (hears y → z.listen = .floor) ∧
      (¬ hears y → (z.listen = .relayMissing ↔ ∀ language ∈ y.sources, ∀ c, ¬ relay language c)) ∧
      (¬ hears y → z.listen ≠ .floor) ∧
      (∀ c, z.listen = .relay c → ¬ hears y ∧ (t.booths.get c).map Booth.listen = some .floor ∧
        ∃ first language rest, y.sources = first ++ language :: rest ∧ relay language c ∧
          (∀ d, relay language d → c ≤ d) ∧ ∀ x ∈ first, ∀ d, ¬ relay x d) ∧
      t.notices = ((s.booths.cells.filterMap (fun c =>
        if s.boothRoom c.2 = l ∧ c.2.listen ≠ .relayMissing ∧
            (t.booths.get c.1).map Booth.listen = some .relayMissing then
          some ⟨some l, none, .relayMissing c.1 floor c.2.sources⟩
        else none)).foldl State.notify s).notices

/-- The carrier a placement takes: the preferred carrier of the channel's language record, for the floor channel that of the
default floor language of the room's lead, where it is usable in the room, not held by a channel of it and not the one left
by a hop; otherwise the lowest-numbered carrier that is; and none exactly where no carrier is (R132, R133). -/
def Obligations.PlacementTakesPreferredOrLowest : Prop :=
  ∀ (s : State) (l : SectionNo) (language : Nat) (excluded : Option CarrierNo),
    let qualifies (c : CarrierNo) : Prop :=
      (s.carriers[c]).enabled = true ∧
      (∀ sec : SectionNo, s.roomOf sec = l → (s.carriers[c]).flags[sec] = false) ∧
      (∀ h ∈ (s.rooms[l]).channels, h.carrier ≠ some c) ∧ excluded ≠ some c
    let record := if language = 0 then (s.settings l).defaultLanguage else language
    let preferred (c : CarrierNo) : Prop := ∃ x, s.languages.get record = some x ∧ x.carrier = some c
    (∀ c, preferred c → qualifies c → s.choose l language excluded = some c) ∧
    ((∀ c, preferred c → ¬ qualifies c) →
      (∀ c, s.choose l language excluded = some c → qualifies c ∧ ∀ d, qualifies d → c ≤ d) ∧
      (s.choose l language excluded = none ↔ ∀ c, ¬ qualifies c))

/-- What a change of one carrier's record leaves in the rooms. The channels keep their languages and sources. A placed
channel keeps its carrier, but where the carrier ceased to be usable the channel on it is placed again with that one
excluded. Where it became usable the parked channels are placed in list order, each seeing the placements before it; others
stay parked. The notices of the hops, rooms by lead, come before those of the retries; the zones of every room with a change
are due a programme, rooms by lead (R131, R134, R135, R137, R139; the order of the rooms is the model's, assumption log 17). -/
def carrierTaken (s t : State) (c : CarrierNo) (cause : Reason) : Prop :=
  let lost (l : SectionNo) : Bool := s.usable l c && !t.usable l c
  let won (l : SectionNo) : Bool := !s.usable l c && t.usable l c
  let pairs (l : SectionNo) : List (Channel × Channel) := (s.rooms[l]).channels.zip (t.rooms[l]).channels
  let hops (l : SectionNo) : List Notice := (pairs l).filterMap (fun (g, h) =>
    if g.carrier = some c then some ⟨some l, none, match h.carrier with
      | some d => .carrierHop g.language c d cause
      | none => .channelParked g.language (some c) cause⟩
    else none)
  let retries (l : SectionNo) : List Notice := (pairs l).filterMap (fun (g, h) => match g.carrier, h.carrier with
    | none, some d => some ⟨some l, none, .channelPlaced g.language d .unparked⟩
    | _, _ => none)
  CarriersApart t ∧
  (∀ l : SectionNo, s.isLead l = false → (t.rooms[l]).channels = (s.rooms[l]).channels) ∧
  (∀ l : SectionNo, s.isLead l = true → (t.rooms[l]).channels.length = (s.rooms[l]).channels.length ∧
    ∀ (i : Nat) (g h : Channel), (s.rooms[l]).channels[i]? = some g → (t.rooms[l]).channels[i]? = some h →
      h.language = g.language ∧ h.source = g.source ∧
      h.carrier = match g.carrier with
        | some d => if d = c ∧ lost l = true then t.chooseIn l (s.rooms[l]).channels g.language (some c) else some d
        | none => if won l = true then
            t.chooseIn l (midway (t.rooms[l]).channels ((s.rooms[l]).channels.map Channel.carrier) i) g.language none
          else none) ∧
  t.notices = (((s.leads.filter lost).flatMap hops ++ (s.leads.filter won).flatMap retries).foldl State.notify s).notices ∧
  zonesDue s t (s.leads.filter (fun l => decide ((t.rooms[l]).channels ≠ (s.rooms[l]).channels)))

/-- WRITE of a carrier stores its enabled field and its sixteen flags. A noise report at or above the threshold sets the flag
of its carrier for its section, one below threshold less hysteresis clears it, and any other, or one that fails its check
or leaves the flag as it was, does nothing. Where the carrier ceased to be usable its channel hops or is parked, with cause
DISABLED where a write turned it off and INTERFERENCE otherwise, and where it became usable the parked channels are placed in
list order, each with its notice (R130, R131, R132, R134, R135, R136, R137, R139; the order in which several rooms join the
programme list is the model's, assumption log 17). -/
def Obligations.CarrierFlagsMoveChannels : Prop :=
  (∀ (key : Half) (f : CarrierWrite) (s : State), s.takes →
    (32 ≤ key.toNat → refused (.writeCarrier key f) s .badKey) ∧
    ∀ c : CarrierNo, key.toNat = c.val → onOffByte f.enabled →
      ∃ t, answers (.writeCarrier key f) s ⟨.ok, []⟩ t ∧
        flagByte (t.carriers[c]).enabled = f.enabled ∧
        (∀ i : SectionNo, (t.carriers[c]).flags[i] = f.flags.getLsbD i.val) ∧
        (∀ d : CarrierNo, d ≠ c → t.carriers[d] = s.carriers[d]) ∧
        (t.carriers[c] = s.carriers[c] → Changes [.port, .free] s t) ∧
        (CarriersApart s → carrierTaken s t c
          (if (s.carriers[c]).enabled = true ∧ f.enabled = 0#8 then .disabled else .interference)) ∧
        Changes (parts (.writeCarrier key f)) s t) ∧
  (∀ (s : State) (i : SectionNo) (c : CarrierNo) (figure : Byte), s.resetLow = false →
    let flag : Bool := (s.carriers[c]).flags[i]
    let new : Bool := decide (s.venue.threshold ≤ figure.toNat) ||
      (flag && !decide (figure.toNat + s.venue.hysteresis < s.venue.threshold))
    let report := Instr.noiseReport (sealFrame [0xD0, byte i.val, byte c.val, figure])
    (new = flag → exec report s = .next s) ∧
    (new ≠ flag → ∃ t, exec report s = .next t ∧ (t.carriers[c]).flags[i] = new ∧
      (t.carriers[c]).enabled = (s.carriers[c]).enabled ∧
      (∀ j : SectionNo, j ≠ i → (t.carriers[c]).flags[j] = (s.carriers[c]).flags[j]) ∧
      (∀ d : CarrierNo, d ≠ c → t.carriers[d] = s.carriers[d]) ∧
      (CarriersApart s → carrierTaken s t c .interference) ∧ Changes (parts report) s t)) ∧
  (∀ (s : State) (bytes : List Byte),
    bytes.length ≠ 5 ∨ bytes.head? ≠ some 0xD0#8 ∨ sumBytes bytes ≠ 0 ∨ 16 ≤ (bytes.getD 1 0).toNat ∨
      32 ≤ (bytes.getD 2 0).toNat → exec (.noiseReport bytes) s = .next s)

/-! ## The radiator and matrix links -/

/-- The head of the programme list is sent the programme of its room as it stands, in RUNNING; the head of the send list is
sent its value in the shadow as it stands, in both run states; an empty list sends nothing. Every frame ends with the byte
that makes its sum 0 (R138, R139, R152, R168, R169; the byte order of a matrix message is the model's, assumption log 15). -/
def Obligations.SendsTakeTheHead : Prop :=
  ∀ s : State, s.resetLow = false →
    (∀ (sec : SectionNo) (rest : List SectionNo), s.run = .running → s.programmes = sec :: rest →
      let placed := (s.rooms[s.roomOf sec]).channels.filterMap (fun h => h.carrier.map (fun c => (c, h.language)))
      exec .zoneProgrammeSend s = .next { s with
        programmes := rest
        radiatorLine := sealFrame ([0x50#8, byte sec.val, byte (s.roomOf sec).val, byte placed.length]
          ++ placed.flatMap (fun p => [byte p.1.val, byte p.2])) }) ∧
    (s.run = .halted ∨ s.programmes = [] → exec .zoneProgrammeSend s = .next s) ∧
    (∀ (e : Entry) (rest : List Entry), s.sendList = e :: rest →
      ∃ body, exec .matrixMessageSend s = .next { s with sendList := rest, matrixLine := sealFrame body } ∧
        (∀ n, e = .input n → body = [0x60#8] ++ bytes2 n ++ bytes2 (s.shadow.seat n).input.coefficient) ∧
        (∀ n, e = .output n → body = [0x61#8] ++ bytes2 n ++ bytes2 (s.shadow.seat n).output.coefficient) ∧
        (∀ n, e = .bus n → body = [0x62#8] ++ bytes2 n ++
          [((s.shadow.seat n).bus.map (fun l => byte l.val)).getD 0xFF#8]) ∧
        (∀ b, e = .listen b → body = [0x63#8, byte b] ++ (match s.shadow.booths.get b with
          | some .floor => [0x00#8, 0xFF#8]
          | some (.relay r) => [0x01#8, byte r]
          | none => [0xFF#8, 0xFF#8])) ∧
        (∀ l x, e = .channel l x → body = [0x64#8, byte l, byte x] ++
          (match s.shadow.channels.get (25 * l + x) with
          | some .floor => [0x00#8, 0xFF#8]
          | some (.booth b) => [0x01#8, byte b]
          | some .silence => [0x02#8, 0xFF#8]
          | none => [0xFF#8, 0xFF#8]))) ∧
    (s.sendList = [] → exec .matrixMessageSend s = .next s) ∧
    ∀ body : List Byte, sumBytes (sealFrame body) = 0

/-- RESEND places every shadow entry on the send list: seat by seat the bus, the input and the output level, then the booths,
then the channels by lead and language. An entry already there keeps its place; nothing is sent by it; it is answered OK in
both run states, and a second RESEND before the first has drained adds nothing. A change taken meanwhile goes out with the
waiting entry, whose message is built from the shadow when its turn comes (R153). -/
def Obligations.ResendPlacesTheShadow : Prop :=
  ∀ s : State, s.takes →
    let every : List Entry :=
      (List.range 1024).flatMap (fun n => [.bus n, .input n, .output n])
        ++ (List.range 16).map (fun b => .listen b)
        ++ (List.range 16).flatMap (fun l => (List.range 25).map (fun x => .channel l x))
    encodeRequest .resend = some [0xA5#8, 0x38#8, 0#8, 0#8, 0#8, 0#8, 0#8] ∧
    ∃ t, answers .resend s ⟨.ok, []⟩ t ∧
      t.sendList = s.sendList ++ every.filter (fun e => decide (e ∉ s.sendList)) ∧
      Changes [.port, .sendList] s t ∧
      (∃ u, answers .resend t ⟨.ok, []⟩ u ∧ u.sendList = t.sendList) ∧
      ∀ (u : State) (e : Entry) (rest : List Entry), u.resetLow = false → u.sendList = e :: rest →
        exec .matrixMessageSend u =
          .next { u with sendList := rest, matrixLine := sealFrame (u.matrixMessage e) }

/-- The coefficient of a level L is the nearest integer to 16384·10^(L/40), an exact half rounded up; MUTE is 0. It runs from
16 at -120 to 32690 at +12 and rises strictly, so no level has 0, and a level's message carries it (R149, R169; the byte order
of the message is the model's, assumption log 15). Multiplied by 2 and raised to the 40th power, the bounds c - 1/2 and
c + 1/2 are those of whole numbers. -/
def Obligations.CoefficientsRoundTheirLevels : Prop :=
  (∀ L : Int, -120 ≤ L → L ≤ 12 →
    let c := (Level.steps L).coefficient
    (0 ≤ L → (2 * c - 1) ^ 40 ≤ (2 * 16384) ^ 40 * 10 ^ L.toNat ∧
      (2 * 16384) ^ 40 * 10 ^ L.toNat < (2 * c + 1) ^ 40) ∧
    (L < 0 → (2 * c - 1) ^ 40 * 10 ^ (-L).toNat ≤ (2 * 16384) ^ 40 ∧
      (2 * 16384) ^ 40 < (2 * c + 1) ^ 40 * 10 ^ (-L).toNat) ∧ 1 ≤ c) ∧
  (∀ L M : Int, -120 ≤ L → L < M → M ≤ 12 → (Level.steps L).coefficient < (Level.steps M).coefficient) ∧
  (∀ (s : State) (n : Nat), s.matrixMessage (.input n) =
      [0x60#8] ++ bytes2 n ++ bytes2 (s.shadow.seat n).input.coefficient ∧
    s.matrixMessage (.output n) = [0x61#8] ++ bytes2 n ++ bytes2 (s.shadow.seat n).output.coefficient) ∧
  Level.mute.coefficient = 0 ∧ (Level.steps (-120)).coefficient = 16 ∧ (Level.steps 12).coefficient = 32690

/-! ## Trunks -/

/-- WRITE of a trunk: a default section above 15 is refused BAD_VALUE; else every field takes its value, the start Q at most 8
and the empty rounds 1 to 4. Without a change of the enabled field nothing else happens. Turned off, the trunk is idle with
no roll call, access or indicator due; the roll call and the access end with ABORTED, then every PRESENT seat bound to it is
lost, in address order, each UNIT_LOST followed by what its manager generates; the floor and the booths are left as
`FloorLeft` and `DesksLeft` say, the heads due granted at the end. Turned on in RUNNING it begins to scan as `ScanBegins` says:
a release-all frame if its mark was set, every bound seat placed on its indicator list in address order, the first round at
counter 0 over every bound address; no seat, floor or other trunk changes. In HALTED it is stored (R24, R25, R29, R30, R31, R33,
R44, R47, R75, R121; the order of the last notices, assumption log 8; the rest of a trunk without seats, assumption log 9; DIR,
assumption log 11). -/
def Obligations.TrunkWriteTakesEffect : Prop :=
  ∀ (key : Half) (f : TrunkWrite) (s : State), s.takes →
    (4 ≤ key.toNat → refused (.writeTrunk key f) s .badKey) ∧
    ∀ k : TrunkNo, key.toNat = k.val →
      (16 ≤ f.defaultSection.toNat → refused (.writeTrunk key f) s .badValue) ∧
      (f.defaultSection.toNat < 16 → onOffByte f.enabled → ∃ t, answers (.writeTrunk key f) s ⟨.ok, []⟩ t ∧
        let u := t.trunks[k]
        flagByte u.enabled = f.enabled ∧ u.defaultSection.val = f.defaultSection.toNat ∧
        u.startQ = min 8 f.startQ.toNat ∧ u.emptyRounds = max 1 (min 4 f.emptyRounds.toNat) ∧
        (∀ j : TrunkNo, j ≠ k → (t.trunks[j]).setup = (s.trunks[j]).setup ∧ (t.trunks[j]).line = (s.trunks[j]).line) ∧
        (u.enabled = (s.trunks[k]).enabled ∨ (u.enabled = true ∧ s.run = .halted) →
          Changes [.port, .free, .trunkSetup] s t) ∧
        ((s.trunks[k]).enabled = true → u.enabled = false → Tidy s → FloorInOrder s →
          u.line = .idle ∧ u.rollCall = none ∧ u.access = .idle ∧ u.indicators = [] ∧
          ((s.trunks[k]).releasing = none → u.releases = (s.trunks[k]).releases) ∧
          ∀ n x, t.seats.get n = some x → x.binding.map Prod.fst = some k → x.present = false) ∧
        ((s.trunks[k]).enabled = true → u.enabled = false → Tidy s → FloorInOrder s → DesksInOrder s →
          let lost := (s.bound k).filter (fun p => s.isPresent p.2)
          let floor := (lost.map Prod.snd).filter (fun n => !((s.seats.get n).any (fun x => decide (x.kind = .desk))))
          (∀ n x, s.seats.get n = some x → t.seats.get n = some
            (if n ∈ lost.map Prod.snd then { x with present := false, misses := 3 } else x)) ∧
          FloorLeft s t floor ∧ DesksLeft s t (lost.map Prod.snd) ∧
          t.notices = ((abortNotices s k ++ lost.flatMap (fun p => (⟨s.seatRoom p.2, some p.2, .unitLost k p.1⟩ : Notice)
            :: s.leavingNotices p.2 .unitLost) ++ s.endNotices t floor).foldl State.notify s).notices ∧
          (InOrder s → ∀ n x v a, v ≠ k → s.seats.get n = some x → x.binding = some (v, a) →
            s.indicator n ≠ t.indicator n → n ∈ (t.trunks[v]).indicators)) ∧
        ((s.trunks[k]).enabled = false → u.enabled = true → s.run = .running →
          ScanBegins s t k ∧ (Tidy s → ∀ j : TrunkNo, j ≠ k → t.trunks[j] = s.trunks[j]) ∧
          Changes ([.port, .free, .trunkSetup, .indicators, .lastFrame, .releasing] ++ lineParts) s t) ∧
        Changes (parts (.writeTrunk key f)) s t)

/-- ROLL CALL is refused BAD_KEY above 3, WRONG_STATE in HALTED or on a disabled trunk, BUSY while one is running; else it is
ACCEPTED, with the trunk's start Q and empty rounds captured and every count 0; the round counter stands but, in the model's
reading, on a trunk that has no bound seat and has rested, where it is open (assumption log 3 and 9). A round that is due starts with a frame of
its Q, marked in the first round, and each slot has its frame in number order (R39, R40; the byte order of the slot number is
the model's, assumption log 15). -/
def Obligations.RollCallRunsInRounds : Prop :=
  (∀ (key : Half) (s : State), s.takes →
    (4 ≤ key.toNat → refused (.rollCall key) s .badKey) ∧
    ∀ k : TrunkNo, key.toNat = k.val →
      (s.run = .halted ∨ (s.trunks[k]).enabled = false → refused (.rollCall key) s .wrongState) ∧
      (s.run = .running → (s.trunks[k]).enabled = true → (s.trunks[k]).rollCall ≠ none →
        refused (.rollCall key) s .busy) ∧
      (s.run = .running → (s.trunks[k]).enabled = true → (s.trunks[k]).rollCall = none →
        ∃ t, answers (.rollCall key) s ⟨.accepted, []⟩ t ∧
          (let fresh : RollCall :=
              { round := 0, q := (s.trunks[k]).startQ, found := 0, refused := 0, emptyRun := 0,
                emptyToEnd := (s.trunks[k]).emptyRounds, singles := 0, collisions := 0 };
            t.trunks[k] = { s.trunks[k] with rollCall := some fresh, roundCounter := (t.trunks[k]).roundCounter, rested := false }) ∧
          ((s.trunks[k]).rested = false ∨ s.bound k ≠ [] → (t.trunks[k]).roundCounter = (s.trunks[k]).roundCounter) ∧
          (∀ j : TrunkNo, j ≠ k → t.trunks[j] = s.trunks[j]) ∧ Changes [.port, .free, .rollCall, .round] s t)) ∧
  (∀ (s : State) (k : TrunkNo), s.resetLow = false →
    (∀ r, (s.trunks[k]).line = .roundDue → (s.trunks[k]).rollCall = some r →
      ∃ t, exec (.roundStart k) s = .next t ∧
        t.trunks[k] = { s.trunks[k] with
          lastFrame := sealFrame [0x05, 0xFF, byte r.q, if r.round = 0 then 1 else 0]
          releasing := none, sending := true, line := .slotDue 0
          rollCall := some { r with singles := 0, collisions := 0 } } ∧
        (∀ j : TrunkNo, j ≠ k → t.trunks[j] = s.trunks[j]) ∧
        Changes [.rollCall, .lastFrame, .releasing, .line] s t) ∧
    (∀ i, (s.trunks[k]).line = .slotDue i → ∃ t, exec (.slotSend k) s = .next t ∧
      t.trunks[k] = { s.trunks[k] with
        lastFrame := sealFrame ([0x06, 0xFF] ++ bytes2 i), releasing := none, sending := true, line := .slotOpen i } ∧
      (∀ j : TrunkNo, j ≠ k → t.trunks[j] = s.trunks[j]) ∧ Changes [.lastFrame, .releasing, .line] s t))

/-- UNIT ACCESS: the checks in their order, key, address, parameter and direction, run state and enabled trunk, access in
hand; any other is ACCEPTED and its access WAITING, whatever is bound at the address (R45). -/
def Obligations.UnitAccessIsChecked : Prop :=
  ∀ (key : Half) (address parameter direction : Byte) (value : Half) (s : State), s.takes →
    let c := Instr.unitAccess key address parameter direction value
    (4 ≤ key.toNat → refused c s .badKey) ∧
    ∀ k : TrunkNo, key.toNat = k.val →
      let bad := address.toNat = 0 ∨ 254 < address.toNat ∨ 63 < parameter.toNat ∨ 2 ≤ direction.toNat
      let unready := s.run = .halted ∨ (s.trunks[k]).enabled = false
      (bad → refused c s .badValue) ∧
      (¬ bad → unready → refused c s .wrongState) ∧
      (¬ bad → ¬ unready → (s.trunks[k]).access ≠ .idle → refused c s .busy) ∧
      (¬ bad → ¬ unready → (s.trunks[k]).access = .idle → ∃ t, answers c s ⟨.accepted, []⟩ t ∧
        (t.trunks[k]).access = .waiting
          { address := address.toNat, parameter := parameter.toNat, write := decide (direction = 1#8), value := value } ∧
        (∀ j : TrunkNo, j ≠ k → t.trunks[j] = s.trunks[j]) ∧ Changes [.port, .access] s t)

/-- Polls. The next address of a round is polled with the key mark held for its seat. A valid reply without a new key clears
the miss count of a PRESENT seat, and makes an ABSENT one PRESENT with key mark NONE, its notice and its indicator; a key in
that reply is then taken as from a PRESENT seat of key mark NONE, by the statements of the three kinds. No reply,
or one that fails its check, is a miss: the third makes a PRESENT seat ABSENT; UNIT_LOST and the notice of what the seat was
are generated, and the floor and its booth are left as `FloorLeft` and `DesksLeft` say: lists, holds, grants, levels, sources,
indicators; an ABSENT seat is left. A reply or the lack of one at an address released meanwhile is taken for no seat. The gap
follows each poll, and where nothing is due in it the round goes on: `GapFollows`. A trunk that scans nothing sends nothing, and
a reply outside every window is ignored (R28, R30, R31, R32, R33, R34, R35, R75, R121; the commands that do not fit are the
model's reading, assumption log 2; the order of the last notices of a loss, assumption log 8; the rest of a trunk without seats,
assumption log 9). -/
def Obligations.PollsKeepPresence : Prop :=
  (∀ (s : State) (k : TrunkNo) (a n : Nat) (rest : List Nat) (x : Seat), s.resetLow = false →
    (s.trunks[k]).line = .poll → (s.trunks[k]).toPoll = a :: rest → s.seatAt k a = some n → s.seats.get n = some x →
    ∃ t, exec (.pollSend k) s = .next t ∧
      t.trunks[k] = { s.trunks[k] with
        lastFrame := sealFrame [0x01, byte a, match x.keyMark with | .zero => 0 | .one => 1 | .none => 2]
        releasing := none, sending := true, line := .polling a, toPoll := rest } ∧
      (∀ j : TrunkNo, j ≠ k → t.trunks[j] = s.trunks[j]) ∧ Changes [.line, .lastFrame, .releasing] s t) ∧
  (∀ (s : State) (k : TrunkNo), (s.trunks[k]).line = .idle → ∀ bytes,
    ∀ c ∈ [Instr.pollSend k, .indicatorSend k, .releaseSend k, .accessSend k, .roundStart k, .slotSend k,
      .pollReply k bytes, .pollNoReply k, .accessReply k bytes, .accessNoReply k, .slotReply k bytes, .slotEmpty k],
      exec c s = .next s) ∧
  (∀ (s : State) (k : TrunkNo) (bytes : List Byte), exec (.lateReply k bytes) s = .next s) ∧
  (∀ (s : State) (k : TrunkNo) (a : Nat) (c : Instr), s.resetLow = false → (s.trunks[k]).line = .polling a →
    s.seatAt k a = none → (c = .pollNoReply k ∨ ∃ bytes : List Byte, c = .pollReply k bytes) →
    ∃ t, exec c s = .next t ∧ GapFollows s t k ∧ (∀ j : TrunkNo, j ≠ k → t.trunks[j] = s.trunks[j]) ∧
      Changes lineParts s t) ∧
  (∀ (s : State) (k : TrunkNo) (a n : Nat) (x : Seat), Polled s k a n x →
    (∀ (key mark : Byte), key = 0#8 ∨ (x.present = true ∧ 1 ≤ key.toNat ∧ key.toNat ≤ 4 ∧
        ((mark = 0#8 ∧ x.keyMark = .zero) ∨ (mark = 1#8 ∧ x.keyMark = .one))) →
      ∃ t, exec (keyReply k a key mark) s = .next t ∧ (∀ m, m ≠ n → t.seats.get m = s.seats.get m) ∧
        (x.present = true → t.seats.get n = some { x with misses := 0 } ∧ Changes (.presence :: lineParts) s t) ∧
        (x.present = false → t.seats.get n = some { x with present := true, misses := 0, keyMark := .none } ∧
          t.notices = (s.notify ⟨some (s.roomOf x.section_), some n, .unitFound k a⟩).notices ∧ placed s t [n] ∧
          Changes ([.presence, .keyMark, .notices, .indicators] ++ lineParts) s t)) ∧
    (x.present = false → Tidy s → ∃ u : State,
      u.seats.get n = some { x with present := true, misses := 0, keyMark := .none } ∧
      (∀ m, m ≠ n → u.seats.get m = s.seats.get m) ∧
      u.notices = (s.notify ⟨some (s.roomOf x.section_), some n, .unitFound k a⟩).notices ∧ placed s u [n] ∧
      Changes [.presence, .keyMark, .notices, .indicators] s u ∧
      ∀ key mark : Byte, 1 ≤ key.toNat → key.toNat ≤ 4 → mark.toNat < 2 → Polled u k a n
          { x with present := true, misses := 0, keyMark := .none } ∧
        exec (keyReply k a key mark) s = exec (keyReply k a key mark) u) ∧
    (∀ c : Instr, (c = .pollNoReply k ∨ ∃ bytes : List Byte, c = .pollReply k bytes) → ∃ t, exec c s = .next t ∧
      GapFollows s t k) ∧
    (∀ c : Instr, (c = .pollNoReply k ∨ ∃ bytes : List Byte, c = .pollReply k bytes ∧
        (bytes.length ≠ 5 ∨ bytes.head? ≠ some 0x81#8 ∨ sumBytes bytes ≠ 0 ∨ (bytes.getD 1 0).toNat ≠ a ∨
          4 < (bytes.getD 2 0).toNat ∨ (bytes.getD 2 0 ≠ 0#8 ∧ 1 < (bytes.getD 3 0).toNat))) →
      ∃ t, exec c s = .next t ∧ (∀ m, m ≠ n → t.seats.get m = s.seats.get m) ∧
        (x.present = false → Changes lineParts s t) ∧
        (x.present = true → x.misses + 1 < 3 → t.seats.get n = some { x with misses := x.misses + 1 } ∧
          Changes (.presence :: lineParts) s t) ∧
        (x.present = true → 3 ≤ x.misses + 1 → ∀ (u : TrunkNo) (b : Nat), x.binding = some (u, b) →
          FloorInOrder s → DesksInOrder s →
          t.seats.get n = some { x with present := false, misses := 3 } ∧
          (let lost : List Notice := ⟨some (s.roomOf x.section_), some n, .unitLost u b⟩ :: s.leavingNotices n .unitLost;
            let floor := if x.kind = .desk then [] else [n]
            noticesFirst s t lost ∧ FloorLeft s t floor ∧ DesksLeft s t [n] ∧ (InOrder s → IndicatorsShown s t) ∧
            (Tidy s → t.notices = ((lost ++ s.endNotices t floor).foldl State.notify s).notices)) ∧
          t.micOpen n = false ∧ t.waiting n = false ∧
          (x.kind ≠ .desk → n ∉ (t.rooms[s.roomOf x.section_]).holding) ∧
          (∀ c y, t.booths.get c = some y → y.live ≠ some n) ∧
          (s.micOpen n = true → LevelsTaken s t (s.roomOf x.section_)) ∧
          (∀ c y, s.booths.get c = some y → y.live = some n → SourcesTaken s t (s.roomOf y.home) ∧
            LevelsTaken s t (s.roomOf y.home)) ∧
          (Tidy s → ∀ m z v b, s.seats.get m = some z → z.kind = .desk → z.binding = some (v, b) →
            s.indicator m ≠ t.indicator m → m ∈ (t.trunks[v]).indicators) ∧
          Changes (lineParts ++ lossParts) s t)))

/-- A new key of a PRESENT delegate. NEXT, PRIORITY_DOWN and PRIORITY_UP are discarded: the seat takes the mark and its misses
are cleared, and nothing else comes of it, no hold among it. MIC, from IDLE: with LOCK set it is refused LOCKED; under a CLOSE_ALL hold it is refused
PRIORITY in a REPLACE room and queued in any other; it is queued in a QUEUED room and in a full DIRECT one, or refused FULL
where the queue or the pool has no room; it is granted in a DIRECT room below its limit and in a REPLACE room, after the
oldest speaker is closed where that is full. A WAITING seat is withdrawn with reason CANCELLED, an open one closed with
reason OWN_KEY (R32, R35, R55, R56, R58, R59, R61, R63, R73, R74). -/
def Obligations.DelegateMicKeyIsTaken : Prop :=
  ∀ (s : State) (k : TrunkNo) (a n : Nat) (x : Seat) (mark : Byte), KeyAwaited s k a n x mark → x.kind = .delegate →
    (∀ key : Byte, 2 ≤ key.toNat → key.toNat ≤ 4 → keyDiscarded s k a n x key mark) ∧
    (FloorInOrder s → ∃ t, exec (keyReply k a 1 mark) s = .next t ∧
    t.seats.get n = some (keyHeld x mark) ∧ (∀ m, m ≠ n → t.seats.get m = s.seats.get m) ∧
    let l := s.roomOf x.section_
    let heard : List Part := .keyMark :: .presence :: lineParts
    let mode := (s.settings l).floorMode
    let idle := s.micOpen n = false ∧ s.waiting n = false
    let free := idle ∧ x.lock = false
    let refusedKey (r : Reason) : Prop :=
      t.notices = (s.notify ⟨some l, some n, .requestRefused false r⟩).notices ∧ Changes (.notices :: heard) s t
    let opened : Notice := ⟨some l, some n, .seatState .idle .speaking .key⟩
    (idle → x.lock = true → refusedKey .locked) ∧
    (free → s.closingAll l = true → mode = .replace → refusedKey .priority) ∧
    (free → mode = .queued ∨ (mode = .direct ∧ (s.closingAll l = true ∨ s.belowLimit l = false)) →
      (¬ ((s.poolOf l).length < (s.settings l).queueLimit ∧ s.pool.length < 256) → refusedKey .full) ∧
      ((s.poolOf l).length < (s.settings l).queueLimit → s.pool.length < 256 →
        t.pool = s.pool ++ [⟨n, decide (x.seatClass = .vip)⟩] ∧
        t.notices = (s.notify ⟨some l, some n, .seatState .idle .waiting .key⟩).notices ∧ placed s t [n] ∧
        Changes (.pool :: .notices :: .indicators :: heard) s t)) ∧
    (free → s.closingAll l = false → s.belowLimit l = true → mode ≠ .queued →
      t.speakers = s.speakers ++ [⟨n, (s.settings l).timer⟩] ∧ t.pool = s.pool ∧ t.chairs = s.chairs ∧
      Granted s t x l ∧ noticesFirst s t [opened] ∧ placed s t [n]) ∧
    (free → s.closingAll l = false → s.belowLimit l = false → mode = .replace →
      ∃ y ys, s.roomSpeakers l = y :: ys ∧
        t.speakers = s.speakers.filter (fun z => decide (z.seat ≠ y.seat)) ++ [⟨n, (s.settings l).timer⟩] ∧
        t.pool = s.pool ∧ t.chairs = s.chairs ∧ Granted s t x l ∧
        noticesFirst s t [⟨some l, some y.seat, .seatState y.state .idle .replaced⟩, opened] ∧
        placed s t [y.seat, n]) ∧
    (s.waiting n = true → t.pool = s.pool.filter (fun r => decide (r.seat ≠ n)) ∧
      t.notices = (s.notify ⟨some l, some n, .seatState .waiting .idle .cancelled⟩).notices ∧ placed s t [n] ∧
      Changes (.pool :: .notices :: .indicators :: heard) s t) ∧
    (s.micOpen n = true → Closed s t n l .ownKey) ∧ Changes (heard ++ floorParts) s t)

/-- A new key of a PRESENT chair. MIC opens it whatever the room's limit, closes it when open, and is refused LOCKED when
locked and shut. NEXT grants the head of the queue as the request does, or is refused EMPTY or FULL. PRIORITY_DOWN joins the
holding set and starts the hold of a set that was empty: MUTE_WHILE_HELD places the room's speakers on their indicator lists,
CLOSE_ALL closes them with reason PRIORITY. PRIORITY_UP leaves it and ends the hold of a set that becomes empty; the end of
a CLOSE_ALL hold lets a DIRECT room grant the first entries of its queue up to its limit, in order, each with its AUTO notice
(R35, R58, R59, R60, R62, R63, R67, R73, R74, R150; the order among several speakers is the model's, assumption log 16). -/
def Obligations.ChairKeysAreTaken : Prop :=
  ∀ (s : State) (k : TrunkNo) (a n : Nat) (x : Seat) (mark : Byte), KeyAwaited s k a n x mark → x.kind = .chair →
    FloorInOrder s →
    let l := s.roomOf x.section_
    let heard : List Part := .keyMark :: .presence :: lineParts
    let holding := (s.rooms[l]).holding
    let action := (s.settings l).priorityAction
    let shown (t : State) : Prop := ∀ y ∈ s.roomSpeakers l, ∀ (u : TrunkNo) (b : Nat) (z : Seat),
      s.seats.get y.seat = some z → z.binding = some (u, b) → y.seat ∈ (t.trunks[u]).indicators
    let refusedKey (t : State) (next : Bool) (r : Reason) : Prop :=
      t.notices = (s.notify ⟨some l, some n, .requestRefused next r⟩).notices ∧ Changes (.notices :: heard) s t
    (∀ key : Byte, 1 ≤ key.toNat → key.toNat ≤ 4 → ∃ t, exec (keyReply k a key mark) s = .next t ∧
      t.seats.get n = some (keyHeld x mark) ∧ (∀ m, m ≠ n → t.seats.get m = s.seats.get m) ∧
      (key = 1#8 →
        (s.micOpen n = true → Closed s t n l .ownKey) ∧
        (s.micOpen n = false → x.lock = true → refusedKey t false .locked) ∧
        (s.micOpen n = false → x.lock = false → t.chairs = s.chairs ++ [n] ∧ t.speakers = s.speakers ∧
          t.pool = s.pool ∧ Granted s t x l ∧
          noticesFirst s t [⟨some l, some n, .seatState .idle .speaking .key⟩] ∧ placed s t [n])) ∧
      (key = 2#8 →
        (s.queue l = [] → refusedKey t true .empty) ∧
        (s.queue l ≠ [] → s.belowLimit l = false → (s.settings l).floorMode ≠ .replace → refusedKey t true .full) ∧
        (∀ r rest z, s.queue l = r :: rest → s.seats.get r.seat = some z →
          let granted : Notice := ⟨some l, some r.seat, .seatState .waiting .speaking .next⟩
          (s.belowLimit l = true → t.speakers = s.speakers ++ [⟨r.seat, (s.settings l).timer⟩] ∧ t.chairs = s.chairs ∧
            t.pool = s.pool.filter (fun q => decide (q.seat ≠ r.seat)) ∧ Granted s t z l ∧
            noticesFirst s t [granted] ∧ placed s t [r.seat]) ∧
          (s.belowLimit l = false → (s.settings l).floorMode = .replace →
            ∃ y ys, s.roomSpeakers l = y :: ys ∧ t.chairs = s.chairs ∧
              t.speakers = s.speakers.filter (fun w => decide (w.seat ≠ y.seat))
                ++ [⟨r.seat, (s.settings l).timer⟩] ∧
              t.pool = s.pool.filter (fun q => decide (q.seat ≠ r.seat)) ∧ Granted s t z l ∧
              noticesFirst s t [⟨some l, some y.seat, .seatState y.state .idle .replaced⟩, granted] ∧
              placed s t [y.seat, r.seat]))) ∧
      (key = 3#8 →
        (n ∈ holding → Changes heard s t) ∧
        (n ∉ holding → (∀ m, m ∈ (t.rooms[l]).holding ↔ m = n ∨ m ∈ holding)) ∧
        (n ∉ holding → holding ≠ [] → (t.rooms[l]).holdAction = (s.rooms[l]).holdAction ∧
          Changes (.holds :: heard) s t) ∧
        (holding = [] → (t.rooms[l]).holdAction = some action ∧ LevelsTaken s t l ∧
          (action = .muteWhileHeld → shown t ∧ Changes ([.holds, .indicators, .shadow, .sendList] ++ heard) s t) ∧
          (action = .closeAll → t.speakers = s.speakers.filter (fun y => !s.seatIn l y.seat) ∧ t.pool = s.pool ∧
            t.chairs = s.chairs ∧ noticesFirst s t
              ((s.roomSpeakers l).map (fun y => ⟨some l, some y.seat, .seatState y.state .idle .priority⟩)) ∧
            placed s t ((s.roomSpeakers l).map Speaker.seat)))) ∧
      (key = 4#8 →
        (n ∉ holding → Changes heard s t) ∧
        (n ∈ holding → (t.rooms[l]).holding = holding.filter (fun m => decide (m ≠ n))) ∧
        (n ∈ holding → (∃ m ∈ holding, m ≠ n) → (t.rooms[l]).holdAction = (s.rooms[l]).holdAction ∧
          Changes (.holds :: heard) s t) ∧
        (n ∈ holding → (∀ m ∈ holding, m = n) → s.hold l = some .muteWhileHeld → shown t ∧ LevelsTaken s t l ∧
          Changes ([.holds, .indicators, .shadow, .sendList] ++ heard) s t) ∧
        (n ∈ holding → (∀ m ∈ holding, m = n) → s.hold l = some .closeAll → t.advanceHead l = none ∧
          LevelsTaken s t l ∧
            let heads := if (s.settings l).floorMode = .direct then
                ((s.queue l).take ((s.settings l).speakerLimit - (s.roomSpeakers l).length)).map Request.seat
              else []
            t.speakers = s.speakers ++ heads.map (fun m => ⟨m, (s.settings l).timer⟩) ∧
            t.pool = s.pool.filter (fun r => decide (r.seat ∉ heads)) ∧
            (t.rooms[l]).floorLanguage = s.spokenAfter l (s.rooms[l]).floorLanguage (s.rooms[l]).pin heads ∧
            ((t.rooms[l]).floorLanguage ≠ (s.rooms[l]).floorLanguage → SourcesTaken s t l) ∧
            noticesFirst s t (autoNotices l heads) ∧ placed s t heads)) ∧
      Changes (heard ++ .holds :: floorParts) s t)

/-- A new key of a PRESENT desk. NEXT, PRIORITY_DOWN and PRIORITY_UP are discarded: the seat takes the mark and its misses are
cleared, and nothing else comes of it. MIC is taken in the room of its booth. A desk with no booth is left. A LIVE desk goes OFF; an OFF
one goes LIVE where no desk of its language group is LIVE. Where one is, the interlock of the key's own booth decides: REFUSE
generates DESK_REFUSED and shows ENGAGED again, TAKEOVER switches the LIVE desk OFF and then the desk LIVE. The room's sources
are then those of its LIVE booths, its desks' levels are taken, and every desk of changed indicator is placed: the desk itself,
and the others of its group as they turn ENGAGED or OFF (R35, R36, R117, R119, R120, R123, R148, R150). -/
def Obligations.DeskMicKeyIsTaken : Prop :=
  ∀ (s : State) (k : TrunkNo) (a n : Nat) (x : Seat) (mark : Byte), KeyAwaited s k a n x mark → x.kind = .desk →
    (∀ key : Byte, 2 ≤ key.toNat → key.toNat ≤ 4 → keyDiscarded s k a n x key mark) ∧
    (Tidy s → DesksInOrder s → ∃ t, exec (keyReply k a 1 mark) s = .next t ∧
    t.seats.get n = some (keyHeld x mark) ∧ (∀ m, m ≠ n → t.seats.get m = s.seats.get m) ∧
    let heard : List Part := .keyMark :: .presence :: lineParts
    (x.booth = none → Changes heard s t) ∧
    ∀ b y, x.booth = some b → s.booths.get b = some y →
      let l := s.boothRoom y
      let liveIn (c m : Nat) : Prop := ∃ z, s.booths.get c = some z ∧ s.boothRoom z = l ∧ z.output = y.output ∧
        z.live = some m
      let liveNow (f : Nat → Option (Option Nat)) : Prop := ∀ c, (t.booths.get c).map Booth.live =
        (f c).elim ((s.booths.get c).map Booth.live) some
      (y.live = some n → liveNow (fun c => if c = b then some none else none) ∧ SourcesTaken s t l ∧
        t.shadow.seat n = levelsBy t n x ∧
        noticesFirst s t [⟨some l, some n, .deskState b .live .off .key⟩]) ∧
      ((∀ c m, ¬ liveIn c m) → liveNow (fun c => if c = b then some (some n) else none) ∧ SourcesTaken s t l ∧
        t.shadow.seat n = levelsBy t n x ∧
        noticesFirst s t [⟨some l, some n, .deskState b .off .live .key⟩]) ∧
      (∀ c m, liveIn c m → m ≠ n →
        (y.takeover = false → placed s t [n] ∧
          t.notices = (s.notify ⟨some l, some n, .deskRefused b m c⟩).notices ∧
          Changes (.notices :: .indicators :: heard) s t) ∧
        (y.takeover = true →
          liveNow (fun d => if d = b then some (some n) else if d = c then some none else none) ∧ SourcesTaken s t l ∧
          t.shadow.seat n = levelsBy t n x ∧ (∀ z, s.seats.get m = some z → t.shadow.seat m = levelsBy t m z) ∧
          noticesFirst s t [⟨some l, some m, .deskState c .live .off .takeover⟩,
            ⟨some l, some n, .deskState b .off .live .key⟩])) ∧
      (y.takeover = true ∨ y.live = some n ∨ (∀ c m, ¬ liveIn c m) → LevelsTaken s t l) ∧ IndicatorsShown s t ∧
      Changes ([.liveDesk, .indicators] ++ sourceParts ++ heard) s t)

/-- The indicator state of a seat, spelled from the records by the table of R37. -/
def indicatorBy (s : State) (n : Nat) (x : Seat) : Indicator :=
  let muting := s.hold (s.roomOf x.section_) = some .muteWhileHeld
  match x.kind, s.floorState n x with
  | .delegate, .waiting => .waiting
  | .delegate, .speaking => if muting then .muted else .on
  | .delegate, .warned => if muting then .muted else .warned
  | .chair, .speaking => .on
  | .desk, .live => .live
  | .desk, _ =>
    match x.booth.bind s.booths.get with
    | some y =>
      if ∃ c ∈ s.booths.cells, s.roomOf c.2.home = s.roomOf y.home ∧ c.2.output = y.output ∧ c.2.live.isSome = true
      then .engaged else .off
    | none => .off
  | _, _ => .off

/-- Gaps. A gap offers the line to the oldest address due a release, then to a WAITING access, then to the head of the
indicator list, each at most once: after a release the gap goes on from the access, after an access from the indicator, and
after an indicator the round goes on; in the model's reading a send out of its turn does nothing (assumption log 2). A release
frame goes to its address; an indicator frame carries the state its seat has now, and an ABSENT seat's turn passes without
one. After the gap the round goes on, and after it the next one, as `RoundGoesOn` says: a round that polls no unit is a single gap,
and an ABSENT seat is polled again at counter 0. A send finds its trunk brought on so, past gaps with nothing to send and addresses
released (`BroughtOn`), and acts as on the trunk so brought on (R28, R30, R31, R37, R38; DIR is high after a send, assumption
log 11; the rest of a trunk without seats, assumption log 9). -/
def Obligations.GapsServeReleasesAndIndicators : Prop :=
  (∀ (s : State) (k : TrunkNo), s.resetLow = false → ∃ v : State, BroughtOn s v k ∧
    ∀ c ∈ [Instr.pollSend k, .indicatorSend k, .releaseSend k, .accessSend k, .roundStart k],
      exec c s = exec c v ∨ (exec c s = .next s ∧ exec c v = .next v)) ∧
  ∀ (s : State) (k : TrunkNo) (stage : GapStage), s.resetLow = false → (s.trunks[k]).line = .gap stage →
    let u := s.trunks[k]
    let release := stage = .release ∧ u.releases ≠ []
    let access := stage ≠ .indicator ∧ ¬ release ∧ ∃ r, u.access = .waiting r
    let waits := ∃ r, u.access = .waiting r
    (release → exec (.accessSend k) s = .next s ∧ exec (.indicatorSend k) s = .next s) ∧
    (access → exec (.releaseSend k) s = .next s ∧ exec (.indicatorSend k) s = .next s) ∧
    (¬ release → ¬ access → u.indicators ≠ [] →
      exec (.releaseSend k) s = .next s ∧ exec (.accessSend k) s = .next s) ∧
    (∀ a rest, stage = .release → u.releases = a :: rest → ∃ t, exec (.releaseSend k) s = .next t ∧
      (t.trunks[k]).lastFrame = sealFrame [0x03, byte a] ∧ (t.trunks[k]).releases = rest ∧
      (t.trunks[k]).releasing = some a ∧ t.dirPin k = true ∧
      (waits ∨ u.indicators ≠ [] → (t.trunks[k]).line = .gap .access) ∧
      (¬ waits → u.indicators = [] → RoundGoesOn s s t k) ∧
      (∀ j : TrunkNo, j ≠ k → t.trunks[j] = s.trunks[j]) ∧
      Changes ([.releases, .releasing, .lastFrame] ++ lineParts) s t) ∧
    (∀ n rest, ¬ release → ¬ access → u.indicators = n :: rest → ∃ t, exec (.indicatorSend k) s = .next t ∧
      (t.trunks[k]).indicators = rest ∧ RoundGoesOn s s t k ∧ (∀ j : TrunkNo, j ≠ k → t.trunks[j] = s.trunks[j]) ∧
      (∀ x v a, s.seats.get n = some x → x.binding = some (v, a) → x.present = true →
        (t.trunks[k]).lastFrame = sealFrame [0x02, byte a, (indicatorBy s n x).code] ∧ t.dirPin k = true) ∧
      (s.isPresent n = false → (t.trunks[k]).lastFrame = u.lastFrame) ∧
      Changes ([.indicators, .releasing, .lastFrame] ++ lineParts) s t)

/-- A WAITING access whose turn in the gap has come is sent and its window opens; bound to an ABSENT seat it completes NO_REPLY
without a frame. A reply that passes its check and carries the address and parameter completes it OK, with the value read
for a READ; any other, and none in the window, completes it NO_REPLY. The notice names the seat bound at completion, and no
seat's presence changes; the gap then serves the indicator list (R31, R46; the value bytes of a READ frame are open,
assumption log 3; their order is the model's, assumption log 15, and so is the code of the direction byte, assumption log 21;
the rest of a trunk without seats, assumption log 9). -/
def Obligations.AccessesAreExchanged : Prop :=
  ∀ (s : State) (k : TrunkNo) (r : AccessRequest), s.resetLow = false → r.address < 256 → r.parameter < 256 →
    let done (t : State) (status : AccessStatus) (value : Half) : Prop := (t.trunks[k]).access = .idle ∧
      t.notices = (s.notify (match s.seatAt k r.address with
        | some n => ⟨s.seatRoom n, some n, .unitAccessDone k r status value⟩
        | none => ⟨none, none, .unitAccessDone k r status value⟩)).notices ∧
      (t.trunks[k]).lastFrame = (s.trunks[k]).lastFrame ∧
      ((s.trunks[k]).indicators ≠ [] → (t.trunks[k]).line = .gap .indicator) ∧
      ((s.trunks[k]).indicators = [] → RoundGoesOn s s t k) ∧
      Changes ([.access, .notices] ++ lineParts) s t
    (∀ stage, (s.trunks[k]).line = .gap stage → stage = .access ∨ (stage = .release ∧ (s.trunks[k]).releases = []) →
      (s.trunks[k]).access = .waiting r →
      ((∃ n, s.seatAt k r.address = some n ∧ s.isPresent n = false) → ∃ t, exec (.accessSend k) s = .next t ∧
        done t .noReply 0) ∧
      ((∀ n, s.seatAt k r.address = some n → s.isPresent n = true) → ∃ (t : State) (value : Half),
        exec (.accessSend k) s = .next t ∧ (r.write = true → value = r.value) ∧
        t.trunks[k] = { s.trunks[k] with
          lastFrame := sealFrame ([0x08, byte r.address, byte r.parameter, flagByte r.write] ++ bytes2 value.toNat)
          releasing := none, sending := true, access := .sent r, line := .accessing } ∧
        Changes [.access, .line, .lastFrame, .releasing, .free] s t)) ∧
    ((s.trunks[k]).line = .accessing → (s.trunks[k]).access = .sent r →
      (∃ t, exec (.accessNoReply k) s = .next t ∧ done t .noReply 0) ∧
      (∀ value : Half, ∃ t, exec (.accessReply k (sealFrame ([0x88, byte r.address, byte r.parameter]
          ++ bytes2 value.toNat))) s = .next t ∧ done t .ok (if r.write then 0 else value)) ∧
      (∀ bytes : List Byte, bytes.length ≠ 6 ∨ bytes.head? ≠ some 0x88#8 ∨ sumBytes bytes ≠ 0 ∨
          (bytes.getD 1 0).toNat ≠ r.address ∨ (bytes.getD 2 0).toNat ≠ r.parameter →
        ∃ t, exec (.accessReply k bytes) s = .next t ∧ done t .noReply 0))

/-- The end of a slot, for a roll call with its slot counted and some notices of its unit: the next slot is due, or after the
last slot of the round Q rises, falls or stays by the counts, an empty round is counted, and the roll call ends where the
empty rounds are reached or at 64 rounds, with its notice after those; the next scan round then begins at the trunk's round
counter, as `RoundBegins` says (R30, R31, R40, R43). -/
def slotEnded (s t : State) (k : TrunkNo) (i : Nat) (r : RollCall) (ns : List Notice) : Prop :=
  let u := t.trunks[k]
  let n := 2 ^ r.q
  let q := if n < 2 * r.collisions then min 8 (r.q + 1)
    else if r.collisions = 0 ∧ n < 2 * (n - r.singles) then r.q - 1 else r.q
  let emptyRun := if r.singles = 0 ∧ r.collisions = 0 then r.emptyRun + 1 else 0
  let done : Notice := ⟨none, none, .rollcallDone k r.found r.refused (r.round + 1) q
    (if emptyRun = r.emptyToEnd then .ended else .roundLimit)⟩
  (i + 1 < n → u.line = .slotDue (i + 1) ∧ u.rollCall = some r ∧ t.notices = (ns.foldl State.notify s).notices) ∧
  restsOnlyBare s t t k ∧
  (n ≤ i + 1 →
    (emptyRun = r.emptyToEnd ∨ r.round = 63 → u.rollCall = none ∧
      t.notices = ((ns ++ [done]).foldl State.notify s).notices) ∧
    (emptyRun ≠ r.emptyToEnd → r.round ≠ 63 → t.notices = (ns.foldl State.notify s).notices ∧
      u.rollCall = some { r with q := q, emptyRun := emptyRun, round := r.round + 1, singles := 0, collisions := 0 }) ∧
    RoundBegins t t k (s.trunks[k]).roundCounter)

/-- The slots of a roll call round, each ending as `slotEnded` says, the last one as any other; after it the next scan round
begins as `RoundBegins` says. An empty slot counts nothing;
a reply that fails its check counts as a collision. A single is resolved as it is heard. A unit whose serial no seat holds
takes the lowest free record and the lowest free address; the seat of an unbound one takes the lowest free address; that of
one bound here keeps its address; that of one bound on another trunk is lost there where PRESENT, with what `FloorLeft` and
`DesksLeft` say and its notices before UNIT_FOUND, released, and takes the lowest free address here. A unit whose kind does not fit, or that finds no record or no address, is refused with address 0 and
changes no seat (R28, R33, R40, R41, R42, R43; byte order assumption log 15; the round ends
after all that its last single calls for, assumption log 18; the order of AUTO and RELAY_MISSING, assumption log 8; the rest of
a trunk without seats, assumption log 9). -/
def Obligations.SlotsBindUnits : Prop :=
  ∀ (s : State) (k : TrunkNo) (i : Nat) (r : RollCall), s.resetLow = false → (s.trunks[k]).line = .slotOpen i →
    (s.trunks[k]).rollCall = some r →
    (∃ t, exec (.slotEmpty k) s = .next t ∧ slotEnded s t k i r [] ∧ Changes ([.rollCall, .notices] ++ lineParts) s t ∧
      (i + 1 < 2 ^ r.q → Changes [.line] s t)) ∧
    (∀ bytes : List Byte, bytes.length ≠ 7 ∨ bytes.head? ≠ some 0x86#8 ∨ sumBytes bytes ≠ 0 →
      ∃ t, exec (.slotReply k bytes) s = .next t ∧ slotEnded s t k i { r with collisions := r.collisions + 1 } [] ∧
        Changes ([.rollCall, .notices] ++ lineParts) s t) ∧
    ∀ (serial : Word) (kind : Byte), ∃ t,
      exec (.slotReply k (sealFrame ([0x86] ++ bytes4 serial.toNat ++ [kind]))) s = .next t ∧
      let found : RollCall := { r with singles := r.singles + 1, found := r.found + 1 }
      let told (a : Nat) : Prop :=
        (t.trunks[k]).lastFrame = sealFrame ([0x07, 0xFF] ++ bytes4 serial.toNat ++ [byte a])
      let refusedUnit : Prop := told 0 ∧
        slotEnded s t k i { r with singles := r.singles + 1, refused := r.refused + 1 } [] ∧
        Changes ([.rollCall, .lastFrame, .releasing, .notices] ++ lineParts) s t
      let others (n : Nat) : Prop := ∀ m, m ≠ n → t.seats.get m = s.seats.get m
      let free (a : Nat) : Prop := 1 ≤ a ∧ a ≤ 254 ∧ s.addressFree k a = true ∧
        ∀ b, 1 ≤ b → b < a → s.addressFree k b = false
      let full := ∀ b, 1 ≤ b → b ≤ 254 → s.addressFree k b = false
      let known (n : Nat) (x : Seat) : Prop := s.serialSeat serial = some (n, x) ∧ s.seats.get n = some x
      let unitFound (n : Nat) (sec : SectionNo) (a : Nat) : Notice := ⟨some (s.roomOf sec), some n, .unitFound k a⟩
      ((∀ c ∈ s.seats.cells, c.2.serial ≠ some serial) →
        (3 ≤ kind.toNat ∨ (∀ m, m < 1024 → s.seats.get m ≠ none) ∨ full → refusedUnit) ∧
        (kind.toNat < 3 → ∀ n a, n < 1024 → s.seats.get n = none → (∀ m, m < n → s.seats.get m ≠ none) → free a →
          told a ∧ others n ∧ n ∈ (t.trunks[k]).indicators ∧
          (∃ x, t.seats.get n = some x ∧ x.kind.code = kind ∧
            x = { kind := x.kind, seatClass := .ordinary, section_ := (s.trunks[k]).defaultSection, language := 0
                  micTrim := none, speakerTrim := none, booth := none, neighbours := [], lock := false, mark := false
                  serial := some serial, binding := some (k, a), present := true, misses := 0, keyMark := .none } ∧
            (x.kind ≠ .desk → LevelsTaken s t (s.roomOf x.section_)) ∧ (InOrder s → EntriesListed s t)) ∧
          slotEnded s t k i found [unitFound n (s.trunks[k]).defaultSection a])) ∧
      (∀ n x, known n x → x.kind.code ≠ kind → refusedUnit) ∧
      (∀ n x, known n x → x.kind.code = kind →
        (x.binding = none → full → refusedUnit) ∧
        (∀ a, x.binding = none → free a → told a ∧ others n ∧ n ∈ (t.trunks[k]).indicators ∧
          t.seats.get n = some { x with binding := some (k, a), present := true, misses := 0, keyMark := .none } ∧
          slotEnded s t k i found [unitFound n x.section_ a]) ∧
        (∀ a, x.binding = some (k, a) → told a ∧ others n ∧ n ∈ (t.trunks[k]).indicators ∧
          t.seats.get n = some { x with present := true, misses := 0, keyMark := .none } ∧
          slotEnded s t k i found (if x.present then [] else [unitFound n x.section_ a])) ∧
        (∀ (v : TrunkNo) (b : Nat), v ≠ k → x.binding = some (v, b) →
          (full → refusedUnit) ∧
          (∀ a, free a → told a ∧ others n ∧ n ∈ (t.trunks[k]).indicators ∧
            t.seats.get n = some { x with binding := some (k, a), present := true, misses := 0, keyMark := .none } ∧
            (t.trunks[v]).releases = joinTail (s.trunks[v]).releases b ∧ n ∉ (t.trunks[v]).indicators ∧
            (x.present = false → slotEnded s t k i found [unitFound n x.section_ a]) ∧
            (x.present = true → Tidy s → FloorInOrder s → DesksInOrder s →
              t.micOpen n = false ∧ t.waiting n = false ∧
              (x.kind ≠ .desk → n ∉ (t.rooms[s.roomOf x.section_]).holding) ∧
              (∀ c y, t.booths.get c = some y → y.live ≠ some n) ∧
              let floor := if x.kind = .desk then [] else [n]
              FloorLeft s t floor ∧ DesksLeft s t [n] ∧
              (InOrder s → ∀ m z u c, m ≠ n → s.seats.get m = some z → z.binding = some (u, c) →
                s.indicator m ≠ t.indicator m → m ∈ (t.trunks[u]).indicators) ∧
              slotEnded s t k i found ([⟨some (s.roomOf x.section_), some n, .unitLost v b⟩]
                ++ s.leavingNotices n .unitLost ++ [unitFound n x.section_ a] ++ s.endNotices t floor)))))

/-! ## Invariants -/

/-- The machine right after reset meets every invariant (the contact levels and the model's own fields are those of
assumption log 4 and 13; R23, R49, R78, R129, R143, R144). -/
def Obligations.InvariantsHoldAtReset : Prop :=
  Tidy State.reset ∧ RoomsFollowWalls State.reset ∧ FloorInOrder State.reset ∧ CarriersApart State.reset ∧
    DesksInOrder State.reset ∧ ChannelsFollowBooths State.reset

/-- Every step keeps the tables and lists in their one form, the notice queue within 64, and every frame's sum at 0 (R36, R139,
R152, R166, R169). -/
def Obligations.TablesStayTidy : Prop :=
  ∀ s t : State, Tidy s → step s = .next t → Tidy t

/-- Every step keeps the rooms those of the open walls, each named by its lowest section (R17, R18, R19). -/
def Obligations.RoomsAlwaysFollowWalls : Prop :=
  ∀ s t : State, RoomsFollowWalls s → step s = .next t → RoomsFollowWalls t

/-- Every step keeps the floor in order: who speaks and waits, the limits of speakers, queues and pool, and no head left that
auto-advance would grant (R54, R55, R57, R59, R60, R70, R101, R102). -/
def Obligations.FloorStaysInOrder : Prop :=
  ∀ s t : State, Tidy s → FloorInOrder s → step s = .next t → FloorInOrder t

/-- Every step keeps every placed channel of a room on a usable carrier of its own, and every room's channel list that of its
booths (R115, R116, R124, R126, R132, R133, R135, R141, R142). -/
def Obligations.CarriersStayApart : Prop :=
  (∀ s t : State, CarriersApart s → step s = .next t → CarriersApart t) ∧
  ∀ s t : State, Tidy s → CarriersApart s → ChannelsFollowBooths s → step s = .next t → ChannelsFollowBooths t

/-- Every step keeps the desk lists those of the booth fields and at most one desk LIVE per room and output language (R113,
R117, R119, R127). -/
def Obligations.DesksStayInOrder : Prop :=
  ∀ s t : State, Tidy s → DesksInOrder s → step s = .next t → DesksInOrder t
end

