-- ==== Sys2Proof/Laws/Tables.lean ====
section
/-! SUPPORT. What the operations on the record tables leave: reading one record after another was set, freed or
changed, and the one form of a table's cells. -/

namespace Sys2Proof.Machine
open Sys2Proof

variable {α β : Type}

theorem cellGet_put (k j : Nat) (v : α) (l : List (Nat × α)) (h : (l.map Prod.fst).Pairwise (· < ·)) :
    cellGet j (cellPut k v l) = if j = k then some v else cellGet j l := by
  induction l with
  | nil => simp [cellPut, cellGet, eq_comm]
  | cons c t ih =>
    obtain ⟨i, w⟩ := c
    simp only [List.map_cons, List.pairwise_cons] at h
    simp only [cellPut]
    split
    · simp [cellGet, eq_comm]
    · split
      · rename_i h1; subst h1; simp only [cellGet, eq_comm]; split <;> simp_all
      · simp only [cellGet, ih h.2]
        split
        · rename_i h1 h2 h3; subst h3; simp [h2]
        · rfl

theorem cellGet_none (k : Nat) (l : List (Nat × α)) (h : k ∉ l.map Prod.fst) : cellGet k l = none := by
  induction l with
  | nil => rfl
  | cons c t ih =>
    obtain ⟨i, w⟩ := c
    simp only [List.map_cons, List.mem_cons, not_or] at h
    simp only [cellGet]
    rw [if_neg (fun e => h.1 e.symm), ih h.2]

theorem cellGet_erase (k j : Nat) (l : List (Nat × α)) :
    cellGet j (cellErase k l) = if j = k then none else cellGet j l := by
  induction l with
  | nil => simp [cellErase, cellGet]
  | cons c t ih =>
    obtain ⟨i, w⟩ := c
    simp only [cellErase, List.filter_cons] at ih ⊢
    by_cases hi : i = k
    · subst hi; simp only [ne_eq, not_true_eq_false, decide_false, Bool.false_eq_true, if_false, ih, cellGet]
      split
      · rfl
      · rename_i h; rw [if_neg (fun e => h e.symm)]
    · simp only [ne_eq, hi, not_false_eq_true, decide_true, if_true, cellGet, ih]
      split
      · rename_i h; subst h; simp [hi]
      · rfl

theorem mem_cellPut_keys (k j : Nat) (v : α) (l : List (Nat × α)) :
    j ∈ (cellPut k v l).map Prod.fst ↔ j = k ∨ j ∈ l.map Prod.fst := by
  induction l with
  | nil => simp [cellPut]
  | cons c t ih =>
    obtain ⟨i, w⟩ := c
    simp only [cellPut]
    split
    · simp
    · split
      · rename_i h; subst h; simp
      · simp only [List.map_cons, List.mem_cons, ih]; tauto

theorem cellPut_rises (k : Nat) (v : α) (l : List (Nat × α)) (h : (l.map Prod.fst).Pairwise (· < ·)) :
    ((cellPut k v l).map Prod.fst).Pairwise (· < ·) := by
  induction l with
  | nil => simp [cellPut]
  | cons c t ih =>
    obtain ⟨i, w⟩ := c
    simp only [List.map_cons, List.pairwise_cons] at h
    simp only [cellPut]
    split
    · rename_i hk
      simp only [List.map_cons, List.pairwise_cons, List.mem_cons]
      refine ⟨?_, h.1, h.2⟩
      rintro a (rfl | ha)
      · exact hk
      · exact lt_trans hk (h.1 a ha)
    · split
      · rename_i h1; subst h1; simpa only [List.map_cons, List.pairwise_cons] using h
      · simp only [List.map_cons, List.pairwise_cons]
        refine ⟨?_, ih h.2⟩
        intro a ha
        rcases (mem_cellPut_keys k a v t).1 ha with rfl | ha
        · omega
        · exact h.1 a ha

/-- The one form of a table's cells: rising keys. -/
theorem FMap.wf_iff (m : FMap α) : m.wf = true ↔ (m.cells.map Prod.fst).Pairwise (· < ·) := by
  unfold FMap.wf; exact decide_eq_true_iff

/-- Setting a record keeps the one form. -/
theorem FMap.wf_put (m : FMap α) (k : Nat) (v : α) (h : m.wf = true) : (m.put k v).wf = true := by
  rw [FMap.wf_iff] at *
  exact cellPut_rises k v m.cells h

/-- Freeing a record keeps the one form. -/
theorem FMap.wf_erase (m : FMap α) (k : Nat) (h : m.wf = true) : (m.erase k).wf = true := by
  rw [FMap.wf_iff] at *
  exact h.sublist ((List.filter_sublist).map _)

/-- Changing every record keeps the one form. -/
theorem FMap.wf_map (m : FMap α) (f : Nat → α → α) (h : m.wf = true) : (m.map f).wf = true := by
  rw [FMap.wf_iff] at *
  simpa [FMap.map, Function.comp_def] using h

/-- Changing a record keeps the one form. -/
theorem FMap.wf_modify (m : FMap α) (k : Nat) (f : α → α) (h : m.wf = true) : (m.modify k f).wf = true := by
  unfold FMap.modify
  split
  · exact h
  · exact m.wf_put _ _ h

/-- Storing into a sparse table keeps the one form. -/
theorem FMap.wf_store [DecidableEq α] (m : FMap α) (d : α) (k : Nat) (v : α) (h : m.wf = true) :
    (m.store d k v).wf = true := by
  unfold FMap.store
  split
  · exact m.wf_erase _ h
  · exact m.wf_put _ _ h

/-- Reading after a record was set. -/
theorem FMap.get_put (m : FMap α) (k j : Nat) (v : α) (h : m.wf = true) :
    (m.put k v).get j = if j = k then some v else m.get j :=
  cellGet_put k j v m.cells (m.wf_iff.1 h)

/-- Reading the record that was set. -/
theorem FMap.get_put_self (m : FMap α) (k : Nat) (v : α) : (m.put k v).get k = some v := by
  obtain ⟨l⟩ := m
  show cellGet k (cellPut k v l) = some v
  induction l with
  | nil => simp [cellPut, cellGet]
  | cons c t ih =>
    obtain ⟨i, w⟩ := c
    simp only [cellPut]
    split
    · simp [cellGet]
    · split
      · simp [cellGet]
      · simp [cellGet, *]

/-- Reading another record than the one that was set. -/
theorem FMap.get_put_ne (m : FMap α) (k j : Nat) (v : α) (h : j ≠ k) : (m.put k v).get j = m.get j := by
  obtain ⟨l⟩ := m
  show cellGet j (cellPut k v l) = cellGet j l
  induction l with
  | nil => simp [cellPut, cellGet, Ne.symm h]
  | cons c t ih =>
    obtain ⟨i, w⟩ := c
    simp only [cellPut]
    split
    · simp [cellGet, Ne.symm h]
    · split
      · rename_i h1; subst h1; simp [cellGet, Ne.symm h]
      · simp [cellGet, ih]

/-- Reading after a record was freed. -/
theorem FMap.get_erase (m : FMap α) (k j : Nat) : (m.erase k).get j = if j = k then none else m.get j :=
  cellGet_erase k j m.cells

/-- Reading after a record was changed. -/
theorem FMap.get_modify (m : FMap α) (k j : Nat) (f : α → α) :
    (m.modify k f).get j = if j = k then (m.get j).map f else m.get j := by
  unfold FMap.modify
  split
  · rename_i h
    split
    · rename_i hj; subst hj; rw [h]; rfl
    · rfl
  · rename_i v h
    split
    · rename_i hj; subst hj; rw [FMap.get_put_self, h]; rfl
    · rename_i hj; exact FMap.get_put_ne _ _ _ _ hj

/-- Reading after every record was changed. -/
theorem FMap.get_map (m : FMap α) (f : Nat → α → α) (j : Nat) : (m.map f).get j = (m.get j).map (f j) := by
  obtain ⟨l⟩ := m
  show cellGet j (l.map _) = (cellGet j l).map (f j)
  induction l with
  | nil => rfl
  | cons c t ih =>
    obtain ⟨i, w⟩ := c
    simp only [List.map_cons, cellGet, ih]
    split
    · rename_i h; subst h; rfl
    · rfl

/-- Reading the empty table. -/
@[simp] theorem FMap.get_empty (j : Nat) : (FMap.empty : FMap α).get j = none := rfl

/-- Reading a sparse table after a value was stored. -/
theorem FMap.get_store [DecidableEq α] (m : FMap α) (d : α) (k j : Nat) (v : α) :
    (m.store d k v).get j = if j = k then (if v = d then none else some v) else m.get j := by
  unfold FMap.store
  by_cases hj : j = k
  · subst hj
    split
    · simp [FMap.get_erase, *]
    · simp [FMap.get_put_self, *]
  · split
    · simp [FMap.get_erase, hj]
    · simp [FMap.get_put_ne, hj]

/-- A key is listed exactly when its record is in use. -/
theorem FMap.mem_keys (m : FMap α) (k : Nat) : k ∈ m.keys ↔ (m.get k).isSome = true := by
  obtain ⟨l⟩ := m
  show k ∈ l.map Prod.fst ↔ (cellGet k l).isSome = true
  induction l with
  | nil => simp [cellGet]
  | cons c t ih =>
    obtain ⟨i, w⟩ := c
    simp only [List.map_cons, List.mem_cons, cellGet, ih]
    split
    · rename_i h; simp [h]
    · rename_i h; simp [Ne.symm h]

/-- A listed cell is read under its key, in a table in its one form. -/
theorem FMap.mem_cells (m : FMap α) (h : m.wf = true) (k : Nat) (v : α) :
    (k, v) ∈ m.cells ↔ m.get k = some v := by
  obtain ⟨l⟩ := m
  rw [FMap.wf_iff] at h
  simp only at h
  show (k, v) ∈ l ↔ cellGet k l = some v
  induction l with
  | nil => simp [cellGet]
  | cons c t ih =>
    obtain ⟨i, w⟩ := c
    simp only [List.map_cons, List.pairwise_cons] at h
    simp only [List.mem_cons, cellGet, Prod.mk.injEq, ih h.2]
    by_cases hi : i = k
    · subst hi
      simp only [true_and, if_true, Option.some.injEq]
      refine ⟨fun hh => hh.elim (fun e => e.symm) (fun hg => ?_), fun e => Or.inl e.symm⟩
      have := h.1 i (by
        have := (FMap.mem_keys (⟨t⟩ : FMap α) i).2 (by rw [show (⟨t⟩ : FMap α).get i = some v from hg]; rfl)
        exact this)
      omega
    · simp [hi, Ne.symm hi]

/-- A value read under a key is listed. -/
theorem FMap.mem_cells_of_get (m : FMap α) (k : Nat) (v : α) (h : m.get k = some v) : (k, v) ∈ m.cells := by
  obtain ⟨l⟩ := m
  change cellGet k l = some v at h
  show (k, v) ∈ l
  induction l with
  | nil => simp [cellGet] at h
  | cons c t ih =>
    obtain ⟨i, w⟩ := c
    simp only [cellGet] at h
    split at h
    · simp_all
    · exact List.mem_cons_of_mem _ (ih h)

/-- Two tables in their one form that read the same are the same. -/
theorem FMap.ext_get (m n : FMap α) (hm : m.wf = true) (hn : n.wf = true) (h : ∀ k, m.get k = n.get k) :
    m = n := by
  obtain ⟨l⟩ := m
  obtain ⟨r⟩ := n
  congr 1
  have key : ∀ c : Nat × α, c ∈ l ↔ c ∈ r := by
    rintro ⟨k, v⟩
    exact ((FMap.mem_cells ⟨l⟩ hm k v).trans (by rw [h])).trans (FMap.mem_cells ⟨r⟩ hn k v).symm
  rw [FMap.wf_iff, List.pairwise_map] at hm hn
  have nd : ∀ {q : List (Nat × α)}, q.Pairwise (fun a b => a.1 < b.1) → q.Nodup := fun hq =>
    hq.imp (fun {a b} hab e => by subst e; exact lt_irrefl _ hab)
  refine List.Perm.eq_of_pairwise (le := fun a b : Nat × α => a.1 < b.1) ?_ hm hn
    ((List.perm_ext_iff_of_nodup (nd hm) (nd hn)).2 key)
  intro a b _ _ h1 h2
  exact absurd h1 (lt_asymm h2)

/-- One record of a vector after one was changed. -/
theorem vmod_get {n : Nat} (v : Vector α n) (i j : Fin n) (f : α → α) :
    (vmod v i f)[j] = if i = j then f v[j] else v[j] := by
  simp only [vmod, Fin.getElem_fin, Vector.getElem_set]
  by_cases h : i = j
  · subst h; simp
  · have : i.val ≠ j.val := fun e => h (Fin.ext e)
    simp [h, this]

/-- One record of a vector after every one was changed. -/
theorem vmapIdx_get {n : Nat} (v : Vector α n) (f : Fin n → α → α) (j : Fin n) :
    (vmapIdx v f)[j] = f j v[j] := by simp [vmapIdx]

/-- Two vectors with the same records are the same. -/
theorem vector_ext {n : Nat} (v w : Vector α n) (h : ∀ i : Fin n, v[i] = w[i]) : v = w := by
  apply Vector.ext
  intro i hi
  exact h ⟨i, hi⟩

theorem mem_joinTail [DecidableEq α] (l : List α) (x y : α) : y ∈ joinTail l x ↔ y ∈ l ∨ y = x := by
  unfold joinTail; split
  · rename_i h; constructor
    · exact Or.inl
    · rintro (hy | rfl) <;> assumption
  · simp

theorem nodup_joinTail [DecidableEq α] (l : List α) (x : α) (h : l.Nodup) : (joinTail l x).Nodup := by
  unfold joinTail; split
  · exact h
  · rename_i hx
    simp only [List.nodup_append, h, List.nodup_singleton, true_and, List.mem_singleton]
    rintro a ha b rfl rfl; exact hx ha

/-- The record number of a key below the bound. -/
theorem keyBelow_some {n : Nat} (key : Half) (i : Fin n) : keyBelow n key = some i ↔ key.toNat = i.val := by
  unfold keyBelow
  split
  · rename_i h; simp only [Option.some.injEq, Fin.ext_iff]
  · rename_i h; simp only [reduceCtorEq, false_iff]; have := i.isLt; omega

theorem keyBelow_none {n : Nat} (key : Half) : keyBelow n key = none ↔ n ≤ key.toNat := by
  unfold keyBelow; split <;> simp_all

end Sys2Proof.Machine
end

