-- ==== Sys2Proof/Laws/Checks.lean ====
section
/-! SUPPORT. The invariants of Safety.lean read off a concrete state: a check that evaluates, and that it suffices. -/

namespace Sys2Proof.Machine
open Sys2Proof

/-! ## Tables and lists -/

/-- The check of `Tidy`. -/
def State.tidyCheck (s : State) : Bool :=
  allWalls.all (fun w => match (s.walls[w]).setup.pair with | some (a, b) => decide (a < b) | none => true)
  && s.seats.wf && s.languages.wf && s.booths.wf && s.shadow.seats.wf && s.shadow.booths.wf && s.shadow.channels.wf
  && decide (s.notices.queue.length ≤ 64) && decide s.sendList.Nodup && decide s.programmes.Nodup
  && allTrunks.all (fun t => decide (s.trunks[t]).indicators.Nodup && decide (s.trunks[t]).releases.Nodup
    && decide (sumBytes (s.trunks[t]).lastFrame = 0))
  && decide (sumBytes s.radiatorLine = 0) && decide (sumBytes s.matrixLine = 0)

theorem Tidy.of_check {s : State} (h : s.tidyCheck = true) : Tidy s := by
  simp only [State.tidyCheck, Bool.and_eq_true, decide_eq_true_eq, List.all_eq_true] at h
  obtain ⟨⟨⟨⟨⟨⟨⟨⟨⟨⟨⟨⟨h1, h2⟩, h3⟩, h4⟩, h5⟩, h6⟩, h7⟩, h8⟩, h9⟩, h10⟩, h11⟩, h12⟩, h13⟩ := h
  have ht : ∀ t : TrunkNo, t ∈ allTrunks := fun t => List.mem_finRange t
  refine ⟨fun w a b hp => ?_, h2, h3, h4, h5, h6, h7, h8, h9, h10, fun t => (h11 t (ht t)).1.1,
    fun t => (h11 t (ht t)).1.2, fun t => (h11 t (ht t)).2, h12, h13⟩
  have := h1 w (List.mem_finRange w)
  rw [hp] at this
  simpa using this

/-! ## The floor -/

/-- A seat is in use, of a kind, and PRESENT. -/
def State.presentAs (s : State) (k : Kind) (n : Nat) : Bool :=
  match s.seats.get n with
  | some x => decide (x.kind = k) && x.present
  | none => false

theorem State.presentAs_iff {s : State} {k : Kind} {n : Nat} (h : s.presentAs k n = true) :
    ∃ x, s.seats.get n = some x ∧ x.kind = k ∧ x.present = true := by
  unfold State.presentAs at h
  split at h
  · exact ⟨_, ‹_›, by simpa using h⟩
  · cases h

/-- The check of `FloorInOrder`. -/
def State.floorCheck (s : State) : Bool :=
  allSections.all (fun l => decide (1 ≤ (s.settings l).speakerLimit))
  && s.speakers.all (fun y => s.presentAs .delegate y.seat)
  && s.chairs.all (fun c => s.presentAs .chair c)
  && s.pool.all (fun r => s.presentAs .delegate r.seat
    && (match s.seats.get r.seat with | some x => !x.lock | none => false)
    && decide (r.seat ∉ s.speakers.map Speaker.seat))
  && decide (s.speakers.map Speaker.seat).Nodup && decide s.chairs.Nodup && decide (s.pool.map Request.seat).Nodup
  && decide (s.pool.length ≤ 256)
  && s.leads.all (fun l => decide ((s.roomSpeakers l).length ≤ (s.settings l).speakerLimit)
    && decide ((s.poolOf l).length ≤ (s.settings l).queueLimit) && decide (s.advanceHead l = none))

theorem FloorInOrder.of_check {s : State} (h : s.floorCheck = true) : FloorInOrder s := by
  simp only [State.floorCheck, Bool.and_eq_true, decide_eq_true_eq, List.all_eq_true] at h
  obtain ⟨⟨⟨⟨⟨⟨⟨⟨h1, h2⟩, h3⟩, h4⟩, h5⟩, h6⟩, h7⟩, h8⟩, h9⟩ := h
  have hl : ∀ l : SectionNo, s.isLead l = true → l ∈ s.leads := fun l hl =>
    List.mem_filter.2 ⟨List.mem_finRange l, hl⟩
  refine ⟨fun l => h1 l (List.mem_finRange l), fun y hy => State.presentAs_iff (h2 y hy),
    fun c hc => State.presentAs_iff (h3 c hc), fun r hr => ?_, h5, h6, h7, h8, fun l h => (h9 l (hl l h)).1.1,
    fun l h => (h9 l (hl l h)).1.2, fun l h => (h9 l (hl l h)).2⟩
  obtain ⟨⟨ha, hb⟩, hc⟩ := h4 r hr
  obtain ⟨x, hx, hk, hp⟩ := State.presentAs_iff ha
  rw [hx] at hb
  exact ⟨x, hx, hk, hp, by simpa using hb, hc⟩

/-! ## Rooms -/

/-- With every wall closed and every section a room of its own, the rooms follow the walls. -/
theorem RoomsFollowWalls.of_closed {s : State} (hw : ∀ w : WallNo, (s.walls[w]).effective = false)
    (hr : ∀ a : SectionNo, s.roomOf a = a) : RoomsFollowWalls s := by
  refine ⟨fun a b => ?_, fun a => by rw [hr, hr]; exact ⟨rfl, le_refl a⟩⟩
  rw [hr, hr]
  refine ⟨fun h => h ▸ Relation.ReflTransGen.refl, fun h => ?_⟩
  induction h with
  | refl => rfl
  | tail _ hj _ =>
    obtain ⟨w, he, _⟩ := hj
    rw [hw w] at he
    cases he

/-! ## Carriers and desks -/

/-- The check of `CarriersApart`. -/
def State.carrierCheck (s : State) : Bool :=
  allSections.all (fun a => decide (s.roomOf (s.roomOf a) = s.roomOf a)
    && decide ((s.rooms[a]).channels.map Channel.language).Nodup
    && decide ((s.rooms[a]).channels.filterMap Channel.carrier).Nodup
    && (!s.isLead a || (s.rooms[a]).channels.all (fun h => match h.carrier with
      | some c => s.usable a c
      | none => true)))

theorem CarriersApart.of_check {s : State} (h : s.carrierCheck = true) : CarriersApart s := by
  simp only [State.carrierCheck, List.all_eq_true, Bool.and_eq_true, decide_eq_true_eq, Bool.or_eq_true] at h
  have h' := fun a : SectionNo => h a (List.mem_finRange a)
  refine ⟨fun a => (h' a).1.1.1, fun l => (h' l).1.1.2, fun l => (h' l).1.2, fun l hl g hg c hc => ?_⟩
  rcases (h' l).2 with hn | ha
  · rw [hl] at hn; cases hn
  · have := ha g hg
    rw [hc] at this
    exact this

/-- The check of `ChannelsFollowBooths`. -/
def State.channelCheck (s : State) : Bool :=
  allSections.all (fun l => !s.isLead l || decide ((s.rooms[l]).channels.map Channel.language =
    0 :: (List.range' 1 24).filter (fun x => s.booths.cells.any (fun c =>
      decide (s.roomOf c.2.home = l) && decide (c.2.output = x)))))

theorem ChannelsFollowBooths.of_check {s : State} (h : s.channelCheck = true) : ChannelsFollowBooths s := by
  simp only [State.channelCheck, List.all_eq_true, Bool.or_eq_true, Bool.not_eq_true', decide_eq_true_eq] at h
  intro l hl
  rcases h l (List.mem_finRange l) with hn | he
  · rw [hl] at hn; cases hn
  · exact he

/-- The check of `DesksInOrder`. -/
def State.deskCheck (s : State) : Bool :=
  s.seats.cells.all (fun c => match c.2.booth with
    | none => true
    | some b => decide (c.2.kind = .desk) && (match s.booths.get b with
      | some y => decide (c.1 ∈ y.desks)
      | none => false))
  && s.booths.cells.all (fun c => decide c.2.desks.Nodup && decide (c.2.desks.length ≤ 3)
    && c.2.desks.all (fun n => match s.seats.get n with | some x => decide (x.booth = some c.1) | none => false)
    && (match c.2.live with | some n => decide (n ∈ c.2.desks) | none => true)
    && s.booths.cells.all (fun d => !c.2.live.isSome || !d.2.live.isSome
      || decide (s.boothRoom c.2 ≠ s.boothRoom d.2) || decide (c.2.output ≠ d.2.output) || decide (c.1 = d.1)))

theorem DesksInOrder.of_check {s : State} (h : s.deskCheck = true) : DesksInOrder s := by
  simp only [State.deskCheck, Bool.and_eq_true, decide_eq_true_eq, List.all_eq_true] at h
  obtain ⟨h1, h2⟩ := h
  refine ⟨fun n x b hx hb => ?_, fun b y hy => ?_, fun b y n hy hn => ?_, fun b c y z hy hz hl hm hr ho => ?_⟩
  · have := h1 _ (FMap.mem_cells_of_get _ _ _ hx)
    simp only [hb, Bool.and_eq_true, decide_eq_true_eq] at this
    refine ⟨this.1, ?_⟩
    have h3 := this.2
    split at h3
    · exact ⟨_, ‹_›, by simpa using h3⟩
    · cases h3
  · obtain ⟨⟨⟨⟨ha, hb⟩, hc⟩, _⟩, _⟩ := h2 _ (FMap.mem_cells_of_get _ _ _ hy)
    refine ⟨ha, hb, fun n hn => ?_⟩
    have := hc n hn
    split at this
    · exact ⟨_, ‹_›, by simpa using this⟩
    · cases this
  · obtain ⟨⟨⟨⟨_, _⟩, _⟩, hd⟩, _⟩ := h2 _ (FMap.mem_cells_of_get _ _ _ hy)
    simp only [hn, decide_eq_true_eq] at hd
    exact hd
  · obtain ⟨_, he⟩ := h2 _ (FMap.mem_cells_of_get _ _ _ hy)
    have := he _ (FMap.mem_cells_of_get _ _ _ hz)
    simp only [hl, hm, hr, ho, Bool.or_eq_true, Bool.not_eq_true', decide_eq_true_eq] at this
    simpa using this

/-- The invariants together, from their checks. -/
theorem InOrder.of_checks {s : State} (hr : RoomsFollowWalls s)
    (h : (s.tidyCheck && s.floorCheck && s.deskCheck && s.carrierCheck && s.channelCheck) = true) : InOrder s := by
  simp only [Bool.and_eq_true] at h
  exact ⟨Tidy.of_check h.1.1.1.1, hr, FloorInOrder.of_check h.1.1.1.2, DesksInOrder.of_check h.1.1.2,
    CarriersApart.of_check h.1.2, ChannelsFollowBooths.of_check h.2⟩

/-- The check of `InOrder` for a state whose walls are all closed, every section its own room. -/
def State.inOrderCheck (s : State) : Bool :=
  decide (∀ w : WallNo, (s.walls[w]).effective = false) && decide (∀ l : SectionNo, s.roomOf l = l)
  && (s.tidyCheck && s.floorCheck && s.deskCheck && s.carrierCheck && s.channelCheck)

theorem InOrder.of_check {s : State} (h : s.inOrderCheck = true) : InOrder s := by
  obtain ⟨hc, h⟩ := Bool.and_eq_true_iff.1 h
  obtain ⟨hw, hr⟩ := Bool.and_eq_true_iff.1 hc
  exact .of_checks (.of_closed (of_decide_eq_true hw) (of_decide_eq_true hr)) h

end Sys2Proof.Machine
end

