-- ==== Sys2Proof/Laws/State.lean ====
section
/-! SUPPORT. The state's setters: what each one leaves in every field. -/

namespace Sys2Proof.Machine
open Sys2Proof

@[simp] theorem State.setPending_pending (s : State) (x : List Instr) : (s.setPending x).pending = x := rfl
@[simp] theorem State.setPending_free (s : State) (x : List Instr) : (s.setPending x).free = s.free := rfl
@[simp] theorem State.setPending_resetLow (s : State) (x : List Instr) : (s.setPending x).resetLow = s.resetLow := rfl
@[simp] theorem State.setPending_port (s : State) (x : List Instr) : (s.setPending x).port = s.port := rfl
@[simp] theorem State.setPending_run (s : State) (x : List Instr) : (s.setPending x).run = s.run := rfl
@[simp] theorem State.setPending_venue (s : State) (x : List Instr) : (s.setPending x).venue = s.venue := rfl
@[simp] theorem State.setPending_notices (s : State) (x : List Instr) : (s.setPending x).notices = s.notices := rfl
@[simp] theorem State.setPending_sections (s : State) (x : List Instr) : (s.setPending x).sections = s.sections := rfl
@[simp] theorem State.setPending_walls (s : State) (x : List Instr) : (s.setPending x).walls = s.walls := rfl
@[simp] theorem State.setPending_rooms (s : State) (x : List Instr) : (s.setPending x).rooms = s.rooms := rfl
@[simp] theorem State.setPending_seats (s : State) (x : List Instr) : (s.setPending x).seats = s.seats := rfl
@[simp] theorem State.setPending_pool (s : State) (x : List Instr) : (s.setPending x).pool = s.pool := rfl
@[simp] theorem State.setPending_speakers (s : State) (x : List Instr) : (s.setPending x).speakers = s.speakers := rfl
@[simp] theorem State.setPending_chairs (s : State) (x : List Instr) : (s.setPending x).chairs = s.chairs := rfl
@[simp] theorem State.setPending_selectors (s : State) (x : List Instr) : (s.setPending x).selectors = s.selectors := rfl
@[simp] theorem State.setPending_trunks (s : State) (x : List Instr) : (s.setPending x).trunks = s.trunks := rfl
@[simp] theorem State.setPending_languages (s : State) (x : List Instr) : (s.setPending x).languages = s.languages := rfl
@[simp] theorem State.setPending_booths (s : State) (x : List Instr) : (s.setPending x).booths = s.booths := rfl
@[simp] theorem State.setPending_carriers (s : State) (x : List Instr) : (s.setPending x).carriers = s.carriers := rfl
@[simp] theorem State.setPending_programmes (s : State) (x : List Instr) : (s.setPending x).programmes = s.programmes := rfl
@[simp] theorem State.setPending_shadow (s : State) (x : List Instr) : (s.setPending x).shadow = s.shadow := rfl
@[simp] theorem State.setPending_sendList (s : State) (x : List Instr) : (s.setPending x).sendList = s.sendList := rfl
@[simp] theorem State.setPending_radiatorLine (s : State) (x : List Instr) : (s.setPending x).radiatorLine = s.radiatorLine := rfl
@[simp] theorem State.setPending_matrixLine (s : State) (x : List Instr) : (s.setPending x).matrixLine = s.matrixLine := rfl

@[simp] theorem State.setFree_pending (s : State) (x : Nat) : (s.setFree x).pending = s.pending := rfl
@[simp] theorem State.setFree_free (s : State) (x : Nat) : (s.setFree x).free = x := rfl
@[simp] theorem State.setFree_resetLow (s : State) (x : Nat) : (s.setFree x).resetLow = s.resetLow := rfl
@[simp] theorem State.setFree_port (s : State) (x : Nat) : (s.setFree x).port = s.port := rfl
@[simp] theorem State.setFree_run (s : State) (x : Nat) : (s.setFree x).run = s.run := rfl
@[simp] theorem State.setFree_venue (s : State) (x : Nat) : (s.setFree x).venue = s.venue := rfl
@[simp] theorem State.setFree_notices (s : State) (x : Nat) : (s.setFree x).notices = s.notices := rfl
@[simp] theorem State.setFree_sections (s : State) (x : Nat) : (s.setFree x).sections = s.sections := rfl
@[simp] theorem State.setFree_walls (s : State) (x : Nat) : (s.setFree x).walls = s.walls := rfl
@[simp] theorem State.setFree_rooms (s : State) (x : Nat) : (s.setFree x).rooms = s.rooms := rfl
@[simp] theorem State.setFree_seats (s : State) (x : Nat) : (s.setFree x).seats = s.seats := rfl
@[simp] theorem State.setFree_pool (s : State) (x : Nat) : (s.setFree x).pool = s.pool := rfl
@[simp] theorem State.setFree_speakers (s : State) (x : Nat) : (s.setFree x).speakers = s.speakers := rfl
@[simp] theorem State.setFree_chairs (s : State) (x : Nat) : (s.setFree x).chairs = s.chairs := rfl
@[simp] theorem State.setFree_selectors (s : State) (x : Nat) : (s.setFree x).selectors = s.selectors := rfl
@[simp] theorem State.setFree_trunks (s : State) (x : Nat) : (s.setFree x).trunks = s.trunks := rfl
@[simp] theorem State.setFree_languages (s : State) (x : Nat) : (s.setFree x).languages = s.languages := rfl
@[simp] theorem State.setFree_booths (s : State) (x : Nat) : (s.setFree x).booths = s.booths := rfl
@[simp] theorem State.setFree_carriers (s : State) (x : Nat) : (s.setFree x).carriers = s.carriers := rfl
@[simp] theorem State.setFree_programmes (s : State) (x : Nat) : (s.setFree x).programmes = s.programmes := rfl
@[simp] theorem State.setFree_shadow (s : State) (x : Nat) : (s.setFree x).shadow = s.shadow := rfl
@[simp] theorem State.setFree_sendList (s : State) (x : Nat) : (s.setFree x).sendList = s.sendList := rfl
@[simp] theorem State.setFree_radiatorLine (s : State) (x : Nat) : (s.setFree x).radiatorLine = s.radiatorLine := rfl
@[simp] theorem State.setFree_matrixLine (s : State) (x : Nat) : (s.setFree x).matrixLine = s.matrixLine := rfl

@[simp] theorem State.setResetLow_pending (s : State) (x : Bool) : (s.setResetLow x).pending = s.pending := rfl
@[simp] theorem State.setResetLow_free (s : State) (x : Bool) : (s.setResetLow x).free = s.free := rfl
@[simp] theorem State.setResetLow_resetLow (s : State) (x : Bool) : (s.setResetLow x).resetLow = x := rfl
@[simp] theorem State.setResetLow_port (s : State) (x : Bool) : (s.setResetLow x).port = s.port := rfl
@[simp] theorem State.setResetLow_run (s : State) (x : Bool) : (s.setResetLow x).run = s.run := rfl
@[simp] theorem State.setResetLow_venue (s : State) (x : Bool) : (s.setResetLow x).venue = s.venue := rfl
@[simp] theorem State.setResetLow_notices (s : State) (x : Bool) : (s.setResetLow x).notices = s.notices := rfl
@[simp] theorem State.setResetLow_sections (s : State) (x : Bool) : (s.setResetLow x).sections = s.sections := rfl
@[simp] theorem State.setResetLow_walls (s : State) (x : Bool) : (s.setResetLow x).walls = s.walls := rfl
@[simp] theorem State.setResetLow_rooms (s : State) (x : Bool) : (s.setResetLow x).rooms = s.rooms := rfl
@[simp] theorem State.setResetLow_seats (s : State) (x : Bool) : (s.setResetLow x).seats = s.seats := rfl
@[simp] theorem State.setResetLow_pool (s : State) (x : Bool) : (s.setResetLow x).pool = s.pool := rfl
@[simp] theorem State.setResetLow_speakers (s : State) (x : Bool) : (s.setResetLow x).speakers = s.speakers := rfl
@[simp] theorem State.setResetLow_chairs (s : State) (x : Bool) : (s.setResetLow x).chairs = s.chairs := rfl
@[simp] theorem State.setResetLow_selectors (s : State) (x : Bool) : (s.setResetLow x).selectors = s.selectors := rfl
@[simp] theorem State.setResetLow_trunks (s : State) (x : Bool) : (s.setResetLow x).trunks = s.trunks := rfl
@[simp] theorem State.setResetLow_languages (s : State) (x : Bool) : (s.setResetLow x).languages = s.languages := rfl
@[simp] theorem State.setResetLow_booths (s : State) (x : Bool) : (s.setResetLow x).booths = s.booths := rfl
@[simp] theorem State.setResetLow_carriers (s : State) (x : Bool) : (s.setResetLow x).carriers = s.carriers := rfl
@[simp] theorem State.setResetLow_programmes (s : State) (x : Bool) : (s.setResetLow x).programmes = s.programmes := rfl
@[simp] theorem State.setResetLow_shadow (s : State) (x : Bool) : (s.setResetLow x).shadow = s.shadow := rfl
@[simp] theorem State.setResetLow_sendList (s : State) (x : Bool) : (s.setResetLow x).sendList = s.sendList := rfl
@[simp] theorem State.setResetLow_radiatorLine (s : State) (x : Bool) : (s.setResetLow x).radiatorLine = s.radiatorLine := rfl
@[simp] theorem State.setResetLow_matrixLine (s : State) (x : Bool) : (s.setResetLow x).matrixLine = s.matrixLine := rfl

@[simp] theorem State.setPort_pending (s : State) (x : Port) : (s.setPort x).pending = s.pending := rfl
@[simp] theorem State.setPort_free (s : State) (x : Port) : (s.setPort x).free = s.free := rfl
@[simp] theorem State.setPort_resetLow (s : State) (x : Port) : (s.setPort x).resetLow = s.resetLow := rfl
@[simp] theorem State.setPort_port (s : State) (x : Port) : (s.setPort x).port = x := rfl
@[simp] theorem State.setPort_run (s : State) (x : Port) : (s.setPort x).run = s.run := rfl
@[simp] theorem State.setPort_venue (s : State) (x : Port) : (s.setPort x).venue = s.venue := rfl
@[simp] theorem State.setPort_notices (s : State) (x : Port) : (s.setPort x).notices = s.notices := rfl
@[simp] theorem State.setPort_sections (s : State) (x : Port) : (s.setPort x).sections = s.sections := rfl
@[simp] theorem State.setPort_walls (s : State) (x : Port) : (s.setPort x).walls = s.walls := rfl
@[simp] theorem State.setPort_rooms (s : State) (x : Port) : (s.setPort x).rooms = s.rooms := rfl
@[simp] theorem State.setPort_seats (s : State) (x : Port) : (s.setPort x).seats = s.seats := rfl
@[simp] theorem State.setPort_pool (s : State) (x : Port) : (s.setPort x).pool = s.pool := rfl
@[simp] theorem State.setPort_speakers (s : State) (x : Port) : (s.setPort x).speakers = s.speakers := rfl
@[simp] theorem State.setPort_chairs (s : State) (x : Port) : (s.setPort x).chairs = s.chairs := rfl
@[simp] theorem State.setPort_selectors (s : State) (x : Port) : (s.setPort x).selectors = s.selectors := rfl
@[simp] theorem State.setPort_trunks (s : State) (x : Port) : (s.setPort x).trunks = s.trunks := rfl
@[simp] theorem State.setPort_languages (s : State) (x : Port) : (s.setPort x).languages = s.languages := rfl
@[simp] theorem State.setPort_booths (s : State) (x : Port) : (s.setPort x).booths = s.booths := rfl
@[simp] theorem State.setPort_carriers (s : State) (x : Port) : (s.setPort x).carriers = s.carriers := rfl
@[simp] theorem State.setPort_programmes (s : State) (x : Port) : (s.setPort x).programmes = s.programmes := rfl
@[simp] theorem State.setPort_shadow (s : State) (x : Port) : (s.setPort x).shadow = s.shadow := rfl
@[simp] theorem State.setPort_sendList (s : State) (x : Port) : (s.setPort x).sendList = s.sendList := rfl
@[simp] theorem State.setPort_radiatorLine (s : State) (x : Port) : (s.setPort x).radiatorLine = s.radiatorLine := rfl
@[simp] theorem State.setPort_matrixLine (s : State) (x : Port) : (s.setPort x).matrixLine = s.matrixLine := rfl

@[simp] theorem State.setRun_pending (s : State) (x : RunState) : (s.setRun x).pending = s.pending := rfl
@[simp] theorem State.setRun_free (s : State) (x : RunState) : (s.setRun x).free = s.free := rfl
@[simp] theorem State.setRun_resetLow (s : State) (x : RunState) : (s.setRun x).resetLow = s.resetLow := rfl
@[simp] theorem State.setRun_port (s : State) (x : RunState) : (s.setRun x).port = s.port := rfl
@[simp] theorem State.setRun_run (s : State) (x : RunState) : (s.setRun x).run = x := rfl
@[simp] theorem State.setRun_venue (s : State) (x : RunState) : (s.setRun x).venue = s.venue := rfl
@[simp] theorem State.setRun_notices (s : State) (x : RunState) : (s.setRun x).notices = s.notices := rfl
@[simp] theorem State.setRun_sections (s : State) (x : RunState) : (s.setRun x).sections = s.sections := rfl
@[simp] theorem State.setRun_walls (s : State) (x : RunState) : (s.setRun x).walls = s.walls := rfl
@[simp] theorem State.setRun_rooms (s : State) (x : RunState) : (s.setRun x).rooms = s.rooms := rfl
@[simp] theorem State.setRun_seats (s : State) (x : RunState) : (s.setRun x).seats = s.seats := rfl
@[simp] theorem State.setRun_pool (s : State) (x : RunState) : (s.setRun x).pool = s.pool := rfl
@[simp] theorem State.setRun_speakers (s : State) (x : RunState) : (s.setRun x).speakers = s.speakers := rfl
@[simp] theorem State.setRun_chairs (s : State) (x : RunState) : (s.setRun x).chairs = s.chairs := rfl
@[simp] theorem State.setRun_selectors (s : State) (x : RunState) : (s.setRun x).selectors = s.selectors := rfl
@[simp] theorem State.setRun_trunks (s : State) (x : RunState) : (s.setRun x).trunks = s.trunks := rfl
@[simp] theorem State.setRun_languages (s : State) (x : RunState) : (s.setRun x).languages = s.languages := rfl
@[simp] theorem State.setRun_booths (s : State) (x : RunState) : (s.setRun x).booths = s.booths := rfl
@[simp] theorem State.setRun_carriers (s : State) (x : RunState) : (s.setRun x).carriers = s.carriers := rfl
@[simp] theorem State.setRun_programmes (s : State) (x : RunState) : (s.setRun x).programmes = s.programmes := rfl
@[simp] theorem State.setRun_shadow (s : State) (x : RunState) : (s.setRun x).shadow = s.shadow := rfl
@[simp] theorem State.setRun_sendList (s : State) (x : RunState) : (s.setRun x).sendList = s.sendList := rfl
@[simp] theorem State.setRun_radiatorLine (s : State) (x : RunState) : (s.setRun x).radiatorLine = s.radiatorLine := rfl
@[simp] theorem State.setRun_matrixLine (s : State) (x : RunState) : (s.setRun x).matrixLine = s.matrixLine := rfl

@[simp] theorem State.setVenue_pending (s : State) (x : Venue) : (s.setVenue x).pending = s.pending := rfl
@[simp] theorem State.setVenue_free (s : State) (x : Venue) : (s.setVenue x).free = s.free := rfl
@[simp] theorem State.setVenue_resetLow (s : State) (x : Venue) : (s.setVenue x).resetLow = s.resetLow := rfl
@[simp] theorem State.setVenue_port (s : State) (x : Venue) : (s.setVenue x).port = s.port := rfl
@[simp] theorem State.setVenue_run (s : State) (x : Venue) : (s.setVenue x).run = s.run := rfl
@[simp] theorem State.setVenue_venue (s : State) (x : Venue) : (s.setVenue x).venue = x := rfl
@[simp] theorem State.setVenue_notices (s : State) (x : Venue) : (s.setVenue x).notices = s.notices := rfl
@[simp] theorem State.setVenue_sections (s : State) (x : Venue) : (s.setVenue x).sections = s.sections := rfl
@[simp] theorem State.setVenue_walls (s : State) (x : Venue) : (s.setVenue x).walls = s.walls := rfl
@[simp] theorem State.setVenue_rooms (s : State) (x : Venue) : (s.setVenue x).rooms = s.rooms := rfl
@[simp] theorem State.setVenue_seats (s : State) (x : Venue) : (s.setVenue x).seats = s.seats := rfl
@[simp] theorem State.setVenue_pool (s : State) (x : Venue) : (s.setVenue x).pool = s.pool := rfl
@[simp] theorem State.setVenue_speakers (s : State) (x : Venue) : (s.setVenue x).speakers = s.speakers := rfl
@[simp] theorem State.setVenue_chairs (s : State) (x : Venue) : (s.setVenue x).chairs = s.chairs := rfl
@[simp] theorem State.setVenue_selectors (s : State) (x : Venue) : (s.setVenue x).selectors = s.selectors := rfl
@[simp] theorem State.setVenue_trunks (s : State) (x : Venue) : (s.setVenue x).trunks = s.trunks := rfl
@[simp] theorem State.setVenue_languages (s : State) (x : Venue) : (s.setVenue x).languages = s.languages := rfl
@[simp] theorem State.setVenue_booths (s : State) (x : Venue) : (s.setVenue x).booths = s.booths := rfl
@[simp] theorem State.setVenue_carriers (s : State) (x : Venue) : (s.setVenue x).carriers = s.carriers := rfl
@[simp] theorem State.setVenue_programmes (s : State) (x : Venue) : (s.setVenue x).programmes = s.programmes := rfl
@[simp] theorem State.setVenue_shadow (s : State) (x : Venue) : (s.setVenue x).shadow = s.shadow := rfl
@[simp] theorem State.setVenue_sendList (s : State) (x : Venue) : (s.setVenue x).sendList = s.sendList := rfl
@[simp] theorem State.setVenue_radiatorLine (s : State) (x : Venue) : (s.setVenue x).radiatorLine = s.radiatorLine := rfl
@[simp] theorem State.setVenue_matrixLine (s : State) (x : Venue) : (s.setVenue x).matrixLine = s.matrixLine := rfl

@[simp] theorem State.setNotices_pending (s : State) (x : NoticeQueue) : (s.setNotices x).pending = s.pending := rfl
@[simp] theorem State.setNotices_free (s : State) (x : NoticeQueue) : (s.setNotices x).free = s.free := rfl
@[simp] theorem State.setNotices_resetLow (s : State) (x : NoticeQueue) : (s.setNotices x).resetLow = s.resetLow := rfl
@[simp] theorem State.setNotices_port (s : State) (x : NoticeQueue) : (s.setNotices x).port = s.port := rfl
@[simp] theorem State.setNotices_run (s : State) (x : NoticeQueue) : (s.setNotices x).run = s.run := rfl
@[simp] theorem State.setNotices_venue (s : State) (x : NoticeQueue) : (s.setNotices x).venue = s.venue := rfl
@[simp] theorem State.setNotices_notices (s : State) (x : NoticeQueue) : (s.setNotices x).notices = x := rfl
@[simp] theorem State.setNotices_sections (s : State) (x : NoticeQueue) : (s.setNotices x).sections = s.sections := rfl
@[simp] theorem State.setNotices_walls (s : State) (x : NoticeQueue) : (s.setNotices x).walls = s.walls := rfl
@[simp] theorem State.setNotices_rooms (s : State) (x : NoticeQueue) : (s.setNotices x).rooms = s.rooms := rfl
@[simp] theorem State.setNotices_seats (s : State) (x : NoticeQueue) : (s.setNotices x).seats = s.seats := rfl
@[simp] theorem State.setNotices_pool (s : State) (x : NoticeQueue) : (s.setNotices x).pool = s.pool := rfl
@[simp] theorem State.setNotices_speakers (s : State) (x : NoticeQueue) : (s.setNotices x).speakers = s.speakers := rfl
@[simp] theorem State.setNotices_chairs (s : State) (x : NoticeQueue) : (s.setNotices x).chairs = s.chairs := rfl
@[simp] theorem State.setNotices_selectors (s : State) (x : NoticeQueue) : (s.setNotices x).selectors = s.selectors := rfl
@[simp] theorem State.setNotices_trunks (s : State) (x : NoticeQueue) : (s.setNotices x).trunks = s.trunks := rfl
@[simp] theorem State.setNotices_languages (s : State) (x : NoticeQueue) : (s.setNotices x).languages = s.languages := rfl
@[simp] theorem State.setNotices_booths (s : State) (x : NoticeQueue) : (s.setNotices x).booths = s.booths := rfl
@[simp] theorem State.setNotices_carriers (s : State) (x : NoticeQueue) : (s.setNotices x).carriers = s.carriers := rfl
@[simp] theorem State.setNotices_programmes (s : State) (x : NoticeQueue) : (s.setNotices x).programmes = s.programmes := rfl
@[simp] theorem State.setNotices_shadow (s : State) (x : NoticeQueue) : (s.setNotices x).shadow = s.shadow := rfl
@[simp] theorem State.setNotices_sendList (s : State) (x : NoticeQueue) : (s.setNotices x).sendList = s.sendList := rfl
@[simp] theorem State.setNotices_radiatorLine (s : State) (x : NoticeQueue) : (s.setNotices x).radiatorLine = s.radiatorLine := rfl
@[simp] theorem State.setNotices_matrixLine (s : State) (x : NoticeQueue) : (s.setNotices x).matrixLine = s.matrixLine := rfl

@[simp] theorem State.setSections_pending (s : State) (x : Vector Section 16) : (s.setSections x).pending = s.pending := rfl
@[simp] theorem State.setSections_free (s : State) (x : Vector Section 16) : (s.setSections x).free = s.free := rfl
@[simp] theorem State.setSections_resetLow (s : State) (x : Vector Section 16) : (s.setSections x).resetLow = s.resetLow := rfl
@[simp] theorem State.setSections_port (s : State) (x : Vector Section 16) : (s.setSections x).port = s.port := rfl
@[simp] theorem State.setSections_run (s : State) (x : Vector Section 16) : (s.setSections x).run = s.run := rfl
@[simp] theorem State.setSections_venue (s : State) (x : Vector Section 16) : (s.setSections x).venue = s.venue := rfl
@[simp] theorem State.setSections_notices (s : State) (x : Vector Section 16) : (s.setSections x).notices = s.notices := rfl
@[simp] theorem State.setSections_sections (s : State) (x : Vector Section 16) : (s.setSections x).sections = x := rfl
@[simp] theorem State.setSections_walls (s : State) (x : Vector Section 16) : (s.setSections x).walls = s.walls := rfl
@[simp] theorem State.setSections_rooms (s : State) (x : Vector Section 16) : (s.setSections x).rooms = s.rooms := rfl
@[simp] theorem State.setSections_seats (s : State) (x : Vector Section 16) : (s.setSections x).seats = s.seats := rfl
@[simp] theorem State.setSections_pool (s : State) (x : Vector Section 16) : (s.setSections x).pool = s.pool := rfl
@[simp] theorem State.setSections_speakers (s : State) (x : Vector Section 16) : (s.setSections x).speakers = s.speakers := rfl
@[simp] theorem State.setSections_chairs (s : State) (x : Vector Section 16) : (s.setSections x).chairs = s.chairs := rfl
@[simp] theorem State.setSections_selectors (s : State) (x : Vector Section 16) : (s.setSections x).selectors = s.selectors := rfl
@[simp] theorem State.setSections_trunks (s : State) (x : Vector Section 16) : (s.setSections x).trunks = s.trunks := rfl
@[simp] theorem State.setSections_languages (s : State) (x : Vector Section 16) : (s.setSections x).languages = s.languages := rfl
@[simp] theorem State.setSections_booths (s : State) (x : Vector Section 16) : (s.setSections x).booths = s.booths := rfl
@[simp] theorem State.setSections_carriers (s : State) (x : Vector Section 16) : (s.setSections x).carriers = s.carriers := rfl
@[simp] theorem State.setSections_programmes (s : State) (x : Vector Section 16) : (s.setSections x).programmes = s.programmes := rfl
@[simp] theorem State.setSections_shadow (s : State) (x : Vector Section 16) : (s.setSections x).shadow = s.shadow := rfl
@[simp] theorem State.setSections_sendList (s : State) (x : Vector Section 16) : (s.setSections x).sendList = s.sendList := rfl
@[simp] theorem State.setSections_radiatorLine (s : State) (x : Vector Section 16) : (s.setSections x).radiatorLine = s.radiatorLine := rfl
@[simp] theorem State.setSections_matrixLine (s : State) (x : Vector Section 16) : (s.setSections x).matrixLine = s.matrixLine := rfl

@[simp] theorem State.setWalls_pending (s : State) (x : Vector Wall 24) : (s.setWalls x).pending = s.pending := rfl
@[simp] theorem State.setWalls_free (s : State) (x : Vector Wall 24) : (s.setWalls x).free = s.free := rfl
@[simp] theorem State.setWalls_resetLow (s : State) (x : Vector Wall 24) : (s.setWalls x).resetLow = s.resetLow := rfl
@[simp] theorem State.setWalls_port (s : State) (x : Vector Wall 24) : (s.setWalls x).port = s.port := rfl
@[simp] theorem State.setWalls_run (s : State) (x : Vector Wall 24) : (s.setWalls x).run = s.run := rfl
@[simp] theorem State.setWalls_venue (s : State) (x : Vector Wall 24) : (s.setWalls x).venue = s.venue := rfl
@[simp] theorem State.setWalls_notices (s : State) (x : Vector Wall 24) : (s.setWalls x).notices = s.notices := rfl
@[simp] theorem State.setWalls_sections (s : State) (x : Vector Wall 24) : (s.setWalls x).sections = s.sections := rfl
@[simp] theorem State.setWalls_walls (s : State) (x : Vector Wall 24) : (s.setWalls x).walls = x := rfl
@[simp] theorem State.setWalls_rooms (s : State) (x : Vector Wall 24) : (s.setWalls x).rooms = s.rooms := rfl
@[simp] theorem State.setWalls_seats (s : State) (x : Vector Wall 24) : (s.setWalls x).seats = s.seats := rfl
@[simp] theorem State.setWalls_pool (s : State) (x : Vector Wall 24) : (s.setWalls x).pool = s.pool := rfl
@[simp] theorem State.setWalls_speakers (s : State) (x : Vector Wall 24) : (s.setWalls x).speakers = s.speakers := rfl
@[simp] theorem State.setWalls_chairs (s : State) (x : Vector Wall 24) : (s.setWalls x).chairs = s.chairs := rfl
@[simp] theorem State.setWalls_selectors (s : State) (x : Vector Wall 24) : (s.setWalls x).selectors = s.selectors := rfl
@[simp] theorem State.setWalls_trunks (s : State) (x : Vector Wall 24) : (s.setWalls x).trunks = s.trunks := rfl
@[simp] theorem State.setWalls_languages (s : State) (x : Vector Wall 24) : (s.setWalls x).languages = s.languages := rfl
@[simp] theorem State.setWalls_booths (s : State) (x : Vector Wall 24) : (s.setWalls x).booths = s.booths := rfl
@[simp] theorem State.setWalls_carriers (s : State) (x : Vector Wall 24) : (s.setWalls x).carriers = s.carriers := rfl
@[simp] theorem State.setWalls_programmes (s : State) (x : Vector Wall 24) : (s.setWalls x).programmes = s.programmes := rfl
@[simp] theorem State.setWalls_shadow (s : State) (x : Vector Wall 24) : (s.setWalls x).shadow = s.shadow := rfl
@[simp] theorem State.setWalls_sendList (s : State) (x : Vector Wall 24) : (s.setWalls x).sendList = s.sendList := rfl
@[simp] theorem State.setWalls_radiatorLine (s : State) (x : Vector Wall 24) : (s.setWalls x).radiatorLine = s.radiatorLine := rfl
@[simp] theorem State.setWalls_matrixLine (s : State) (x : Vector Wall 24) : (s.setWalls x).matrixLine = s.matrixLine := rfl

@[simp] theorem State.setRooms_pending (s : State) (x : Vector Room 16) : (s.setRooms x).pending = s.pending := rfl
@[simp] theorem State.setRooms_free (s : State) (x : Vector Room 16) : (s.setRooms x).free = s.free := rfl
@[simp] theorem State.setRooms_resetLow (s : State) (x : Vector Room 16) : (s.setRooms x).resetLow = s.resetLow := rfl
@[simp] theorem State.setRooms_port (s : State) (x : Vector Room 16) : (s.setRooms x).port = s.port := rfl
@[simp] theorem State.setRooms_run (s : State) (x : Vector Room 16) : (s.setRooms x).run = s.run := rfl
@[simp] theorem State.setRooms_venue (s : State) (x : Vector Room 16) : (s.setRooms x).venue = s.venue := rfl
@[simp] theorem State.setRooms_notices (s : State) (x : Vector Room 16) : (s.setRooms x).notices = s.notices := rfl
@[simp] theorem State.setRooms_sections (s : State) (x : Vector Room 16) : (s.setRooms x).sections = s.sections := rfl
@[simp] theorem State.setRooms_walls (s : State) (x : Vector Room 16) : (s.setRooms x).walls = s.walls := rfl
@[simp] theorem State.setRooms_rooms (s : State) (x : Vector Room 16) : (s.setRooms x).rooms = x := rfl
@[simp] theorem State.setRooms_seats (s : State) (x : Vector Room 16) : (s.setRooms x).seats = s.seats := rfl
@[simp] theorem State.setRooms_pool (s : State) (x : Vector Room 16) : (s.setRooms x).pool = s.pool := rfl
@[simp] theorem State.setRooms_speakers (s : State) (x : Vector Room 16) : (s.setRooms x).speakers = s.speakers := rfl
@[simp] theorem State.setRooms_chairs (s : State) (x : Vector Room 16) : (s.setRooms x).chairs = s.chairs := rfl
@[simp] theorem State.setRooms_selectors (s : State) (x : Vector Room 16) : (s.setRooms x).selectors = s.selectors := rfl
@[simp] theorem State.setRooms_trunks (s : State) (x : Vector Room 16) : (s.setRooms x).trunks = s.trunks := rfl
@[simp] theorem State.setRooms_languages (s : State) (x : Vector Room 16) : (s.setRooms x).languages = s.languages := rfl
@[simp] theorem State.setRooms_booths (s : State) (x : Vector Room 16) : (s.setRooms x).booths = s.booths := rfl
@[simp] theorem State.setRooms_carriers (s : State) (x : Vector Room 16) : (s.setRooms x).carriers = s.carriers := rfl
@[simp] theorem State.setRooms_programmes (s : State) (x : Vector Room 16) : (s.setRooms x).programmes = s.programmes := rfl
@[simp] theorem State.setRooms_shadow (s : State) (x : Vector Room 16) : (s.setRooms x).shadow = s.shadow := rfl
@[simp] theorem State.setRooms_sendList (s : State) (x : Vector Room 16) : (s.setRooms x).sendList = s.sendList := rfl
@[simp] theorem State.setRooms_radiatorLine (s : State) (x : Vector Room 16) : (s.setRooms x).radiatorLine = s.radiatorLine := rfl
@[simp] theorem State.setRooms_matrixLine (s : State) (x : Vector Room 16) : (s.setRooms x).matrixLine = s.matrixLine := rfl

@[simp] theorem State.setSeats_pending (s : State) (x : FMap Seat) : (s.setSeats x).pending = s.pending := rfl
@[simp] theorem State.setSeats_free (s : State) (x : FMap Seat) : (s.setSeats x).free = s.free := rfl
@[simp] theorem State.setSeats_resetLow (s : State) (x : FMap Seat) : (s.setSeats x).resetLow = s.resetLow := rfl
@[simp] theorem State.setSeats_port (s : State) (x : FMap Seat) : (s.setSeats x).port = s.port := rfl
@[simp] theorem State.setSeats_run (s : State) (x : FMap Seat) : (s.setSeats x).run = s.run := rfl
@[simp] theorem State.setSeats_venue (s : State) (x : FMap Seat) : (s.setSeats x).venue = s.venue := rfl
@[simp] theorem State.setSeats_notices (s : State) (x : FMap Seat) : (s.setSeats x).notices = s.notices := rfl
@[simp] theorem State.setSeats_sections (s : State) (x : FMap Seat) : (s.setSeats x).sections = s.sections := rfl
@[simp] theorem State.setSeats_walls (s : State) (x : FMap Seat) : (s.setSeats x).walls = s.walls := rfl
@[simp] theorem State.setSeats_rooms (s : State) (x : FMap Seat) : (s.setSeats x).rooms = s.rooms := rfl
@[simp] theorem State.setSeats_seats (s : State) (x : FMap Seat) : (s.setSeats x).seats = x := rfl
@[simp] theorem State.setSeats_pool (s : State) (x : FMap Seat) : (s.setSeats x).pool = s.pool := rfl
@[simp] theorem State.setSeats_speakers (s : State) (x : FMap Seat) : (s.setSeats x).speakers = s.speakers := rfl
@[simp] theorem State.setSeats_chairs (s : State) (x : FMap Seat) : (s.setSeats x).chairs = s.chairs := rfl
@[simp] theorem State.setSeats_selectors (s : State) (x : FMap Seat) : (s.setSeats x).selectors = s.selectors := rfl
@[simp] theorem State.setSeats_trunks (s : State) (x : FMap Seat) : (s.setSeats x).trunks = s.trunks := rfl
@[simp] theorem State.setSeats_languages (s : State) (x : FMap Seat) : (s.setSeats x).languages = s.languages := rfl
@[simp] theorem State.setSeats_booths (s : State) (x : FMap Seat) : (s.setSeats x).booths = s.booths := rfl
@[simp] theorem State.setSeats_carriers (s : State) (x : FMap Seat) : (s.setSeats x).carriers = s.carriers := rfl
@[simp] theorem State.setSeats_programmes (s : State) (x : FMap Seat) : (s.setSeats x).programmes = s.programmes := rfl
@[simp] theorem State.setSeats_shadow (s : State) (x : FMap Seat) : (s.setSeats x).shadow = s.shadow := rfl
@[simp] theorem State.setSeats_sendList (s : State) (x : FMap Seat) : (s.setSeats x).sendList = s.sendList := rfl
@[simp] theorem State.setSeats_radiatorLine (s : State) (x : FMap Seat) : (s.setSeats x).radiatorLine = s.radiatorLine := rfl
@[simp] theorem State.setSeats_matrixLine (s : State) (x : FMap Seat) : (s.setSeats x).matrixLine = s.matrixLine := rfl

@[simp] theorem State.setPool_pending (s : State) (x : List Request) : (s.setPool x).pending = s.pending := rfl
@[simp] theorem State.setPool_free (s : State) (x : List Request) : (s.setPool x).free = s.free := rfl
@[simp] theorem State.setPool_resetLow (s : State) (x : List Request) : (s.setPool x).resetLow = s.resetLow := rfl
@[simp] theorem State.setPool_port (s : State) (x : List Request) : (s.setPool x).port = s.port := rfl
@[simp] theorem State.setPool_run (s : State) (x : List Request) : (s.setPool x).run = s.run := rfl
@[simp] theorem State.setPool_venue (s : State) (x : List Request) : (s.setPool x).venue = s.venue := rfl
@[simp] theorem State.setPool_notices (s : State) (x : List Request) : (s.setPool x).notices = s.notices := rfl
@[simp] theorem State.setPool_sections (s : State) (x : List Request) : (s.setPool x).sections = s.sections := rfl
@[simp] theorem State.setPool_walls (s : State) (x : List Request) : (s.setPool x).walls = s.walls := rfl
@[simp] theorem State.setPool_rooms (s : State) (x : List Request) : (s.setPool x).rooms = s.rooms := rfl
@[simp] theorem State.setPool_seats (s : State) (x : List Request) : (s.setPool x).seats = s.seats := rfl
@[simp] theorem State.setPool_pool (s : State) (x : List Request) : (s.setPool x).pool = x := rfl
@[simp] theorem State.setPool_speakers (s : State) (x : List Request) : (s.setPool x).speakers = s.speakers := rfl
@[simp] theorem State.setPool_chairs (s : State) (x : List Request) : (s.setPool x).chairs = s.chairs := rfl
@[simp] theorem State.setPool_selectors (s : State) (x : List Request) : (s.setPool x).selectors = s.selectors := rfl
@[simp] theorem State.setPool_trunks (s : State) (x : List Request) : (s.setPool x).trunks = s.trunks := rfl
@[simp] theorem State.setPool_languages (s : State) (x : List Request) : (s.setPool x).languages = s.languages := rfl
@[simp] theorem State.setPool_booths (s : State) (x : List Request) : (s.setPool x).booths = s.booths := rfl
@[simp] theorem State.setPool_carriers (s : State) (x : List Request) : (s.setPool x).carriers = s.carriers := rfl
@[simp] theorem State.setPool_programmes (s : State) (x : List Request) : (s.setPool x).programmes = s.programmes := rfl
@[simp] theorem State.setPool_shadow (s : State) (x : List Request) : (s.setPool x).shadow = s.shadow := rfl
@[simp] theorem State.setPool_sendList (s : State) (x : List Request) : (s.setPool x).sendList = s.sendList := rfl
@[simp] theorem State.setPool_radiatorLine (s : State) (x : List Request) : (s.setPool x).radiatorLine = s.radiatorLine := rfl
@[simp] theorem State.setPool_matrixLine (s : State) (x : List Request) : (s.setPool x).matrixLine = s.matrixLine := rfl

@[simp] theorem State.setSpeakers_pending (s : State) (x : List Speaker) : (s.setSpeakers x).pending = s.pending := rfl
@[simp] theorem State.setSpeakers_free (s : State) (x : List Speaker) : (s.setSpeakers x).free = s.free := rfl
@[simp] theorem State.setSpeakers_resetLow (s : State) (x : List Speaker) : (s.setSpeakers x).resetLow = s.resetLow := rfl
@[simp] theorem State.setSpeakers_port (s : State) (x : List Speaker) : (s.setSpeakers x).port = s.port := rfl
@[simp] theorem State.setSpeakers_run (s : State) (x : List Speaker) : (s.setSpeakers x).run = s.run := rfl
@[simp] theorem State.setSpeakers_venue (s : State) (x : List Speaker) : (s.setSpeakers x).venue = s.venue := rfl
@[simp] theorem State.setSpeakers_notices (s : State) (x : List Speaker) : (s.setSpeakers x).notices = s.notices := rfl
@[simp] theorem State.setSpeakers_sections (s : State) (x : List Speaker) : (s.setSpeakers x).sections = s.sections := rfl
@[simp] theorem State.setSpeakers_walls (s : State) (x : List Speaker) : (s.setSpeakers x).walls = s.walls := rfl
@[simp] theorem State.setSpeakers_rooms (s : State) (x : List Speaker) : (s.setSpeakers x).rooms = s.rooms := rfl
@[simp] theorem State.setSpeakers_seats (s : State) (x : List Speaker) : (s.setSpeakers x).seats = s.seats := rfl
@[simp] theorem State.setSpeakers_pool (s : State) (x : List Speaker) : (s.setSpeakers x).pool = s.pool := rfl
@[simp] theorem State.setSpeakers_speakers (s : State) (x : List Speaker) : (s.setSpeakers x).speakers = x := rfl
@[simp] theorem State.setSpeakers_chairs (s : State) (x : List Speaker) : (s.setSpeakers x).chairs = s.chairs := rfl
@[simp] theorem State.setSpeakers_selectors (s : State) (x : List Speaker) : (s.setSpeakers x).selectors = s.selectors := rfl
@[simp] theorem State.setSpeakers_trunks (s : State) (x : List Speaker) : (s.setSpeakers x).trunks = s.trunks := rfl
@[simp] theorem State.setSpeakers_languages (s : State) (x : List Speaker) : (s.setSpeakers x).languages = s.languages := rfl
@[simp] theorem State.setSpeakers_booths (s : State) (x : List Speaker) : (s.setSpeakers x).booths = s.booths := rfl
@[simp] theorem State.setSpeakers_carriers (s : State) (x : List Speaker) : (s.setSpeakers x).carriers = s.carriers := rfl
@[simp] theorem State.setSpeakers_programmes (s : State) (x : List Speaker) : (s.setSpeakers x).programmes = s.programmes := rfl
@[simp] theorem State.setSpeakers_shadow (s : State) (x : List Speaker) : (s.setSpeakers x).shadow = s.shadow := rfl
@[simp] theorem State.setSpeakers_sendList (s : State) (x : List Speaker) : (s.setSpeakers x).sendList = s.sendList := rfl
@[simp] theorem State.setSpeakers_radiatorLine (s : State) (x : List Speaker) : (s.setSpeakers x).radiatorLine = s.radiatorLine := rfl
@[simp] theorem State.setSpeakers_matrixLine (s : State) (x : List Speaker) : (s.setSpeakers x).matrixLine = s.matrixLine := rfl

@[simp] theorem State.setChairs_pending (s : State) (x : List Nat) : (s.setChairs x).pending = s.pending := rfl
@[simp] theorem State.setChairs_free (s : State) (x : List Nat) : (s.setChairs x).free = s.free := rfl
@[simp] theorem State.setChairs_resetLow (s : State) (x : List Nat) : (s.setChairs x).resetLow = s.resetLow := rfl
@[simp] theorem State.setChairs_port (s : State) (x : List Nat) : (s.setChairs x).port = s.port := rfl
@[simp] theorem State.setChairs_run (s : State) (x : List Nat) : (s.setChairs x).run = s.run := rfl
@[simp] theorem State.setChairs_venue (s : State) (x : List Nat) : (s.setChairs x).venue = s.venue := rfl
@[simp] theorem State.setChairs_notices (s : State) (x : List Nat) : (s.setChairs x).notices = s.notices := rfl
@[simp] theorem State.setChairs_sections (s : State) (x : List Nat) : (s.setChairs x).sections = s.sections := rfl
@[simp] theorem State.setChairs_walls (s : State) (x : List Nat) : (s.setChairs x).walls = s.walls := rfl
@[simp] theorem State.setChairs_rooms (s : State) (x : List Nat) : (s.setChairs x).rooms = s.rooms := rfl
@[simp] theorem State.setChairs_seats (s : State) (x : List Nat) : (s.setChairs x).seats = s.seats := rfl
@[simp] theorem State.setChairs_pool (s : State) (x : List Nat) : (s.setChairs x).pool = s.pool := rfl
@[simp] theorem State.setChairs_speakers (s : State) (x : List Nat) : (s.setChairs x).speakers = s.speakers := rfl
@[simp] theorem State.setChairs_chairs (s : State) (x : List Nat) : (s.setChairs x).chairs = x := rfl
@[simp] theorem State.setChairs_selectors (s : State) (x : List Nat) : (s.setChairs x).selectors = s.selectors := rfl
@[simp] theorem State.setChairs_trunks (s : State) (x : List Nat) : (s.setChairs x).trunks = s.trunks := rfl
@[simp] theorem State.setChairs_languages (s : State) (x : List Nat) : (s.setChairs x).languages = s.languages := rfl
@[simp] theorem State.setChairs_booths (s : State) (x : List Nat) : (s.setChairs x).booths = s.booths := rfl
@[simp] theorem State.setChairs_carriers (s : State) (x : List Nat) : (s.setChairs x).carriers = s.carriers := rfl
@[simp] theorem State.setChairs_programmes (s : State) (x : List Nat) : (s.setChairs x).programmes = s.programmes := rfl
@[simp] theorem State.setChairs_shadow (s : State) (x : List Nat) : (s.setChairs x).shadow = s.shadow := rfl
@[simp] theorem State.setChairs_sendList (s : State) (x : List Nat) : (s.setChairs x).sendList = s.sendList := rfl
@[simp] theorem State.setChairs_radiatorLine (s : State) (x : List Nat) : (s.setChairs x).radiatorLine = s.radiatorLine := rfl
@[simp] theorem State.setChairs_matrixLine (s : State) (x : List Nat) : (s.setChairs x).matrixLine = s.matrixLine := rfl

@[simp] theorem State.setSelectors_pending (s : State) (x : Vector Selector 8) : (s.setSelectors x).pending = s.pending := rfl
@[simp] theorem State.setSelectors_free (s : State) (x : Vector Selector 8) : (s.setSelectors x).free = s.free := rfl
@[simp] theorem State.setSelectors_resetLow (s : State) (x : Vector Selector 8) : (s.setSelectors x).resetLow = s.resetLow := rfl
@[simp] theorem State.setSelectors_port (s : State) (x : Vector Selector 8) : (s.setSelectors x).port = s.port := rfl
@[simp] theorem State.setSelectors_run (s : State) (x : Vector Selector 8) : (s.setSelectors x).run = s.run := rfl
@[simp] theorem State.setSelectors_venue (s : State) (x : Vector Selector 8) : (s.setSelectors x).venue = s.venue := rfl
@[simp] theorem State.setSelectors_notices (s : State) (x : Vector Selector 8) : (s.setSelectors x).notices = s.notices := rfl
@[simp] theorem State.setSelectors_sections (s : State) (x : Vector Selector 8) : (s.setSelectors x).sections = s.sections := rfl
@[simp] theorem State.setSelectors_walls (s : State) (x : Vector Selector 8) : (s.setSelectors x).walls = s.walls := rfl
@[simp] theorem State.setSelectors_rooms (s : State) (x : Vector Selector 8) : (s.setSelectors x).rooms = s.rooms := rfl
@[simp] theorem State.setSelectors_seats (s : State) (x : Vector Selector 8) : (s.setSelectors x).seats = s.seats := rfl
@[simp] theorem State.setSelectors_pool (s : State) (x : Vector Selector 8) : (s.setSelectors x).pool = s.pool := rfl
@[simp] theorem State.setSelectors_speakers (s : State) (x : Vector Selector 8) : (s.setSelectors x).speakers = s.speakers := rfl
@[simp] theorem State.setSelectors_chairs (s : State) (x : Vector Selector 8) : (s.setSelectors x).chairs = s.chairs := rfl
@[simp] theorem State.setSelectors_selectors (s : State) (x : Vector Selector 8) : (s.setSelectors x).selectors = x := rfl
@[simp] theorem State.setSelectors_trunks (s : State) (x : Vector Selector 8) : (s.setSelectors x).trunks = s.trunks := rfl
@[simp] theorem State.setSelectors_languages (s : State) (x : Vector Selector 8) : (s.setSelectors x).languages = s.languages := rfl
@[simp] theorem State.setSelectors_booths (s : State) (x : Vector Selector 8) : (s.setSelectors x).booths = s.booths := rfl
@[simp] theorem State.setSelectors_carriers (s : State) (x : Vector Selector 8) : (s.setSelectors x).carriers = s.carriers := rfl
@[simp] theorem State.setSelectors_programmes (s : State) (x : Vector Selector 8) : (s.setSelectors x).programmes = s.programmes := rfl
@[simp] theorem State.setSelectors_shadow (s : State) (x : Vector Selector 8) : (s.setSelectors x).shadow = s.shadow := rfl
@[simp] theorem State.setSelectors_sendList (s : State) (x : Vector Selector 8) : (s.setSelectors x).sendList = s.sendList := rfl
@[simp] theorem State.setSelectors_radiatorLine (s : State) (x : Vector Selector 8) : (s.setSelectors x).radiatorLine = s.radiatorLine := rfl
@[simp] theorem State.setSelectors_matrixLine (s : State) (x : Vector Selector 8) : (s.setSelectors x).matrixLine = s.matrixLine := rfl

@[simp] theorem State.setTrunks_pending (s : State) (x : Vector Trunk 4) : (s.setTrunks x).pending = s.pending := rfl
@[simp] theorem State.setTrunks_free (s : State) (x : Vector Trunk 4) : (s.setTrunks x).free = s.free := rfl
@[simp] theorem State.setTrunks_resetLow (s : State) (x : Vector Trunk 4) : (s.setTrunks x).resetLow = s.resetLow := rfl
@[simp] theorem State.setTrunks_port (s : State) (x : Vector Trunk 4) : (s.setTrunks x).port = s.port := rfl
@[simp] theorem State.setTrunks_run (s : State) (x : Vector Trunk 4) : (s.setTrunks x).run = s.run := rfl
@[simp] theorem State.setTrunks_venue (s : State) (x : Vector Trunk 4) : (s.setTrunks x).venue = s.venue := rfl
@[simp] theorem State.setTrunks_notices (s : State) (x : Vector Trunk 4) : (s.setTrunks x).notices = s.notices := rfl
@[simp] theorem State.setTrunks_sections (s : State) (x : Vector Trunk 4) : (s.setTrunks x).sections = s.sections := rfl
@[simp] theorem State.setTrunks_walls (s : State) (x : Vector Trunk 4) : (s.setTrunks x).walls = s.walls := rfl
@[simp] theorem State.setTrunks_rooms (s : State) (x : Vector Trunk 4) : (s.setTrunks x).rooms = s.rooms := rfl
@[simp] theorem State.setTrunks_seats (s : State) (x : Vector Trunk 4) : (s.setTrunks x).seats = s.seats := rfl
@[simp] theorem State.setTrunks_pool (s : State) (x : Vector Trunk 4) : (s.setTrunks x).pool = s.pool := rfl
@[simp] theorem State.setTrunks_speakers (s : State) (x : Vector Trunk 4) : (s.setTrunks x).speakers = s.speakers := rfl
@[simp] theorem State.setTrunks_chairs (s : State) (x : Vector Trunk 4) : (s.setTrunks x).chairs = s.chairs := rfl
@[simp] theorem State.setTrunks_selectors (s : State) (x : Vector Trunk 4) : (s.setTrunks x).selectors = s.selectors := rfl
@[simp] theorem State.setTrunks_trunks (s : State) (x : Vector Trunk 4) : (s.setTrunks x).trunks = x := rfl
@[simp] theorem State.setTrunks_languages (s : State) (x : Vector Trunk 4) : (s.setTrunks x).languages = s.languages := rfl
@[simp] theorem State.setTrunks_booths (s : State) (x : Vector Trunk 4) : (s.setTrunks x).booths = s.booths := rfl
@[simp] theorem State.setTrunks_carriers (s : State) (x : Vector Trunk 4) : (s.setTrunks x).carriers = s.carriers := rfl
@[simp] theorem State.setTrunks_programmes (s : State) (x : Vector Trunk 4) : (s.setTrunks x).programmes = s.programmes := rfl
@[simp] theorem State.setTrunks_shadow (s : State) (x : Vector Trunk 4) : (s.setTrunks x).shadow = s.shadow := rfl
@[simp] theorem State.setTrunks_sendList (s : State) (x : Vector Trunk 4) : (s.setTrunks x).sendList = s.sendList := rfl
@[simp] theorem State.setTrunks_radiatorLine (s : State) (x : Vector Trunk 4) : (s.setTrunks x).radiatorLine = s.radiatorLine := rfl
@[simp] theorem State.setTrunks_matrixLine (s : State) (x : Vector Trunk 4) : (s.setTrunks x).matrixLine = s.matrixLine := rfl

@[simp] theorem State.setLanguages_pending (s : State) (x : FMap Language) : (s.setLanguages x).pending = s.pending := rfl
@[simp] theorem State.setLanguages_free (s : State) (x : FMap Language) : (s.setLanguages x).free = s.free := rfl
@[simp] theorem State.setLanguages_resetLow (s : State) (x : FMap Language) : (s.setLanguages x).resetLow = s.resetLow := rfl
@[simp] theorem State.setLanguages_port (s : State) (x : FMap Language) : (s.setLanguages x).port = s.port := rfl
@[simp] theorem State.setLanguages_run (s : State) (x : FMap Language) : (s.setLanguages x).run = s.run := rfl
@[simp] theorem State.setLanguages_venue (s : State) (x : FMap Language) : (s.setLanguages x).venue = s.venue := rfl
@[simp] theorem State.setLanguages_notices (s : State) (x : FMap Language) : (s.setLanguages x).notices = s.notices := rfl
@[simp] theorem State.setLanguages_sections (s : State) (x : FMap Language) : (s.setLanguages x).sections = s.sections := rfl
@[simp] theorem State.setLanguages_walls (s : State) (x : FMap Language) : (s.setLanguages x).walls = s.walls := rfl
@[simp] theorem State.setLanguages_rooms (s : State) (x : FMap Language) : (s.setLanguages x).rooms = s.rooms := rfl
@[simp] theorem State.setLanguages_seats (s : State) (x : FMap Language) : (s.setLanguages x).seats = s.seats := rfl
@[simp] theorem State.setLanguages_pool (s : State) (x : FMap Language) : (s.setLanguages x).pool = s.pool := rfl
@[simp] theorem State.setLanguages_speakers (s : State) (x : FMap Language) : (s.setLanguages x).speakers = s.speakers := rfl
@[simp] theorem State.setLanguages_chairs (s : State) (x : FMap Language) : (s.setLanguages x).chairs = s.chairs := rfl
@[simp] theorem State.setLanguages_selectors (s : State) (x : FMap Language) : (s.setLanguages x).selectors = s.selectors := rfl
@[simp] theorem State.setLanguages_trunks (s : State) (x : FMap Language) : (s.setLanguages x).trunks = s.trunks := rfl
@[simp] theorem State.setLanguages_languages (s : State) (x : FMap Language) : (s.setLanguages x).languages = x := rfl
@[simp] theorem State.setLanguages_booths (s : State) (x : FMap Language) : (s.setLanguages x).booths = s.booths := rfl
@[simp] theorem State.setLanguages_carriers (s : State) (x : FMap Language) : (s.setLanguages x).carriers = s.carriers := rfl
@[simp] theorem State.setLanguages_programmes (s : State) (x : FMap Language) : (s.setLanguages x).programmes = s.programmes := rfl
@[simp] theorem State.setLanguages_shadow (s : State) (x : FMap Language) : (s.setLanguages x).shadow = s.shadow := rfl
@[simp] theorem State.setLanguages_sendList (s : State) (x : FMap Language) : (s.setLanguages x).sendList = s.sendList := rfl
@[simp] theorem State.setLanguages_radiatorLine (s : State) (x : FMap Language) : (s.setLanguages x).radiatorLine = s.radiatorLine := rfl
@[simp] theorem State.setLanguages_matrixLine (s : State) (x : FMap Language) : (s.setLanguages x).matrixLine = s.matrixLine := rfl

@[simp] theorem State.setBooths_pending (s : State) (x : FMap Booth) : (s.setBooths x).pending = s.pending := rfl
@[simp] theorem State.setBooths_free (s : State) (x : FMap Booth) : (s.setBooths x).free = s.free := rfl
@[simp] theorem State.setBooths_resetLow (s : State) (x : FMap Booth) : (s.setBooths x).resetLow = s.resetLow := rfl
@[simp] theorem State.setBooths_port (s : State) (x : FMap Booth) : (s.setBooths x).port = s.port := rfl
@[simp] theorem State.setBooths_run (s : State) (x : FMap Booth) : (s.setBooths x).run = s.run := rfl
@[simp] theorem State.setBooths_venue (s : State) (x : FMap Booth) : (s.setBooths x).venue = s.venue := rfl
@[simp] theorem State.setBooths_notices (s : State) (x : FMap Booth) : (s.setBooths x).notices = s.notices := rfl
@[simp] theorem State.setBooths_sections (s : State) (x : FMap Booth) : (s.setBooths x).sections = s.sections := rfl
@[simp] theorem State.setBooths_walls (s : State) (x : FMap Booth) : (s.setBooths x).walls = s.walls := rfl
@[simp] theorem State.setBooths_rooms (s : State) (x : FMap Booth) : (s.setBooths x).rooms = s.rooms := rfl
@[simp] theorem State.setBooths_seats (s : State) (x : FMap Booth) : (s.setBooths x).seats = s.seats := rfl
@[simp] theorem State.setBooths_pool (s : State) (x : FMap Booth) : (s.setBooths x).pool = s.pool := rfl
@[simp] theorem State.setBooths_speakers (s : State) (x : FMap Booth) : (s.setBooths x).speakers = s.speakers := rfl
@[simp] theorem State.setBooths_chairs (s : State) (x : FMap Booth) : (s.setBooths x).chairs = s.chairs := rfl
@[simp] theorem State.setBooths_selectors (s : State) (x : FMap Booth) : (s.setBooths x).selectors = s.selectors := rfl
@[simp] theorem State.setBooths_trunks (s : State) (x : FMap Booth) : (s.setBooths x).trunks = s.trunks := rfl
@[simp] theorem State.setBooths_languages (s : State) (x : FMap Booth) : (s.setBooths x).languages = s.languages := rfl
@[simp] theorem State.setBooths_booths (s : State) (x : FMap Booth) : (s.setBooths x).booths = x := rfl
@[simp] theorem State.setBooths_carriers (s : State) (x : FMap Booth) : (s.setBooths x).carriers = s.carriers := rfl
@[simp] theorem State.setBooths_programmes (s : State) (x : FMap Booth) : (s.setBooths x).programmes = s.programmes := rfl
@[simp] theorem State.setBooths_shadow (s : State) (x : FMap Booth) : (s.setBooths x).shadow = s.shadow := rfl
@[simp] theorem State.setBooths_sendList (s : State) (x : FMap Booth) : (s.setBooths x).sendList = s.sendList := rfl
@[simp] theorem State.setBooths_radiatorLine (s : State) (x : FMap Booth) : (s.setBooths x).radiatorLine = s.radiatorLine := rfl
@[simp] theorem State.setBooths_matrixLine (s : State) (x : FMap Booth) : (s.setBooths x).matrixLine = s.matrixLine := rfl

@[simp] theorem State.setCarriers_pending (s : State) (x : Vector Carrier 32) : (s.setCarriers x).pending = s.pending := rfl
@[simp] theorem State.setCarriers_free (s : State) (x : Vector Carrier 32) : (s.setCarriers x).free = s.free := rfl
@[simp] theorem State.setCarriers_resetLow (s : State) (x : Vector Carrier 32) : (s.setCarriers x).resetLow = s.resetLow := rfl
@[simp] theorem State.setCarriers_port (s : State) (x : Vector Carrier 32) : (s.setCarriers x).port = s.port := rfl
@[simp] theorem State.setCarriers_run (s : State) (x : Vector Carrier 32) : (s.setCarriers x).run = s.run := rfl
@[simp] theorem State.setCarriers_venue (s : State) (x : Vector Carrier 32) : (s.setCarriers x).venue = s.venue := rfl
@[simp] theorem State.setCarriers_notices (s : State) (x : Vector Carrier 32) : (s.setCarriers x).notices = s.notices := rfl
@[simp] theorem State.setCarriers_sections (s : State) (x : Vector Carrier 32) : (s.setCarriers x).sections = s.sections := rfl
@[simp] theorem State.setCarriers_walls (s : State) (x : Vector Carrier 32) : (s.setCarriers x).walls = s.walls := rfl
@[simp] theorem State.setCarriers_rooms (s : State) (x : Vector Carrier 32) : (s.setCarriers x).rooms = s.rooms := rfl
@[simp] theorem State.setCarriers_seats (s : State) (x : Vector Carrier 32) : (s.setCarriers x).seats = s.seats := rfl
@[simp] theorem State.setCarriers_pool (s : State) (x : Vector Carrier 32) : (s.setCarriers x).pool = s.pool := rfl
@[simp] theorem State.setCarriers_speakers (s : State) (x : Vector Carrier 32) : (s.setCarriers x).speakers = s.speakers := rfl
@[simp] theorem State.setCarriers_chairs (s : State) (x : Vector Carrier 32) : (s.setCarriers x).chairs = s.chairs := rfl
@[simp] theorem State.setCarriers_selectors (s : State) (x : Vector Carrier 32) : (s.setCarriers x).selectors = s.selectors := rfl
@[simp] theorem State.setCarriers_trunks (s : State) (x : Vector Carrier 32) : (s.setCarriers x).trunks = s.trunks := rfl
@[simp] theorem State.setCarriers_languages (s : State) (x : Vector Carrier 32) : (s.setCarriers x).languages = s.languages := rfl
@[simp] theorem State.setCarriers_booths (s : State) (x : Vector Carrier 32) : (s.setCarriers x).booths = s.booths := rfl
@[simp] theorem State.setCarriers_carriers (s : State) (x : Vector Carrier 32) : (s.setCarriers x).carriers = x := rfl
@[simp] theorem State.setCarriers_programmes (s : State) (x : Vector Carrier 32) : (s.setCarriers x).programmes = s.programmes := rfl
@[simp] theorem State.setCarriers_shadow (s : State) (x : Vector Carrier 32) : (s.setCarriers x).shadow = s.shadow := rfl
@[simp] theorem State.setCarriers_sendList (s : State) (x : Vector Carrier 32) : (s.setCarriers x).sendList = s.sendList := rfl
@[simp] theorem State.setCarriers_radiatorLine (s : State) (x : Vector Carrier 32) : (s.setCarriers x).radiatorLine = s.radiatorLine := rfl
@[simp] theorem State.setCarriers_matrixLine (s : State) (x : Vector Carrier 32) : (s.setCarriers x).matrixLine = s.matrixLine := rfl

@[simp] theorem State.setProgrammes_pending (s : State) (x : List SectionNo) : (s.setProgrammes x).pending = s.pending := rfl
@[simp] theorem State.setProgrammes_free (s : State) (x : List SectionNo) : (s.setProgrammes x).free = s.free := rfl
@[simp] theorem State.setProgrammes_resetLow (s : State) (x : List SectionNo) : (s.setProgrammes x).resetLow = s.resetLow := rfl
@[simp] theorem State.setProgrammes_port (s : State) (x : List SectionNo) : (s.setProgrammes x).port = s.port := rfl
@[simp] theorem State.setProgrammes_run (s : State) (x : List SectionNo) : (s.setProgrammes x).run = s.run := rfl
@[simp] theorem State.setProgrammes_venue (s : State) (x : List SectionNo) : (s.setProgrammes x).venue = s.venue := rfl
@[simp] theorem State.setProgrammes_notices (s : State) (x : List SectionNo) : (s.setProgrammes x).notices = s.notices := rfl
@[simp] theorem State.setProgrammes_sections (s : State) (x : List SectionNo) : (s.setProgrammes x).sections = s.sections := rfl
@[simp] theorem State.setProgrammes_walls (s : State) (x : List SectionNo) : (s.setProgrammes x).walls = s.walls := rfl
@[simp] theorem State.setProgrammes_rooms (s : State) (x : List SectionNo) : (s.setProgrammes x).rooms = s.rooms := rfl
@[simp] theorem State.setProgrammes_seats (s : State) (x : List SectionNo) : (s.setProgrammes x).seats = s.seats := rfl
@[simp] theorem State.setProgrammes_pool (s : State) (x : List SectionNo) : (s.setProgrammes x).pool = s.pool := rfl
@[simp] theorem State.setProgrammes_speakers (s : State) (x : List SectionNo) : (s.setProgrammes x).speakers = s.speakers := rfl
@[simp] theorem State.setProgrammes_chairs (s : State) (x : List SectionNo) : (s.setProgrammes x).chairs = s.chairs := rfl
@[simp] theorem State.setProgrammes_selectors (s : State) (x : List SectionNo) : (s.setProgrammes x).selectors = s.selectors := rfl
@[simp] theorem State.setProgrammes_trunks (s : State) (x : List SectionNo) : (s.setProgrammes x).trunks = s.trunks := rfl
@[simp] theorem State.setProgrammes_languages (s : State) (x : List SectionNo) : (s.setProgrammes x).languages = s.languages := rfl
@[simp] theorem State.setProgrammes_booths (s : State) (x : List SectionNo) : (s.setProgrammes x).booths = s.booths := rfl
@[simp] theorem State.setProgrammes_carriers (s : State) (x : List SectionNo) : (s.setProgrammes x).carriers = s.carriers := rfl
@[simp] theorem State.setProgrammes_programmes (s : State) (x : List SectionNo) : (s.setProgrammes x).programmes = x := rfl
@[simp] theorem State.setProgrammes_shadow (s : State) (x : List SectionNo) : (s.setProgrammes x).shadow = s.shadow := rfl
@[simp] theorem State.setProgrammes_sendList (s : State) (x : List SectionNo) : (s.setProgrammes x).sendList = s.sendList := rfl
@[simp] theorem State.setProgrammes_radiatorLine (s : State) (x : List SectionNo) : (s.setProgrammes x).radiatorLine = s.radiatorLine := rfl
@[simp] theorem State.setProgrammes_matrixLine (s : State) (x : List SectionNo) : (s.setProgrammes x).matrixLine = s.matrixLine := rfl

@[simp] theorem State.setShadow_pending (s : State) (x : Shadow) : (s.setShadow x).pending = s.pending := rfl
@[simp] theorem State.setShadow_free (s : State) (x : Shadow) : (s.setShadow x).free = s.free := rfl
@[simp] theorem State.setShadow_resetLow (s : State) (x : Shadow) : (s.setShadow x).resetLow = s.resetLow := rfl
@[simp] theorem State.setShadow_port (s : State) (x : Shadow) : (s.setShadow x).port = s.port := rfl
@[simp] theorem State.setShadow_run (s : State) (x : Shadow) : (s.setShadow x).run = s.run := rfl
@[simp] theorem State.setShadow_venue (s : State) (x : Shadow) : (s.setShadow x).venue = s.venue := rfl
@[simp] theorem State.setShadow_notices (s : State) (x : Shadow) : (s.setShadow x).notices = s.notices := rfl
@[simp] theorem State.setShadow_sections (s : State) (x : Shadow) : (s.setShadow x).sections = s.sections := rfl
@[simp] theorem State.setShadow_walls (s : State) (x : Shadow) : (s.setShadow x).walls = s.walls := rfl
@[simp] theorem State.setShadow_rooms (s : State) (x : Shadow) : (s.setShadow x).rooms = s.rooms := rfl
@[simp] theorem State.setShadow_seats (s : State) (x : Shadow) : (s.setShadow x).seats = s.seats := rfl
@[simp] theorem State.setShadow_pool (s : State) (x : Shadow) : (s.setShadow x).pool = s.pool := rfl
@[simp] theorem State.setShadow_speakers (s : State) (x : Shadow) : (s.setShadow x).speakers = s.speakers := rfl
@[simp] theorem State.setShadow_chairs (s : State) (x : Shadow) : (s.setShadow x).chairs = s.chairs := rfl
@[simp] theorem State.setShadow_selectors (s : State) (x : Shadow) : (s.setShadow x).selectors = s.selectors := rfl
@[simp] theorem State.setShadow_trunks (s : State) (x : Shadow) : (s.setShadow x).trunks = s.trunks := rfl
@[simp] theorem State.setShadow_languages (s : State) (x : Shadow) : (s.setShadow x).languages = s.languages := rfl
@[simp] theorem State.setShadow_booths (s : State) (x : Shadow) : (s.setShadow x).booths = s.booths := rfl
@[simp] theorem State.setShadow_carriers (s : State) (x : Shadow) : (s.setShadow x).carriers = s.carriers := rfl
@[simp] theorem State.setShadow_programmes (s : State) (x : Shadow) : (s.setShadow x).programmes = s.programmes := rfl
@[simp] theorem State.setShadow_shadow (s : State) (x : Shadow) : (s.setShadow x).shadow = x := rfl
@[simp] theorem State.setShadow_sendList (s : State) (x : Shadow) : (s.setShadow x).sendList = s.sendList := rfl
@[simp] theorem State.setShadow_radiatorLine (s : State) (x : Shadow) : (s.setShadow x).radiatorLine = s.radiatorLine := rfl
@[simp] theorem State.setShadow_matrixLine (s : State) (x : Shadow) : (s.setShadow x).matrixLine = s.matrixLine := rfl

@[simp] theorem State.setSendList_pending (s : State) (x : List Entry) : (s.setSendList x).pending = s.pending := rfl
@[simp] theorem State.setSendList_free (s : State) (x : List Entry) : (s.setSendList x).free = s.free := rfl
@[simp] theorem State.setSendList_resetLow (s : State) (x : List Entry) : (s.setSendList x).resetLow = s.resetLow := rfl
@[simp] theorem State.setSendList_port (s : State) (x : List Entry) : (s.setSendList x).port = s.port := rfl
@[simp] theorem State.setSendList_run (s : State) (x : List Entry) : (s.setSendList x).run = s.run := rfl
@[simp] theorem State.setSendList_venue (s : State) (x : List Entry) : (s.setSendList x).venue = s.venue := rfl
@[simp] theorem State.setSendList_notices (s : State) (x : List Entry) : (s.setSendList x).notices = s.notices := rfl
@[simp] theorem State.setSendList_sections (s : State) (x : List Entry) : (s.setSendList x).sections = s.sections := rfl
@[simp] theorem State.setSendList_walls (s : State) (x : List Entry) : (s.setSendList x).walls = s.walls := rfl
@[simp] theorem State.setSendList_rooms (s : State) (x : List Entry) : (s.setSendList x).rooms = s.rooms := rfl
@[simp] theorem State.setSendList_seats (s : State) (x : List Entry) : (s.setSendList x).seats = s.seats := rfl
@[simp] theorem State.setSendList_pool (s : State) (x : List Entry) : (s.setSendList x).pool = s.pool := rfl
@[simp] theorem State.setSendList_speakers (s : State) (x : List Entry) : (s.setSendList x).speakers = s.speakers := rfl
@[simp] theorem State.setSendList_chairs (s : State) (x : List Entry) : (s.setSendList x).chairs = s.chairs := rfl
@[simp] theorem State.setSendList_selectors (s : State) (x : List Entry) : (s.setSendList x).selectors = s.selectors := rfl
@[simp] theorem State.setSendList_trunks (s : State) (x : List Entry) : (s.setSendList x).trunks = s.trunks := rfl
@[simp] theorem State.setSendList_languages (s : State) (x : List Entry) : (s.setSendList x).languages = s.languages := rfl
@[simp] theorem State.setSendList_booths (s : State) (x : List Entry) : (s.setSendList x).booths = s.booths := rfl
@[simp] theorem State.setSendList_carriers (s : State) (x : List Entry) : (s.setSendList x).carriers = s.carriers := rfl
@[simp] theorem State.setSendList_programmes (s : State) (x : List Entry) : (s.setSendList x).programmes = s.programmes := rfl
@[simp] theorem State.setSendList_shadow (s : State) (x : List Entry) : (s.setSendList x).shadow = s.shadow := rfl
@[simp] theorem State.setSendList_sendList (s : State) (x : List Entry) : (s.setSendList x).sendList = x := rfl
@[simp] theorem State.setSendList_radiatorLine (s : State) (x : List Entry) : (s.setSendList x).radiatorLine = s.radiatorLine := rfl
@[simp] theorem State.setSendList_matrixLine (s : State) (x : List Entry) : (s.setSendList x).matrixLine = s.matrixLine := rfl

@[simp] theorem State.setRadiatorLine_pending (s : State) (x : List Byte) : (s.setRadiatorLine x).pending = s.pending := rfl
@[simp] theorem State.setRadiatorLine_free (s : State) (x : List Byte) : (s.setRadiatorLine x).free = s.free := rfl
@[simp] theorem State.setRadiatorLine_resetLow (s : State) (x : List Byte) : (s.setRadiatorLine x).resetLow = s.resetLow := rfl
@[simp] theorem State.setRadiatorLine_port (s : State) (x : List Byte) : (s.setRadiatorLine x).port = s.port := rfl
@[simp] theorem State.setRadiatorLine_run (s : State) (x : List Byte) : (s.setRadiatorLine x).run = s.run := rfl
@[simp] theorem State.setRadiatorLine_venue (s : State) (x : List Byte) : (s.setRadiatorLine x).venue = s.venue := rfl
@[simp] theorem State.setRadiatorLine_notices (s : State) (x : List Byte) : (s.setRadiatorLine x).notices = s.notices := rfl
@[simp] theorem State.setRadiatorLine_sections (s : State) (x : List Byte) : (s.setRadiatorLine x).sections = s.sections := rfl
@[simp] theorem State.setRadiatorLine_walls (s : State) (x : List Byte) : (s.setRadiatorLine x).walls = s.walls := rfl
@[simp] theorem State.setRadiatorLine_rooms (s : State) (x : List Byte) : (s.setRadiatorLine x).rooms = s.rooms := rfl
@[simp] theorem State.setRadiatorLine_seats (s : State) (x : List Byte) : (s.setRadiatorLine x).seats = s.seats := rfl
@[simp] theorem State.setRadiatorLine_pool (s : State) (x : List Byte) : (s.setRadiatorLine x).pool = s.pool := rfl
@[simp] theorem State.setRadiatorLine_speakers (s : State) (x : List Byte) : (s.setRadiatorLine x).speakers = s.speakers := rfl
@[simp] theorem State.setRadiatorLine_chairs (s : State) (x : List Byte) : (s.setRadiatorLine x).chairs = s.chairs := rfl
@[simp] theorem State.setRadiatorLine_selectors (s : State) (x : List Byte) : (s.setRadiatorLine x).selectors = s.selectors := rfl
@[simp] theorem State.setRadiatorLine_trunks (s : State) (x : List Byte) : (s.setRadiatorLine x).trunks = s.trunks := rfl
@[simp] theorem State.setRadiatorLine_languages (s : State) (x : List Byte) : (s.setRadiatorLine x).languages = s.languages := rfl
@[simp] theorem State.setRadiatorLine_booths (s : State) (x : List Byte) : (s.setRadiatorLine x).booths = s.booths := rfl
@[simp] theorem State.setRadiatorLine_carriers (s : State) (x : List Byte) : (s.setRadiatorLine x).carriers = s.carriers := rfl
@[simp] theorem State.setRadiatorLine_programmes (s : State) (x : List Byte) : (s.setRadiatorLine x).programmes = s.programmes := rfl
@[simp] theorem State.setRadiatorLine_shadow (s : State) (x : List Byte) : (s.setRadiatorLine x).shadow = s.shadow := rfl
@[simp] theorem State.setRadiatorLine_sendList (s : State) (x : List Byte) : (s.setRadiatorLine x).sendList = s.sendList := rfl
@[simp] theorem State.setRadiatorLine_radiatorLine (s : State) (x : List Byte) : (s.setRadiatorLine x).radiatorLine = x := rfl
@[simp] theorem State.setRadiatorLine_matrixLine (s : State) (x : List Byte) : (s.setRadiatorLine x).matrixLine = s.matrixLine := rfl

@[simp] theorem State.setMatrixLine_pending (s : State) (x : List Byte) : (s.setMatrixLine x).pending = s.pending := rfl
@[simp] theorem State.setMatrixLine_free (s : State) (x : List Byte) : (s.setMatrixLine x).free = s.free := rfl
@[simp] theorem State.setMatrixLine_resetLow (s : State) (x : List Byte) : (s.setMatrixLine x).resetLow = s.resetLow := rfl
@[simp] theorem State.setMatrixLine_port (s : State) (x : List Byte) : (s.setMatrixLine x).port = s.port := rfl
@[simp] theorem State.setMatrixLine_run (s : State) (x : List Byte) : (s.setMatrixLine x).run = s.run := rfl
@[simp] theorem State.setMatrixLine_venue (s : State) (x : List Byte) : (s.setMatrixLine x).venue = s.venue := rfl
@[simp] theorem State.setMatrixLine_notices (s : State) (x : List Byte) : (s.setMatrixLine x).notices = s.notices := rfl
@[simp] theorem State.setMatrixLine_sections (s : State) (x : List Byte) : (s.setMatrixLine x).sections = s.sections := rfl
@[simp] theorem State.setMatrixLine_walls (s : State) (x : List Byte) : (s.setMatrixLine x).walls = s.walls := rfl
@[simp] theorem State.setMatrixLine_rooms (s : State) (x : List Byte) : (s.setMatrixLine x).rooms = s.rooms := rfl
@[simp] theorem State.setMatrixLine_seats (s : State) (x : List Byte) : (s.setMatrixLine x).seats = s.seats := rfl
@[simp] theorem State.setMatrixLine_pool (s : State) (x : List Byte) : (s.setMatrixLine x).pool = s.pool := rfl
@[simp] theorem State.setMatrixLine_speakers (s : State) (x : List Byte) : (s.setMatrixLine x).speakers = s.speakers := rfl
@[simp] theorem State.setMatrixLine_chairs (s : State) (x : List Byte) : (s.setMatrixLine x).chairs = s.chairs := rfl
@[simp] theorem State.setMatrixLine_selectors (s : State) (x : List Byte) : (s.setMatrixLine x).selectors = s.selectors := rfl
@[simp] theorem State.setMatrixLine_trunks (s : State) (x : List Byte) : (s.setMatrixLine x).trunks = s.trunks := rfl
@[simp] theorem State.setMatrixLine_languages (s : State) (x : List Byte) : (s.setMatrixLine x).languages = s.languages := rfl
@[simp] theorem State.setMatrixLine_booths (s : State) (x : List Byte) : (s.setMatrixLine x).booths = s.booths := rfl
@[simp] theorem State.setMatrixLine_carriers (s : State) (x : List Byte) : (s.setMatrixLine x).carriers = s.carriers := rfl
@[simp] theorem State.setMatrixLine_programmes (s : State) (x : List Byte) : (s.setMatrixLine x).programmes = s.programmes := rfl
@[simp] theorem State.setMatrixLine_shadow (s : State) (x : List Byte) : (s.setMatrixLine x).shadow = s.shadow := rfl
@[simp] theorem State.setMatrixLine_sendList (s : State) (x : List Byte) : (s.setMatrixLine x).sendList = s.sendList := rfl
@[simp] theorem State.setMatrixLine_radiatorLine (s : State) (x : List Byte) : (s.setMatrixLine x).radiatorLine = s.radiatorLine := rfl
@[simp] theorem State.setMatrixLine_matrixLine (s : State) (x : List Byte) : (s.setMatrixLine x).matrixLine = x := rfl

@[simp] theorem State.modRoom_pending (s : State) (l : SectionNo) (f : Room → Room) : (s.modRoom l f).pending = s.pending := rfl
@[simp] theorem State.modRoom_free (s : State) (l : SectionNo) (f : Room → Room) : (s.modRoom l f).free = s.free := rfl
@[simp] theorem State.modRoom_resetLow (s : State) (l : SectionNo) (f : Room → Room) : (s.modRoom l f).resetLow = s.resetLow := rfl
@[simp] theorem State.modRoom_port (s : State) (l : SectionNo) (f : Room → Room) : (s.modRoom l f).port = s.port := rfl
@[simp] theorem State.modRoom_run (s : State) (l : SectionNo) (f : Room → Room) : (s.modRoom l f).run = s.run := rfl
@[simp] theorem State.modRoom_venue (s : State) (l : SectionNo) (f : Room → Room) : (s.modRoom l f).venue = s.venue := rfl
@[simp] theorem State.modRoom_notices (s : State) (l : SectionNo) (f : Room → Room) : (s.modRoom l f).notices = s.notices := rfl
@[simp] theorem State.modRoom_sections (s : State) (l : SectionNo) (f : Room → Room) : (s.modRoom l f).sections = s.sections := rfl
@[simp] theorem State.modRoom_walls (s : State) (l : SectionNo) (f : Room → Room) : (s.modRoom l f).walls = s.walls := rfl
@[simp] theorem State.modRoom_rooms (s : State) (l : SectionNo) (f : Room → Room) : (s.modRoom l f).rooms = vmod s.rooms l f := rfl
@[simp] theorem State.modRoom_seats (s : State) (l : SectionNo) (f : Room → Room) : (s.modRoom l f).seats = s.seats := rfl
@[simp] theorem State.modRoom_pool (s : State) (l : SectionNo) (f : Room → Room) : (s.modRoom l f).pool = s.pool := rfl
@[simp] theorem State.modRoom_speakers (s : State) (l : SectionNo) (f : Room → Room) : (s.modRoom l f).speakers = s.speakers := rfl
@[simp] theorem State.modRoom_chairs (s : State) (l : SectionNo) (f : Room → Room) : (s.modRoom l f).chairs = s.chairs := rfl
@[simp] theorem State.modRoom_selectors (s : State) (l : SectionNo) (f : Room → Room) : (s.modRoom l f).selectors = s.selectors := rfl
@[simp] theorem State.modRoom_trunks (s : State) (l : SectionNo) (f : Room → Room) : (s.modRoom l f).trunks = s.trunks := rfl
@[simp] theorem State.modRoom_languages (s : State) (l : SectionNo) (f : Room → Room) : (s.modRoom l f).languages = s.languages := rfl
@[simp] theorem State.modRoom_booths (s : State) (l : SectionNo) (f : Room → Room) : (s.modRoom l f).booths = s.booths := rfl
@[simp] theorem State.modRoom_carriers (s : State) (l : SectionNo) (f : Room → Room) : (s.modRoom l f).carriers = s.carriers := rfl
@[simp] theorem State.modRoom_programmes (s : State) (l : SectionNo) (f : Room → Room) : (s.modRoom l f).programmes = s.programmes := rfl
@[simp] theorem State.modRoom_shadow (s : State) (l : SectionNo) (f : Room → Room) : (s.modRoom l f).shadow = s.shadow := rfl
@[simp] theorem State.modRoom_sendList (s : State) (l : SectionNo) (f : Room → Room) : (s.modRoom l f).sendList = s.sendList := rfl
@[simp] theorem State.modRoom_radiatorLine (s : State) (l : SectionNo) (f : Room → Room) : (s.modRoom l f).radiatorLine = s.radiatorLine := rfl
@[simp] theorem State.modRoom_matrixLine (s : State) (l : SectionNo) (f : Room → Room) : (s.modRoom l f).matrixLine = s.matrixLine := rfl

@[simp] theorem State.modTrunk_pending (s : State) (t : TrunkNo) (f : Trunk → Trunk) : (s.modTrunk t f).pending = s.pending := rfl
@[simp] theorem State.modTrunk_free (s : State) (t : TrunkNo) (f : Trunk → Trunk) : (s.modTrunk t f).free = s.free := rfl
@[simp] theorem State.modTrunk_resetLow (s : State) (t : TrunkNo) (f : Trunk → Trunk) : (s.modTrunk t f).resetLow = s.resetLow := rfl
@[simp] theorem State.modTrunk_port (s : State) (t : TrunkNo) (f : Trunk → Trunk) : (s.modTrunk t f).port = s.port := rfl
@[simp] theorem State.modTrunk_run (s : State) (t : TrunkNo) (f : Trunk → Trunk) : (s.modTrunk t f).run = s.run := rfl
@[simp] theorem State.modTrunk_venue (s : State) (t : TrunkNo) (f : Trunk → Trunk) : (s.modTrunk t f).venue = s.venue := rfl
@[simp] theorem State.modTrunk_notices (s : State) (t : TrunkNo) (f : Trunk → Trunk) : (s.modTrunk t f).notices = s.notices := rfl
@[simp] theorem State.modTrunk_sections (s : State) (t : TrunkNo) (f : Trunk → Trunk) : (s.modTrunk t f).sections = s.sections := rfl
@[simp] theorem State.modTrunk_walls (s : State) (t : TrunkNo) (f : Trunk → Trunk) : (s.modTrunk t f).walls = s.walls := rfl
@[simp] theorem State.modTrunk_rooms (s : State) (t : TrunkNo) (f : Trunk → Trunk) : (s.modTrunk t f).rooms = s.rooms := rfl
@[simp] theorem State.modTrunk_seats (s : State) (t : TrunkNo) (f : Trunk → Trunk) : (s.modTrunk t f).seats = s.seats := rfl
@[simp] theorem State.modTrunk_pool (s : State) (t : TrunkNo) (f : Trunk → Trunk) : (s.modTrunk t f).pool = s.pool := rfl
@[simp] theorem State.modTrunk_speakers (s : State) (t : TrunkNo) (f : Trunk → Trunk) : (s.modTrunk t f).speakers = s.speakers := rfl
@[simp] theorem State.modTrunk_chairs (s : State) (t : TrunkNo) (f : Trunk → Trunk) : (s.modTrunk t f).chairs = s.chairs := rfl
@[simp] theorem State.modTrunk_selectors (s : State) (t : TrunkNo) (f : Trunk → Trunk) : (s.modTrunk t f).selectors = s.selectors := rfl
@[simp] theorem State.modTrunk_trunks (s : State) (t : TrunkNo) (f : Trunk → Trunk) : (s.modTrunk t f).trunks = vmod s.trunks t f := rfl
@[simp] theorem State.modTrunk_languages (s : State) (t : TrunkNo) (f : Trunk → Trunk) : (s.modTrunk t f).languages = s.languages := rfl
@[simp] theorem State.modTrunk_booths (s : State) (t : TrunkNo) (f : Trunk → Trunk) : (s.modTrunk t f).booths = s.booths := rfl
@[simp] theorem State.modTrunk_carriers (s : State) (t : TrunkNo) (f : Trunk → Trunk) : (s.modTrunk t f).carriers = s.carriers := rfl
@[simp] theorem State.modTrunk_programmes (s : State) (t : TrunkNo) (f : Trunk → Trunk) : (s.modTrunk t f).programmes = s.programmes := rfl
@[simp] theorem State.modTrunk_shadow (s : State) (t : TrunkNo) (f : Trunk → Trunk) : (s.modTrunk t f).shadow = s.shadow := rfl
@[simp] theorem State.modTrunk_sendList (s : State) (t : TrunkNo) (f : Trunk → Trunk) : (s.modTrunk t f).sendList = s.sendList := rfl
@[simp] theorem State.modTrunk_radiatorLine (s : State) (t : TrunkNo) (f : Trunk → Trunk) : (s.modTrunk t f).radiatorLine = s.radiatorLine := rfl
@[simp] theorem State.modTrunk_matrixLine (s : State) (t : TrunkNo) (f : Trunk → Trunk) : (s.modTrunk t f).matrixLine = s.matrixLine := rfl

@[simp] theorem State.modWall_pending (s : State) (w : WallNo) (f : Wall → Wall) : (s.modWall w f).pending = s.pending := rfl
@[simp] theorem State.modWall_free (s : State) (w : WallNo) (f : Wall → Wall) : (s.modWall w f).free = s.free := rfl
@[simp] theorem State.modWall_resetLow (s : State) (w : WallNo) (f : Wall → Wall) : (s.modWall w f).resetLow = s.resetLow := rfl
@[simp] theorem State.modWall_port (s : State) (w : WallNo) (f : Wall → Wall) : (s.modWall w f).port = s.port := rfl
@[simp] theorem State.modWall_run (s : State) (w : WallNo) (f : Wall → Wall) : (s.modWall w f).run = s.run := rfl
@[simp] theorem State.modWall_venue (s : State) (w : WallNo) (f : Wall → Wall) : (s.modWall w f).venue = s.venue := rfl
@[simp] theorem State.modWall_notices (s : State) (w : WallNo) (f : Wall → Wall) : (s.modWall w f).notices = s.notices := rfl
@[simp] theorem State.modWall_sections (s : State) (w : WallNo) (f : Wall → Wall) : (s.modWall w f).sections = s.sections := rfl
@[simp] theorem State.modWall_walls (s : State) (w : WallNo) (f : Wall → Wall) : (s.modWall w f).walls = vmod s.walls w f := rfl
@[simp] theorem State.modWall_rooms (s : State) (w : WallNo) (f : Wall → Wall) : (s.modWall w f).rooms = s.rooms := rfl
@[simp] theorem State.modWall_seats (s : State) (w : WallNo) (f : Wall → Wall) : (s.modWall w f).seats = s.seats := rfl
@[simp] theorem State.modWall_pool (s : State) (w : WallNo) (f : Wall → Wall) : (s.modWall w f).pool = s.pool := rfl
@[simp] theorem State.modWall_speakers (s : State) (w : WallNo) (f : Wall → Wall) : (s.modWall w f).speakers = s.speakers := rfl
@[simp] theorem State.modWall_chairs (s : State) (w : WallNo) (f : Wall → Wall) : (s.modWall w f).chairs = s.chairs := rfl
@[simp] theorem State.modWall_selectors (s : State) (w : WallNo) (f : Wall → Wall) : (s.modWall w f).selectors = s.selectors := rfl
@[simp] theorem State.modWall_trunks (s : State) (w : WallNo) (f : Wall → Wall) : (s.modWall w f).trunks = s.trunks := rfl
@[simp] theorem State.modWall_languages (s : State) (w : WallNo) (f : Wall → Wall) : (s.modWall w f).languages = s.languages := rfl
@[simp] theorem State.modWall_booths (s : State) (w : WallNo) (f : Wall → Wall) : (s.modWall w f).booths = s.booths := rfl
@[simp] theorem State.modWall_carriers (s : State) (w : WallNo) (f : Wall → Wall) : (s.modWall w f).carriers = s.carriers := rfl
@[simp] theorem State.modWall_programmes (s : State) (w : WallNo) (f : Wall → Wall) : (s.modWall w f).programmes = s.programmes := rfl
@[simp] theorem State.modWall_shadow (s : State) (w : WallNo) (f : Wall → Wall) : (s.modWall w f).shadow = s.shadow := rfl
@[simp] theorem State.modWall_sendList (s : State) (w : WallNo) (f : Wall → Wall) : (s.modWall w f).sendList = s.sendList := rfl
@[simp] theorem State.modWall_radiatorLine (s : State) (w : WallNo) (f : Wall → Wall) : (s.modWall w f).radiatorLine = s.radiatorLine := rfl
@[simp] theorem State.modWall_matrixLine (s : State) (w : WallNo) (f : Wall → Wall) : (s.modWall w f).matrixLine = s.matrixLine := rfl

@[simp] theorem State.modSeat_pending (s : State) (n : Nat) (f : Seat → Seat) : (s.modSeat n f).pending = s.pending := rfl
@[simp] theorem State.modSeat_free (s : State) (n : Nat) (f : Seat → Seat) : (s.modSeat n f).free = s.free := rfl
@[simp] theorem State.modSeat_resetLow (s : State) (n : Nat) (f : Seat → Seat) : (s.modSeat n f).resetLow = s.resetLow := rfl
@[simp] theorem State.modSeat_port (s : State) (n : Nat) (f : Seat → Seat) : (s.modSeat n f).port = s.port := rfl
@[simp] theorem State.modSeat_run (s : State) (n : Nat) (f : Seat → Seat) : (s.modSeat n f).run = s.run := rfl
@[simp] theorem State.modSeat_venue (s : State) (n : Nat) (f : Seat → Seat) : (s.modSeat n f).venue = s.venue := rfl
@[simp] theorem State.modSeat_notices (s : State) (n : Nat) (f : Seat → Seat) : (s.modSeat n f).notices = s.notices := rfl
@[simp] theorem State.modSeat_sections (s : State) (n : Nat) (f : Seat → Seat) : (s.modSeat n f).sections = s.sections := rfl
@[simp] theorem State.modSeat_walls (s : State) (n : Nat) (f : Seat → Seat) : (s.modSeat n f).walls = s.walls := rfl
@[simp] theorem State.modSeat_rooms (s : State) (n : Nat) (f : Seat → Seat) : (s.modSeat n f).rooms = s.rooms := rfl
@[simp] theorem State.modSeat_seats (s : State) (n : Nat) (f : Seat → Seat) : (s.modSeat n f).seats = s.seats.modify n f := rfl
@[simp] theorem State.modSeat_pool (s : State) (n : Nat) (f : Seat → Seat) : (s.modSeat n f).pool = s.pool := rfl
@[simp] theorem State.modSeat_speakers (s : State) (n : Nat) (f : Seat → Seat) : (s.modSeat n f).speakers = s.speakers := rfl
@[simp] theorem State.modSeat_chairs (s : State) (n : Nat) (f : Seat → Seat) : (s.modSeat n f).chairs = s.chairs := rfl
@[simp] theorem State.modSeat_selectors (s : State) (n : Nat) (f : Seat → Seat) : (s.modSeat n f).selectors = s.selectors := rfl
@[simp] theorem State.modSeat_trunks (s : State) (n : Nat) (f : Seat → Seat) : (s.modSeat n f).trunks = s.trunks := rfl
@[simp] theorem State.modSeat_languages (s : State) (n : Nat) (f : Seat → Seat) : (s.modSeat n f).languages = s.languages := rfl
@[simp] theorem State.modSeat_booths (s : State) (n : Nat) (f : Seat → Seat) : (s.modSeat n f).booths = s.booths := rfl
@[simp] theorem State.modSeat_carriers (s : State) (n : Nat) (f : Seat → Seat) : (s.modSeat n f).carriers = s.carriers := rfl
@[simp] theorem State.modSeat_programmes (s : State) (n : Nat) (f : Seat → Seat) : (s.modSeat n f).programmes = s.programmes := rfl
@[simp] theorem State.modSeat_shadow (s : State) (n : Nat) (f : Seat → Seat) : (s.modSeat n f).shadow = s.shadow := rfl
@[simp] theorem State.modSeat_sendList (s : State) (n : Nat) (f : Seat → Seat) : (s.modSeat n f).sendList = s.sendList := rfl
@[simp] theorem State.modSeat_radiatorLine (s : State) (n : Nat) (f : Seat → Seat) : (s.modSeat n f).radiatorLine = s.radiatorLine := rfl
@[simp] theorem State.modSeat_matrixLine (s : State) (n : Nat) (f : Seat → Seat) : (s.modSeat n f).matrixLine = s.matrixLine := rfl

@[simp] theorem State.modBooth_pending (s : State) (b : Nat) (f : Booth → Booth) : (s.modBooth b f).pending = s.pending := rfl
@[simp] theorem State.modBooth_free (s : State) (b : Nat) (f : Booth → Booth) : (s.modBooth b f).free = s.free := rfl
@[simp] theorem State.modBooth_resetLow (s : State) (b : Nat) (f : Booth → Booth) : (s.modBooth b f).resetLow = s.resetLow := rfl
@[simp] theorem State.modBooth_port (s : State) (b : Nat) (f : Booth → Booth) : (s.modBooth b f).port = s.port := rfl
@[simp] theorem State.modBooth_run (s : State) (b : Nat) (f : Booth → Booth) : (s.modBooth b f).run = s.run := rfl
@[simp] theorem State.modBooth_venue (s : State) (b : Nat) (f : Booth → Booth) : (s.modBooth b f).venue = s.venue := rfl
@[simp] theorem State.modBooth_notices (s : State) (b : Nat) (f : Booth → Booth) : (s.modBooth b f).notices = s.notices := rfl
@[simp] theorem State.modBooth_sections (s : State) (b : Nat) (f : Booth → Booth) : (s.modBooth b f).sections = s.sections := rfl
@[simp] theorem State.modBooth_walls (s : State) (b : Nat) (f : Booth → Booth) : (s.modBooth b f).walls = s.walls := rfl
@[simp] theorem State.modBooth_rooms (s : State) (b : Nat) (f : Booth → Booth) : (s.modBooth b f).rooms = s.rooms := rfl
@[simp] theorem State.modBooth_seats (s : State) (b : Nat) (f : Booth → Booth) : (s.modBooth b f).seats = s.seats := rfl
@[simp] theorem State.modBooth_pool (s : State) (b : Nat) (f : Booth → Booth) : (s.modBooth b f).pool = s.pool := rfl
@[simp] theorem State.modBooth_speakers (s : State) (b : Nat) (f : Booth → Booth) : (s.modBooth b f).speakers = s.speakers := rfl
@[simp] theorem State.modBooth_chairs (s : State) (b : Nat) (f : Booth → Booth) : (s.modBooth b f).chairs = s.chairs := rfl
@[simp] theorem State.modBooth_selectors (s : State) (b : Nat) (f : Booth → Booth) : (s.modBooth b f).selectors = s.selectors := rfl
@[simp] theorem State.modBooth_trunks (s : State) (b : Nat) (f : Booth → Booth) : (s.modBooth b f).trunks = s.trunks := rfl
@[simp] theorem State.modBooth_languages (s : State) (b : Nat) (f : Booth → Booth) : (s.modBooth b f).languages = s.languages := rfl
@[simp] theorem State.modBooth_booths (s : State) (b : Nat) (f : Booth → Booth) : (s.modBooth b f).booths = s.booths.modify b f := rfl
@[simp] theorem State.modBooth_carriers (s : State) (b : Nat) (f : Booth → Booth) : (s.modBooth b f).carriers = s.carriers := rfl
@[simp] theorem State.modBooth_programmes (s : State) (b : Nat) (f : Booth → Booth) : (s.modBooth b f).programmes = s.programmes := rfl
@[simp] theorem State.modBooth_shadow (s : State) (b : Nat) (f : Booth → Booth) : (s.modBooth b f).shadow = s.shadow := rfl
@[simp] theorem State.modBooth_sendList (s : State) (b : Nat) (f : Booth → Booth) : (s.modBooth b f).sendList = s.sendList := rfl
@[simp] theorem State.modBooth_radiatorLine (s : State) (b : Nat) (f : Booth → Booth) : (s.modBooth b f).radiatorLine = s.radiatorLine := rfl
@[simp] theorem State.modBooth_matrixLine (s : State) (b : Nat) (f : Booth → Booth) : (s.modBooth b f).matrixLine = s.matrixLine := rfl

@[simp] theorem State.spendFree_pending (s : State) : (s.spendFree).pending = s.pending := rfl
@[simp] theorem State.spendFree_free (s : State) : (s.spendFree).free = s.free + 1 := rfl
@[simp] theorem State.spendFree_resetLow (s : State) : (s.spendFree).resetLow = s.resetLow := rfl
@[simp] theorem State.spendFree_port (s : State) : (s.spendFree).port = s.port := rfl
@[simp] theorem State.spendFree_run (s : State) : (s.spendFree).run = s.run := rfl
@[simp] theorem State.spendFree_venue (s : State) : (s.spendFree).venue = s.venue := rfl
@[simp] theorem State.spendFree_notices (s : State) : (s.spendFree).notices = s.notices := rfl
@[simp] theorem State.spendFree_sections (s : State) : (s.spendFree).sections = s.sections := rfl
@[simp] theorem State.spendFree_walls (s : State) : (s.spendFree).walls = s.walls := rfl
@[simp] theorem State.spendFree_rooms (s : State) : (s.spendFree).rooms = s.rooms := rfl
@[simp] theorem State.spendFree_seats (s : State) : (s.spendFree).seats = s.seats := rfl
@[simp] theorem State.spendFree_pool (s : State) : (s.spendFree).pool = s.pool := rfl
@[simp] theorem State.spendFree_speakers (s : State) : (s.spendFree).speakers = s.speakers := rfl
@[simp] theorem State.spendFree_chairs (s : State) : (s.spendFree).chairs = s.chairs := rfl
@[simp] theorem State.spendFree_selectors (s : State) : (s.spendFree).selectors = s.selectors := rfl
@[simp] theorem State.spendFree_trunks (s : State) : (s.spendFree).trunks = s.trunks := rfl
@[simp] theorem State.spendFree_languages (s : State) : (s.spendFree).languages = s.languages := rfl
@[simp] theorem State.spendFree_booths (s : State) : (s.spendFree).booths = s.booths := rfl
@[simp] theorem State.spendFree_carriers (s : State) : (s.spendFree).carriers = s.carriers := rfl
@[simp] theorem State.spendFree_programmes (s : State) : (s.spendFree).programmes = s.programmes := rfl
@[simp] theorem State.spendFree_shadow (s : State) : (s.spendFree).shadow = s.shadow := rfl
@[simp] theorem State.spendFree_sendList (s : State) : (s.spendFree).sendList = s.sendList := rfl
@[simp] theorem State.spendFree_radiatorLine (s : State) : (s.spendFree).radiatorLine = s.radiatorLine := rfl
@[simp] theorem State.spendFree_matrixLine (s : State) : (s.spendFree).matrixLine = s.matrixLine := rfl

end Sys2Proof.Machine
end

