-- ==== Sys2Proof/Laws/Frame.lean ====
section
/-! SUPPORT. The frame of the primitive changes: which parts of the state a setter, a notice, a placing on a list
and the change of one record may change; and how frames compose. -/

namespace Sys2Proof.Machine
set_option Elab.async false
open Sys2Proof

/-! ## Composition -/

theorem Part.same_refl (p : Part) (s : State) : p.same s s := by
  cases p <;> first | rfl | exact fun _ => rfl

theorem Part.same_trans (p : Part) {s t u : State} (h : p.same s t) (k : p.same t u) : p.same s u := by
  cases p <;> first | exact Eq.trans k h | exact fun i => Eq.trans (k i) (h i)

theorem Changes.refl (cs : List Part) (s : State) : Changes cs s s := fun p _ => p.same_refl s

theorem Changes.trans {cs : List Part} {s t u : State} (h : Changes cs s t) (k : Changes cs t u) :
    Changes cs s u := fun p hp => p.same_trans (h p hp) (k p hp)

theorem Changes.mono {cs ds : List Part} {s t : State} (h : Changes cs s t) (hs : ∀ p ∈ cs, p ∈ ds) :
    Changes ds s t := fun p hp => h p (fun hc => hp (hs p hc))

/-- A frame in a wider one, the inclusion found by evaluation. -/
theorem Changes.widen {cs ds : List Part} {s t : State} (h : Changes cs s t)
    (hs : cs.all (fun p => decide (p ∈ ds)) = true := by decide +kernel) : Changes ds s t :=
  h.mono (fun p hp => by simpa using List.all_eq_true.1 hs p hp)

theorem Changes.foldl {α β : Type} {cs : List Part} (st : β → State) (f : β → α → β)
    (h : ∀ b a, Changes cs (st b) (st (f b a))) (l : List α) (b : β) : Changes cs (st b) (st (l.foldl f b)) := by
  induction l generalizing b with
  | nil => exact Changes.refl _ _
  | cons a t ih => exact (h b a).trans (ih (f b a))

theorem Changes.ite {cs : List Part} {c : Prop} [Decidable c] {s t u : State} (ht : Changes cs s t)
    (hu : Changes cs s u) : Changes cs s (if c then t else u) := by split <;> assumption

/-! ## Setters -/

theorem Changes.setPending {cs : List Part} (s : State) (x : List Instr) (h : .pending ∈ cs := by decide) :
    Changes cs s (s.setPending x) := by
  intro p hp; cases p <;> first | rfl | exact fun _ => rfl | exact absurd h hp

theorem Changes.setFree {cs : List Part} (s : State) (x : Nat) (h : .free ∈ cs := by decide) :
    Changes cs s (s.setFree x) := by
  intro p hp; cases p <;> first | rfl | exact fun _ => rfl | exact absurd h hp

theorem Changes.setResetLow {cs : List Part} (s : State) (x : Bool) (h : .resetLow ∈ cs := by decide) :
    Changes cs s (s.setResetLow x) := by
  intro p hp; cases p <;> first | rfl | exact fun _ => rfl | exact absurd h hp

theorem Changes.setPort {cs : List Part} (s : State) (x : Port) (h : .port ∈ cs := by decide) :
    Changes cs s (s.setPort x) := by
  intro p hp; cases p <;> first | rfl | exact fun _ => rfl | exact absurd h hp

theorem Changes.setRun {cs : List Part} (s : State) (x : RunState) (h : .run ∈ cs := by decide) :
    Changes cs s (s.setRun x) := by
  intro p hp; cases p <;> first | rfl | exact fun _ => rfl | exact absurd h hp

theorem Changes.setVenue {cs : List Part} (s : State) (x : Venue) (h : .venue ∈ cs := by decide) :
    Changes cs s (s.setVenue x) := by
  intro p hp; cases p <;> first | rfl | exact fun _ => rfl | exact absurd h hp

theorem Changes.setNotices {cs : List Part} (s : State) (x : NoticeQueue) (h : .notices ∈ cs := by decide) :
    Changes cs s (s.setNotices x) := by
  intro p hp; cases p <;> first | rfl | exact fun _ => rfl | exact absurd h hp

theorem Changes.setPool {cs : List Part} (s : State) (x : List Request) (h : .pool ∈ cs := by decide) :
    Changes cs s (s.setPool x) := by
  intro p hp; cases p <;> first | rfl | exact fun _ => rfl | exact absurd h hp

theorem Changes.setSpeakers {cs : List Part} (s : State) (x : List Speaker) (h : .speakers ∈ cs := by decide)
    (k : .timers ∈ cs := by decide) : Changes cs s (s.setSpeakers x) := by
  intro p hp; cases p <;> first | rfl | exact fun _ => rfl | exact absurd h hp | exact absurd k hp

theorem Changes.setChairs {cs : List Part} (s : State) (x : List Nat) (h : .chairs ∈ cs := by decide) :
    Changes cs s (s.setChairs x) := by
  intro p hp; cases p <;> first | rfl | exact fun _ => rfl | exact absurd h hp

theorem Changes.setSelectors {cs : List Part} (s : State) (x : Vector Selector 8)
    (h : .selectors ∈ cs := by decide) : Changes cs s (s.setSelectors x) := by
  intro p hp; cases p <;> first | rfl | exact fun _ => rfl | exact absurd h hp

theorem Changes.setLanguages {cs : List Part} (s : State) (x : FMap Language)
    (h : .languages ∈ cs := by decide) : Changes cs s (s.setLanguages x) := by
  intro p hp; cases p <;> first | rfl | exact fun _ => rfl | exact absurd h hp

theorem Changes.setCarriers {cs : List Part} (s : State) (x : Vector Carrier 32)
    (h : .carriers ∈ cs := by decide) : Changes cs s (s.setCarriers x) := by
  intro p hp; cases p <;> first | rfl | exact fun _ => rfl | exact absurd h hp

theorem Changes.setProgrammes {cs : List Part} (s : State) (x : List SectionNo)
    (h : .programmes ∈ cs := by decide) : Changes cs s (s.setProgrammes x) := by
  intro p hp; cases p <;> first | rfl | exact fun _ => rfl | exact absurd h hp

theorem Changes.setShadow {cs : List Part} (s : State) (x : Shadow) (h : .shadow ∈ cs := by decide) :
    Changes cs s (s.setShadow x) := by
  intro p hp; cases p <;> first | rfl | exact fun _ => rfl | exact absurd h hp

theorem Changes.setSendList {cs : List Part} (s : State) (x : List Entry) (h : .sendList ∈ cs := by decide) :
    Changes cs s (s.setSendList x) := by
  intro p hp; cases p <;> first | rfl | exact fun _ => rfl | exact absurd h hp

theorem Changes.setRadiatorLine {cs : List Part} (s : State) (x : List Byte)
    (h : .radiatorLine ∈ cs := by decide) : Changes cs s (s.setRadiatorLine x) := by
  intro p hp; cases p <;> first | rfl | exact fun _ => rfl | exact absurd h hp

theorem Changes.setMatrixLine {cs : List Part} (s : State) (x : List Byte)
    (h : .matrixLine ∈ cs := by decide) : Changes cs s (s.setMatrixLine x) := by
  intro p hp; cases p <;> first | rfl | exact fun _ => rfl | exact absurd h hp

theorem Changes.spendFree {cs : List Part} (s : State) (h : .free ∈ cs := by decide) :
    Changes cs s s.spendFree := Changes.setFree s _ h

/-! ## Records -/

/-- What a part says of one section record. -/
def Part.sameSection : Part → Section → Section → Prop
  | .settings, x, y => y.settings = x.settings
  | .composition, x, y => y.room = x.room
  | _, _, _ => True

/-- What a part says of one wall record. -/
def Part.sameWall : Part → Wall → Wall → Prop
  | .wallSetup, x, y => y.setup = x.setup
  | .wallSense, x, y => (y.made, y.sensed, y.interval) = (x.made, x.sensed, x.interval)
  | .wallState, x, y => (y.effective, y.pendingFlag) = (x.effective, x.pendingFlag)
  | _, _, _ => True

/-- What a part says of one room table entry. -/
def Part.sameRoom : Part → Room → Room → Prop
  | .frozen, x, y => y.frozen = x.frozen
  | .holds, x, y => (y.holding, y.holdAction) = (x.holding, x.holdAction)
  | .floorLanguage, x, y => y.floorLanguage = x.floorLanguage
  | .pin, x, y => y.pin = x.pin
  | .carriersHeld, x, y =>
    y.channels.map (fun h => (h.language, h.carrier)) = x.channels.map (fun h => (h.language, h.carrier))
  | .channelSources, x, y =>
    y.channels.map (fun h => (h.language, h.source)) = x.channels.map (fun h => (h.language, h.source))
  | _, _, _ => True

/-- What a part says of one trunk. -/
def Part.sameTrunk : Part → Trunk → Trunk → Prop
  | .trunkSetup, x, y => y.setup = x.setup
  | .line, x, y => (y.line, y.toPoll, y.hadGap, y.sending) = (x.line, x.toPoll, x.hadGap, x.sending)
  | .round, x, y => (y.roundCounter, y.releaseAll, y.rested) = (x.roundCounter, x.releaseAll, x.rested)
  | .indicators, x, y => y.indicators = x.indicators
  | .releases, x, y => y.releases = x.releases
  | .releasing, x, y => y.releasing = x.releasing
  | .rollCall, x, y => y.rollCall = x.rollCall
  | .access, x, y => y.access = x.access
  | .lastFrame, x, y => y.lastFrame = x.lastFrame
  | _, _, _ => True

/-- What a part says of one seat record, in use or free. -/
def Part.sameSeat : Part → Option Seat → Option Seat → Prop
  | .seatSetup, x, y => y.map Seat.setup = x.map Seat.setup
  | .seatBooth, x, y => y.map Seat.booth = x.map Seat.booth
  | .neighbours, x, y => y.map Seat.neighbours = x.map Seat.neighbours
  | .seatFlags, x, y => y.map (fun x : Seat => (x.lock, x.mark)) = x.map (fun x : Seat => (x.lock, x.mark))
  | .binding, x, y => y.map Seat.binding = x.map Seat.binding
  | .presence, x, y =>
    y.map (fun x : Seat => (x.present, x.misses)) = x.map (fun x : Seat => (x.present, x.misses))
  | .keyMark, x, y => y.map Seat.keyMark = x.map Seat.keyMark
  | _, _, _ => True

/-- What a part says of one booth record, in use or free. -/
def Part.sameBooth : Part → Option Booth → Option Booth → Prop
  | .boothSetup, x, y => y.map Booth.setup = x.map Booth.setup
  | .desks, x, y => y.map Booth.desks = x.map Booth.desks
  | .liveDesk, x, y => y.map Booth.live = x.map Booth.live
  | .listen, x, y => y.map Booth.listen = x.map Booth.listen
  | _, _, _ => True

theorem Changes.setSections {cs : List Part} (s : State) (v : Vector Section 16)
    (h : ∀ p, p ∉ cs → ∀ i : Fin 16, p.sameSection s.sections[i] v[i]) : Changes cs s (s.setSections v) := by
  intro p hp; have := h p hp; cases p <;> first | rfl | exact fun _ => rfl | exact this

theorem Changes.setWalls {cs : List Part} (s : State) (v : Vector Wall 24)
    (h : ∀ p, p ∉ cs → ∀ i : Fin 24, p.sameWall s.walls[i] v[i]) : Changes cs s (s.setWalls v) := by
  intro p hp; have := h p hp; cases p <;> first | rfl | exact fun _ => rfl | exact this

theorem Changes.setRooms {cs : List Part} (s : State) (v : Vector Room 16)
    (h : ∀ p, p ∉ cs → ∀ i : Fin 16, p.sameRoom s.rooms[i] v[i]) : Changes cs s (s.setRooms v) := by
  intro p hp; have := h p hp; cases p <;> first | rfl | exact fun _ => rfl | exact this

theorem Changes.setTrunks {cs : List Part} (s : State) (v : Vector Trunk 4)
    (h : ∀ p, p ∉ cs → ∀ i : Fin 4, p.sameTrunk s.trunks[i] v[i]) : Changes cs s (s.setTrunks v) := by
  intro p hp; have := h p hp; cases p <;> first | rfl | exact fun _ => rfl | exact this

theorem Changes.setSeats {cs : List Part} (s : State) (m : FMap Seat)
    (h : ∀ p, p ∉ cs → ∀ n, p.sameSeat (s.seats.get n) (m.get n)) : Changes cs s (s.setSeats m) := by
  intro p hp; have := h p hp; cases p <;> first | rfl | exact fun _ => rfl | exact this

theorem Changes.setBooths {cs : List Part} (s : State) (m : FMap Booth)
    (h : ∀ p, p ∉ cs → ∀ n, p.sameBooth (s.booths.get n) (m.get n)) : Changes cs s (s.setBooths m) := by
  intro p hp; have := h p hp; cases p <;> first | rfl | exact fun _ => rfl | exact this

theorem Part.sameSection_refl (p : Part) (x : Section) : p.sameSection x x := by cases p <;> first | rfl | trivial
theorem Part.sameWall_refl (p : Part) (x : Wall) : p.sameWall x x := by cases p <;> first | rfl | trivial
theorem Part.sameRoom_refl (p : Part) (x : Room) : p.sameRoom x x := by cases p <;> first | rfl | trivial
theorem Part.sameTrunk_refl (p : Part) (x : Trunk) : p.sameTrunk x x := by cases p <;> first | rfl | trivial
theorem Part.sameSeat_refl (p : Part) (x : Option Seat) : p.sameSeat x x := by cases p <;> first | rfl | trivial
theorem Part.sameBooth_refl (p : Part) (x : Option Booth) : p.sameBooth x x := by cases p <;> first | rfl | trivial

theorem Changes.modRoom {cs : List Part} (s : State) (l : SectionNo) (f : Room → Room)
    (h : ∀ p, p ∉ cs → ∀ x, p.sameRoom x (f x) := by
      intro p hp x; cases p <;> first | rfl | trivial | exact absurd (by decide) hp) :
    Changes cs s (s.modRoom l f) := by
  refine Changes.setRooms s _ (fun p hp i => ?_)
  rw [vmod_get]; split
  · exact h p hp _
  · exact p.sameRoom_refl _

theorem Changes.modTrunk {cs : List Part} (s : State) (t : TrunkNo) (f : Trunk → Trunk)
    (h : ∀ p, p ∉ cs → ∀ x, p.sameTrunk x (f x) := by
      intro p hp x; cases p <;> first | rfl | trivial | exact absurd (by decide) hp) :
    Changes cs s (s.modTrunk t f) := by
  refine Changes.setTrunks s _ (fun p hp i => ?_)
  rw [vmod_get]; split
  · exact h p hp _
  · exact p.sameTrunk_refl _

theorem Changes.modWall {cs : List Part} (s : State) (w : WallNo) (f : Wall → Wall)
    (h : ∀ p, p ∉ cs → ∀ x, p.sameWall x (f x) := by
      intro p hp x; cases p <;> first | rfl | trivial | exact absurd (by decide) hp) :
    Changes cs s (s.modWall w f) := by
  refine Changes.setWalls s _ (fun p hp i => ?_)
  rw [vmod_get]; split
  · exact h p hp _
  · exact p.sameWall_refl _

theorem Changes.modSeat {cs : List Part} (s : State) (n : Nat) (f : Seat → Seat)
    (h : ∀ p, p ∉ cs → ∀ x, p.sameSeat (some x) (some (f x)) := by
      intro p hp x; cases p <;> first | rfl | trivial | exact absurd (by decide) hp) :
    Changes cs s (s.modSeat n f) := by
  refine Changes.setSeats s _ (fun p hp k => ?_)
  rw [FMap.get_modify]; split
  · cases s.seats.get k with
    | none => exact p.sameSeat_refl _
    | some x => exact h p hp x
  · exact p.sameSeat_refl _

theorem Changes.modBooth {cs : List Part} (s : State) (b : Nat) (f : Booth → Booth)
    (h : ∀ p, p ∉ cs → ∀ x, p.sameBooth (some x) (some (f x)) := by
      intro p hp x; cases p <;> first | rfl | trivial | exact absurd (by decide) hp) :
    Changes cs s (s.modBooth b f) := by
  refine Changes.setBooths s _ (fun p hp k => ?_)
  rw [FMap.get_modify]; split
  · cases s.booths.get k with
    | none => exact p.sameBooth_refl _
    | some x => exact h p hp x
  · exact p.sameBooth_refl _

/-- Every record of the seat table changed, each within the parts. -/
theorem Changes.mapSeats {cs : List Part} (s : State) (f : Nat → Seat → Seat)
    (h : ∀ p, p ∉ cs → ∀ n x, p.sameSeat (some x) (some (f n x)) := by
      intro p hp n x; cases p <;> first | rfl | trivial | exact absurd (by decide) hp) :
    Changes cs s (s.setSeats (s.seats.map f)) := by
  refine Changes.setSeats s _ (fun p hp k => ?_)
  rw [FMap.get_map]
  cases s.seats.get k with
  | none => exact p.sameSeat_refl _
  | some x => exact h p hp k x

/-- Every record of the booth table changed, each within the parts. -/
theorem Changes.mapBooths {cs : List Part} (s : State) (f : Nat → Booth → Booth)
    (h : ∀ p, p ∉ cs → ∀ n x, p.sameBooth (some x) (some (f n x)) := by
      intro p hp n x; cases p <;> first | rfl | trivial | exact absurd (by decide) hp) :
    Changes cs s (s.setBooths (s.booths.map f)) := by
  refine Changes.setBooths s _ (fun p hp k => ?_)
  rw [FMap.get_map]
  cases s.booths.get k with
  | none => exact p.sameBooth_refl _
  | some x => exact h p hp k x

/-- A seat record set or freed changes only seat parts. -/
theorem Changes.seatTable {cs : List Part} (s : State) (m : FMap Seat)
    (h : seatParts.all (fun p => decide (p ∈ cs)) = true := by decide) : Changes cs s (s.setSeats m) := by
  refine Changes.setSeats s _ (fun p hp k => ?_)
  have hn : p ∉ seatParts := fun hc => hp (by simpa using List.all_eq_true.1 h p hc)
  cases p <;> trivial

/-- The parts of a booth record. -/
def boothParts : List Part := [.boothSetup, .desks, .liveDesk, .listen]

/-- A booth record set or freed changes only booth parts. -/
theorem Changes.boothTable {cs : List Part} (s : State) (m : FMap Booth)
    (h : boothParts.all (fun p => decide (p ∈ cs)) = true := by decide) : Changes cs s (s.setBooths m) := by
  refine Changes.setBooths s _ (fun p hp k => ?_)
  have hn : p ∉ boothParts := fun hc => hp (by simpa using List.all_eq_true.1 h p hc)
  cases p <;> trivial

/-! ## Notices, indicators, send list -/

/-- Generating a notice changes the notice queue at most. -/
theorem State.notify_changes {cs : List Part} (s : State) (n : Notice) (h : .notices ∈ cs := by decide) :
    Changes cs s (s.notify n) := by
  unfold State.notify; split
  · exact Changes.setNotices s _ h
  · exact Changes.refl _ _

theorem State.notifyAll_changes {cs : List Part} (s : State) (ns : List Notice)
    (h : .notices ∈ cs := by decide) : Changes cs s (ns.foldl State.notify s) :=
  Changes.foldl id State.notify (fun b a => State.notify_changes b a h) ns s

/-- Placing a seat changes an indicator list at most. -/
theorem State.placeIndicator_changes {cs : List Part} (s : State) (n : Nat)
    (h : .indicators ∈ cs := by decide) : Changes cs s (s.placeIndicator n) := by
  unfold State.placeIndicator; split
  · exact Changes.refl _ _
  · split
    · exact Changes.refl _ _
    · exact Changes.modTrunk s _ _ (by
        intro p hp x; cases p <;> first | rfl | trivial)

theorem State.placeAll_changes {cs : List Part} (s : State) (ns : List Nat)
    (h : .indicators ∈ cs := by decide) : Changes cs s (s.placeAll ns) :=
  Changes.foldl id State.placeIndicator (fun b a => State.placeIndicator_changes b a h) ns s

theorem State.placeChanged_changes {cs : List Part} (s before : State) (ns : List Nat)
    (h : .indicators ∈ cs := by decide) : Changes cs s (s.placeChanged before ns) :=
  State.placeAll_changes s _ h

theorem State.placeEntry_changes {cs : List Part} (s : State) (e : Entry) (h : .sendList ∈ cs := by decide) :
    Changes cs s (s.placeEntry e) := Changes.setSendList s _ h

theorem State.placeIfRunning_changes {cs : List Part} (s : State) (e : Entry)
    (h : .sendList ∈ cs := by decide) : Changes cs s (s.placeIfRunning e) := by
  unfold State.placeIfRunning; split
  · exact State.placeEntry_changes s e h
  · exact Changes.refl _ _

/-! ## Events -/

/-- What an event hands on to its end. -/
inductive Hand where
  | levels | seats | advance | listens | sources | zones
deriving DecidableEq, Repr

/-- Two events hand on the same of a kind. -/
def Hand.same : Hand → Ev → Ev → Prop
  | .levels, a, b => b.levels = a.levels
  | .seats, a, b => b.seats = a.seats
  | .advance, a, b => b.advance = a.advance
  | .listens, a, b => b.listens = a.listens
  | .sources, a, b => b.sources = a.sources
  | .zones, a, b => b.zones = a.zones

/-- An event goes on, changing its state within some parts and handing on more of some kinds. -/
structure Moves (cs : List Part) (hs : List Hand) (a b : Ev) : Prop where
  state : Changes cs a.st b.st
  hands : ∀ h, h ∉ hs → h.same a b

theorem Moves.refl (cs : List Part) (hs : List Hand) (e : Ev) : Moves cs hs e e :=
  ⟨Changes.refl _ _, fun h _ => by cases h <;> rfl⟩

theorem Moves.trans {cs : List Part} {hs : List Hand} {a b c : Ev} (h : Moves cs hs a b) (k : Moves cs hs b c) :
    Moves cs hs a c :=
  ⟨h.state.trans k.state, fun x hx => by
    have p := h.hands x hx; have q := k.hands x hx; cases x <;> exact q.trans p⟩

theorem Moves.widen {cs ds : List Part} {hs ks : List Hand} {a b : Ev} (h : Moves cs hs a b)
    (hc : cs.all (fun p => decide (p ∈ ds)) = true := by decide +kernel)
    (hk : hs.all (fun p => decide (p ∈ ks)) = true := by decide +kernel) : Moves ds ks a b :=
  ⟨h.state.widen hc, fun x hx => h.hands x (fun hm => hx (by simpa using List.all_eq_true.1 hk x hm))⟩

theorem Moves.on {cs : List Part} {hs : List Hand} (e : Ev) (f : State → State) (h : Changes cs e.st (f e.st)) :
    Moves cs hs e (e.on f) := ⟨h, fun x _ => by cases x <;> rfl⟩

theorem Moves.notify {cs : List Part} {hs : List Hand} (e : Ev) (n : Notice) (h : .notices ∈ cs := by decide) :
    Moves cs hs e (e.notify n) := Moves.on e _ (State.notify_changes _ _ h)

theorem Moves.place {cs : List Part} {hs : List Hand} (e : Ev) (n : Nat) (h : .indicators ∈ cs := by decide) :
    Moves cs hs e (e.place n) := Moves.on e _ (State.placeIndicator_changes _ _ h)

theorem Moves.handRoom {cs : List Part} {hs : List Hand} (e : Ev) (l : SectionNo)
    (h : .levels ∈ hs := by decide) : Moves cs hs e (e.handRoom l) :=
  ⟨Changes.refl _ _, fun x hx => by cases x <;> first | rfl | exact absurd h hx⟩

theorem Moves.handSeat {cs : List Part} {hs : List Hand} (e : Ev) (n : Nat) (h : .seats ∈ hs := by decide) :
    Moves cs hs e (e.handSeat n) :=
  ⟨Changes.refl _ _, fun x hx => by cases x <;> first | rfl | exact absurd h hx⟩

theorem Moves.markAdvance {cs : List Part} {hs : List Hand} (e : Ev) (l : SectionNo)
    (h : .advance ∈ hs := by decide) : Moves cs hs e (e.markAdvance l) :=
  ⟨Changes.refl _ _, fun x hx => by cases x <;> first | rfl | exact absurd h hx⟩

theorem Moves.markListen {cs : List Part} {hs : List Hand} (e : Ev) (l : SectionNo)
    (h : .listens ∈ hs := by decide) : Moves cs hs e (e.markListen l) :=
  ⟨Changes.refl _ _, fun x hx => by cases x <;> first | rfl | exact absurd h hx⟩

theorem Moves.markSources {cs : List Part} {hs : List Hand} (e : Ev) (l : SectionNo)
    (h : .sources ∈ hs := by decide) : Moves cs hs e (e.markSources l) :=
  ⟨Changes.refl _ _, fun x hx => by cases x <;> first | rfl | exact absurd h hx⟩

theorem Moves.markZones {cs : List Part} {hs : List Hand} (e : Ev) (l : SectionNo)
    (h : .zones ∈ hs := by decide) : Moves cs hs e (e.markZones l) :=
  ⟨Changes.refl _ _, fun x hx => by cases x <;> first | rfl | exact absurd h hx⟩

theorem Moves.handSeatRoom {cs : List Part} {hs : List Hand} (e : Ev) (n : Nat)
    (h : .levels ∈ hs := by decide) : Moves cs hs e (e.handSeatRoom n) := by
  unfold Ev.handSeatRoom; split
  · exact Moves.handRoom e _ h
  · exact Moves.refl _ _ _

theorem Moves.handDeskRoom {cs : List Part} {hs : List Hand} (e : Ev) (x : Seat)
    (h : .levels ∈ hs := by decide) : Moves cs hs e (e.handDeskRoom x) := by
  unfold Ev.handDeskRoom; split
  · exact Moves.handRoom e _ h
  · exact Moves.refl _ _ _

theorem Moves.foldl {α : Type} {cs : List Part} {hs : List Hand} (f : Ev → α → Ev)
    (h : ∀ b a, Moves cs hs b (f b a)) (l : List α) (b : Ev) : Moves cs hs b (l.foldl f b) := by
  induction l generalizing b with
  | nil => exact Moves.refl _ _ _
  | cons a t ih => exact (h b a).trans (ih (f b a))

theorem Moves.ite {cs : List Part} {hs : List Hand} {c : Prop} [Decidable c] {a b d : Ev} (hb : Moves cs hs a b)
    (hd : Moves cs hs a d) : Moves cs hs a (if c then b else d) := by split <;> assumption

/-! ## The send list -/

/-- An entry's value is read from the shadow alone. -/
theorem entryChanged_irrefl {s t : State} (h : t.shadow = s.shadow) (e : Entry) : ¬ entryChanged s t e := by
  cases e <;> simp [entryChanged, h]

/-- A change that leaves shadow and send list lists what it must: nothing. -/
theorem EntriesListed.of_same {s t : State} (h : t.shadow = s.shadow) (k : t.sendList = s.sendList) : EntriesListed s t :=
  ⟨fun _ => k, fun _ => ⟨[], by simp [k], fun e => by simp [entryChanged_irrefl h e], .nil⟩⟩

/-- A frame without shadow and send list lists nothing. -/
theorem Changes.entriesListed {cs : List Part} {s t : State} (h : Changes cs s t) (ha : .shadow ∉ cs := by decide)
    (hb : .sendList ∉ cs := by decide) : EntriesListed s t := .of_same (h .shadow ha) (h .sendList hb)

end Sys2Proof.Machine
end

