-- ==== Sys2Proof/Laws/Floor.lean ====
section
/-! SUPPORT. The frames of the operations an event is made of: the floor, levels and sources, desks, channels and
carriers, and the end of an event; and what placing seats on their indicator lists leaves. -/

namespace Sys2Proof.Machine
set_option Elab.async false
open Sys2Proof

/-! ## Levels and sources -/

theorem State.takeSeatLevels_changes (s : State) (n : Nat) :
    Changes [.shadow, .sendList] s (s.takeSeatLevels n) := by
  unfold State.takeSeatLevels
  dsimp only
  refine Changes.trans (Changes.setShadow s { s.shadow with
    seats := s.shadow.seats.store {} n (s.computedLevels n) }) ?_
  refine Changes.trans ?_ (Changes.ite (State.placeIfRunning_changes _ _) (Changes.refl _ _))
  refine Changes.trans ?_ (Changes.ite (State.placeIfRunning_changes _ _) (Changes.refl _ _))
  exact Changes.ite (State.placeIfRunning_changes _ _) (Changes.refl _ _)

theorem Ev.takeLevels_moves (e : Ev) : Moves [.shadow, .sendList] [.levels, .seats] e e.takeLevels :=
  ⟨Changes.foldl id _ State.takeSeatLevels_changes _ _, fun h hh => by
    cases h <;> first | rfl | exact absurd (by decide) hh⟩

/-- Placing an entry changes the send list at most. -/
def Places (place : State → Entry → State) : Prop := ∀ s e, Changes [.shadow, .sendList] s (place s e)

theorem places_running : Places State.placeIfRunning := fun s e => State.placeIfRunning_changes s e
theorem places_entry : Places State.placeEntry := fun s e => State.placeEntry_changes s e

theorem State.takeSources_changes {place : State → Entry → State} (hp : Places place) (s : State)
    (l : SectionNo) : Changes [.shadow, .sendList] s (s.takeSources place l) := by
  unfold State.takeSources
  refine Changes.trans (Changes.foldl id _ (fun s c => ?_) _ s) (Changes.foldl id _ (fun s c => ?_) _ _)
  · unfold State.takeListen
    exact Changes.ite (Changes.refl _ _) ((Changes.setShadow s _).trans (hp _ _))
  · unfold State.takeChannel
    exact Changes.ite (Changes.refl _ _) ((Changes.setShadow s _).trans (hp _ _))

theorem State.clearGone_changes {place : State → Entry → State} (hp : Places place) (s : State) :
    Changes [.shadow, .sendList] s (s.clearGone place) := by
  unfold State.clearGone
  refine Changes.trans (Changes.trans (Changes.foldl id _ (fun s c => ?_) _ s)
    (Changes.foldl id _ (fun s c => ?_) _ _)) (Changes.foldl id _ (fun s c => ?_) _ _)
  all_goals exact (Changes.setShadow s _).trans (hp _ _)

theorem Ev.takeSourcesWith_moves {place : State → Entry → State} (hp : Places place) (e : Ev) :
    Moves [.shadow, .sendList] [.sources] e (e.takeSourcesWith place) := by
  unfold Ev.takeSourcesWith; split
  · exact Moves.refl _ _ _
  · exact ⟨(Changes.foldl id _ (fun s l => State.takeSources_changes hp s l) _ _).trans
      (State.clearGone_changes hp _), fun h hh => by cases h <;> first | rfl | exact absurd (by decide) hh⟩

/-! ## Placements on the indicator lists -/

theorem placed_nil (s : State) : placed s s [] := fun _ => rfl

/-- Placements made one after another are placed in their order, the bindings standing between them. -/
theorem placed.append {s t u : State} {ms ns : List Nat} (hm : placed s t ms) (hn : placed t u ns)
    (hb : ∀ n, (t.seats.get n).bind Seat.binding = (s.seats.get n).bind Seat.binding) : placed s u (ms ++ ns) := by
  intro k
  rw [hn k, hm k, List.filter_append, List.foldl_append]
  simp only [hb]

/-- One placement of R36. -/
theorem State.placeIndicator_placed (s : State) (n : Nat) : placed s (s.placeIndicator n) [n] := by
  intro k
  unfold State.placeIndicator
  split
  · next h => simp [h]
  · next x h =>
    split
    · next hb => simp [h, hb]
    · next t a hb =>
      simp only [State.modTrunk_trunks, vmod_get]
      by_cases hk : k = t
      · subst hk; simp [h, hb]
      · simp [h, hb, Ne.symm hk]

@[simp] theorem State.placeIndicator_seats (s : State) (n : Nat) : (s.placeIndicator n).seats = s.seats := by
  unfold State.placeIndicator
  split
  · rfl
  · split <;> rfl

/-- Placements one after another (R36). -/
theorem State.placeAll_placed (s : State) (ns : List Nat) : placed s (s.placeAll ns) ns := by
  induction ns generalizing s with
  | nil => exact placed_nil s
  | cons n ns ih => exact (s.placeIndicator_placed n).append (ih _) (fun m => by simp)

/-! ## Interpretation -/

theorem State.passListen_changes (s : State) (l : SectionNo) :
    Changes [.listen, .notices] s (s.passListen l) := by
  unfold State.passListen
  refine (Changes.mapBooths s _ ?_).trans (State.notifyAll_changes _ _)
  intro p hp n x; split <;> (cases p <;> first | rfl | trivial)

theorem State.passChannels_changes (s : State) (l : SectionNo) :
    Changes [.channelSources] s (s.passChannels l) := by
  refine Changes.modRoom s l _ ?_
  intro p hp x
  cases p <;> first | rfl | trivial | simp [Part.sameRoom, Function.comp_def]

theorem Ev.recompute_moves (e : Ev) (l : SectionNo) :
    Moves [.listen, .notices, .channelSources] [.sources] e (e.recompute l) := by
  refine ⟨((State.passListen_changes _ _).widen).trans ((State.passChannels_changes _ _).widen),
    fun h hh => ?_⟩
  cases h <;> first | rfl | exact absurd (by decide) hh

theorem Ev.takeListens_moves (e : Ev) :
    Moves [.listen, .notices, .channelSources] [.sources, .listens] e e.takeListens := by
  unfold Ev.takeListens
  refine Moves.trans (b := { e with listens := [] }) ⟨Changes.refl _ _, fun h hh => ?_⟩
    (Moves.foldl _ (fun b a => (Ev.recompute_moves b a).widen) _ _)
  cases h <;> first | rfl | exact absurd (by decide) hh

theorem Ev.takeZones_moves (e : Ev) : Moves [.programmes] [.zones] e e.takeZones := by
  unfold Ev.takeZones State.joinProgrammes
  refine ⟨?_, fun h hh => by cases h <;> first | rfl | exact absurd (by decide) hh⟩
  split
  · exact Changes.refl _ _
  · exact Changes.setProgrammes _ _

/-! ## Desks -/

theorem Ev.changeDesk_moves (e : Ev) (n : Nat) (live : Option Nat) (a b : FloorState) (r : Reason) :
    Moves [.liveDesk, .notices, .indicators] [.levels, .listens] e (e.changeDesk n live a b r) := by
  unfold Ev.changeDesk; split
  · exact Moves.refl _ _ _
  · split
    · refine Moves.trans (b := { e with st := _ }) (Moves.mk ?_ ?_)
        ((Moves.handRoom _ _).trans (Moves.markListen _ _))
      · exact (((Changes.modBooth _ _ _)).trans (State.notify_changes _ _)).trans
          (State.placeChanged_changes _ _ _)
      · intro h _; cases h <;> rfl
    · exact Moves.refl _ _ _

theorem Ev.deskOff_moves (e : Ev) (n : Nat) (r : Reason) :
    Moves [.liveDesk, .notices, .indicators] [.levels, .listens] e (e.deskOff n r) :=
  Ev.changeDesk_moves e n none _ _ r

theorem Ev.deskOn_moves (e : Ev) (n : Nat) (r : Reason) :
    Moves [.liveDesk, .notices, .indicators] [.levels, .listens] e (e.deskOn n r) :=
  Ev.changeDesk_moves e n (some n) _ _ r

theorem Ev.deskOffIfLive_moves (e : Ev) (n : Nat) (r : Reason) :
    Moves [.liveDesk, .notices, .indicators] [.levels, .listens] e (e.deskOffIfLive n r) := by
  unfold Ev.deskOffIfLive; split
  · exact Moves.ite (Ev.deskOff_moves _ _ _) (Moves.refl _ _ _)
  · exact Moves.refl _ _ _

theorem Ev.deskKey_moves (e : Ev) (n : Nat) (x : Seat) :
    Moves [.liveDesk, .notices, .indicators] [.levels, .listens] e (e.deskKey n x) := by
  unfold Ev.deskKey; split
  · exact Moves.refl _ _ _
  · split
    · exact Moves.refl _ _ _
    · split
      · exact Ev.deskOff_moves _ _ _
      · split
        · exact Ev.deskOn_moves _ _ _
        · split
          · exact (Ev.deskOff_moves _ _ _).trans (Ev.deskOn_moves _ _ _)
          · exact (Moves.notify _ _).trans (Moves.place _ _)

theorem State.moveDesk_changes (s : State) (n : Nat) (a b : Option Nat) :
    Changes [.desks] s (s.moveDesk n a b) := by
  have leave : ∀ (s : State) (k : Nat), Changes [.desks] s (s.leaveBooth n k) := fun s k => Changes.modBooth s k _
  have join : ∀ (s : State) (k : Nat), Changes [.desks] s (s.joinBooth n k) := fun s k => Changes.modBooth s k _
  unfold State.moveDesk
  refine Changes.ite (Changes.refl _ _) ?_
  cases a <;> cases b
  · exact Changes.refl _ _
  · exact join _ _
  · exact leave _ _
  · exact (leave _ _).trans (join _ _)

/-! ## Channels and carriers -/

theorem State.setCarrier_changes (s : State) (l : SectionNo) (x : Nat) (c : Option CarrierNo) :
    Changes [.carriersHeld] s (s.setCarrier l x c) := by
  refine Changes.modRoom s l _ ?_
  intro p hp r
  cases p <;> first | rfl | trivial | exact absurd (by decide) hp | skip
  simp only [Part.sameRoom, List.map_map, Function.comp_def]
  refine List.map_congr_left (fun h _ => ?_)
  split <;> rfl

theorem Ev.retryOne_moves (l : SectionNo) (r : Reason) (e : Ev) (x : Nat) :
    Moves [.carriersHeld, .notices] [.zones] e (Ev.retryOne l r e x) := by
  unfold Ev.retryOne; split
  · exact Moves.refl _ _ _
  · exact ((Moves.on _ _ ((State.setCarrier_changes _ _ _ _).widen)).trans (Moves.notify _ _)).trans
      (Moves.markZones _ _)

theorem Ev.retry_moves (e : Ev) (l : SectionNo) (r : Reason) (skip : List Nat) :
    Moves [.carriersHeld, .notices] [.zones] e (e.retry l r skip) :=
  Moves.foldl _ (fun b a => Ev.retryOne_moves l r b a) _ _

theorem Ev.placeAdded_moves (l : SectionNo) (e : Ev) (x : Nat) :
    Moves [.carriersHeld, .notices] [.zones] e (Ev.placeAdded l e x) := by
  unfold Ev.placeAdded; split
  · exact Moves.notify _ _
  · exact (Moves.on _ _ ((State.setCarrier_changes _ _ _ _).widen)).trans (Moves.notify _ _)

theorem Ev.hop_moves (e : Ev) (l : SectionNo) (c : CarrierNo) (r : Reason) :
    Moves [.carriersHeld, .notices] [.zones] e (e.hop l c r) := by
  unfold Ev.hop; split
  · exact Moves.refl _ _ _
  · split
    · exact ((Moves.on _ _ ((State.setCarrier_changes _ _ _ _).widen)).trans (Moves.notify _ _)).trans
        (Moves.markZones _ _)
    · exact ((Moves.on _ _ ((State.setCarrier_changes _ _ _ _).widen)).trans (Moves.notify _ _)).trans
        (Moves.markZones _ _)

theorem State.formChannels_changes (s : State) (l : SectionNo) :
    Changes [.carriersHeld, .channelSources] s (s.formChannels l) := Changes.modRoom s l _

theorem Ev.handOn_moves (e : Ev) (w : SectionNo × List Nat × List Nat) :
    Moves [.carriersHeld, .notices] [.zones] e (e.handOn w) := by
  obtain ⟨l, gone, come⟩ := w
  unfold Ev.handOn
  have h1 : Moves [.carriersHeld, .notices] [.zones] e
      (if gone = [] then e else (e.retry l .unparked come).markZones l) :=
    Moves.ite (Moves.refl _ _ _) ((Ev.retry_moves _ _ _ _).trans (Moves.markZones _ _))
  refine Moves.ite h1 (h1.trans ((Moves.foldl _ (fun b a => Ev.placeAdded_moves l b a) _ _).trans
    (Moves.markZones _ _)))

theorem Ev.updateChannels_moves (e : Ev) (ls : List SectionNo) :
    Moves [.carriersHeld, .channelSources, .listen, .notices] [.zones, .sources, .listens] e
      (e.updateChannels ls) := by
  unfold Ev.updateChannels
  refine Moves.trans ?_ (Moves.foldl _ (fun b a => (Ev.handOn_moves b a).widen) _ _)
  refine Moves.trans (Moves.trans (Moves.on e (fun s =>
      (allSections.filter (fun l => decide (l ∈ ls))).foldl State.formChannels s)
    (Changes.foldl id State.formChannels (fun s l => (State.formChannels_changes s l).widen) _ e.st)) ?_)
    (Moves.foldl _ (fun b a => (Ev.recompute_moves b a).widen) _ _)
  exact ⟨Changes.refl _ _, fun h hh => by cases h <;> first | rfl | exact absurd (by decide) hh⟩

/-! ## The floor -/

/-- The parts a grant may change. -/
def grantParts : List Part := [.notices, .pool, .speakers, .timers, .chairs, .floorLanguage, .indicators]

/-- The parts a close may change. -/
def closeParts : List Part := [.notices, .speakers, .timers, .chairs, .indicators]

theorem Ev.join_moves (e : Ev) (n : Nat) (x : Seat) (hs : List Hand) :
    Moves [.notices, .pool, .indicators] hs e (e.join n x) :=
  ((Moves.on e _ (Changes.setPool _ _)).trans (Moves.notify _ _)).trans (Moves.place _ _)

/-- Withdrawing a request changes the pool, the notices and the seat's place on its indicator list. -/
theorem Ev.withdraw_moves (r : Reason) (e : Ev) (n : Nat) (hs : List Hand) :
    Moves [.notices, .pool, .indicators] hs e (Ev.withdraw r e n) :=
  ((Moves.on e _ (Changes.setPool _ _)).trans (Moves.notify _ _)).trans (Moves.place _ _)

theorem Ev.setLanguage_moves (e : Ev) (l : SectionNo) (v : Nat) :
    Moves [.floorLanguage] [.listens] e (e.setLanguage l v) := by
  unfold Ev.setLanguage
  exact Moves.ite (Moves.refl _ _ _) ((Moves.on e _ (Changes.modRoom _ _ _)).trans (Moves.markListen _ _))

theorem State.openSeat_changes (s : State) (l : SectionNo) (n : Nat) (x : Seat) :
    Changes [.pool, .speakers, .timers, .chairs] s (s.openSeat l n x) := by
  unfold State.openSeat
  split
  · exact (Changes.setPool _ _).trans (Changes.setSpeakers _ _)
  · exact (Changes.setPool _ _).trans (Changes.setChairs _ _)

/-- A grant changes the pool, the speaker list or chair set, the floor language, the notices and the seat's place
on its indicator list; it hands on its room and a changed language. -/
theorem Ev.grant_moves (e : Ev) (n : Nat) (r : Reason) :
    Moves grantParts [.levels, .listens] e (e.grant n r) := by
  unfold Ev.grant; split
  · exact Moves.refl _ _ _
  · refine Moves.trans (Moves.trans (Moves.trans ?_ (Moves.notify _ _)) (Moves.place _ _)) (Moves.handRoom _ _)
    refine Moves.ite (Moves.on e _ ((State.openSeat_changes _ _ _ _).widen)) ?_
    exact (Moves.on e _ ((State.openSeat_changes _ _ _ _).widen)).trans ((Ev.setLanguage_moves _ _ _).widen)

theorem State.shutSeat_changes (s : State) (n : Nat) :
    Changes [.speakers, .timers, .chairs] s (s.shutSeat n) :=
  (Changes.setSpeakers _ _).trans (Changes.setChairs _ _)

/-- A close changes the speaker list and chair set, the notices and the seat's place on its indicator list; it
hands on its room and, for a delegate, an auto-advance check. -/
theorem Ev.close_moves (r : Reason) (e : Ev) (n : Nat) :
    Moves closeParts [.levels, .advance] e (Ev.close r e n) := by
  unfold Ev.close; split
  · exact Moves.refl _ _ _
  · refine Moves.trans (Moves.trans (Moves.trans ?_ (Moves.notify _ _)) (Moves.place _ _)) (Moves.handRoom _ _)
    split
    · exact (Moves.on e _ ((State.shutSeat_changes _ _).widen)).trans (Moves.markAdvance _ _)
    · exact Moves.on e _ ((State.shutSeat_changes _ _).widen)

theorem Ev.replaceOldest_moves (e : Ev) (l : SectionNo) :
    Moves closeParts [.levels, .advance] e (e.replaceOldest l) := by
  unfold Ev.replaceOldest
  refine Moves.ite (Moves.refl _ _ _) ?_
  split
  · exact Ev.close_moves _ _ _
  · exact Moves.refl _ _ _

theorem Ev.advanceBy_moves (l : SectionNo) (k : Nat) (e : Ev) :
    Moves grantParts [.levels, .listens] e (Ev.advanceBy l k e) := by
  induction k generalizing e with
  | zero => exact Moves.refl _ _ _
  | succ k ih =>
    unfold Ev.advanceBy; split
    · exact Moves.refl _ _ _
    · exact (Ev.grant_moves _ _ _).trans (ih _)

theorem Ev.autoAdvance_moves (e : Ev) (l : SectionNo) :
    Moves grantParts [.levels, .listens] e (e.autoAdvance l) := Ev.advanceBy_moves l _ e

theorem Ev.takeAdvances_moves (e : Ev) :
    Moves grantParts [.levels, .listens, .advance] e e.takeAdvances := by
  unfold Ev.takeAdvances
  have h := Moves.foldl (cs := grantParts) (hs := [.levels, .listens, .advance]) Ev.autoAdvance
    (fun b a => (Ev.autoAdvance_moves b a).widen) (allSections.filter (fun l => decide (l ∈ e.advance))) e
  refine h.trans ⟨Changes.refl _ _, fun x hx => ?_⟩
  cases x <;> first | rfl | exact absurd (by decide) hx

/-- The end of an event takes what the event handed on, and nothing else. -/
theorem Ev.finish_changes (e : Ev) : Changes (.programmes :: floorParts) e.st e.finish := by
  unfold Ev.finish Ev.takeSources
  exact ((((e.takeAdvances_moves.widen (ks := [.levels, .listens, .advance, .sources, .zones, .seats])).trans
    e.takeAdvances.takeListens_moves.widen).trans
    e.takeAdvances.takeListens.takeZones_moves.widen).trans
    (Ev.takeLevels_moves _).widen).trans ((Ev.takeSourcesWith_moves places_running _).widen) |>.state

theorem Ev.takeAdvances_none (e : Ev) (h : e.advance = []) : e.takeAdvances = e := by
  obtain ⟨st, _, _, adv, _, _, _⟩ := e
  simp only at h; subst h
  simp [Ev.takeAdvances]

theorem Ev.takeListens_none (e : Ev) (h : e.listens = []) : e.takeListens = e := by
  obtain ⟨st, _, _, _, lis, _, _⟩ := e
  simp only at h; subst h
  simp [Ev.takeListens]

theorem Ev.takeZones_none (e : Ev) (h : e.zones = []) : e.takeZones = e := by
  obtain ⟨st, _, _, _, _, _, z⟩ := e
  simp only at h; subst h
  simp only [Ev.takeZones, State.joinProgrammes, List.not_mem_nil, decide_false, List.filter_false,
    List.flatMap_nil, List.foldl_nil]
  split <;> rfl

theorem Ev.levelSeats_none (e : Ev) (h : e.levels = []) (k : e.seats = []) : e.levelSeats = [] := by
  unfold Ev.levelSeats
  rw [h, k]
  dsimp only
  generalize hF : List.filter _ e.st.seats.cells = F
  have hn : F = [] := by
    rw [← hF, List.filter_eq_nil_iff]
    intro c _; split <;> simp
  rw [hn]; rfl

theorem Ev.takeLevels_none (e : Ev) (h : e.levels = []) (k : e.seats = []) : e.takeLevels = e := by
  unfold Ev.takeLevels
  rw [Ev.levelSeats_none e h k]
  obtain ⟨st, _, _, _, _, _, _⟩ := e
  simp only at h k; subst h; subst k; rfl

theorem Ev.takeSources_none (e : Ev) (h : e.sources = []) : e.takeSources = e := by
  unfold Ev.takeSources Ev.takeSourcesWith; rw [if_pos h]

/-- The end of an event that changed no channel list leaves the programme list. -/
theorem Ev.finish_changes_zones (e : Ev) (h : e.zones = []) : Changes floorParts e.st e.finish := by
  have hz : e.takeAdvances.takeListens.zones = [] := by
    have h1 := (Ev.takeAdvances_moves e).hands .zones (by decide)
    have h2 := (Ev.takeListens_moves e.takeAdvances).hands .zones (by decide)
    exact (h2.trans h1).trans h
  unfold Ev.finish Ev.takeSources
  rw [Ev.takeZones_none _ hz]
  exact (((e.takeAdvances_moves.widen (ks := [.levels, .listens, .advance, .sources, .zones, .seats])).trans
    e.takeAdvances.takeListens_moves.widen).trans
    (Ev.takeLevels_moves _).widen).trans ((Ev.takeSourcesWith_moves places_running _).widen) |>.state

/-- The end of an event that closed no delegate and changed no channel list recomputes sources and levels. -/
theorem Ev.finish_changes_sources (e : Ev) (h : e.advance = []) (k : e.zones = []) :
    Changes sourceParts e.st e.finish := by
  unfold Ev.finish Ev.takeSources
  rw [Ev.takeAdvances_none _ h]
  have hz : e.takeListens.zones = [] := ((Ev.takeListens_moves e).hands .zones (by decide)).trans k
  rw [Ev.takeZones_none _ hz]
  exact ((e.takeListens_moves.widen (ks := [.levels, .listens, .advance, .sources, .zones, .seats])).trans
    (Ev.takeLevels_moves _).widen).trans ((Ev.takeSourcesWith_moves places_running _).widen) |>.state

/-- The end of an event that only changed channel lists hands them to the programme list. -/
theorem Ev.finish_changes_programmes (e : Ev) (h : e.advance = []) (k : e.listens = []) (h1 : e.levels = [])
    (h2 : e.seats = []) (h3 : e.sources = []) : Changes [.programmes] e.st e.finish := by
  unfold Ev.finish
  rw [Ev.takeAdvances_none _ h, Ev.takeListens_none _ k]
  have m := Ev.takeZones_moves e
  rw [Ev.takeLevels_none _ ((m.hands .levels (by decide)).trans h1) ((m.hands .seats (by decide)).trans h2),
    Ev.takeSources_none _ ((m.hands .sources (by decide)).trans h3)]
  exact m.state

/-- The end of an event that handed nothing on is its state. -/
theorem Ev.finish_none (e : Ev) (h : e.advance = []) (k : e.listens = []) (h1 : e.levels = [])
    (h2 : e.seats = []) (h3 : e.sources = []) (h4 : e.zones = []) : e.finish = e.st := by
  unfold Ev.finish
  rw [Ev.takeAdvances_none _ h, Ev.takeListens_none _ k, Ev.takeZones_none _ h4, Ev.takeLevels_none _ h1 h2,
    Ev.takeSources_none _ h3]

/-! ## Holds, limits, keys -/

theorem Ev.placeSpeakers_moves (e : Ev) (l : SectionNo) (hs : List Hand) :
    Moves [.indicators] hs e (e.placeSpeakers l) := Moves.on e _ (State.placeAll_changes _ _)

theorem Ev.startHold_moves (e : Ev) (l : SectionNo) :
    Moves (.holds :: closeParts) [.levels, .advance] e (e.startHold l) := by
  unfold Ev.startHold
  have h : Moves (.holds :: closeParts) [.levels, .advance] e
      ((e.on (fun s => s.modRoom l (fun r => { r with holdAction := some (e.st.settings l).priorityAction }))).handRoom
        l) := (Moves.on e _ (Changes.modRoom _ _ _)).trans (Moves.handRoom _ _)
  dsimp only
  cases ha : (e.st.settings l).priorityAction <;> rw [ha] at h
  · exact h.trans ((Ev.placeSpeakers_moves _ _ []).widen)
  · exact h.trans (Moves.foldl _ (fun b a => (Ev.close_moves .priority b a).widen) _ _)

theorem Ev.endHold_moves (e : Ev) (l : SectionNo) :
    Moves (.holds :: closeParts) [.levels, .advance] e (e.endHold l) := by
  unfold Ev.endHold
  have h : Moves (.holds :: closeParts) [.levels, .advance] e
      ((e.on (fun s => s.modRoom l (fun r => { r with holdAction := none }))).handRoom l) :=
    (Moves.on e _ (Changes.modRoom _ _ _)).trans (Moves.handRoom _ _)
  dsimp only
  split
  · exact h.trans ((Ev.placeSpeakers_moves _ _ []).widen)
  · exact h.trans (Moves.markAdvance _ _)
  · exact h

theorem Ev.priorityDown_moves (e : Ev) (n : Nat) (x : Seat) :
    Moves (.holds :: closeParts) [.levels, .advance] e (e.priorityDown n x) := by
  unfold Ev.priorityDown
  have h : Moves (.holds :: closeParts) [.levels, .advance] e
      (e.on (fun s => s.modRoom (e.st.roomOf x.section_) (fun r =>
        { r with holding := (e.st.rooms[e.st.roomOf x.section_]).holding ++ [n] }))) :=
    Moves.on e _ (Changes.modRoom _ _ _)
  exact Moves.ite (Moves.refl _ _ _) (Moves.ite (h.trans (Ev.startHold_moves _ _)) h)

theorem Ev.priorityUp_moves (e : Ev) (n : Nat) (x : Seat) :
    Moves (.holds :: closeParts) [.levels, .advance] e (e.priorityUp n x) := by
  unfold Ev.priorityUp
  dsimp only
  split
  · have h : Moves (.holds :: closeParts) [.levels, .advance] e
        (e.on (fun s => s.modRoom (e.st.roomOf x.section_) (fun r =>
          { r with holding := (e.st.rooms[e.st.roomOf x.section_]).holding.filter (fun c => decide (c ≠ n)) }))) :=
      Moves.on e _ (Changes.modRoom _ _ _)
    exact Moves.ite (h.trans (Ev.endHold_moves _ _)) h
  · exact Moves.refl _ _ _

theorem Ev.nextIn_moves (e : Ev) (l : SectionNo) :
    Moves grantParts [.levels, .listens, .advance] e (e.nextIn l).2 := by
  unfold Ev.nextIn; split
  · exact Moves.refl _ _ _
  · split
    · exact (Ev.grant_moves _ _ _).widen
    · split
      · exact ((Ev.replaceOldest_moves _ _).widen).trans ((Ev.grant_moves _ _ _).widen)
      · exact Moves.refl _ _ _

theorem Ev.joinOrRefuse_moves (e : Ev) (l : SectionNo) (n : Nat) (x : Seat) (hs : List Hand) :
    Moves [.notices, .pool, .indicators] hs e (e.joinOrRefuse l n x) :=
  Moves.ite (Ev.join_moves _ _ _ _) (Moves.notify _ _)

theorem Ev.idleKey_moves (e : Ev) (n : Nat) (x : Seat) :
    Moves grantParts [.levels, .listens, .advance] e (e.idleKey n x) := by
  unfold Ev.idleKey
  dsimp only
  split
  · exact Moves.notify _ _
  · exact (Ev.joinOrRefuse_moves _ _ _ _ _).widen (hs := [])
  · exact Moves.ite (Ev.grant_moves _ _ _).widen ((Ev.joinOrRefuse_moves _ _ _ _ _).widen (hs := []))
  · exact (Ev.joinOrRefuse_moves _ _ _ _ _).widen (hs := [])
  · exact (Ev.replaceOldest_moves _ _).widen.trans (Ev.grant_moves _ _ _).widen

theorem Ev.delegateKey_moves (e : Ev) (n : Nat) (x : Seat) :
    Moves grantParts [.levels, .listens, .advance] e (e.delegateKey n x) := by
  unfold Ev.delegateKey
  split
  · exact Moves.ite (Moves.notify _ _) (Ev.idleKey_moves _ _ _)
  · exact (Ev.withdraw_moves _ _ _ _).widen (hs := [])
  · exact (Ev.close_moves _ _ _).widen
  · exact (Ev.close_moves _ _ _).widen
  · exact Moves.refl _ _ _
  · exact Moves.refl _ _ _

theorem Ev.chairKey_moves (e : Ev) (n : Nat) (x : Seat) :
    Moves grantParts [.levels, .listens, .advance] e (e.chairKey n x) :=
  Moves.ite (Ev.close_moves _ _ _).widen (Moves.ite (Moves.notify _ _) (Ev.grant_moves _ _ _).widen)

theorem Ev.chairNext_moves (e : Ev) (n : Nat) (x : Seat) :
    Moves grantParts [.levels, .listens, .advance] e (e.chairNext n x) := by
  unfold Ev.chairNext
  have h := Ev.nextIn_moves e (e.st.roomOf x.section_)
  split
  · exact Moves.notify _ _
  · exact Moves.notify _ _
  · rename_i done _ _ heq; rw [heq] at h; exact h

theorem Ev.applySpeakerLimit_moves (e : Ev) (l : SectionNo) (r : Reason) :
    Moves closeParts [.levels, .advance] e (e.applySpeakerLimit l r) :=
  Moves.foldl _ (fun b a => Ev.close_moves r b a) _ _

theorem Ev.applyQueueLimit_moves (e : Ev) (l : SectionNo) (r : Reason) (hs : List Hand) :
    Moves [.notices, .pool, .indicators] hs e (e.applyQueueLimit l r) :=
  Moves.foldl _ (fun b a => Ev.withdraw_moves r b a hs) _ _

theorem Ev.leaveFloor_moves (e : Ev) (n : Nat) (r : Reason) :
    Moves grantParts [.levels, .advance] e (e.leaveFloor n r) := by
  unfold Ev.leaveFloor
  have h : Moves grantParts [.levels, .advance] e (if e.st.waiting n then Ev.withdraw r e n else e) :=
    Moves.ite ((Ev.withdraw_moves _ _ _ _).widen (hs := [])) (Moves.refl _ _ _)
  exact Moves.ite (h.trans (Ev.close_moves _ _ _).widen) h

theorem Ev.floorLoss_moves (e : Ev) (n : Nat) (x : Seat) :
    Moves (.holds :: grantParts) [.levels, .advance] e (e.floorLoss n x) :=
  ((Ev.leaveFloor_moves _ _ _).widen).trans ((Ev.priorityUp_moves _ _ _).widen)

theorem Ev.clearRoom_moves (r : Reason) (e : Ev) (l : SectionNo) :
    Moves grantParts [.levels, .advance] e (Ev.clearRoom r e l) := by
  unfold Ev.clearRoom
  exact ((Moves.foldl _ (fun b a => (Ev.close_moves r b a).widen) _ _).trans
    (Moves.foldl _ (fun b a => (Ev.close_moves r b a).widen) _ _)).trans
    (Moves.foldl _ (fun b a => (Ev.withdraw_moves r b a []).widen) _ _)

theorem State.setTimer_changes (s : State) (n : Nat) (t : Option Timer) :
    Changes [.timers] s (s.setTimer n t) := by
  intro p hp
  cases p <;> first | rfl | exact fun _ => rfl | exact absurd (by decide) hp | skip
  show (s.speakers.map _).map Speaker.seat = _
  rw [List.map_map]
  refine List.map_congr_left (fun x _ => ?_)
  simp only [Function.comp]; split <;> rfl

end Sys2Proof.Machine
end

