-- ==== Sys2Proof/Laws/PerInstr.lean ====
section
/-! SUPPORT. The family `Framed`, one lemma per command: the frame of a request begins with the sync byte and holds a
complete header (R158, R168); a command that is no request has no frame. -/

namespace Sys2Proof.Laws
open Sys2Proof Sys2Proof.Machine

/-- The frame of a request begins with the sync byte and holds a complete header. -/
def Framed.Statement (i : Instr) : Prop :=
  ∀ frame, encodeRequest i = some frame → frame.head? = some 0xA5#8 ∧ 7 ≤ frame.length

/-- A request frame begins with the sync byte and holds a complete header. -/
theorem framed_requestFrame (kind table : Byte) (key : Half) (fields : List Byte) :
    (requestFrame kind table key fields).head? = some 0xA5#8 ∧ 7 ≤ (requestFrame kind table key fields).length := by
  refine ⟨rfl, ?_⟩
  simp only [requestFrame, bytes2, List.length_append, List.length_cons, List.length_nil]
  omega

/-- A command whose frame is a request frame is framed. -/
theorem framed_of {i : Instr} {kind table : Byte} {key : Half} {fields : List Byte}
    (h : encodeRequest i = some (requestFrame kind table key fields)) : Framed.Statement i := by
  intro frame hf
  rw [h] at hf
  obtain rfl := Option.some.inj hf
  exact framed_requestFrame kind table key fields

/-- A command without a frame is framed. -/
theorem framed_none {i : Instr} (h : encodeRequest i = none) : Framed.Statement i := by
  intro frame hf
  rw [h] at hf
  cases hf

theorem Framed.hardwareReset : Framed.Statement (.hardwareReset) := framed_none rfl
theorem Framed.resetAsserted : Framed.Statement (.resetAsserted) := framed_none rfl
theorem Framed.transferInReset (ended : Bool) : Framed.Statement (.transferInReset ended) := framed_none rfl
theorem Framed.notReadyTransfer : Framed.Statement (.notReadyTransfer) := framed_none rfl
theorem Framed.noOp : Framed.Statement (.noOp) := framed_of rfl
theorem Framed.read (table : Table) (key : Half) : Framed.Statement (.read table key) := framed_of rfl
theorem Framed.writeVenue (key : Half) (f : VenueWrite) : Framed.Statement (.writeVenue key f) := framed_of rfl
theorem Framed.writeSection (key : Half) (f : SectionWrite) : Framed.Statement (.writeSection key f) := framed_of rfl
theorem Framed.writeWall (key : Half) (f : WallWrite) : Framed.Statement (.writeWall key f) := framed_of rfl
theorem Framed.writeSeat (key : Half) (f : SeatWrite) : Framed.Statement (.writeSeat key f) := framed_of rfl
theorem Framed.writeBooth (key : Half) (f : BoothWrite) : Framed.Statement (.writeBooth key f) := framed_of rfl
theorem Framed.writeLanguage (key : Half) (f : LanguageWrite) : Framed.Statement (.writeLanguage key f) := framed_of rfl
theorem Framed.writeCarrier (key : Half) (f : CarrierWrite) : Framed.Statement (.writeCarrier key f) := framed_of rfl
theorem Framed.writeSelector (key : Half) (f : SelectorWrite) : Framed.Statement (.writeSelector key f) := framed_of rfl
theorem Framed.writeTrunk (key : Half) (f : TrunkWrite) : Framed.Statement (.writeTrunk key f) := framed_of rfl
theorem Framed.retireSeat (key : Half) : Framed.Statement (.retireSeat key) := framed_of rfl
theorem Framed.retireBooth (key : Half) : Framed.Statement (.retireBooth key) := framed_of rfl
theorem Framed.retireLanguage (key : Half) : Framed.Statement (.retireLanguage key) := framed_of rfl
theorem Framed.start : Framed.Statement (.start) := framed_of rfl
theorem Framed.stop : Framed.Statement (.stop) := framed_of rfl
theorem Framed.freeze (key : Half) : Framed.Statement (.freeze key) := framed_of rfl
theorem Framed.thaw (key : Half) : Framed.Statement (.thaw key) := framed_of rfl
theorem Framed.grant (key : Half) : Framed.Statement (.grant key) := framed_of rfl
theorem Framed.close (key : Half) : Framed.Statement (.close key) := framed_of rfl
theorem Framed.withdraw (key : Half) : Framed.Statement (.withdraw key) := framed_of rfl
theorem Framed.promote (key : Half) : Framed.Statement (.promote key) := framed_of rfl
theorem Framed.next (key : Half) : Framed.Statement (.next key) := framed_of rfl
theorem Framed.clearFloor (key : Half) : Framed.Statement (.clearFloor key) := framed_of rfl
theorem Framed.pin (key : Half) (language : Byte) : Framed.Statement (.pin key language) := framed_of rfl
theorem Framed.unpin (key : Half) : Framed.Statement (.unpin key) := framed_of rfl
theorem Framed.extend (key : Half) : Framed.Statement (.extend key) := framed_of rfl
theorem Framed.select (key : Half) : Framed.Statement (.select key) := framed_of rfl
theorem Framed.closeMarked (key : Half) : Framed.Statement (.closeMarked key) := framed_of rfl
theorem Framed.rollCall (key : Half) : Framed.Statement (.rollCall key) := framed_of rfl
theorem Framed.unitAccess (key : Half) (address parameter direction : Byte) (value : Half) : Framed.Statement (.unitAccess key address parameter direction value) := framed_of rfl
theorem Framed.resend : Framed.Statement (.resend) := framed_of rfl
theorem Framed.takeNotice : Framed.Statement (.takeNotice) := framed_of rfl
theorem Framed.clearOverflow : Framed.Statement (.clearOverflow) := framed_of rfl
theorem Framed.rawContactChange (wall : WallNo) (made : Bool) : Framed.Statement (.rawContactChange wall made) := framed_none rfl
theorem Framed.debounceEnd (wall : WallNo) : Framed.Statement (.debounceEnd wall) := framed_none rfl
theorem Framed.pollSend (trunk : TrunkNo) : Framed.Statement (.pollSend trunk) := framed_none rfl
theorem Framed.pollReply (trunk : TrunkNo) (bytes : List Byte) : Framed.Statement (.pollReply trunk bytes) := framed_none rfl
theorem Framed.pollNoReply (trunk : TrunkNo) : Framed.Statement (.pollNoReply trunk) := framed_none rfl
theorem Framed.indicatorSend (trunk : TrunkNo) : Framed.Statement (.indicatorSend trunk) := framed_none rfl
theorem Framed.releaseSend (trunk : TrunkNo) : Framed.Statement (.releaseSend trunk) := framed_none rfl
theorem Framed.accessSend (trunk : TrunkNo) : Framed.Statement (.accessSend trunk) := framed_none rfl
theorem Framed.accessReply (trunk : TrunkNo) (bytes : List Byte) : Framed.Statement (.accessReply trunk bytes) := framed_none rfl
theorem Framed.accessNoReply (trunk : TrunkNo) : Framed.Statement (.accessNoReply trunk) := framed_none rfl
theorem Framed.roundStart (trunk : TrunkNo) : Framed.Statement (.roundStart trunk) := framed_none rfl
theorem Framed.slotSend (trunk : TrunkNo) : Framed.Statement (.slotSend trunk) := framed_none rfl
theorem Framed.slotReply (trunk : TrunkNo) (bytes : List Byte) : Framed.Statement (.slotReply trunk bytes) := framed_none rfl
theorem Framed.slotEmpty (trunk : TrunkNo) : Framed.Statement (.slotEmpty trunk) := framed_none rfl
theorem Framed.mainExpiry (seat : Nat) : Framed.Statement (.mainExpiry seat) := framed_none rfl
theorem Framed.graceExpiry (seat : Nat) : Framed.Statement (.graceExpiry seat) := framed_none rfl
theorem Framed.noiseReport (bytes : List Byte) : Framed.Statement (.noiseReport bytes) := framed_none rfl
theorem Framed.zoneProgrammeSend : Framed.Statement (.zoneProgrammeSend) := framed_none rfl
theorem Framed.matrixMessageSend : Framed.Statement (.matrixMessageSend) := framed_none rfl
theorem Framed.transferAccepted : Framed.Statement (.transferAccepted) := framed_none rfl
theorem Framed.badFrameRequest (bytes : List Byte) : Framed.Statement (.badFrameRequest bytes) := framed_none rfl
theorem Framed.lateReply (trunk : TrunkNo) (bytes : List Byte) : Framed.Statement (.lateReply trunk bytes) := framed_none rfl

end Sys2Proof.Laws
end

