-- ==== Sys2Proof/Laws/Port.lean ====
section
/-! SUPPORT. What a host request does around its own effect, once for all requests (R156, R157, R171). -/

namespace Sys2Proof.Machine
open Sys2Proof

/-- The port as the request's checks and effect find it. -/
def State.acceptedPort (s : State) : Port :=
  match s.port.phase with
  | .free => { phase := .taking, buffer := none, shift := .bytes (match s.port.buffer with
      | some r => s.responseBytes r
      | none => []) }
  | _ => s.port

/-- The state a request's checks and effect find: only the port differs. -/
def State.accepted (s : State) : State := s.setPort s.acceptedPort

/-- A request the port takes: its checks and effect run on the accepted state, and the response fills the
buffer. -/
theorem State.request_taken (s : State) (take : State → State × Response) (h : s.takes) :
    s.request take = ((take s.accepted).1).setPort (s.portAfter (take s.accepted).2) := by
  obtain ⟨h1, h2⟩ := h
  unfold State.request
  rw [h1]
  simp only [Bool.false_eq_true, if_false]
  cases hp : s.port.phase with
  | free =>
    simp only [State.takeRequest, State.accepted, State.acceptedPort, State.portAfter, hp, State.acceptTransfer]
    rfl
  | taking =>
    have : s.accepted = s := by
      simp only [State.accepted, State.acceptedPort, hp]; rfl
    simp only [this, State.takeRequest, State.portAfter, hp]
  | inHand =>
    have : s.accepted = s := by
      simp only [State.accepted, State.acceptedPort, hp]; rfl
    simp only [this, State.takeRequest, State.portAfter, hp]
  | stale => exact absurd hp h2

/-- A request the port does not take is a dead transfer. -/
theorem State.request_dead (s : State) (take : State → State × Response)
    (h : s.resetLow = true ∨ s.port.phase = .stale) : s.request take = s.deadTransfer := by
  unfold State.request
  rcases h with h | h
  · rw [h]; rfl
  · rw [h]; simp

/-- A request changes what its effect changes, and the port. -/
theorem State.request_changes {cs : List Part} (s : State) (take : State → State × Response)
    (h : ∀ u, Changes cs u (take u).1) (hp : .port ∈ cs := by decide) : Changes cs s (s.request take) := by
  by_cases ht : s.takes
  · rw [State.request_taken s take ht]
    exact ((Changes.setPort s _ hp).trans (h _)).trans (Changes.setPort _ _ hp)
  · rw [State.request_dead s take (by
      unfold State.takes at ht
      by_cases hr : s.resetLow = true
      · exact Or.inl hr
      · exact Or.inr (Classical.not_not.1 (fun hs => ht ⟨by simpa using hr, hs⟩)))]
    exact Changes.setPort _ _ hp

/-- A request whose checks refuse it changes only the port. -/
theorem checked_changes {α : Type} {cs : List Part} (c : Checked α) (effect : α → State × Response) (s : State)
    (h : ∀ x, Changes cs s (effect x).1) : Changes cs s (checked c effect s).1 := by
  cases c with
  | error st => exact Changes.refl _ _
  | ok x => exact h x

/-- Under RESET an event is not taken. -/
theorem State.outOfReset_changes {cs : List Part} (s : State) (f : State → State) (h : Changes cs s (f s)) :
    Changes cs s (s.outOfReset f) := Changes.ite (Changes.refl _ _) h

/-- A taken request is answered. -/
theorem answers_of (c : Instr) (s : State) (take : State → State × Response) (h : s.takes)
    (he : exec c s = .next (s.request take)) :
    answers c s (take s.accepted).2 (((take s.accepted).1).setPort (s.portAfter (take s.accepted).2)) := by
  refine ⟨?_, rfl⟩
  rw [he, State.request_taken s take h]

end Sys2Proof.Machine
end

