-- ==== Sys2Proof/Laws/Trunks.lean ====
section
/-! SUPPORT. The frames of the Trunk Controllers' operations. -/

namespace Sys2Proof.Machine
set_option Elab.async false
open Sys2Proof

theorem State.sendTrunk_changes (s : State) (t : TrunkNo) (b : List Byte) :
    Changes [.lastFrame, .releasing, .line] s (s.sendTrunk t b) := Changes.modTrunk s t _

theorem State.frameDone_changes (s : State) (t : TrunkNo) : Changes [.line] s (s.frameDone t) :=
  Changes.modTrunk s t _

/-- A trunk that the controller sends on drives DIR high, but under RESET. -/
@[simp] theorem State.sendTrunk_dirPin (s : State) (t : TrunkNo) (b : List Byte) :
    (s.sendTrunk t b).dirPin t = !s.resetLow := by
  simp only [State.dirPin, State.sendTrunk, State.modTrunk_resetLow, State.modTrunk_trunks, vmod_get,
    if_true, Trunk.send, Bool.and_true]

/-- A trunk whose frame is complete drives DIR low. -/
@[simp] theorem State.frameDone_dirPin (s : State) (t : TrunkNo) : (s.frameDone t).dirPin t = false := by
  simp only [State.dirPin, State.frameDone, State.modTrunk_trunks, vmod_get, if_true, Bool.and_false]

/-! ## Scan rounds -/

theorem State.beginRound_changes (s : State) (t : TrunkNo) : Changes [.line] s (s.beginRound t) := by
  unfold State.beginRound; split <;> exact Changes.modTrunk s t _

theorem State.endRound_changes (s : State) (t : TrunkNo) : Changes [.line, .round] s (s.endRound t) := by
  unfold State.endRound
  refine Changes.ite ?_ ?_
  · exact (Changes.modTrunk s t _).trans (Changes.modTrunk _ t _)
  · exact (Changes.modTrunk s t _).trans (State.beginRound_changes _ t).widen

theorem State.advanceLine_changes (s u : State) (t : TrunkNo) (h : s.advanceLine t = some u) :
    Changes [.line, .round] s u := by
  unfold State.advanceLine at h
  dsimp only at h
  split at h
  · split at h
    · exact absurd h (by simp)
    · split at h
      · exact absurd h (by simp)
      · obtain rfl := Option.some.inj h; exact Changes.modTrunk s t _
  · split at h
    · split at h
      · exact absurd h (by simp)
      · obtain rfl := Option.some.inj h; exact Changes.modTrunk s t _
    · split at h
      · obtain rfl := Option.some.inj h; exact State.endRound_changes s t
      · obtain rfl := Option.some.inj h; exact Changes.modTrunk s t _
  · exact absurd h (by simp)

theorem State.settleBy_changes (t : TrunkNo) (k : Nat) (s : State) :
    Changes [.line, .round] s (State.settleBy t k s) := by
  induction k generalizing s with
  | zero => exact Changes.refl _ _
  | succ k ih =>
    unfold State.settleBy; split
    · exact Changes.refl _ _
    · rename_i u hu; exact (State.advanceLine_changes s u t hu).trans (ih u)

theorem State.markRest_changes (s : State) (t : TrunkNo) : Changes [.line, .round] s (s.markRest t) :=
  Changes.ite (Changes.modTrunk s t _) (Changes.refl _ _)

/-- Bringing a trunk to its next exchange changes only where its scan round stands. -/
theorem State.settle_changes (s : State) (t : TrunkNo) : Changes lineParts s (s.settle t) :=
  (State.settleBy_changes t _ s).trans (State.markRest_changes _ t)

theorem State.enterGap_changes (s : State) (t : TrunkNo) (g : GapStage) :
    Changes lineParts s (s.enterGap t g) :=
  (Changes.modTrunk s t _).trans (State.settle_changes _ t)

theorem State.startScan_changes (s : State) (t : TrunkNo) :
    Changes [.line, .round, .indicators, .lastFrame, .releasing] s (s.startScan t) := by
  unfold State.startScan
  dsimp only
  refine Changes.trans ?_ (State.settle_changes _ t).widen
  refine Changes.trans ?_ (State.beginRound_changes _ t).widen
  refine Changes.trans ?_ (State.placeAll_changes _ _)
  refine Changes.trans ?_ (Changes.modTrunk _ t _)
  exact Changes.ite (State.sendTrunk_changes s t _).widen (Changes.refl _ _)

/-! ## Presence and keys -/

theorem Ev.unitLost_moves (e : Ev) (n : Nat) :
    Moves ([.presence, .holds, .liveDesk] ++ grantParts) [.levels, .listens, .advance] e (e.unitLost n) := by
  unfold Ev.unitLost; split
  · exact Moves.refl _ _ _
  · split
    · exact Moves.refl _ _ _
    · have h : ∀ d : Notice, Moves ([.presence, .holds, .liveDesk] ++ grantParts) [.levels, .listens, .advance] e
          ((e.on (fun s => s.modSeat n (fun y => { y with present := false, misses := 3 }))).notify d) :=
        fun d => (Moves.on e _ (Changes.modSeat _ n _)).trans (Moves.notify _ _)
      dsimp only
      split
      · exact (h _).trans (Ev.deskOffIfLive_moves _ _ _).widen
      · exact (h _).trans (Ev.floorLoss_moves _ _ _).widen

theorem Ev.miss_moves (e : Ev) (n : Nat) (x : Seat) :
    Moves ([.presence, .holds, .liveDesk] ++ grantParts) [.levels, .listens, .advance] e (e.miss n x) :=
  Moves.ite (Moves.ite (Moves.on e _ (Changes.modSeat _ n _)) (Ev.unitLost_moves e n)) (Moves.refl _ _ _)

theorem Ev.unitFound_moves (e : Ev) (t : TrunkNo) (a n : Nat) (hs : List Hand) :
    Moves [.presence, .keyMark, .notices, .indicators] hs e (e.unitFound t a n) :=
  ((Moves.on e _ (Changes.modSeat _ n _)).trans (Moves.notify _ _)).trans (Moves.place _ _)

/-- What a key event may change. -/
def keyParts : List Part := [.holds, .liveDesk] ++ grantParts

theorem Ev.handKey_moves (e : Ev) (n : Nat) (x : Seat) (k : Key) :
    Moves keyParts [.levels, .listens, .advance] e (e.handKey n x k) := by
  unfold Ev.handKey
  split
  · exact (Ev.delegateKey_moves _ _ _).widen
  · exact Moves.refl _ _ _
  · exact (Ev.chairKey_moves _ _ _).widen
  · exact (Ev.chairNext_moves _ _ _).widen
  · exact (Ev.priorityDown_moves _ _ _).widen
  · exact (Ev.priorityUp_moves _ _ _).widen
  · exact (Ev.deskKey_moves _ _ _).widen
  · exact Moves.refl _ _ _

theorem Ev.keyEvent_moves (e : Ev) (n : Nat) (k : Key) (m : KeyMark) :
    Moves (.keyMark :: keyParts) [.levels, .listens, .advance] e (e.keyEvent n k m) := by
  unfold Ev.keyEvent; split
  · exact Moves.refl _ _ _
  · exact Moves.ite (Moves.refl _ _ _)
      ((Moves.on e _ (Changes.modSeat _ n _)).trans (Ev.handKey_moves _ _ _ _).widen)

theorem Ev.pollValid_moves (e : Ev) (t : TrunkNo) (a n : Nat) (x : Seat) (key : Option (Key × KeyMark)) :
    Moves (.presence :: .keyMark :: keyParts) [.levels, .listens, .advance] e (e.pollValid t a n x key) := by
  unfold Ev.pollValid
  have h : Moves (.presence :: .keyMark :: keyParts) [.levels, .listens, .advance] e
      (if x.present then e.on (fun s => s.modSeat n (fun y => { y with misses := 0 })) else e.unitFound t a n) :=
    Moves.ite (Moves.on e _ (Changes.modSeat _ n _)) ((Ev.unitFound_moves e t a n []).widen)
  dsimp only
  split
  · exact h.trans (Ev.keyEvent_moves _ _ _ _).widen
  · exact h

/-! ## Bindings -/

theorem State.releaseBinding_changes (s : State) (n : Nat) :
    Changes [.binding, .presence, .keyMark, .releases, .indicators] s (s.releaseBinding n) := by
  unfold State.releaseBinding; split
  · exact Changes.refl _ _
  · exact (Changes.modTrunk s _ _).trans (Changes.modSeat _ n _)

theorem State.assign_changes (s : State) (t : TrunkNo) (serial : Word) (a : Nat) :
    Changes [.lastFrame, .releasing, .line] s (s.assign t serial a) := State.sendTrunk_changes s t _

theorem State.countFound_changes (s : State) (t : TrunkNo) : Changes [.rollCall] s (s.countFound t) :=
  Changes.modTrunk s t _

theorem State.countRefused_changes (s : State) (t : TrunkNo) : Changes [.rollCall] s (s.countRefused t) :=
  Changes.modTrunk s t _

theorem State.countSlot_changes (s : State) (t : TrunkNo) (b : Bool) : Changes [.rollCall] s (s.countSlot t b) :=
  Changes.modTrunk s t _

/-- What the resolution of a slot reply may change on its trunk. -/
def assignParts : List Part := [.lastFrame, .releasing, .line, .rollCall]

theorem Ev.refuseUnit_moves (e : Ev) (t : TrunkNo) (serial : Word) (hs : List Hand) :
    Moves assignParts hs e (e.refuseUnit t serial) :=
  Moves.on e _ ((State.assign_changes _ _ _ _).widen.trans (State.countRefused_changes _ _).widen)

theorem Ev.bind_moves (e : Ev) (t : TrunkNo) (a n : Nat) (serial : Word) (hs : List Hand) :
    Moves (assignParts ++ [.binding, .presence, .keyMark, .indicators, .notices]) hs e (e.bind t a n serial) := by
  unfold Ev.bind
  refine Moves.trans (Moves.on e _ ?_) (Moves.on _ _
    ((State.assign_changes _ _ _ _).widen.trans (State.countFound_changes _ _).widen))
  exact ((Changes.modSeat _ n _).trans (State.placeIndicator_changes _ _)).trans (State.notify_changes _ _)

theorem Ev.newUnit_moves (e : Ev) (t : TrunkNo) (serial : Word) (k : Option Kind) :
    Moves (assignParts ++ seatParts ++ [.indicators, .notices]) [.levels, .seats] e (e.newUnit t serial k) := by
  unfold Ev.newUnit; split
  · exact (((Moves.on e _ (Changes.seatTable _ _)).trans (Moves.handSeat _ _)).trans (Moves.handSeatRoom _ _)).trans
      ((Ev.bind_moves _ _ _ _ _ []).widen)
  · exact (Ev.refuseUnit_moves _ _ _ []).widen

theorem Ev.knownUnit_moves (e : Ev) (t : TrunkNo) (serial : Word) (k : Option Kind) (n : Nat) (x : Seat)
    (hs : List Hand) :
    Moves (assignParts ++ [.binding, .presence, .keyMark, .indicators, .notices]) hs e
      (e.knownUnit t serial k n x) := by
  unfold Ev.knownUnit; split
  · exact Ev.bind_moves _ _ _ _ _ _
  · exact ⟨((Ev.refuseUnit_moves e t serial hs).state).widen, (Ev.refuseUnit_moves e t serial hs).hands⟩

theorem Ev.readdress_moves (e : Ev) (t : TrunkNo) (serial : Word) (a n : Nat) (x : Seat) (hs : List Hand) :
    Moves (assignParts ++ [.presence, .keyMark, .indicators, .notices]) hs e (e.readdress t serial a n x) := by
  unfold Ev.readdress
  dsimp only
  have h : Moves (assignParts ++ [.presence, .keyMark, .indicators, .notices]) hs e
      ((e.on (fun s => s.modSeat n (fun y =>
        { y with present := true, misses := 0, keyMark := .none }))).place n) :=
    (Moves.on e _ (Changes.modSeat _ n _)).trans (Moves.place _ _)
  refine Moves.trans (Moves.ite h (h.trans (Moves.notify _ _))) (Moves.on _ _
    ((State.assign_changes _ _ _ _).widen.trans (State.countFound_changes _ _).widen))

theorem Ev.rebind_moves (e : Ev) (t : TrunkNo) (serial : Word) (n : Nat) (x : Seat) :
    Moves (assignParts ++ [.binding, .presence, .keyMark, .releases, .holds, .liveDesk] ++ grantParts)
      [.levels, .listens, .advance] e (e.rebind t serial n x) := by
  unfold Ev.rebind; split
  · exact (Ev.refuseUnit_moves _ _ _ []).widen
  · refine Moves.trans (Moves.trans ?_ (Moves.on _ _ (State.releaseBinding_changes _ _).widen))
      ((Ev.bind_moves _ _ _ _ _ []).widen)
    exact Moves.ite (Ev.unitLost_moves e n).widen (Moves.refl _ _ _)

theorem Ev.boundUnit_moves (e : Ev) (t : TrunkNo) (serial : Word) (k : Option Kind) (n : Nat) (x : Seat)
    (u : TrunkNo) (a : Nat) :
    Moves (assignParts ++ [.binding, .presence, .keyMark, .releases, .holds, .liveDesk] ++ grantParts)
      [.levels, .listens, .advance] e (e.boundUnit t serial k n x u a) :=
  Moves.ite (Moves.ite ((Ev.readdress_moves _ _ _ _ _ _ []).widen) (Ev.rebind_moves _ _ _ _ _))
    ((Ev.refuseUnit_moves _ _ _ []).widen)

/-- A SINGLE changes seat records, the trunk's frame and counts, and what a unit's loss changes. -/
theorem Ev.single_moves (e : Ev) (t : TrunkNo) (serial : Word) (k : Option Kind) :
    Moves (assignParts ++ seatParts ++ [.releases, .holds, .liveDesk] ++ grantParts)
      [.levels, .seats, .listens, .advance] e (e.single t serial k) := by
  unfold Ev.single; split
  · exact (Ev.newUnit_moves _ _ _ _).widen
  · split
    · exact (Ev.boundUnit_moves _ _ _ _ _ _ _ _).widen
    · exact (Ev.knownUnit_moves _ _ _ _ _ _ []).widen

/-! ## Roll call rounds and accesses -/

theorem State.endRollRound_changes (s : State) (t : TrunkNo) :
    Changes [.rollCall, .notices, .line, .round] s (s.endRollRound t) := by
  unfold State.endRollRound; split
  · exact Changes.refl _ _
  · dsimp only
    refine Changes.trans (Changes.trans ?_ (State.beginRound_changes _ t).widen) (State.settle_changes _ t).widen
    split
    · exact (Changes.modTrunk s t _).trans (State.notify_changes _ _)
    · exact Changes.modTrunk s t _

theorem State.endSlot_changes (s : State) (t : TrunkNo) (k : Nat) :
    Changes [.rollCall, .notices, .line, .round] s (s.endSlot t k) := by
  unfold State.endSlot; split
  · exact Changes.refl _ _
  · exact Changes.ite (Changes.modTrunk s t _) (State.endRollRound_changes s t)

theorem State.completeAccess_changes (s : State) (t : TrunkNo) (r : AccessRequest) (a : AccessStatus) (v : Half) :
    Changes [.access, .notices] s (s.completeAccess t r a v) :=
  (Changes.modTrunk s t _).trans (State.notify_changes _ _)

/-! ## The end of scanning -/

theorem State.cutRelease_changes (s : State) (t : TrunkNo) :
    Changes [.releasing, .releases] s (s.cutRelease t) := by
  unfold State.cutRelease; split
  · exact Changes.refl _ _
  · exact Changes.ite (Changes.modTrunk s t _) (Changes.modTrunk s t _)

theorem State.abortRollCall_changes (s : State) (t : TrunkNo) :
    Changes [.rollCall, .notices] s (s.abortRollCall t) := by
  unfold State.abortRollCall; split
  · exact Changes.refl _ _
  · exact (Changes.modTrunk s t _).trans (State.notify_changes _ _)

theorem State.abortAccess_changes (s : State) (t : TrunkNo) :
    Changes [.access, .notices] s (s.abortAccess t) := by
  unfold State.abortAccess; split
  · exact Changes.refl _ _
  · exact State.completeAccess_changes _ _ _ _ _
  · exact State.completeAccess_changes _ _ _ _ _

/-- The end of a trunk's scanning changes its line, releases, roll call and access, and the notices. -/
theorem State.endScan_changes (s : State) (t : TrunkNo) :
    Changes [.line, .releasing, .releases, .rollCall, .access, .notices] s (s.endScan t) := by
  unfold State.endScan
  exact (((State.cutRelease_changes s t).widen.trans (Changes.modTrunk _ t _)).trans
    (State.abortRollCall_changes _ t).widen).trans (State.abortAccess_changes _ t).widen

theorem State.emptyIndicators_changes (s : State) (t : TrunkNo) :
    Changes [.indicators] s (s.emptyIndicators t) := Changes.modTrunk s t _

theorem State.stopTrunk_changes (s : State) (t : TrunkNo) :
    Changes [.line, .releasing, .releases, .rollCall, .access, .notices, .indicators] s (s.stopTrunk t) :=
  (State.endScan_changes s t).widen.trans (State.emptyIndicators_changes _ t).widen

end Sys2Proof.Machine
end

