-- ==== Sys2Proof/Laws/Rooms.lean ====
section
/-! SUPPORT. The frames of the Partition Unit's operations and of a composition change. -/

namespace Sys2Proof.Machine
set_option Elab.async false
open Sys2Proof

/-! ## Walls -/

theorem State.evaluateOne_changes (s u : State) (w : WallNo) :
    Changes [.wallState] s (s.modWall w u.evaluated) := by
  refine Changes.modWall s w _ ?_
  intro p hp x
  unfold State.evaluated
  split <;> (cases p <;> first | rfl | trivial)

/-! ## Carriers across a composition change -/

theorem State.foldCarriers_changes (f : State → Nat → State)
    (h : ∀ s x, Changes [.carriersHeld] s (f s x)) (xs : List Nat) (s : State) :
    Changes [.carriersHeld] s (xs.foldl f s) := Changes.foldl id f h xs s

theorem State.keepPrincipal_changes (old : State) (p : Option SectionNo) (l : SectionNo) (s : State) (x : Nat) :
    Changes [.carriersHeld] s (State.keepPrincipal old p l s x) := by
  unfold State.keepPrincipal; split
  · exact Changes.ite (State.setCarrier_changes _ _ _ _) (Changes.refl _ _)
  · exact Changes.refl _ _

theorem State.keepOther_changes (old : State) (o : List SectionNo) (l : SectionNo) (s : State) (x : Nat) :
    Changes [.carriersHeld] s (State.keepOther old o l s x) := by
  unfold State.keepOther; split
  · split
    · exact State.setCarrier_changes _ _ _ _
    · exact Changes.refl _ _
  · exact Changes.refl _ _

theorem State.placeNew_changes (l : SectionNo) (s : State) (x : Nat) :
    Changes [.carriersHeld] s (State.placeNew l s x) :=
  Changes.ite (State.setCarrier_changes _ _ _ _) (Changes.refl _ _)

theorem State.mergeCarriers_changes (s old : State) (d : List SectionNo) (p : Option SectionNo) (l : SectionNo)
    (xs : List Nat) : Changes [.carriersHeld] s (s.mergeCarriers old d p l xs) :=
  ((State.foldCarriers_changes _ (fun s x => State.keepPrincipal_changes old p l s x) xs s).trans
    (State.foldCarriers_changes _ (fun s x => State.keepOther_changes old _ l s x) xs _)).trans
    (State.foldCarriers_changes _ (fun s x => State.placeNew_changes l s x) xs _)

theorem State.divideCarriers_changes (s old : State) (d : List SectionNo) (l : SectionNo) (xs : List Nat) :
    Changes [.carriersHeld] s (s.divideCarriers old d l xs) :=
  (State.foldCarriers_changes _ (fun s x => State.setCarrier_changes s l x _) xs s).trans
    (State.foldCarriers_changes _ (fun s x => State.placeNew_changes l s x) _ _)

theorem State.reconcileCarriers_changes (s old : State) (d : List SectionNo) (p : Option SectionNo)
    (l : SectionNo) (r : Reason) : Changes [.carriersHeld, .notices] s (s.reconcileCarriers old d p l r) := by
  unfold State.reconcileCarriers
  dsimp only
  refine Changes.trans ?_ (State.notifyAll_changes _ _)
  split
  · exact (State.divideCarriers_changes _ _ _ _ _).widen
  · exact (State.mergeCarriers_changes _ _ _ _ _ _).widen

/-! ## The composition change -/

theorem State.reformRooms_changes (s : State) (new : Vector SectionNo 16) :
    Changes roomParts s (s.reformRooms new) := by
  unfold State.reformRooms
  refine Changes.trans (Changes.setSections s _ ?_) (Changes.setRooms _ _ ?_)
  · intro p hp i
    rw [vmapIdx_get]
    cases p <;> first | rfl | trivial
  · intro p hp i
    cases p <;> trivial

theorem Ev.reconcileHold_moves (old : State) (h : Option PriorityAction) (e : Ev) (n : Nat) :
    Moves closeParts [.levels, .advance] e (Ev.reconcileHold old h e n) := by
  unfold Ev.reconcileHold
  dsimp only
  split
  · exact Moves.refl _ _ _
  · exact Ev.close_moves _ _ _
  · exact Moves.refl _ _ _
  · exact Moves.place _ _
  · exact Moves.place _ _
  · exact Moves.refl _ _ _

theorem Ev.reconcileHolds_moves (e : Ev) (old : State) (l : SectionNo) (d : List SectionNo) :
    Moves (.holds :: closeParts) [.levels, .advance] e (e.reconcileHolds old l d) :=
  (Moves.on e _ (Changes.modRoom _ _ _)).trans
    (Moves.foldl _ (fun b a => (Ev.reconcileHold_moves old _ b a).widen) _ _)

theorem State.reconcileLanguage_changes (s old : State) (l : SectionNo) (p : Option SectionNo) :
    Changes [.floorLanguage, .pin] s (s.reconcileLanguage old l p) := by
  unfold State.reconcileLanguage; split <;> exact Changes.modRoom _ _ _

theorem Ev.reconcileFloor_moves (old : State) (e : Ev) (l : SectionNo) :
    Moves ([.holds, .pin] ++ grantParts) [.levels, .listens, .advance] e (Ev.reconcileFloor old e l) := by
  unfold Ev.reconcileFloor
  dsimp only
  refine Moves.trans ?_ (Ev.autoAdvance_moves _ _).widen
  refine Moves.trans ?_ (Moves.on _ _ (State.reconcileLanguage_changes _ _ _ _).widen)
  refine Moves.trans ?_ ((Ev.applyQueueLimit_moves _ _ _ []).widen)
  exact ((Ev.reconcileHolds_moves _ _ _ _).widen).trans (Ev.applySpeakerLimit_moves _ _ _).widen

theorem Ev.reconcileBooths_moves (old : State) (e : Ev) (l : SectionNo) :
    Moves ([.liveDesk, .indicators, .carriersHeld, .channelSources, .listen, .notices])
      [.levels, .listens, .sources] e (Ev.reconcileBooths old e l) := by
  unfold Ev.reconcileBooths
  dsimp only
  refine Moves.trans ?_ (Moves.on _ _ (State.placeChanged_changes _ _ _))
  refine Moves.trans ?_ (Ev.recompute_moves _ _).widen
  refine Moves.trans ?_ (Moves.on _ _ (Changes.modRoom _ _ _))
  exact Moves.foldl _ (fun b a => (Ev.deskOff_moves b a _).widen) _ _

theorem Moves.forgetListens (e : Ev) : Moves roomParts [.levels, .listens, .advance, .sources, .zones] e
    { e with listens := [] } :=
  ⟨Changes.refl _ _, fun h hh => by cases h <;> first | rfl | exact absurd (by decide) hh⟩

theorem Moves.forgetBoth (e : Ev) : Moves roomParts [.levels, .listens, .advance, .sources, .zones] e
    { e with advance := [], listens := [] } :=
  ⟨Changes.refl _ _, fun h hh => by cases h <;> first | rfl | exact absurd (by decide) hh⟩

theorem Ev.reconcileCarriers_moves (old : State) (e : Ev) (l : SectionNo) (hs : List Hand) :
    Moves [.carriersHeld, .notices] hs e (Ev.reconcileCarriers old e l) :=
  Moves.on e (fun s => s.reconcileCarriers old (old.drawsFrom (e.st.members l))
    (principalOf (e.st.members l) (old.drawsFrom (e.st.members l))) l
    (reconcileReason (old.drawsFrom (e.st.members l)))) (State.reconcileCarriers_changes _ _ _ _ _ _)

/-- A composition change leaves sections' settings, walls, seats but for desks' LIVE marks, trunks but for the
indicator lists, languages, carriers and selectors. -/
theorem Ev.compositionChange_moves (e : Ev) (new : Vector SectionNo 16) :
    Moves roomParts [.levels, .listens, .advance, .sources, .zones] e (e.compositionChange new) := by
  unfold Ev.compositionChange
  dsimp only
  refine Moves.trans ?_ (Moves.foldl _ (fun b a => Moves.handRoom b a) _ _)
  refine Moves.trans ?_ (Moves.foldl _ (fun b a => Moves.markZones b a) _ _)
  refine Moves.trans ?_ (Moves.foldl _ (fun b a => (Ev.reconcileCarriers_moves e.st b a []).widen) _ _)
  refine Moves.trans ?_ (Moves.forgetListens _)
  refine Moves.trans ?_ (Moves.foldl _ (fun b a => (Ev.reconcileBooths_moves e.st b a).widen) _ _)
  refine Moves.trans ?_ (Moves.forgetBoth _)
  refine Moves.trans ?_ (Moves.foldl _ (fun b a => (Ev.reconcileFloor_moves e.st b a).widen) _ _)
  exact Moves.on e _ ((State.reformRooms_changes _ _).trans (State.notifyAll_changes _ _))

theorem Ev.recompose_moves (e : Ev) :
    Moves roomParts [.levels, .listens, .advance, .sources, .zones] e e.recompose :=
  Moves.ite (Moves.refl _ _ _) (Ev.compositionChange_moves _ _)

theorem Ev.reportWalls_moves (e : Ev) (before : State) (ws : List WallNo) :
    Moves roomParts [.levels, .listens, .advance, .sources, .zones] e (e.reportWalls before ws) := by
  unfold Ev.reportWalls
  dsimp only
  split
  · exact Moves.refl _ _ _
  · exact (Moves.foldl _ (fun b a => Moves.notify b a) _ _).trans (Ev.recompose_moves _)

/-- Evaluating a wall changes its effective state and what a composition change may. -/
theorem Ev.evaluateWall_moves (e : Ev) (w : WallNo) :
    Moves (.wallState :: roomParts) [.levels, .listens, .advance, .sources, .zones] e (e.evaluateWall w) :=
  (Moves.on e _ (State.evaluateOne_changes _ _ _).widen).trans (Ev.reportWalls_moves _ _ _).widen

theorem Ev.releaseWalls_moves (e : Ev) (ws : List WallNo) :
    Moves (.wallState :: roomParts) [.levels, .listens, .advance, .sources, .zones] e (e.releaseWalls ws) :=
  (Moves.on e _ (Changes.foldl id (fun (s : State) w => s.modWall w s.evaluated)
    (fun s w => (State.evaluateOne_changes s s w).widen) ws e.st)).trans (Ev.reportWalls_moves _ _ _).widen

theorem Ev.finish_evaluated (e : Ev) (w : WallNo) :
    Changes (.wallState :: roomParts) e.st (e.evaluateWall w).finish :=
  (Ev.evaluateWall_moves e w).state.trans (Ev.finish_changes _).widen

end Sys2Proof.Machine
end

