-- ==== Sys2Proof/Laws/Rounds.lean ====
section
/-! SUPPORT. Where a trunk stands after it is brought on: what `advanceLine` does from each line, and, once for all the
commands that bring a trunk on, where `settle` leaves it (R29 to R31). -/

namespace Sys2Proof.Machine
set_option Elab.async false
open Sys2Proof

variable {s m : State} {k : TrunkNo}

/-! ## A trunk's own changes -/

theorem State.modTrunk_self (s : State) (k : TrunkNo) (f : Trunk → Trunk) :
    (s.modTrunk k f).trunks[k] = f s.trunks[k] := by
  rw [State.modTrunk_trunks, vmod_get, if_pos rfl]

@[simp] theorem State.modTrunk_bound (s : State) (k j : TrunkNo) (f : Trunk → Trunk) :
    (s.modTrunk k f).bound j = s.bound j := rfl

@[simp] theorem State.modTrunk_seatAt (s : State) (k j : TrunkNo) (f : Trunk → Trunk) (a : Nat) :
    (s.modTrunk k f).seatAt j a = s.seatAt j a := rfl

@[simp] theorem State.modTrunk_isPresent (s : State) (k : TrunkNo) (f : Trunk → Trunk) (n : Nat) :
    (s.modTrunk k f).isPresent n = s.isPresent n := rfl

@[simp] theorem State.modTrunk_polledAt (s : State) (k j : TrunkNo) (f : Trunk → Trunk) (c : RoundCount) :
    (s.modTrunk k f).polledAt j c = s.polledAt j c := rfl

@[simp] theorem State.modTrunk_leftToPoll (s : State) (k j : TrunkNo) (f : Trunk → Trunk) (u : Trunk) :
    (s.modTrunk k f).leftToPoll u j = s.leftToPoll u j := rfl

theorem State.roundList_eq (s : State) (k : TrunkNo) : s.roundList k = s.polledAt k (s.trunks[k]).roundCounter := rfl

/-! ## Bound addresses -/

theorem mem_insertAddress (a n : Nat) (l : List (Nat × Nat)) (p : Nat × Nat) :
    p ∈ insertAddress a n l ↔ p = (a, n) ∨ p ∈ l := by
  induction l with
  | nil => simp [insertAddress]
  | cons q l ih =>
    simp only [insertAddress]; split
    · simp
    · simp only [List.mem_cons, ih]; tauto

/-- The bound addresses of a trunk are those of the records that name them. -/
theorem State.mem_bound (s : State) (k : TrunkNo) (a n : Nat) :
    (a, n) ∈ s.bound k ↔ ∃ x, (n, x) ∈ s.seats.cells ∧ x.binding = some (k, a) := by
  unfold State.bound
  induction s.seats.cells with
  | nil => simp
  | cons c l ih =>
    simp only [List.foldr_cons, List.mem_cons]
    split
    · rename_i u b hb
      split
      · rename_i hu
        rw [mem_insertAddress, ih]; subst hu
        constructor
        · rintro (h | ⟨x, hx, hxb⟩)
          · cases h; exact ⟨c.2, .inl rfl, hb⟩
          · exact ⟨x, .inr hx, hxb⟩
        · rintro ⟨x, rfl | hx, hxb⟩
          · rw [hb] at hxb; cases hxb; exact .inl rfl
          · exact .inr ⟨x, hx, hxb⟩
      · rename_i hu
        rw [ih]
        constructor
        · rintro ⟨x, hx, hxb⟩; exact ⟨x, .inr hx, hxb⟩
        · rintro ⟨x, rfl | hx, hxb⟩
          · rw [hb] at hxb; cases hxb; exact absurd rfl hu
          · exact ⟨x, hx, hxb⟩
    · rename_i hb
      rw [ih]
      constructor
      · rintro ⟨x, hx, hxb⟩; exact ⟨x, .inr hx, hxb⟩
      · rintro ⟨x, rfl | hx, hxb⟩
        · rw [hb] at hxb; cases hxb
        · exact ⟨x, hx, hxb⟩

/-- A seat is bound at every bound address. -/
theorem State.seatAt_of_mem_bound {a n : Nat} (h : (a, n) ∈ s.bound k) : (s.seatAt k a).isSome = true := by
  obtain ⟨x, hx, hb⟩ := (s.mem_bound k a n).1 h
  simp only [State.seatAt, Option.isSome_map, List.find?_isSome, decide_eq_true_eq]
  exact ⟨(n, x), hx, hb⟩

/-- A round polls bound addresses only. -/
theorem State.seatAt_of_mem_polledAt {a : Nat} {c : RoundCount} (h : a ∈ s.polledAt k c) :
    (s.seatAt k a).isSome = true := by
  obtain ⟨p, hp, rfl⟩ := List.mem_map.1 h
  exact State.seatAt_of_mem_bound (List.mem_filter.1 hp).1

/-- At counter 0 a round polls every bound address (R30). -/
@[simp] theorem State.polledAt_zero (s : State) (k : TrunkNo) : s.polledAt k 0 = (s.bound k).map Prod.fst := by
  simp [State.polledAt]

/-! ## One move -/

theorem Trunk.offer_release_isNone (u : Trunk) : (u.offer .release).isNone = true ↔ ¬ u.gapDue := by
  unfold Trunk.offer Trunk.gapDue
  cases hr : u.releases <;> cases ha : u.access <;> cases hi : u.indicators <;> simp

/-- In a passed gap nothing is left to send. -/
theorem Trunk.offer_of_gapPassed {u : Trunk} (h : u.gapPassed) : ∃ g, u.line = .gap g ∧ u.offer g = none := by
  unfold Trunk.gapPassed at h
  split at h
  · exact ⟨_, ‹_›, Option.isNone_iff_eq_none.1 (u.offer_release_isNone.2 h)⟩
  · refine ⟨_, ‹_›, ?_⟩
    unfold Trunk.offer
    cases ha : u.access with
    | waiting r => exact absurd ha (h.1 r)
    | idle => simp [h.2]
    | sent r => simp [h.2]
  · exact ⟨_, ‹_›, by simp [Trunk.offer, h]⟩
  · exact h.elim

theorem Trunk.gapPassed_of_offer {u : Trunk} {g : GapStage} (hl : u.line = .gap g) (h : u.offer g = none) : u.gapPassed := by
  unfold Trunk.gapPassed
  rw [hl]
  cases g with
  | release => exact u.offer_release_isNone.1 (by rw [h]; rfl)
  | access =>
    unfold Trunk.offer at h
    cases ha : u.access with
    | waiting r => simp [ha] at h
    | idle => exact ⟨fun r hr => (by cases hr), by simpa [ha] using h⟩
    | sent r => exact ⟨fun r hr => (by cases hr), by simpa [ha] using h⟩
  | indicator => simpa [Trunk.offer] using h

/-- A trunk in a passed gap, which does not rest in it, goes to its next poll. -/
theorem State.advanceLine_gap (hp : (s.trunks[k]).gapPassed) (hr : s.resting k = false) :
    s.advanceLine k = some (s.modTrunk k (fun u => { u with hadGap := true, line := .poll })) := by
  obtain ⟨g, hl, ho⟩ := Trunk.offer_of_gapPassed hp
  unfold State.advanceLine
  simp only [hl, ho, hr, Bool.false_eq_true, if_false]

/-- A trunk in a gap with something due stays. -/
theorem State.advanceLine_due (hl : (s.trunks[k]).line = .gap .release) (hd : (s.trunks[k]).gapDue) :
    s.advanceLine k = none := by
  have h : ¬ ((s.trunks[k]).offer .release).isNone = true := fun h => (Trunk.offer_release_isNone _).1 h hd
  unfold State.advanceLine
  simp only [hl]
  split
  · rfl
  · rename_i hn; exact absurd (by rw [hn]; rfl) h

/-- A trunk that rests stays. -/
theorem State.advanceLine_rest (hr : s.resting k = true) : s.advanceLine k = none := by
  unfold State.advanceLine
  have h := hr
  unfold State.resting at h
  dsimp only at h ⊢
  split at h
  · rename_i hl
    simp only [hl]
    split
    · rfl
    · rw [if_pos hr]
  · cases h

/-- A trunk at the poll of an address with a seat stays. -/
theorem State.advanceLine_poll {a : Nat} {l : List Nat} (hl : (s.trunks[k]).line = .poll)
    (ht : (s.trunks[k]).toPoll = a :: l) (hs : (s.seatAt k a).isSome = true) : s.advanceLine k = none := by
  unfold State.advanceLine
  simp only [hl, ht, hs, if_true]

/-- An address released meanwhile is skipped (R30). -/
theorem State.advanceLine_skip {a : Nat} {l : List Nat} (hl : (s.trunks[k]).line = .poll)
    (ht : (s.trunks[k]).toPoll = a :: l) (hs : (s.seatAt k a).isSome = false) :
    s.advanceLine k = some (s.modTrunk k (fun u => { u with toPoll := l })) := by
  unfold State.advanceLine
  simp only [hl, ht, hs, Bool.false_eq_true, if_false]

/-- A round that has had a gap and has no address left ends (R30). -/
theorem State.advanceLine_end (hl : (s.trunks[k]).line = .poll) (ht : (s.trunks[k]).toPoll = [])
    (hg : (s.trunks[k]).hadGap = true) : s.advanceLine k = some (s.endRound k) := by
  unfold State.advanceLine
  simp only [hl, ht, hg, if_true]

/-- A round of no unit has its single gap (R30). -/
theorem State.advanceLine_single (hl : (s.trunks[k]).line = .poll) (ht : (s.trunks[k]).toPoll = [])
    (hg : (s.trunks[k]).hadGap = false) :
    s.advanceLine k = some (s.modTrunk k (fun u => { u with hadGap := true, line := .gap .release })) := by
  unfold State.advanceLine
  simp only [hl, ht, hg, Bool.false_eq_true, if_false]

theorem State.advanceLine_roundDue (hl : (s.trunks[k]).line = .roundDue) : s.advanceLine k = none := by
  unfold State.advanceLine
  simp only [hl]

theorem State.settleBy_none (h : s.advanceLine k = none) (fuel : Nat) : State.settleBy k fuel s = s := by
  cases fuel <;> simp [State.settleBy, h]

theorem State.settleBy_some {u : State} (h : s.advanceLine k = some u) (fuel : Nat) :
    State.settleBy k (fuel + 1) s = State.settleBy k fuel u := by
  simp [State.settleBy, h]

/-! ## What bringing a trunk on leaves -/

/-- The bound addresses, and what is read from them, are those of the seat table. -/
theorem State.bound_congr {s t : State} (h : t.seats = s.seats) (k : TrunkNo) : t.bound k = s.bound k := by
  unfold State.bound; rw [h]

theorem State.polledAt_congr {s t : State} (h : t.seats = s.seats) (k : TrunkNo) (c : RoundCount) :
    t.polledAt k c = s.polledAt k c := by
  unfold State.polledAt State.bound State.isPresent; rw [h]

theorem State.seatAt_congr {s t : State} (h : t.seats = s.seats) (k : TrunkNo) (a : Nat) : t.seatAt k a = s.seatAt k a := by
  unfold State.seatAt; rw [h]

/-- What a round that begins leaves depends on the seat table only. -/
theorem RoundBegins.congr {m n t : State} {c : RoundCount} (h : RoundBegins m t k c) (hs : n.seats = m.seats) :
    RoundBegins n t k c := by
  obtain ⟨h1, h2, h3, h4⟩ := h
  rw [← State.polledAt_congr hs] at h1 h2 h3 h4
  rw [← State.bound_congr hs] at h2 h4
  exact ⟨h1, h2, h3, h4⟩

/-- One state comes from another by moves of a trunk from exchange to exchange: the seats, the other trunks, what the trunk has
due in its gaps, its roll call and its mark of rest are the same. -/
structure Moved (k : TrunkNo) (s t : State) : Prop where
  seats : t.seats = s.seats
  others : ∀ j : TrunkNo, j ≠ k → t.trunks[j] = s.trunks[j]
  due : (t.trunks[k]).releases = (s.trunks[k]).releases ∧ (t.trunks[k]).access = (s.trunks[k]).access ∧
    (t.trunks[k]).indicators = (s.trunks[k]).indicators
  rollCall : (t.trunks[k]).rollCall = (s.trunks[k]).rollCall
  rested : (t.trunks[k]).rested = (s.trunks[k]).rested

theorem Moved.refl (k : TrunkNo) (s : State) : Moved k s s := ⟨rfl, fun _ _ => rfl, ⟨rfl, rfl, rfl⟩, rfl, rfl⟩

theorem Moved.trans {s t u : State} (h : Moved k s t) (g : Moved k t u) : Moved k s u :=
  ⟨g.seats.trans h.seats, fun j hj => (g.others j hj).trans (h.others j hj),
    ⟨g.due.1.trans h.due.1, g.due.2.1.trans h.due.2.1, g.due.2.2.trans h.due.2.2⟩, g.rollCall.trans h.rollCall,
    g.rested.trans h.rested⟩

theorem State.modTrunk_other (s : State) {k j : TrunkNo} (f : Trunk → Trunk) (h : j ≠ k) :
    (s.modTrunk k f).trunks[j] = s.trunks[j] := by
  rw [State.modTrunk_trunks, vmod_get, if_neg (Ne.symm h)]

theorem Moved.modTrunk (k : TrunkNo) (s : State) (f : Trunk → Trunk)
    (h : ∀ u, ((f u).releases = u.releases ∧ (f u).access = u.access ∧ (f u).indicators = u.indicators) ∧
      (f u).rollCall = u.rollCall ∧ (f u).rested = u.rested := by exact fun _ => ⟨⟨rfl, rfl, rfl⟩, rfl, rfl⟩) :
    Moved k s (s.modTrunk k f) := by
  refine ⟨rfl, fun j hj => s.modTrunk_other f hj, ?_, ?_, ?_⟩ <;> rw [State.modTrunk_self]
  exacts [(h _).1, (h _).2.1, (h _).2.2]

theorem Moved.gapDue {s t : State} (h : Moved k s t) : (t.trunks[k]).gapDue ↔ (s.trunks[k]).gapDue := by
  unfold Trunk.gapDue
  rw [h.due.1, h.due.2.1, h.due.2.2]

theorem State.beginRound_moved (s : State) (k : TrunkNo) : Moved k s (s.beginRound k) := by
  unfold State.beginRound
  split <;> exact Moved.modTrunk k s _

theorem State.endRound_moved (s : State) (k : TrunkNo) : Moved k s (s.endRound k) := by
  unfold State.endRound
  dsimp only
  split
  · exact (Moved.modTrunk k s _).trans (Moved.modTrunk k _ _)
  · exact (Moved.modTrunk k s _).trans (State.beginRound_moved _ k)

/-- Whatever a trunk's next move is, it is a move. -/
theorem State.advanceLine_moved {u : State} (h : s.advanceLine k = some u) : Moved k s u := by
  unfold State.advanceLine at h
  dsimp only at h
  split at h
  · split at h
    · cases h
    · split at h
      · cases h
      · obtain rfl := Option.some.inj h; exact Moved.modTrunk k s _
  · split at h
    · split at h
      · cases h
      · obtain rfl := Option.some.inj h; exact Moved.modTrunk k s _
    · split at h
      · obtain rfl := Option.some.inj h; exact s.endRound_moved k
      · obtain rfl := Option.some.inj h; exact Moved.modTrunk k s _
  · cases h

theorem State.settleBy_moved (k : TrunkNo) (fuel : Nat) (s : State) : Moved k s (State.settleBy k fuel s) := by
  induction fuel generalizing s with
  | zero => exact Moved.refl k s
  | succ f ih =>
    cases hu : s.advanceLine k with
    | none => rw [State.settleBy_none hu]; exact Moved.refl k s
    | some u => rw [State.settleBy_some hu]; exact (State.advanceLine_moved hu).trans (ih u)

/-! ## Rounds that begin -/

/-- A trunk rests only where it stands in its gap with nothing due, no bound seat and no roll call. -/
theorem State.resting_iff (s : State) (k : TrunkNo) : s.resting k = true ↔ (s.trunks[k]).line = .gap .release ∧
    ¬ (s.trunks[k]).gapDue ∧ (s.trunks[k]).toPoll = [] ∧ s.bound k = [] ∧ (s.trunks[k]).rollCall = none := by
  unfold State.resting
  dsimp only
  split
  · rename_i hl
    simp only [Bool.and_eq_true, decide_eq_true_eq, Trunk.offer_release_isNone, hl, true_and, and_assoc]
    rw [Option.isNone_iff_eq_none]
  · rename_i hl
    simp only [Bool.false_eq_true, false_iff]
    exact fun h => hl h.1

theorem State.resting_eq_false (h : s.bound k ≠ [] ∨ (s.trunks[k]).rollCall ≠ none) : s.resting k = false := by
  rw [← Bool.not_eq_true, State.resting_iff]
  tauto

/-- Where a trunk stands after a change of its own. -/
theorem State.standsAt_modTrunk (s : State) (k : TrunkNo) (f : Trunk → Trunk) (line : Line) (c : RoundCount)
    (l : List Nat) : (s.modTrunk k f).standsAt k line c l ↔
    (f s.trunks[k]).line = line ∧ (f s.trunks[k]).roundCounter = c ∧ (f s.trunks[k]).toPoll = l := by
  rw [State.standsAt, State.modTrunk_self]

/-- The trunk after the end of a scan round and, with no roll call, the beginning of the next (R30). -/
theorem State.endRound_called (h : (s.trunks[k]).rollCall ≠ none) : s.endRound k =
    (s.modTrunk k (fun u => { u with roundCounter := nextCounter u.roundCounter, toPoll := [] })).modTrunk k
      (fun u => { u with line := .roundDue }) := by
  unfold State.endRound
  rw [if_pos (Option.isSome_iff_ne_none.2 h)]

theorem State.endRound_free (h : (s.trunks[k]).rollCall = none) : s.endRound k =
    (s.modTrunk k (fun u => { u with roundCounter := nextCounter u.roundCounter, toPoll := [] })).beginRound k := by
  unfold State.endRound
  rw [if_neg (by rw [h]; simp)]

/-- How many rounds go by, at most, before counter 0 comes round. -/
def roundsToGo (c : RoundCount) : Nat := if c = 0 then 0 else 16 - c.val

theorem roundsToGo_next {c : RoundCount} (h : c ≠ 0) : roundsToGo (nextCounter c) + 1 = roundsToGo c := by
  revert h; revert c; decide

/-- A round with units to poll begins at its first poll (R30). -/
theorem State.beginRound_polls {a : Nat} {l : List Nat} (hp : s.polledAt k (s.trunks[k]).roundCounter = a :: l) :
    s.beginRound k = s.modTrunk k (fun u => { u with toPoll := a :: l, hadGap := false, line := .poll }) := by
  unfold State.beginRound
  rw [State.roundList_eq, hp]

/-- A round that polls no unit begins at its single gap (R30). -/
theorem State.beginRound_single (hp : s.polledAt k (s.trunks[k]).roundCounter = []) :
    s.beginRound k = s.modTrunk k (fun u => { u with toPoll := [], hadGap := true, line := .gap .release }) := by
  unfold State.beginRound
  rw [State.roundList_eq, hp]

/-- A gap with something due and a rest hold the trunk. -/
theorem State.settleBy_held (fuel : Nat) (hl : (s.trunks[k]).line = .gap .release)
    (h : (s.trunks[k]).gapDue ∨ s.resting k = true) : State.settleBy k fuel s = s :=
  State.settleBy_none (h.elim (State.advanceLine_due hl) State.advanceLine_rest) fuel

/-- A gap with nothing due passes, and a round with no address left ends: two moves (R30, R31). -/
theorem State.settleBy_passed (fuel : Nat) (hl : (s.trunks[k]).line = .gap .release) (hd : ¬ (s.trunks[k]).gapDue)
    (hr : s.resting k = false) (ht : (s.trunks[k]).toPoll = []) : State.settleBy k (fuel + 2) s =
    State.settleBy k fuel ((s.modTrunk k (fun u => { u with hadGap := true, line := .poll })).endRound k) := by
  rw [State.settleBy_some (State.advanceLine_gap (by unfold Trunk.gapPassed; rw [hl]; exact hd) hr),
    State.settleBy_some (State.advanceLine_end (by rw [State.modTrunk_self]) (by rw [State.modTrunk_self]; exact ht)
      (by rw [State.modTrunk_self]))]

/-- Away from counter 0 a round polls the same addresses whatever its counter (R30). -/
theorem State.polledAt_ne_zero (s : State) (k : TrunkNo) {c d : RoundCount} (hc : c ≠ 0) (hd : d ≠ 0) :
    s.polledAt k c = s.polledAt k d := by
  simp only [State.polledAt, hc, hd]

/-- A scan round that ends with a roll call RUNNING leaves the trunk before the roll call round (R30). -/
theorem State.settleBy_called (fuel : Nat) (h : (s.trunks[k]).rollCall ≠ none) :
    (State.settleBy k fuel (s.endRound k)).standsAt k .roundDue (roundAfter (s.trunks[k]).roundCounter) [] := by
  rw [State.endRound_called h]
  generalize ht : (s.modTrunk k (fun u =>
    { u with roundCounter := nextCounter u.roundCounter, toPoll := [] })).modTrunk k
      (fun u => { u with line := .roundDue }) = t
  have hk : t.trunks[k] = { s.trunks[k] with
      roundCounter := nextCounter (s.trunks[k]).roundCounter, toPoll := [], line := .roundDue } := by
    rw [← ht, State.modTrunk_self, State.modTrunk_self]
  have hl : (t.trunks[k]).line = .roundDue := by rw [hk]
  rw [State.settleBy_none (State.advanceLine_roundDue hl)]
  exact ⟨hl, by rw [hk]; rfl, by rw [hk]⟩

/-- The round that begins on a trunk, given moves enough for the rounds that may go by: `RoundBegins` holds of where the trunk
comes to stand (R30, R31). -/
theorem State.settleBy_roundBegins (k : TrunkNo) (j fuel : Nat) (s : State)
    (hj : roundsToGo (s.trunks[k]).roundCounter = j) (hf : 2 * j + 2 ≤ fuel) :
    RoundBegins s (State.settleBy k fuel (s.beginRound k)) k (s.trunks[k]).roundCounter := by
  induction j using Nat.strongRecOn generalizing fuel s with
  | ind j ih =>
  cases hp : s.polledAt k (s.trunks[k]).roundCounter with
  | cons a l =>
    have ha : (s.seatAt k a).isSome = true := State.seatAt_of_mem_polledAt (hp ▸ List.mem_cons_self)
    rw [State.beginRound_polls hp]
    generalize hs : s.modTrunk k (fun u => { u with toPoll := a :: l, hadGap := false, line := .poll }) = s1
    have hk : s1.trunks[k] = { s.trunks[k] with toPoll := a :: l, hadGap := false, line := .poll } := by
      rw [← hs, State.modTrunk_self]
    have hl : (s1.trunks[k]).line = .poll := by rw [hk]
    have ht : (s1.trunks[k]).toPoll = a :: l := by rw [hk]
    rw [State.settleBy_none (State.advanceLine_poll hl ht (by rw [← hs]; exact ha))]
    have hn : s.polledAt k (s.trunks[k]).roundCounter ≠ [] := by rw [hp]; simp
    exact ⟨fun _ => ⟨hl, by rw [hk], by rw [ht, hp]⟩, fun h => absurd h hn, fun h => absurd h hn,
      fun h => absurd h hn⟩
  | nil =>
    rw [State.beginRound_single hp]
    generalize hs : s.modTrunk k (fun u => { u with toPoll := [], hadGap := true, line := .gap .release }) = s1
    have hk : s1.trunks[k] = { s.trunks[k] with toPoll := [], hadGap := true, line := .gap .release } := by
      rw [← hs, State.modTrunk_self]
    have hl : (s1.trunks[k]).line = .gap .release := by rw [hk]
    have ht : (s1.trunks[k]).toPoll = [] := by rw [hk]
    have hc : (s1.trunks[k]).rollCall = (s.trunks[k]).rollCall := by rw [hk]
    have hb : s1.bound k = s.bound k := by rw [← hs]; rfl
    have hg : s1.standsAt k (.gap .release) (s.trunks[k]).roundCounter [] := ⟨hl, by rw [hk], ht⟩
    by_cases hd : (s1.trunks[k]).gapDue ∨ s1.resting k = true
    · rw [State.settleBy_held fuel hl hd]
      refine ⟨fun h => absurd hp h, fun _ _ => hg, fun _ hn hr => ?_, fun _ hn _ hne => ?_⟩
      · exact absurd ((s1.resting_iff k).1 (hd.resolve_left hn)).2.2.2.2 hr
      · exact absurd ((s1.resting_iff k).1 (hd.resolve_left hn)).2.2.2.1 (hb ▸ hne)
    · obtain ⟨hd, hr⟩ := not_or.1 hd
      obtain ⟨f, rfl⟩ : ∃ f, fuel = f + 2 := ⟨fuel - 2, by omega⟩
      rw [State.settleBy_passed f hl hd (by simpa using hr) ht]
      generalize hs2 : s1.modTrunk k (fun u => { u with hadGap := true, line := .poll }) = s2
      have hk2 : s2.trunks[k] = { s1.trunks[k] with hadGap := true, line := .poll } := by
        rw [← hs2, State.modTrunk_self]
      have hc2 : (s2.trunks[k]).rollCall = (s.trunks[k]).rollCall := by rw [hk2, hk]
      have hn2 : (s2.trunks[k]).roundCounter = (s.trunks[k]).roundCounter := by rw [hk2, hk]
      have hd2 : ¬ (s2.trunks[k]).gapDue := by rw [hk2]; exact hd
      cases hroll : (s.trunks[k]).rollCall with
      | some r =>
        have hmove := (s2.endRound_moved k).trans (State.settleBy_moved k f _)
        have hr2 : (s2.trunks[k]).rollCall ≠ none := by rw [hc2, hroll]; simp
        have hstand := State.settleBy_called f hr2
        rw [hn2] at hstand
        have hcall : ((State.settleBy k f (s2.endRound k)).trunks[k]).rollCall ≠ none := by rwa [hmove.rollCall]
        exact ⟨fun h => absurd hp h, fun _ h => absurd h (not_or.2 ⟨fun h => hd2 (hmove.gapDue.1 h), fun h => hcall h.2⟩),
          fun _ _ _ => hstand, fun _ _ h => absurd h hcall⟩
      | none =>
        rw [State.endRound_free (by rw [hc2, hroll])]
        generalize hs3 : s2.modTrunk k (fun u =>
          { u with roundCounter := nextCounter u.roundCounter, toPoll := [] }) = s3
        have hk3 : s3.trunks[k] = { s2.trunks[k] with
            roundCounter := nextCounter (s2.trunks[k]).roundCounter, toPoll := [] } := by
          rw [← hs3, State.modTrunk_self]
        have hbound : s.bound k ≠ [] := fun h => hr ((s1.resting_iff k).2 ⟨hl, hd, ht, hb.trans h, hc.trans hroll⟩)
        have hzero : (s.trunks[k]).roundCounter ≠ 0 := fun h => hbound (by
          rw [h, State.polledAt_zero] at hp; simpa using hp)
        have hn3 : (s3.trunks[k]).roundCounter = roundAfter (s.trunks[k]).roundCounter := by rw [hk3, hn2]; rfl
        have hgo := roundsToGo_next hzero
        have h := ih (j - 1) (by omega) f s3 (by rw [hn3]; show roundsToGo (nextCounter _) = _; omega) (by omega)
        have hmove : Moved k s2 (State.settleBy k f (s3.beginRound k)) := by
          rw [← hs3]
          exact ((Moved.modTrunk k s2 _).trans (State.beginRound_moved _ k)).trans (State.settleBy_moved k f _)
        have hdue := hmove.gapDue
        have hcall' := hmove.rollCall.trans (hc2.trans hroll)
        generalize State.settleBy k f (s3.beginRound k) = t at h hdue hcall'
        have hpol : ∀ c, s3.polledAt k c = s.polledAt k c := fun c => by rw [← hs3, ← hs2, ← hs]; rfl
        have hbo : s3.bound k = s.bound k := by rw [← hs3, ← hs2, ← hs]; rfl
        rw [hn3] at h
        refine ⟨fun h => absurd hp h, fun _ h => absurd h (not_or.2 ⟨fun h => hd2 (hdue.1 h), fun h => hbound h.1⟩),
          fun _ _ hne => absurd hcall' hne, fun _ hdt _ _ => ?_⟩
        by_cases hne : roundAfter (s.trunks[k]).roundCounter = 0
        · have hz := h.polls (by rw [hne, hpol, State.polledAt_zero]; simpa using hbound)
          rwa [hne, hpol, State.polledAt_zero] at hz
        · have hz := h.absent (by rw [hpol, s.polledAt_ne_zero k hne hzero, hp]) hdt hcall' (by rwa [hbo])
          rwa [hbo] at hz

/-! ## Rounds that go on -/

/-- A rest that is marked moves nothing. -/
theorem State.markRest_standsAt (s : State) (k : TrunkNo) (line : Line) (c : RoundCount) (l : List Nat) :
    (s.markRest k).standsAt k line c l ↔ s.standsAt k line c l := by
  unfold State.markRest
  split
  · rw [State.standsAt_modTrunk]; rfl
  · rfl

theorem State.markRest_due (s : State) (k : TrunkNo) : (((s.markRest k).trunks[k]).gapDue ↔ (s.trunks[k]).gapDue) ∧
    ((s.markRest k).trunks[k]).rollCall = (s.trunks[k]).rollCall := by
  unfold State.markRest
  split
  · rw [State.modTrunk_self]; exact ⟨Iff.rfl, rfl⟩
  · exact ⟨Iff.rfl, rfl⟩

theorem State.markRest_rested (s : State) (k : TrunkNo) (h : ((s.markRest k).trunks[k]).rested = true) :
    (s.trunks[k]).rested = true ∨ s.resting k = true := by
  unfold State.markRest at h
  split at h
  · exact .inr ‹_›
  · exact .inl h

theorem RoundBegins.markRest {t : State} {c : RoundCount} (h : RoundBegins m t k c) : RoundBegins m (t.markRest k) k c := by
  obtain ⟨h1, h2, h3, h4⟩ := h
  obtain ⟨hd, hr⟩ := t.markRest_due k
  refine ⟨?_, ?_, ?_, ?_⟩ <;> simpa only [State.markRest_standsAt, hd, hr]

theorem RoundEnds.markRest {t : State} {c : RoundCount} (h : RoundEnds m t k c) : RoundEnds m (t.markRest k) k c := by
  obtain ⟨-, hr⟩ := t.markRest_due k
  refine ⟨?_, fun hn => (h.begins (hr ▸ hn)).markRest⟩
  simpa only [State.markRest_standsAt, hr] using h.called

/-- A trunk brought on is marked as resting only where it has neither a bound seat nor a roll call. -/
theorem State.settle_rests (s : State) (k : TrunkNo) : restsOnlyBare s s (s.settle k) k := by
  intro hr
  unfold State.settle at hr ⊢
  generalize (s.trunks[k]).toPoll.length + 64 = f at hr ⊢
  rcases State.markRest_rested _ k hr with h | h
  · exact .inl ((State.settleBy_moved k f s).rested ▸ h)
  · have h := (State.resting_iff _ k).1 h
    exact .inr ⟨(State.bound_congr (State.settleBy_moved k f s).seats k) ▸ h.2.2.2.1,
      (State.markRest_due _ k).2.trans h.2.2.2.2⟩

/-- Where a round that begins leaves the trunk (R29, R30, R43). -/
theorem State.beginRound_settle (s : State) (k : TrunkNo) :
    RoundBegins s ((s.beginRound k).settle k) k (s.trunks[k]).roundCounter := by
  refine (State.settleBy_roundBegins k _ _ s rfl ?_).markRest
  have : ∀ c : RoundCount, roundsToGo c ≤ 15 := by decide
  have := this (s.trunks[k]).roundCounter
  omega

/-- A round that ends, given moves enough for the rounds that may go by (R30). -/
theorem State.settleBy_roundEnds (k : TrunkNo) (fuel : Nat) (s : State) (hf : 32 ≤ fuel) :
    RoundEnds s (State.settleBy k fuel (s.endRound k)) k (s.trunks[k]).roundCounter := by
  cases hroll : (s.trunks[k]).rollCall with
  | some r =>
    have hne : (s.trunks[k]).rollCall ≠ none := by rw [hroll]; simp
    have hmove := (s.endRound_moved k).trans (State.settleBy_moved k fuel _)
    exact ⟨fun _ => State.settleBy_called fuel hne, fun h => absurd (hmove.rollCall.symm.trans h) hne⟩
  | none =>
    rw [State.endRound_free hroll]
    generalize hs3 : s.modTrunk k (fun u =>
      { u with roundCounter := nextCounter u.roundCounter, toPoll := [] }) = s3
    have hk3 : s3.trunks[k] = { s.trunks[k] with
        roundCounter := nextCounter (s.trunks[k]).roundCounter, toPoll := [] } := by
      rw [← hs3, State.modTrunk_self]
    have hto : ∀ c : RoundCount, roundsToGo c ≤ 15 := by decide
    have h := State.settleBy_roundBegins k _ fuel s3 rfl (by have := hto (s3.trunks[k]).roundCounter; omega)
    have hc : (s3.trunks[k]).roundCounter = roundAfter (s.trunks[k]).roundCounter := by rw [hk3]; rfl
    have hcall : ((State.settleBy k fuel (s3.beginRound k)).trunks[k]).rollCall = none := by
      rw [((State.beginRound_moved s3 k).trans (State.settleBy_moved k fuel _)).rollCall, hk3]; exact hroll
    rw [hc] at h
    exact ⟨fun hne => absurd hcall hne, fun _ => h.congr (by rw [← hs3]; rfl)⟩

/-- The addresses released meanwhile are skipped, one move each (R30). -/
theorem State.settleBy_skips (k : TrunkNo) (l : List Nat) (s : State) (hl : (s.trunks[k]).line = .poll)
    (ht : (s.trunks[k]).toPoll = l) (fuel : Nat) : ∃ (f : Nat) (s1 : State), fuel ≤ f ∧ s1.seats = s.seats ∧
      State.settleBy k (fuel + l.length) s = State.settleBy k f s1 ∧
      s1.trunks[k] = { s.trunks[k] with toPoll := s.leftToPoll (s.trunks[k]) k } := by
  induction l generalizing s with
  | nil =>
    refine ⟨fuel, s, le_refl _, rfl, rfl, ?_⟩
    rw [State.leftToPoll, ht]
    show _ = { s.trunks[k] with toPoll := [] }
    rw [← ht]
  | cons a l ih =>
    by_cases hs : (s.seatAt k a).isSome = true
    · refine ⟨fuel + (l.length + 1), s, by omega, rfl, rfl, ?_⟩
      have : s.leftToPoll (s.trunks[k]) k = a :: l := by
        rw [State.leftToPoll, ht, List.dropWhile_cons_of_neg (by simpa [Option.isSome_iff_ne_none] using hs)]
      rw [this, ← ht]
    · have hs' : (s.seatAt k a).isSome = false := by simpa using hs
      generalize hs1 : s.modTrunk k (fun u => { u with toPoll := l }) = s1
      have hk1 : s1.trunks[k] = { s.trunks[k] with toPoll := l } := by rw [← hs1, State.modTrunk_self]
      obtain ⟨f, s2, hf, hseats, heq, hk2⟩ := ih s1 (by rw [hk1]; exact hl) (by rw [hk1])
      refine ⟨f, s2, hf, hseats.trans (by rw [← hs1]; rfl), ?_, ?_⟩
      · rw [List.length_cons, ← Nat.add_assoc, State.settleBy_some (State.advanceLine_skip hl ht hs'), hs1, heq]
      · have : s1.leftToPoll (s1.trunks[k]) k = s.leftToPoll (s.trunks[k]) k := by
          rw [State.leftToPoll, State.leftToPoll, ht, List.dropWhile_cons_of_pos (by simpa using hs'), hk1]
          simp only [State.seatAt_congr (show s1.seats = s.seats by rw [← hs1]; rfl)]
        rw [hk2, this, hk1]

/-- A trunk at its next poll, which has had a gap where no address is left, goes on (R30). -/
theorem State.settle_poll (s : State) (k : TrunkNo) (extra : Nat) (hl : (s.trunks[k]).line = .poll)
    (hg : s.leftToPoll (s.trunks[k]) k = [] → (s.trunks[k]).hadGap = true) (hx : 40 ≤ extra) :
    let t := State.settleBy k (extra + (s.trunks[k]).toPoll.length) s
    (s.leftToPoll (s.trunks[k]) k ≠ [] →
      t.standsAt k .poll (s.trunks[k]).roundCounter (s.leftToPoll (s.trunks[k]) k)) ∧
    (s.leftToPoll (s.trunks[k]) k = [] → RoundEnds s t k (s.trunks[k]).roundCounter) := by
  obtain ⟨f, s1, hf, hseats, heq, hk⟩ := State.settleBy_skips k _ s hl rfl extra
  rw [heq]
  have hl1 : (s1.trunks[k]).line = .poll := by rw [hk]; exact hl
  cases hleft : s.leftToPoll (s.trunks[k]) k with
  | cons a l =>
    rw [hleft] at hk
    have ha : (s.seatAt k a).isSome = true := by
      have h := List.head?_dropWhile_not (fun b => (s.seatAt k b).isNone) (s.trunks[k]).toPoll
      rw [show (s.trunks[k]).toPoll.dropWhile (fun b => (s.seatAt k b).isNone) = a :: l from hleft] at h
      simpa using h
    rw [State.settleBy_none (State.advanceLine_poll hl1 (by rw [hk]) (by rw [State.seatAt_congr hseats]; exact ha))]
    exact ⟨fun _ => ⟨hl1, by rw [hk], by rw [hk]⟩, fun h => by cases h⟩
  | nil =>
    rw [hleft] at hk
    obtain ⟨g, rfl⟩ : ∃ g, f = g + 1 := ⟨f - 1, by omega⟩
    rw [State.settleBy_some (State.advanceLine_end hl1 (by rw [hk]) (by rw [hk]; exact hg hleft))]
    refine ⟨fun h => absurd rfl h, fun _ => ?_⟩
    have h := State.settleBy_roundEnds k g s1 (by omega)
    refine ⟨fun hr => ?_, fun hr => (h.begins hr |>.congr hseats.symm |> fun h => by rwa [hk] at h)⟩
    have := h.called hr
    rwa [hk] at this

/-- The trunk where a passed gap or a poll is behind it. -/
theorem State.settle_goesOn_of_poll (s : State) (k : TrunkNo) (hl : (s.trunks[k]).line = .poll)
    (hg : s.leftToPoll (s.trunks[k]) k = [] → (s.trunks[k]).hadGap = true) : RoundGoesOn s s (s.settle k) k := by
  obtain ⟨h1, h2⟩ := s.settle_poll k 64 hl hg (by omega)
  rw [Nat.add_comm] at h1 h2
  exact ⟨fun h => (State.markRest_standsAt ..).2 (h1 h), fun h => (h2 h).markRest, s.settle_rests k⟩

theorem State.settle_goesOn_of_gap (s : State) (k : TrunkNo) (hp : (s.trunks[k]).gapPassed) (hr : s.resting k = false) :
    RoundGoesOn s s (s.settle k) k := by
  generalize hs1 : s.modTrunk k (fun u => { u with hadGap := true, line := .poll }) = s1
  have hk : s1.trunks[k] = { s.trunks[k] with hadGap := true, line := .poll } := by rw [← hs1, State.modTrunk_self]
  have hseats : s1.seats = s.seats := by rw [← hs1]; rfl
  have heq : State.settleBy k ((s.trunks[k]).toPoll.length + 64) s =
      State.settleBy k (63 + (s1.trunks[k]).toPoll.length) s1 := by
    rw [State.settleBy_some (State.advanceLine_gap hp hr), hs1, hk, Nat.add_comm]
  have hleft : s1.leftToPoll (s1.trunks[k]) k = s.leftToPoll (s.trunks[k]) k := by rw [← hs1, State.modTrunk_self]; rfl
  obtain ⟨h1, h2⟩ := s1.settle_poll k 63 (by rw [hk]) (fun _ => by rw [hk]) (by omega)
  rw [hleft] at h1 h2
  have hc : (s1.trunks[k]).roundCounter = (s.trunks[k]).roundCounter := by rw [hk]
  rw [← heq, hc] at h1 h2
  refine ⟨fun h => (State.markRest_standsAt ..).2 (h1 h), fun h => RoundEnds.markRest ?_, s.settle_rests k⟩
  exact ⟨(h2 h).called, fun hr => ((h2 h).begins hr).congr hseats.symm⟩

/-- A trunk stays in the gap it stands in where something is due there. -/
theorem State.settle_due (s : State) (k : TrunkNo) (hl : (s.trunks[k]).line = .gap .release) (hd : (s.trunks[k]).gapDue) :
    (s.settle k).standsAt k (.gap .release) (s.trunks[k]).roundCounter (s.trunks[k]).toPoll := by
  refine (State.markRest_standsAt ..).2 ?_
  rw [State.settleBy_none (State.advanceLine_due hl hd)]
  exact ⟨hl, rfl, rfl⟩

theorem State.settle_gapDue (s : State) (k : TrunkNo) : (((s.settle k).trunks[k]).gapDue ↔ (s.trunks[k]).gapDue) ∧
    ((s.settle k).trunks[k]).rollCall = (s.trunks[k]).rollCall :=
  ⟨(State.markRest_due _ k).1.trans (State.settleBy_moved ..).gapDue,
    (State.markRest_due _ k).2.trans (State.settleBy_moved ..).rollCall⟩

theorem State.settle_seats (s : State) (k : TrunkNo) : (s.settle k).seats = s.seats := by
  unfold State.settle State.markRest
  split
  · exact (State.settleBy_moved ..).seats
  · exact (State.settleBy_moved ..).seats

/-- Bringing a trunk on leaves the other trunks. -/
theorem State.settle_others (s : State) (k j : TrunkNo) (h : j ≠ k) : (s.settle k).trunks[j] = s.trunks[j] := by
  unfold State.settle State.markRest
  split
  · rw [State.modTrunk_other _ _ h, (State.settleBy_moved ..).others j h]
  · rw [(State.settleBy_moved ..).others j h]

/-- A poll's gap (R30, R31). -/
theorem State.enterGap_follows (s : State) (k : TrunkNo) : GapFollows s (s.enterGap k .release) k := by
  unfold State.enterGap
  generalize hs1 : s.modTrunk k (fun u => { u with hadGap := true, line := .gap .release }) = s1
  have hk : s1.trunks[k] = { s.trunks[k] with hadGap := true, line := .gap .release } := by rw [← hs1, State.modTrunk_self]
  have hl : (s1.trunks[k]).line = .gap .release := by rw [hk]
  have hseats : s1.seats = s.seats := by rw [← hs1]; rfl
  obtain ⟨hd, hc⟩ := s1.settle_gapDue k
  have hrest := s1.settle_rests k
  have hset := s1.settle_seats k
  have hrests : restsOnlyBare s (s1.settle k) (s1.settle k) k := fun h => by
    rcases hrest h with h | h
    · exact .inl (by rw [hk] at h; exact h)
    · exact .inr ⟨by rw [State.bound_congr hset]; exact h.1, h.2⟩
  refine ⟨fun h => ?_, fun h hb => ?_, hrests⟩
  · have := s1.settle_due k hl (hd.1 h)
    rwa [hk] at this
  · rw [hd] at h
    have hg := s1.settle_goesOn_of_gap k (by unfold Trunk.gapPassed; rw [hl]; exact h)
      (State.resting_eq_false (by rw [hc, State.bound_congr hset] at hb; exact hb))
    have hleft : (s1.settle k).leftToPoll (s.trunks[k]) k = s1.leftToPoll (s1.trunks[k]) k := by
      simp only [State.leftToPoll, State.seatAt_congr hset, hk]
    have hcount : (s1.trunks[k]).roundCounter = (s.trunks[k]).roundCounter := by rw [hk]
    refine ⟨fun h => ?_, fun h => ?_, hrests⟩
    · rw [hleft] at h ⊢
      have := hg.next h
      rwa [hcount] at this
    · rw [hleft] at h
      have := hg.ends h
      rw [hcount] at this
      exact ⟨this.called, fun hr => (this.begins hr).congr hset⟩

/-- A round that has polled no unit and has no address left comes to its single gap (R30). -/
theorem State.settle_single (s : State) (k : TrunkNo) (hl : (s.trunks[k]).line = .poll)
    (hleft : s.leftToPoll (s.trunks[k]) k = []) (hg : (s.trunks[k]).hadGap = false) :
    ∃ (f : Nat) (t : State), 40 ≤ f ∧ t.seats = s.seats ∧
      t.trunks[k] = { s.trunks[k] with toPoll := [], hadGap := true, line := .gap .release } ∧
      s.settle k = (State.settleBy k f t).markRest k := by
  obtain ⟨f, s1, hf, hseats, heq, hk⟩ := State.settleBy_skips k _ s hl rfl 64
  rw [hleft] at hk
  obtain ⟨g, rfl⟩ : ∃ g, f = g + 1 := ⟨f - 1, by omega⟩
  refine ⟨g, s1.modTrunk k (fun u => { u with hadGap := true, line := .gap .release }), by omega, hseats, ?_, ?_⟩
  · rw [State.modTrunk_self, hk]
  · unfold State.settle
    rw [Nat.add_comm, heq, State.settleBy_some (State.advanceLine_single (by rw [hk]; exact hl) (by rw [hk])
      (by rw [hk]; exact hg))]

/-- What bringing a trunk on does, from wherever it stands (R30, R31). -/
theorem State.settle_broughtOn (s : State) (k : TrunkNo) : BroughtOn s (s.settle k) k := by
  refine ⟨s.settle_goesOn_of_poll k, fun hp h => s.settle_goesOn_of_gap k hp ?_, fun hl hleft hg => ?_, s.settle_others k,
    s.settle_changes k⟩
  · rw [← Bool.not_eq_true, State.resting_iff]; tauto
  · obtain ⟨g, s2, hf, hseats2, hk2, hset⟩ := s.settle_single k hl hleft hg
    have hl2 : (s2.trunks[k]).line = .gap .release := by rw [hk2]
    have ht2 : (s2.trunks[k]).toPoll = [] := by rw [hk2]
    rw [hset]
    refine ⟨fun hd => ?_, fun hd hb => ?_⟩
    · rw [State.markRest_standsAt, State.settleBy_held g hl2 (.inl (by rw [hk2]; exact hd))]
      exact ⟨hl2, by rw [hk2], ht2⟩
    · obtain ⟨g, rfl⟩ : ∃ g', g = g' + 2 := ⟨g - 2, by omega⟩
      have hr : s2.resting k = false := State.resting_eq_false (by rw [State.bound_congr hseats2, hk2]; exact hb)
      rw [State.settleBy_passed g hl2 (by rw [hk2]; exact hd) hr ht2]
      generalize hs3 : s2.modTrunk k (fun u => { u with hadGap := true, line := .poll }) = s3
      have hk3 : s3.trunks[k] = { s2.trunks[k] with hadGap := true, line := .poll } := by rw [← hs3, State.modTrunk_self]
      have hseats3 : s3.seats = s.seats := by rw [← hs3]; exact hseats2
      have h := State.settleBy_roundEnds k g s3 (by omega)
      rw [show (s3.trunks[k]).roundCounter = (s.trunks[k]).roundCounter by rw [hk3, hk2]] at h
      exact RoundEnds.markRest ⟨h.called, fun hr => (h.begins hr).congr hseats3.symm⟩

/-! ## A trunk brought on stays -/

theorem RoundBegins.stays {t : State} {c : RoundCount} (h : RoundBegins m t k c) (hs : t.seats = m.seats) :
    t.advanceLine k = none := by
  have hpoll : ∀ (d : RoundCount) (l : List Nat), t.standsAt k .poll d l → l ≠ [] → (∀ a ∈ l, (m.seatAt k a).isSome = true) →
      t.advanceLine k = none := by
    intro d l ht hne hl
    cases l with
    | nil => exact absurd rfl hne
    | cons a l =>
      exact State.advanceLine_poll ht.1 ht.2.2 (by rw [State.seatAt_congr hs]; exact hl a List.mem_cons_self)
  by_cases hp : m.polledAt k c = []
  · by_cases hd : (t.trunks[k]).gapDue
    · exact State.advanceLine_due (h.gap hp (.inl hd)).1 hd
    · by_cases hr : (t.trunks[k]).rollCall = none
      · by_cases hb : m.bound k = []
        · have hg := h.gap hp (.inr ⟨hb, hr⟩)
          exact State.advanceLine_rest ((t.resting_iff k).2 ⟨hg.1, hd, hg.2.2, by rw [State.bound_congr hs]; exact hb, hr⟩)
        · exact hpoll 0 _ (h.absent hp hd hr hb) (by simpa using hb) (fun a ha =>
            State.seatAt_of_mem_polledAt (c := 0) (by rw [State.polledAt_zero]; exact ha))
      · exact State.advanceLine_roundDue (h.called hp hd hr).1
  · exact hpoll c _ (h.polls hp) hp (fun a ha => State.seatAt_of_mem_polledAt ha)

theorem RoundEnds.stays {t : State} {c : RoundCount} (h : RoundEnds m t k c) (hs : t.seats = m.seats) :
    t.advanceLine k = none := by
  by_cases hr : (t.trunks[k]).rollCall = none
  · exact (h.begins hr).stays hs
  · exact State.advanceLine_roundDue (h.called hr).1

theorem RoundGoesOn.stays {t : State} (h : RoundGoesOn s m t k) (hs : t.seats = m.seats) : t.advanceLine k = none := by
  by_cases hl : m.leftToPoll (s.trunks[k]) k = []
  · exact (h.ends hl).stays hs
  · have ht := h.next hl
    have hn := List.head?_dropWhile_not (fun b => (m.seatAt k b).isNone) (s.trunks[k]).toPoll
    rw [show (s.trunks[k]).toPoll.dropWhile (fun b => (m.seatAt k b).isNone) = m.leftToPoll (s.trunks[k]) k from rfl] at hn
    cases hc : m.leftToPoll (s.trunks[k]) k with
    | nil => exact absurd hc hl
    | cons a l =>
      rw [hc] at hn ht
      exact State.advanceLine_poll ht.1 ht.2.2 (by rw [State.seatAt_congr hs]; simpa using hn)

theorem State.markRest_stays (h : s.advanceLine k = none) : (s.markRest k).advanceLine k = none := by
  unfold State.markRest
  split
  · rename_i hr
    refine State.advanceLine_rest ((State.resting_iff _ k).2 ?_)
    rw [State.modTrunk_self]
    exact (s.resting_iff k).1 hr
  · exact h

/-- A trunk brought on has no further move of its own. -/
theorem State.settle_stays (s : State) (k : TrunkNo) : (s.settle k).advanceLine k = none := by
  have hset := s.settle_seats k
  cases ha : s.advanceLine k with
  | none =>
    unfold State.settle
    rw [State.settleBy_none ha]
    exact State.markRest_stays ha
  | some u =>
    have hb := s.settle_broughtOn k
    by_cases hl : (s.trunks[k]).line = .poll
    · by_cases hg : s.leftToPoll (s.trunks[k]) k = [] → (s.trunks[k]).hadGap = true
      · exact (hb.poll hl hg).stays hset
      · obtain ⟨hleft, hh⟩ := Classical.not_imp.1 hg
        have hone := hb.single hl hleft (by simpa using hh)
        obtain ⟨hd, hc⟩ := s.settle_gapDue k
        by_cases hdue : (s.trunks[k]).gapDue
        · exact State.advanceLine_due (hone.1 hdue).1 (hd.2 hdue)
        · by_cases hbc : s.bound k ≠ [] ∨ (s.trunks[k]).rollCall ≠ none
          · exact (hone.2 hdue hbc).stays hset
          · obtain ⟨hbound, hcall⟩ := not_or.1 hbc
            obtain ⟨f, t, -, hseats, hk, heq⟩ := s.settle_single k hl hleft (by simpa using hh)
            have hr : t.resting k = true := by
              rw [State.resting_iff, hk, State.bound_congr hseats]
              exact ⟨rfl, hdue, rfl, not_not.1 hbound, not_not.1 hcall⟩
            rw [heq, State.settleBy_held f (by rw [hk]) (.inr hr)]
            exact State.markRest_stays (State.advanceLine_rest hr)
    · have hgap : (s.trunks[k]).gapPassed ∧ s.resting k = false := by
        refine ⟨?_, ?_⟩
        · unfold State.advanceLine at ha
          dsimp only at ha
          split at ha
          · split at ha
            · cases ha
            · exact Trunk.gapPassed_of_offer ‹_› ‹_›
          · exact absurd ‹_› hl
          · cases ha
        · by_contra hr
          rw [State.advanceLine_rest (by simpa using hr)] at ha
          cases ha
      exact (s.settle_goesOn_of_gap k hgap.1 hgap.2).stays hset

theorem State.markRest_idem (s : State) (k : TrunkNo) : (s.markRest k).markRest k = s.markRest k := by
  by_cases hr : s.resting k = true
  · have h1 : s.markRest k = s.modTrunk k (fun u => { u with rested := true }) := if_pos hr
    have h2 : (s.markRest k).resting k = true := by
      rw [h1, State.resting_iff, State.modTrunk_self]; exact (s.resting_iff k).1 hr
    conv_lhs => rw [State.markRest, if_pos h2, h1]
    rw [h1]
    simp [State.modTrunk, State.setTrunks, vmod]
  · have h1 : s.markRest k = s := if_neg hr
    rw [h1, h1]

/-- Bringing a trunk on twice is bringing it on once: a send acts on the trunk as it was brought on. -/
theorem State.settle_idem (s : State) (k : TrunkNo) : (s.settle k).settle k = s.settle k := by
  have h := s.settle_stays k
  show (State.settleBy k _ (s.settle k)).markRest k = s.settle k
  rw [State.settleBy_none h]
  exact State.markRest_idem _ k

end Sys2Proof.Machine
end

