-- ==== Sys2Proof/Tests/Slice0.lean ====
section
/-! SUPPORT. The model's own tests: ill-formed commands, request frames and reply frames written out from R168
and R169, single steps with results from the manual, and for every statement with hypotheses a state and operands
that meet them, clause by clause. -/

namespace Sys2Proof.Tests
set_option Elab.async false
open Sys2Proof Sys2Proof.Machine

/-! ## Well-formed commands -/

/-- A reply that has not begun is no reply, and none is longer than its type calls for (R32, R169). -/
theorem test_wf_refuses_replies :
    Instr.wf (.pollReply 0 []) = false ∧ Instr.wf (.pollReply 0 (List.replicate 6 0)) = false ∧
      Instr.wf (.accessReply 0 []) = false ∧ Instr.wf (.accessReply 0 (List.replicate 7 0)) = false ∧
      Instr.wf (.slotReply 0 []) = false ∧ Instr.wf (.slotReply 0 (List.replicate 8 0)) = false ∧
      Instr.wf (.noiseReport []) = false ∧ Instr.wf (.noiseReport (List.replicate 6 0)) = false ∧
      Instr.wf (.lateReply 0 []) = false := by decide

/-- An expiry names a seat of the seat table (R50). -/
theorem test_wf_refuses_seats :
    Instr.wf (.mainExpiry 1024) = false ∧ Instr.wf (.graceExpiry 1024) = false ∧
      Instr.wf (.mainExpiry 1023) = true := by decide

/-- No table word spells a command: the table gives its rows no bits. -/
theorem test_no_table_word (n w : Nat) : decodeTableWord n w = none := rfl

/-! ## Frames written out from R168 and R169 -/

/-- GRANT of seat 261: kind 0x21, no table, key 0x0105, no fields. -/
theorem test_frame_grant : parseRequest [0xA5, 0x21, 0, 0x01, 0x05, 0, 0] = some (.grant 0x0105) := by
  decide +kernel

/-- PIN of the room led by S3 to language 7: kind 0x27, one field byte. -/
theorem test_frame_pin : parseRequest [0xA5, 0x27, 0, 0, 3, 0, 1, 7] = some (.pin 3 7) := by decide +kernel

/-- WRITE of language 2, code FRA, carrier 9: kind 2, table 7, four field bytes. -/
theorem test_frame_write_language :
    parseRequest [0xA5, 0x02, 0x07, 0, 2, 0, 4, 0x46, 0x52, 0x41, 9] =
      some (.writeLanguage 2 ⟨0x46, 0x52, 0x41, 9⟩) := by decide +kernel

/-- WRITE of trunk 1: 17 field bytes, the last thirteen read-only and ignored (R160). -/
theorem test_frame_write_trunk :
    parseRequest [0xA5, 0x02, 0x0D, 0, 1, 0, 17, 1, 2, 4, 2, 9, 9, 9, 9, 9, 9, 9, 9, 9, 9, 9, 9, 9] =
      some (.writeTrunk 1 ⟨1, 2, 4, 2⟩) := by decide +kernel

/-- UNIT ACCESS on trunk 2: address, parameter, direction, value. -/
theorem test_frame_unit_access :
    parseRequest [0xA5, 0x31, 0, 0, 2, 0, 5, 8, 63, 1, 0x12, 0x34] = some (.unitAccess 2 8 63 1 0x1234) := by
  decide +kernel

/-- TAKE NOTICE, READ of the ident record, RETIRE of booth 4, SELECT in its all form; padding is ignored. -/
theorem test_frames_plain :
    parseRequest [0xA5, 0x40, 0, 0, 0, 0, 0, 0xFF, 0xFF] = some .takeNotice ∧
      parseRequest [0xA5, 0x01, 0x0E, 0, 0, 0, 0] = some (.read .ident 0) ∧
      parseRequest [0xA5, 0x03, 0x06, 0, 4, 0, 0] = some (.retireBooth 4) ∧
      parseRequest [0xA5, 0x29, 0, 0xFF, 0xFF, 0, 0] = some (.select 0xFFFF) := by decide +kernel

/-- The checks of R158: a short header, a wrong sync byte, an unknown kind, a table the kind does not allow, a
length the kind does not call for, and too few bytes. -/
theorem test_frames_refused :
    parseRequest [0xA5, 0, 0, 0, 0, 0] = none ∧ parseRequest [0x5A, 0, 0, 0, 0, 0, 0] = none ∧
      parseRequest [0xA5, 0x7F, 0, 0, 0, 0, 0] = none ∧ parseRequest [0xA5, 0x02, 0x04, 0, 0, 0, 0] = none ∧
      parseRequest [0xA5, 0x10, 0, 0, 0, 0, 1, 0] = none ∧ parseRequest [0xA5, 0x27, 0, 0, 0, 0, 1] = none := by
  decide +kernel

/-- A poll reply of address 5 with MIC and mark 1: 0x81 + 5 + 1 + 1 + 0x78 is 0x100 (R169). -/
theorem test_poll_reply : pollContents 5 [0x81, 5, 1, 1, 0x78] = some (some (.mic, .one)) ∧
    pollContents 5 [0x81, 5, 1, 1, 0x77] = none ∧ pollContents 4 [0x81, 5, 1, 1, 0x78] = none := by decide +kernel

/-- A slot reply: its serial, most significant byte first, and its kind (R169). -/
theorem test_slot_reply : slotContents [0x86, 0x12, 0x34, 0x56, 0x78, 2, 0x64] =
    some (0x12345678, some .desk) := by decide +kernel

/-- A noise report of section 3, carrier 17, figure 200 (R169). -/
theorem test_noise_report : noiseContents [0xD0, 3, 17, 200, 0x54] = some (3, 17, 200) := by decide +kernel


/-! ## A small hall

Section 0 with two delegates, a chair, two desks at two booths of language 1, an absent delegate, a locked one; all bound
to trunk 0. -/

/-- A seat of section 0 bound to an address of trunk 0. -/
def sitting (kind : Kind) (address : Nat) : Seat where
  kind := kind
  seatClass := .ordinary
  section_ := 0
  language := 1
  micTrim := none
  speakerTrim := none
  booth := none
  neighbours := []
  lock := false
  mark := false
  serial := some (BitVec.ofNat 32 address)
  binding := some (0, address)
  present := true
  misses := 0
  keyMark := .none

/-- A booth of section 0 for language 1 out of language 2, with one desk. -/
def booth (takeover : Bool) (desk : Nat) (live : Option Nat) : Booth where
  output := 1
  sources := [2]
  home := 0
  takeover := takeover
  fillFloor := true
  gain := 0
  desks := [desk]
  live := live
  listen := .floor

/-- The hall in RUNNING, with the rule and limit of room 0, its lists, and where trunk 0 stands. -/
def hall (mode : FloorMode := .direct) (limit : Nat := 4) (speakers : List Speaker := []) (pool : List Request := [])
    (chairs : List Nat := []) (live : Option Nat := none) (line : Line := .idle) : State :=
  { State.reset with
    run := .running
    sections := State.reset.sections.set 0 ⟨{ floorMode := mode, speakerLimit := limit, speechLimit := 60 }, 0⟩
    seats := ⟨[(0, sitting .delegate 1), (1, sitting .delegate 2), (2, sitting .chair 3),
      (3, { sitting .desk 4 with booth := some 0 }), (4, { sitting .desk 5 with booth := some 1 }),
      (5, { sitting .delegate 6 with present := false, misses := 3 }), (6, { sitting .delegate 7 with lock := true })]⟩
    languages := ⟨[(1, ⟨0x45, 0x4E, 0x47, some 4⟩), (2, ⟨0x46, 0x52, 0x41, none⟩)]⟩
    booths := ⟨[(0, booth false 3 live), (1, booth true 4 none)]⟩
    speakers := speakers
    pool := pool
    chairs := chairs
    carriers := State.reset.carriers.set 4 { enabled := true }
    rooms := State.reset.rooms.set 0 { channels := [⟨0, .floor, none⟩, ⟨1, .floor, some 4⟩] }
    trunks := State.reset.trunks.set 0 { line := line } }

/-- A speaker with a minute left. -/
def talking (n : Nat) : Speaker :=
  ⟨n, some { inGrace := false, remaining := 60, capturedLimit := 60, capturedGrace := 30 }⟩

/-- The hall under a hold of its chair. -/
def held (s : State) (action : PriorityAction) : State :=
  s.modRoom 0 (fun r => { r with holding := [2], holdAction := some action })

/-- The hall with a roll call two rounds old and an access to address 1 in hand on trunk 0. -/
def busy (s : State) : State :=
  s.modTrunk 0 (fun u => { u with
    rollCall := some ⟨2, 4, 5, 1, 0, 2, 0, 0⟩
    access := .sent { address := 1, parameter := 63, write := false, value := 0 } })

/-- The hall with seat 1 bound on trunk 1. -/
def apart (s : State) : State := s.modSeat 1 (fun x => { x with binding := some (1, 2) })

/-- The hall with one seat record changed. -/
def marks (s : State) (n : Nat) (m : KeyMark) : State := s.modSeat n (fun x => { x with keyMark := m })

theorem hall_takes : hall.takes := ⟨rfl, by decide⟩

/-- The halls of the tests meet the invariants. -/
theorem test_halls_in_order :
    [hall, hall .direct 4 [talking 0], hall .queued 4 [] [⟨1, false⟩], hall .replace 1 [talking 0] [⟨1, false⟩],
      hall .queued 1 [talking 0] [⟨1, false⟩], hall .direct 1 [talking 0] [⟨1, false⟩], hall .direct 4 [] [] [2],
      held (hall .direct 4 [] [⟨1, false⟩]) .closeAll, hall .direct 4 [] [] [] (some 3)].all
      (fun s => s.tidyCheck && s.floorCheck && s.deskCheck && s.carrierCheck && s.channelCheck) = true := by decide +kernel


/-! ## Witnesses: a state and operands that meet the hypotheses of each statement, clause by clause -/

/-- A state with no command waiting, under RESET and not; an interval, a timer, a poll, an access and a slot at their last
millisecond. -/
theorem witness_IdleStepIsOneMillisecond :
    (∃ s : State, s.pending = [] ∧ s.resetLow = true) ∧
    (∃ s : State, s.pending = [] ∧ s.resetLow = false ∧ (s.walls[(23 : WallNo)]).interval = some 1 ∧
      (s.trunks[(0 : TrunkNo)]).line = .polling 254 ∧ (s.trunks[(1 : TrunkNo)]).line = .accessing ∧
      (s.trunks[(3 : TrunkNo)]).line = .slotOpen 255 ∧
      ∃ y ∈ s.speakers, ∃ m, y.timer = some m ∧ m.remaining = 1 ∧ m.millis = 999) := by
  refine ⟨⟨hall.setResetLow true, rfl, rfl⟩, ⟨{ hall with
    walls := hall.walls.set 23 { interval := some 1 }
    trunks := #v[{ line := .polling 254 }, { line := .accessing }, {}, { line := .slotOpen 255 }]
    speakers := [⟨0, some ⟨false, 1, 60, 30, 999⟩⟩] }, rfl, rfl, ?_⟩⟩
  refine ⟨by decide +kernel, by decide +kernel, by decide +kernel, by decide +kernel, _, List.mem_singleton.2 rfl, _,
    rfl, rfl, rfl⟩

theorem witness_TimerCountsWholeSeconds : ∃ (m : Timer) (k : Nat), m.millis = 0 ∧ m.remaining < k :=
  ⟨⟨false, 1, 60, 30, 0⟩, 2, rfl, by decide⟩

theorem witness_EveryCommandKeepsItsFrame : ∃ (c : Instr) (s t : State), exec c s = .next t :=
  ⟨.lateReply 0 [1], hall, hall, rfl⟩

theorem witness_NothingIsTakenUnderReset : ∃ (c : Instr) (s : State), s.resetLow = true ∧ c ≠ .hardwareReset :=
  ⟨.rawContactChange 0 true, hall.setResetLow true, rfl, by decide⟩

theorem witness_ResetHoldsThePort :
    (∀ p ∈ [PortPhase.free, .taking, .inHand, .stale], ∃ s : State, s.resetLow = false ∧ s.port.phase = p) ∧
    (∃ s : State, s.resetLow = true) ∧ (∃ s : State, s.resetLow = true ∨ s.port.phase = .stale) :=
  ⟨fun p _ => ⟨hall.setPort { hall.port with phase := p }, rfl, rfl⟩, ⟨hall.setResetLow true, rfl⟩,
    ⟨hall.setPort { hall.port with phase := .stale }, .inr rfl⟩⟩

theorem witness_TransferConversation :
    (∃ (s : State) (r : Response), s.resetLow = false ∧ s.port.phase = .free ∧ s.port.buffer = some r) ∧
    (∃ u : State, u.resetLow = false ∧ u.port.phase = .taking) ∧
    ∃ u : State, u.resetLow = false ∧ u.port.phase = .inHand :=
  ⟨⟨hall, ⟨.ok, []⟩, rfl, rfl, rfl⟩, ⟨hall.acceptTransfer, rfl, rfl⟩,
    ⟨hall.setPort { hall.port with phase := .inHand }, rfl, rfl⟩⟩

theorem witness_SplitTransferEqualsWhole :
    ∃ (c : Instr) (s : State), (encodeRequest c).isSome = true ∧ s.resetLow = false ∧ s.port.phase = .free :=
  ⟨.grant 0, hall, rfl, rfl, rfl⟩

theorem witness_RequestFramesReadBack : ∃ (c : Instr) (frame : List Byte), encodeRequest c = some frame :=
  ⟨.unitAccess 3 254 63 1 0xFFFF, _, rfl⟩

theorem witness_FrameChecksDecide :
    ∃ (s : State) (bytes : List Byte), s.takes ∧ (parseRequest bytes).isSome = false :=
  ⟨hall, [0xA5, 0x10, 0, 0, 0, 0, 1, 0], hall_takes, by decide +kernel⟩

/-- Reads of every table at its last key in use and of the lead 0, and one read of each refusal: a free record, the first key
beyond a range (R160). -/
theorem witness_ReadAnswersByItsTable :
    ∃ s : State, s.takes ∧
      (∀ p ∈ [(Table.section_, 15), (.wall, 23), (.seat, 6), (.booth, 1), (.language, 2), (.carrier, 31), (.selector, 7),
        (.trunk, 3)], readStatus s p.1 (BitVec.ofNat 16 p.2) = .ok) ∧
      (∀ table ∈ [Table.venue, .room, .channels, .queue, .speakers, .ident], readStatus s table 0 = .ok) ∧
      readStatus s .seat 1023 = .noRecord ∧
      ∀ p ∈ [(Table.seat, 1024), (.room, 16), (.language, 0)], readStatus s p.1 (BitVec.ofNat 16 p.2) = .badKey :=
  ⟨hall, hall_takes, by decide +kernel, by decide +kernel, by decide +kernel, by decide +kernel⟩

theorem witness_VenueWriteTakesEffect :
    (∃ (key : Half) (s : State), s.takes ∧ key ≠ 0#16) ∧
    ∃ (key : Half) (f : VenueWrite) (s : State), s.takes ∧ key = 0#16 ∧ f.global = 1#8 :=
  ⟨⟨1, hall, hall_takes, by decide⟩, ⟨0, ⟨255, 64, 0x3FFFE, 0xFFFF, 1⟩, hall, hall_takes, rfl, rfl⟩⟩

/-- A notice that passes and one that does not, a queue of 63 and one of 64. -/
theorem witness_NoticesQueueInOrder :
    let n : Notice := ⟨some 0, some 0, .timeWarning 30⟩
    let passes (s : State) := s.venue.enables.getLsbD (noticeDetail n.detail).1 = true ∧
      ∀ l : SectionNo, n.room = some l → s.venue.mask.getLsbD l.val = true
    (∃ s : State, ¬ passes s) ∧ (∃ s : State, passes s ∧ s.notices.queue.length < 64) ∧
    (∃ s : State, passes s ∧ 64 ≤ s.notices.queue.length) ∧
    ∃ (s : State) (m : Notice) (rest : List Notice), s.takes ∧ s.notices.queue = m :: rest := by
  intro n passes
  have hp : ∀ s : State, s.venue = {} → passes s := fun s h => by
    refine ⟨by rw [h]; decide, fun l hl => ?_⟩
    obtain rfl := Option.some.inj hl
    rw [h]; decide
  refine ⟨⟨hall.setVenue { hall.venue with mask := 0xFFFE }, fun h => ?_⟩,
    ⟨hall.setNotices ⟨List.replicate 63 n, false⟩, hp _ rfl, by decide⟩,
    ⟨hall.setNotices ⟨List.replicate 64 n, false⟩, hp _ rfl, by decide⟩,
    ⟨hall.setNotices ⟨[n], false⟩, n, [], hall_takes, rfl⟩⟩
  exact absurd (h.2 0 rfl) (by decide)

theorem witness_StartBeginsRunning :
    (∃ s : State, s.takes ∧ s.run = .running) ∧
    ∃ (s : State) (x : Seat), s.takes ∧ s.run = .halted ∧ Tidy s ∧ s.speakers = [] ∧ s.chairs = [] ∧
      s.programmes = [] ∧ s.seats.get 0 = some x ∧ x.kind ≠ .desk ∧ (s.trunks[(3 : TrunkNo)]).enabled = false ∧
      (s.trunks[(0 : TrunkNo)]).enabled = true ∧ (s.trunks[(0 : TrunkNo)]).releaseAll = true ∧ s.bound 0 ≠ [] ∧
      (s.trunks[(1 : TrunkNo)]).enabled = true ∧ (s.trunks[(1 : TrunkNo)]).releaseAll = false ∧ s.bound 1 = [] :=
  ⟨⟨hall, hall_takes, rfl⟩, ⟨((hall.setRun .halted).modTrunk 3 (fun u => { u with enabled := false })).modTrunk 1
      (fun u => { u with releaseAll := false }),
    sitting .delegate 1, ⟨rfl, by decide⟩, rfl, Tidy.of_check (by decide +kernel), rfl, rfl, rfl, by decide +kernel,
    by decide, by decide +kernel, by decide +kernel, by decide +kernel, by decide +kernel, by decide +kernel,
    by decide +kernel, by decide +kernel⟩⟩

/-- Every wall of the hall is closed and every section its own room. -/
theorem hall_rooms : RoomsFollowWalls hall := RoomsFollowWalls.of_closed (by decide +kernel) (by decide +kernel)

/-- A hall HALTED; one RUNNING with a speaker, a queue, an open chair and a LIVE desk, a roll call and an access. -/
theorem witness_StopEmptiesEverything :
    (∃ s : State, s.takes ∧ s.run = .halted) ∧
    ∃ s : State, s.takes ∧ s.run = .running ∧ InOrder s ∧ (s.trunks[(0 : TrunkNo)]).releasing = none ∧
      (emptiedNotices s s.leads .stop).length = 3 ∧ (s.booths.get 0).map Booth.live = some (some 3) ∧
      (abortNotices s 0).length = 2 :=
  ⟨⟨State.reset, ⟨rfl, by decide⟩, rfl⟩, ⟨busy (hall .direct 1 [talking 0] [⟨1, false⟩] [2] (some 3)), ⟨rfl, by decide⟩,
    rfl, InOrder.of_check (by decide +kernel), by decide +kernel, by decide +kernel, by decide +kernel, by decide +kernel⟩⟩

/-! ### Walls and rooms -/

/-- Section 0 and section 15 are rooms; 16 is no section. -/
theorem hall_names : hall.names 0 0 ∧ hall.names 15 15 ∧ ¬ ∃ l, hall.names 16 l :=
  ⟨⟨by decide, by decide +kernel⟩, ⟨by decide, by decide +kernel⟩, fun ⟨l, h, _⟩ => by
    have := l.isLt; simp only [show (16 : Half).toNat = 16 from by decide] at h; omega⟩

theorem witness_FreezeSetsTheFrozenFlag :
    (∃ (key : Half) (s : State), s.takes ∧ ¬ ∃ l, s.names key l) ∧
    (∃ (key : Half) (s : State) (l : SectionNo), s.takes ∧ s.names key l) ∧
    ∃ (key : Half) (s : State) (l : SectionNo), s.takes ∧ s.names key l ∧ (s.rooms[l]).frozen = true :=
  ⟨⟨16, hall, hall_takes, hall_names.2.2⟩, ⟨15, hall, 15, hall_takes, hall_names.2.1⟩,
    ⟨0, hall.modRoom 0 (fun r => { r with frozen := true }), 0, ⟨rfl, by decide⟩, ⟨by decide, by decide +kernel⟩,
      by decide +kernel⟩⟩

/-- Two frozen rooms; wall 0 lies between them, wall 23 is pending. -/
def frozenHall : State :=
  { hall with
    rooms := (hall.rooms.set 0 { hall.rooms[(0 : SectionNo)] with frozen := true }).set 1 { frozen := true }
    walls := (hall.walls.set 0 { setup := { pair := some (0, 1) } }).set 23
      { setup := { pair := some (2, 3) }, pendingFlag := true } }

theorem frozenHall_inOrder : InOrder frozenHall :=
  .of_check (by decide +kernel)

theorem witness_ThawReleasesWallsTogether :
    (∃ (s : State) (l : SectionNo), s.takes ∧ s.names 0 l ∧ (s.rooms[l]).frozen = false) ∧
    ∃ (s : State) (l : SectionNo), s.takes ∧ s.names 0 l ∧ (s.rooms[l]).frozen = true ∧ InOrder s ∧
      (s.walls[(23 : WallNo)]).pendingFlag = true ∧
      ∃ a b, (s.walls[(0 : WallNo)]).setup.pair = some (a, b) ∧ s.roomOf a = l ∧ s.roomOf b ≠ l ∧
        (s.rooms[s.roomOf b]).frozen = true :=
  ⟨⟨hall, 0, hall_takes, hall_names.1, by decide +kernel⟩, ⟨frozenHall, 0, ⟨rfl, by decide⟩,
    ⟨by decide, by decide +kernel⟩, by decide +kernel, frozenHall_inOrder, by decide +kernel, 0, 1, by decide +kernel, by decide +kernel,
    by decide +kernel, by decide +kernel⟩⟩

/-- A wall 24, a pair of equal sections, a change of an OPEN wall's sections, a field out of range; a pair written, an
unconnected wall, a reversed polarity, and a wall held by a frozen room. -/
theorem witness_WallWriteIsEvaluated :
    (∃ (key : Half) (s : State), s.takes ∧ 24 ≤ key.toNat) ∧
    (∃ (key : Half) (w : WallNo) (s : State), s.takes ∧ key.toNat = w.val ∧ Tidy s ∧
      wallWriteStatus s.walls[w] ⟨15, 15, 0, 0, 0, 0, 0⟩ = .badValue ∧
      wallWriteStatus { s.walls[w] with effective := true } ⟨0, 15, 0, 0, 0, 0, 0⟩ = .wrongState ∧
      wallWriteStatus s.walls[w] ⟨0xFF, 0xFF, 2, 0, 0, 0, 0⟩ = .badValue ∧
      wallWriteStatus s.walls[w] ⟨15, 0, 1, 3, 1, 1, 2⟩ = .ok ∧
      wallWriteStatus s.walls[w] ⟨0xFF, 0xFF, 1, 0, 0, 0, 0⟩ = .ok) ∧
    ∃ (w : WallNo) (s : State) (a b : SectionNo), s.takes ∧ InOrder s ∧ (s.walls[w]).setup.pair = some (a, b) ∧
      (s.rooms[s.roomOf a]).frozen = true :=
  ⟨⟨24, hall, hall_takes, by decide⟩, ⟨23, 23, hall, hall_takes, by decide, Tidy.of_check (by decide +kernel),
    by decide +kernel, by decide +kernel, by decide +kernel, by decide +kernel, by decide +kernel⟩,
    ⟨0, frozenHall, 0, 1, ⟨rfl, by decide⟩, frozenHall_inOrder, by decide +kernel, by decide +kernel⟩⟩

/-- A wall read CLOSED and sensed OPEN, of class NONE and of class LONG; no interval, one running and one run out; a free wall
and a held one. -/
theorem witness_ContactsAreDebounced :
    (∃ (s : State) (w : WallNo), s.resetLow = false ∧ (s.walls[w]).interval = none ∧
      (s.walls[w]).setup.debounceClass = .none ∧ (s.walls[w]).setup.polarity = .madeIsClosed ∧
      (s.walls[w]).made = false ∧ (s.walls[w]).sensed = true) ∧
    (∃ (s : State) (w : WallNo), s.resetLow = false ∧ (s.walls[w]).interval = some 3000 ∧
      (s.walls[w]).setup.debounceClass = .long) ∧
    (∃ (s : State) (w : WallNo), s.resetLow = false ∧ InOrder s ∧ (s.walls[w]).interval = some 0) ∧
    ∃ (s : State) (w : WallNo) (a b : SectionNo), s.resetLow = false ∧ (s.walls[w]).setup.pair = some (a, b) ∧
      (s.rooms[s.roomOf a]).frozen = true :=
  ⟨⟨hall.modWall 0 (fun x => { x with setup := { debounceClass := .none } }), 0, rfl, by decide +kernel,
    by decide +kernel, by decide +kernel, by decide +kernel, by decide +kernel⟩,
    ⟨hall.modWall 23 (fun x => { x with setup := { debounceClass := .long }, interval := some 3000 }), 23, rfl,
      by decide +kernel, by decide +kernel⟩,
    ⟨hall.modWall 23 (fun x => { x with interval := some 0 }), 23, rfl,
      .of_check (by decide +kernel),
      by decide +kernel⟩,
    ⟨frozenHall, 0, 0, 1, rfl, by decide +kernel, by decide +kernel⟩⟩

/-- A section write with limits 1 and 0 and with its fields at the ends of their ranges; refused fields; a section that leads
its room and, below an open wall, one that does not. -/
theorem witness_SectionWriteTakesEffect :
    (∃ (key : Half) (s : State), s.takes ∧ 16 ≤ key.toNat) ∧
    (∃ (f g h : SectionWrite) (s : State), s.takes ∧ sectionWriteStatus s f = .badValue ∧
      sectionWriteStatus s g = .noRecord ∧ sectionWriteStatus s h = .ok ∧ s.isLead 0 = true ∧ InOrder s) ∧
    ∃ (s : State) (i : SectionNo), s.takes ∧ s.isLead i = false := by
  refine ⟨⟨16, hall, hall_takes, by decide⟩, ⟨⟨0, 1, 0, 0, 0, 0, 0, 0, 0, 0, 0, 25⟩, ⟨2, 1, 0, 0, 0, 0, 0, 0, 0, 0, 1, 24⟩,
    ⟨2, 0, 0, 3601, 601, 0x88, 0x87, 0x19, 0xE7, 41, 1, 2⟩, hall .queued 1 [talking 0] [⟨1, false⟩], ⟨rfl, by decide⟩,
    by decide +kernel, by decide +kernel, by decide +kernel, by decide +kernel,
    InOrder.of_check (by decide +kernel)⟩,
    ⟨hall.setSections (hall.sections.set 1 ⟨{}, 0⟩), 1, ⟨rfl, by decide⟩, by decide +kernel⟩⟩


/-! ### The speaking floor -/

/-- The refusals of a seat, HALTED and a desk; an ABSENT and an open seat; a chair; a delegate below the limit, in a full
QUEUED room and in a full REPLACE room. -/
theorem witness_GrantOpensAMicrophone :
    (∃ s : State, s.takes ∧ seatRefusal s 1024 true = some .badKey ∧ seatRefusal s 1023 true = some .noRecord ∧
      seatRefusal s 3 true = some .wrongState ∧ seatRefusal (s.setRun .halted) 0 true = some .wrongState) ∧
    (∃ (s : State) (x y : Seat), s.takes ∧ seatRefusal s 5 true = none ∧ s.seats.get 5 = some x ∧ x.present = false ∧
      seatRefusal s 0 true = none ∧ s.seats.get 0 = some y ∧ s.micOpen 0 = true) ∧
    (∃ (s : State) (x y : Seat), s.takes ∧ InOrder s ∧ seatRefusal s 2 true = none ∧ s.seats.get 2 = some x ∧
      x.kind = .chair ∧ x.present = true ∧ s.micOpen 2 = false ∧ seatRefusal s 0 true = none ∧
      s.seats.get 0 = some y ∧ y.kind = .delegate ∧ y.present = true ∧ s.micOpen 0 = false ∧
      s.belowLimit (s.roomOf y.section_) = true) ∧
    ∀ mode ∈ [FloorMode.queued, .replace], ∃ (s : State) (x : Seat), s.takes ∧ InOrder s ∧
      seatRefusal s 1 true = none ∧ s.seats.get 1 = some x ∧ x.kind = .delegate ∧ x.present = true ∧
      s.micOpen 1 = false ∧ s.belowLimit (s.roomOf x.section_) = false ∧
      (s.settings (s.roomOf x.section_)).floorMode = mode := by
  refine ⟨⟨hall, hall_takes, by decide +kernel, by decide +kernel, by decide +kernel, by decide +kernel⟩,
    ⟨hall .direct 4 [talking 0], _, _, ⟨rfl, by decide⟩, by decide +kernel, rfl, rfl, by decide +kernel, rfl,
      by decide +kernel⟩,
    ⟨hall, _, _, hall_takes, InOrder.of_check (by decide +kernel), by decide +kernel, rfl, rfl, rfl,
      by decide +kernel, by decide +kernel, rfl, rfl, rfl, by decide +kernel, by decide +kernel⟩, fun mode hm => ?_⟩
  simp only [List.mem_cons, List.not_mem_nil, or_false] at hm
  rcases hm with rfl | rfl
  · exact ⟨hall .queued 1 [talking 0] [⟨1, false⟩], _, ⟨rfl, by decide⟩, InOrder.of_check (by decide +kernel),
      by decide +kernel, rfl, rfl, rfl, by decide +kernel, by decide +kernel, by decide +kernel⟩
  · exact ⟨hall .replace 1 [talking 0] [⟨1, false⟩], _, ⟨rfl, by decide⟩, InOrder.of_check (by decide +kernel),
      by decide +kernel, rfl, rfl, rfl, by decide +kernel, by decide +kernel, by decide +kernel⟩

/-- A shut seat, and an open one in a room with a head to advance. -/
theorem witness_CloseShutsAMicrophone :
    (∃ (s : State) (x : Seat), s.takes ∧ seatRefusal s 1 false = none ∧ s.seats.get 1 = some x ∧ s.micOpen 1 = false ∧
      seatRefusal s 1024 false = some .badKey) ∧
    ∃ (s : State) (x : Seat), s.takes ∧ seatRefusal s 0 false = none ∧ s.seats.get 0 = some x ∧ s.micOpen 0 = true ∧
      InOrder s :=
  ⟨⟨hall, _, hall_takes, by decide +kernel, rfl, by decide +kernel, by decide +kernel⟩,
    ⟨hall .direct 1 [talking 0] [⟨1, false⟩], _, ⟨rfl, by decide⟩, by decide +kernel, rfl, by decide +kernel,
      InOrder.of_check (by decide +kernel)⟩⟩

theorem witness_WaitingRequestsLeaveOrRise :
    (∃ (s : State) (x : Seat), s.takes ∧ seatRefusal s 2 false = none ∧ s.seats.get 2 = some x ∧ x.kind = .chair ∧
      s.waiting 0 = false ∧ seatRefusal s 1023 false = some .noRecord) ∧
    ∃ (s : State) (x : Seat), s.takes ∧ seatRefusal s 1 false = none ∧ s.seats.get 1 = some x ∧ x.kind = .delegate ∧
      s.waiting 1 = true :=
  ⟨⟨hall, _, hall_takes, by decide +kernel, rfl, rfl, by decide +kernel, by decide +kernel⟩,
    ⟨hall .queued 4 [] [⟨1, false⟩], _, ⟨rfl, by decide⟩, by decide +kernel, rfl, rfl, by decide +kernel⟩⟩

/-- HALTED; an empty queue; a full room of each kind; a room below its limit. -/
theorem witness_NextGrantsTheHead :
    (∃ (s : State) (l : SectionNo), s.takes ∧ s.names 0 l ∧ s.run = .running ∧ s.queue l = []) ∧
    (∃ (s : State) (l : SectionNo), s.takes ∧ s.names 0 l ∧ s.run = .halted) ∧
    (∃ (s : State) (r : Request), s.takes ∧ s.names 0 0 ∧ s.run = .running ∧ s.queue 0 = [r] ∧
      s.belowLimit 0 = false ∧ (s.settings 0).floorMode = .queued) ∧
    (∃ (s : State) (r : Request) (x : Seat), s.takes ∧ s.names 0 0 ∧ s.run = .running ∧ s.queue 0 = [r] ∧
      InOrder s ∧ s.seats.get r.seat = some x ∧ s.belowLimit 0 = false ∧ (s.settings 0).floorMode = .replace) ∧
    ∃ (s : State) (r : Request) (x : Seat), s.takes ∧ s.names 0 0 ∧ s.run = .running ∧ s.queue 0 = [r] ∧
      InOrder s ∧ s.seats.get r.seat = some x ∧ s.belowLimit 0 = true := by
  refine ⟨⟨hall, 0, hall_takes, hall_names.1, rfl, by decide +kernel⟩,
    ⟨hall.setRun .halted, 0, ⟨rfl, by decide⟩, ⟨by decide, by decide +kernel⟩, rfl⟩,
    ⟨hall .queued 1 [talking 0] [⟨1, false⟩], ⟨1, false⟩, ⟨rfl, by decide⟩, ⟨by decide, by decide +kernel⟩, rfl,
      by decide +kernel, by decide +kernel, by decide +kernel⟩,
    ⟨hall .replace 1 [talking 0] [⟨1, false⟩], ⟨1, false⟩, _, ⟨rfl, by decide⟩, ⟨by decide, by decide +kernel⟩, rfl,
      by decide +kernel, InOrder.of_check (by decide +kernel), rfl, by decide +kernel, by decide +kernel⟩,
    ⟨hall .queued 4 [] [⟨1, true⟩], ⟨1, true⟩, _, ⟨rfl, by decide⟩, ⟨by decide, by decide +kernel⟩, rfl,
      by decide +kernel, InOrder.of_check (by decide +kernel), rfl, by decide +kernel⟩⟩

/-- A speaker, a queue entry and an open chair in room 0, for the form of one room and the all form. -/
theorem witness_ClearFloorEmptiesRooms :
    (∃ (key : Half) (s : State), s.takes ∧ (¬ ∃ l, s.names key l) ∧ key ≠ 0xFFFF#16) ∧
    ∃ s : State, s.takes ∧ s.names 0 0 ∧ InOrder s ∧ s.speakers ≠ [] ∧ s.pool ≠ [] ∧
      s.chairs ≠ [] :=
  ⟨⟨16, hall, hall_takes, hall_names.2.2, by decide⟩,
    ⟨hall .direct 1 [talking 0] [⟨1, false⟩] [2], ⟨rfl, by decide⟩, ⟨by decide, by decide +kernel⟩,
      InOrder.of_check (by decide +kernel),
      by decide, by decide, by decide⟩⟩

theorem witness_PinHoldsTheFloorLanguage :
    ∃ s : State, s.takes ∧ (¬ ∃ l, s.names 16 l) ∧ s.names 0 0 ∧ 24 < (25#8).toNat ∧
      s.languages.get (24#8).toNat = none ∧ (s.languages.get (2#8).toNat).isSome = true ∧
      (s.rooms[(0 : SectionNo)]).floorLanguage = (0#8).toNat ∧ (s.rooms[(0 : SectionNo)]).floorLanguage ≠ (2#8).toNat :=
  ⟨hall, hall_takes, hall_names.2.2, hall_names.1, by decide, by decide +kernel, by decide +kernel, by decide +kernel,
    by decide +kernel⟩

/-- A timer run out in MAIN with grace and without, and in GRACE, one with time left, a speaker without one; EXTEND of a SPEAKING and of a WARNED seat, and
its refusals. -/
theorem witness_TimersWarnCloseAndExtend :
    (∀ m ∈ [(⟨false, 0, 60, 30, 0⟩ : Timer), ⟨false, 0, 60, 0, 0⟩, ⟨true, 0, 60, 30, 0⟩, ⟨false, 1, 60, 30, 999⟩],
      ∃ (s : State) (x : Seat), s.takes ∧ InOrder s ∧ (⟨0, some m⟩ : Speaker) ∈ s.speakers ∧
        s.seats.get 0 = some x ∧ s.run = .running) ∧
    (∃ s : State, ∀ m, (⟨0, some m⟩ : Speaker) ∉ s.speakers) ∧
    ∃ (s : State) (x : Seat), s.takes ∧ 1024 ≤ (1024#16).toNat ∧ s.seats.get (1023#16).toNat = none ∧
      s.seats.get (2#16).toNat = some x ∧ x.kind ≠ .delegate := by
  refine ⟨fun m hm => ?_, ⟨hall, fun m h => absurd h (by simp [hall])⟩,
    ⟨hall, _, hall_takes, by decide, by decide +kernel, rfl, by decide⟩⟩
  refine ⟨hall .direct 4 [⟨0, some m⟩], sitting .delegate 1, ⟨rfl, fun h => by cases h⟩, ?_, List.mem_singleton.2 rfl,
    rfl, rfl⟩
  simp only [List.mem_cons, List.not_mem_nil, or_false] at hm
  rcases hm with rfl | rfl | rfl | rfl <;> exact InOrder.of_check (by decide +kernel)

/-! ### Selectors -/

theorem witness_SelectorActions :
    (∃ (x : Seat) (sel : Selector), x.kind ≠ .desk ∧ sel.enabled = false) ∧
    (∀ a ∈ [SelectAction.setClear, .setKeep, .keepClear, .flipKeep, .clearSet, .clearKeep, .keepSet, .keepFlip],
      ∃ (s : State) (x y : Seat) (sel : Selector), sel.enabled = true ∧ sel.action = a ∧ s.matches sel x = true ∧
        s.matches sel y = false) := by
  refine ⟨⟨sitting .delegate 1, {}, by decide, rfl⟩, fun a _ =>
    ⟨hall, sitting .delegate 1, sitting .chair 3, ⟨true, .kind, 0, 0xFF, true, a⟩, rfl, rfl, ?_, ?_⟩⟩
  · have h : hall.matches ⟨true, .kind, 0, 0xFF, true, .setClear⟩ (sitting .delegate 1) = true := by decide +kernel
    exact h
  · have h : hall.matches ⟨true, .kind, 0, 0xFF, true, .setClear⟩ (sitting .chair 3) = false := by decide +kernel
    exact h

theorem witness_SelectRunsTheSelectors :
    ∃ s : State, s.takes ∧ (¬ ∃ l, s.names 16 l) ∧ (16#16 : Half) ≠ 0xFFFF#16 ∧ s.names 15 15 :=
  ⟨hall, hall_takes, hall_names.2.2, by decide, hall_names.2.1⟩

theorem witness_CloseMarkedClosesTheMarked :
    (∃ s : State, s.takes ∧ s.names 0 0 ∧ s.run = .halted) ∧
    ∃ s : State, s.takes ∧ s.names 0 0 ∧ s.run = .running ∧ InOrder s ∧ s.marked 0 = true ∧ s.micOpen 0 = true ∧
      s.queue 0 ≠ [] :=
  ⟨⟨hall.setRun .halted, ⟨rfl, by decide⟩, ⟨by decide, by decide +kernel⟩, rfl⟩,
    ⟨(hall .direct 1 [talking 0] [⟨1, false⟩]).modSeat 0 (fun x => { x with mark := true }), ⟨rfl, by decide +kernel⟩,
      ⟨by decide, by decide +kernel⟩, rfl, InOrder.of_check (by decide +kernel), by decide +kernel,
      by decide +kernel, by decide +kernel⟩⟩

theorem witness_SelectorTableHoldsSixFields :
    ∃ (s : State) (f g : SelectorWrite) (i : SelectorNo), s.takes ∧ 8 ≤ (8#16).toNat ∧ (7#16).toNat = i.val ∧
      5 ≤ f.matchField.toNat ∧ g.matchField.toNat < 5 ∧ g.target.toNat < 2 ∧ g.action.toNat < 8 ∧ onOffByte g.enabled :=
  ⟨hall, ⟨1, 5, 0, 0, 2, 8⟩, ⟨1, 4, 0xFF, 0xFF, 1, 7⟩, 7, hall_takes, by decide, by decide, by decide, by decide,
    by decide, by decide, .inr rfl⟩

/-! ### The seat table -/

/-- The fields of a delegate of section 0 with no language, trims or booth. -/
def plainWrite : SeatWrite := ⟨0, 0, 0, 0, 0x80, 0x80, 0xFF, 0, 0, 0xFFFF, 0xFFFF, 0xFFFF, 0xFFFF, 0⟩

/-- Each status of a SEAT write; a created seat, one whose LOCK is set while it waits, a desk that joins a booth, and a seat
whose section, whose trim, and neither changes. -/
theorem witness_SeatWriteTakesEffect :
    1024 ≤ (1024#16 : Half).toNat ∧
    (∃ s : State, s.takes ∧ seatWriteStatus s 1023 { plainWrite with kind := 3 } = .badValue ∧
      seatWriteStatus s 1023 { plainWrite with language := 24 } = .noRecord ∧
      seatWriteStatus s 3 { plainWrite with kind := 2, flags := 4, serial := 9 } = .wrongState ∧
      seatWriteStatus (s.modBooth 0 (fun y => { y with desks := [3, 10, 11] })) 12
        { plainWrite with kind := 2, booth := 0 } = .full) ∧
    (∃ s : State, s.takes ∧ InOrder s ∧ s.seats.get 1023 = none ∧
      seatWriteStatus s 1023 { plainWrite with neighbourCount := 1, neighbour0 := 0, flags := 7, serial := 0xFFFFFFFF }
        = .ok) ∧
    (∃ (s : State) (z : Seat), s.takes ∧ s.waiting 1 = true ∧ s.seats.get 1 = some z ∧ z.lock = false ∧
      seatWriteStatus s 1 { plainWrite with flags := 5, serial := 2 } = .ok) ∧
    (∃ s : State, s.takes ∧ seatWriteStatus s 12 { plainWrite with kind := 2, booth := 0 } = .ok) ∧
    ∃ (s : State) (z : Seat), s.takes ∧ InOrder s ∧ s.seats.get 0 = some z ∧ z.section_ = 0 ∧ z.micTrim = none ∧
      ∀ f ∈ [{ plainWrite with section_ := 15 }, { plainWrite with micTrim := 6 }, plainWrite],
        seatWriteStatus s 0 { f with flags := 4, serial := 1 } = .ok :=
  ⟨by decide, ⟨hall, hall_takes, by decide +kernel, by decide +kernel, by decide +kernel, by decide +kernel⟩,
    ⟨hall, hall_takes, .of_check (by decide +kernel), by decide +kernel, by decide +kernel⟩,
    ⟨hall .queued 4 [] [⟨1, false⟩], _, ⟨rfl, by decide⟩, by decide +kernel, rfl, rfl, by decide +kernel⟩,
    ⟨hall, hall_takes, by decide +kernel⟩,
    ⟨hall, sitting .delegate 1, hall_takes, .of_check (by decide +kernel), rfl, rfl, rfl, by decide +kernel⟩⟩

/-- A speaker, a waiting delegate, a chair in the holding set and a LIVE desk, each bound. -/
theorem witness_RetireSeatFreesTheSeat :
    (∃ s : State, s.takes ∧ 1024 ≤ (1024#16).toNat ∧ s.seats.get (1023#16).toNat = none) ∧
    ∃ s : State, s.takes ∧ InOrder s ∧ s.micOpen 0 = true ∧ s.waiting 1 = true ∧
      2 ∈ (s.rooms[(0 : SectionNo)]).holding ∧ (s.booths.get 0).map Booth.live = some (some 3) ∧
      s.headsLeft [0] 0 = [1] ∧ s.holdEnds [2] 0 = true ∧
      ∀ n ∈ [0, 1, 2, 3], ∃ x, s.seats.get n = some x ∧ x.binding = some (0, n + 1) := by
  refine ⟨⟨hall, hall_takes, by decide, by decide +kernel⟩,
    ⟨held (hall .direct 1 [talking 0] [⟨1, false⟩] [] (some 3)) .muteWhileHeld, ⟨rfl, by decide +kernel⟩,
      InOrder.of_check (by decide +kernel), by decide +kernel, by decide +kernel, by decide +kernel,
      by decide +kernel, by decide +kernel, by decide +kernel, fun n hn => ?_⟩⟩
  simp only [List.mem_cons, List.not_mem_nil, or_false] at hn
  rcases hn with rfl | rfl | rfl | rfl <;> exact ⟨_, rfl, rfl⟩


/-! ### Languages, booths and carriers -/

/-- The hall without its booths, and with language 2 its floor language. -/
def quietHall : State :=
  (hall.setBooths .empty).modRoom 0 (fun r => { r with floorLanguage := 2 })

theorem witness_LanguageTableIsHeld :
    (∃ s : State, s.takes ∧ (0#16 : Half).toNat = 0 ∧ 24 < (25#16 : Half).toNat) ∧
    (∃ (f g : LanguageWrite) (s : State), s.takes ∧ 1 ≤ (24#16 : Half).toNat ∧ (24#16 : Half).toNat ≤ 24 ∧
      ¬ ((0x41 ≤ f.code0.toNat ∧ f.code0.toNat ≤ 0x5A) ∨ (0x30 ≤ f.code0.toNat ∧ f.code0.toNat ≤ 0x39)) ∧
      g.code0 = 0x41 ∧ g.code1 = 0x5A ∧ g.code2 = 0x39 ∧ g.carrier.toNat < 32 ∧
      s.languages.get (24#16 : Half).toNat = none) ∧
    (∃ (s : State) (y : Booth), s.takes ∧ (s.languages.get (2#16 : Half).toNat).isSome = true ∧ s.booths.get 0 = some y ∧
      (2#16 : Half).toNat ∈ y.sources) ∧
    ∃ s : State, s.takes ∧ Tidy s ∧ (s.languages.get (2#16 : Half).toNat).isSome = true ∧
      (∀ b y, s.booths.get b = some y → y.output ≠ (2#16 : Half).toNat ∧ (2#16 : Half).toNat ∉ y.sources) ∧
      s.isLead 0 = true ∧ (s.rooms[(0 : SectionNo)]).floorLanguage = (2#16 : Half).toNat :=
  ⟨⟨hall, hall_takes, by decide, by decide⟩,
    ⟨⟨0x40, 0x41, 0x41, 32⟩, ⟨0x41, 0x5A, 0x39, 31⟩, hall, hall_takes, by decide, by decide, by decide, rfl, rfl, rfl,
      by decide, by decide +kernel⟩,
    ⟨hall, _, hall_takes, by decide +kernel, rfl, by decide⟩,
    ⟨quietHall, ⟨rfl, by decide +kernel⟩, Tidy.of_check (by decide +kernel), by decide +kernel,
      fun b y h => (nomatch (show none = some y from h)), by decide +kernel, by decide +kernel⟩⟩

/-- Each status of a BOOTH write; a created booth, one whose output, sources and home change, and one with a LIVE desk whose
gain changes. -/
theorem witness_BoothWriteTakesEffect :
    16 ≤ (16#16 : Half).toNat ∧
    ∃ s : State, s.takes ∧ InOrder s ∧
      (∀ p ∈ [((⟨25, 1, 2, 0, 0, 0, 0, 0, 0, 0⟩ : BoothWrite), Status.badValue),
        (⟨24, 1, 2, 0, 0, 0, 0, 0, 0, 0⟩, .noRecord), (⟨2, 1, 1, 0, 0, 0, 15, 1, 1, 0x80⟩, .ok)],
        boothWriteStatus s 15 p.1 = p.2) ∧
      (∀ p ∈ [((⟨2, 1, 1, 0, 0, 0, 0, 0, 0, 0⟩ : BoothWrite), Status.wrongState), (⟨1, 1, 2, 0, 0, 0, 0, 0, 0, 6⟩, .ok)],
        boothWriteStatus s 0 p.1 = p.2) ∧
      s.booths.get 15 = none ∧ (s.booths.get 1).isSome = true ∧
      boothWriteStatus s 1 ⟨2, 1, 1, 0, 0, 0, 15, 1, 1, 0x7F⟩ = .ok ∧
      (s.booths.get 0).map (fun y => (y.live, y.gain)) = some (some 3, 0) :=
  ⟨by decide, hall .direct 4 [] [] [] (some 3), ⟨rfl, by decide⟩, .of_check (by decide +kernel), by decide +kernel,
    by decide +kernel, by decide +kernel, by decide +kernel, by decide +kernel, by decide +kernel⟩

theorem witness_RetireBoothFreesTheBooth :
    (∃ s : State, s.takes ∧ 16 ≤ (16#16).toNat ∧ s.booths.get (15#16).toNat = none) ∧
    ∃ (s : State) (y : Booth), s.takes ∧ InOrder s ∧
      s.booths.get (0#16).toNat = some y ∧ y.live = some 3 :=
  ⟨⟨hall, hall_takes, by decide, by decide +kernel⟩,
    ⟨hall .direct 4 [] [] [] (some 3), _, ⟨rfl, by decide⟩, InOrder.of_check (by decide +kernel), rfl, rfl⟩⟩

/-- Three booths of a room whose floor language is 3: booth 0 hears the floor through its sources and is LIVE, booth 1 takes
a relay from it, booth 2 finds none. -/
def relayHall : State :=
  { hall with
    languages := ⟨[(1, ⟨0x45, 0x4E, 0x47, none⟩), (2, ⟨0x46, 0x52, 0x41, none⟩), (3, ⟨0x44, 0x45, 0x55, none⟩),
      (4, ⟨0x49, 0x54, 0x41, none⟩)]⟩
    booths := ⟨[(0, { booth false 3 (some 3) with sources := [3] }),
      (1, { booth true 4 none with output := 2, sources := [4, 1] }),
      (2, { booth true 4 none with output := 4, sources := [2], desks := [] })]⟩
    rooms := hall.rooms.set 0 { floorLanguage := 3 } }

theorem witness_RelaysComeFromTheFloor :
    ∀ b ∈ [0, 1, 2], ∃ (s : State) (y : Booth), Tidy s ∧ s.booths.get b = some y ∧ s.boothRoom y = 0 := by
  have h : ∀ b ∈ [0, 1, 2], (relayHall.booths.get b).map relayHall.boothRoom = some 0 := by decide +kernel
  intro b hb
  obtain ⟨y, hy, hr⟩ := Option.map_eq_some_iff.1 (h b hb)
  exact ⟨relayHall, y, Tidy.of_check (by decide +kernel), hy, hr⟩

/-- What the pass gives the three booths (R122). -/
theorem test_relays : (relayHall.passListen 0).booths.cells.map (fun c => c.2.listen) =
    [.floor, .relay 0, .relayMissing] := by decide +kernel

/-- A preferred carrier that qualifies, one that another channel holds, and none that qualifies. -/
theorem witness_PlacementTakesPreferredOrLowest :
    (∃ s : State, s.choose 1 1 none = some 4) ∧ (∃ s : State, s.choose 0 1 none = none) ∧
    ∃ s : State, s.choose 0 1 none = some 31 :=
  ⟨⟨hall, by decide +kernel⟩, ⟨hall, by decide +kernel⟩,
    ⟨hall.setCarriers (hall.carriers.set 31 { enabled := true }), by decide +kernel⟩⟩

/-- The hall with the flag of carrier 4 set in section 0 and both channels parked. -/
def flaggedHall : State :=
  (hall.setCarriers (hall.carriers.set 4 { enabled := true, flags := (Vector.replicate 16 false).set 0 true })).modRoom 0
    (fun r => { r with channels := [⟨0, .floor, none⟩, ⟨1, .floor, none⟩] })

/-- A carrier turned off under a channel; one whose record stands; a report that sets a flag; at the clearing boundary of the
noise figure, T - H = 112, a report of 112 that leaves the flag and one of 111 that clears it, which makes the carrier usable
over parked channels; and bytes that are no report. -/
theorem witness_CarrierFlagsMoveChannels :
    (∃ (f : CarrierWrite) (s : State), s.takes ∧ 32 ≤ (32#16).toNat ∧ (31#16).toNat = (31 : CarrierNo).val ∧
      onOffByte f.enabled ∧ CarriersApart s ∧ s.heldIn 0 4 = true) ∧
    (∃ s : State, s.resetLow = false ∧ s.venue.threshold ≤ (128#8).toNat ∧
      (s.carriers[(4 : CarrierNo)]).flags[(0 : SectionNo)] = false) ∧
    (∃ s : State, s.resetLow = false ∧ CarriersApart s ∧ (s.carriers[(4 : CarrierNo)]).flags[(0 : SectionNo)] = true ∧
      (112#8).toNat < s.venue.threshold ∧ ¬ (112#8).toNat + s.venue.hysteresis < s.venue.threshold ∧
      (111#8).toNat + s.venue.hysteresis < s.venue.threshold ∧ s.usable 0 4 = false ∧ s.parked 0 = [0, 1]) ∧
    ∃ (s : State) (bytes : List Byte), s.resetLow = false ∧ sumBytes bytes ≠ 0 :=
  ⟨⟨⟨0, 0⟩, hall, hall_takes, by decide, by decide, .inl rfl, CarriersApart.of_check (by decide +kernel),
    by decide +kernel⟩, ⟨hall, rfl, by decide, by decide +kernel⟩,
    ⟨flaggedHall, rfl, CarriersApart.of_check (by decide +kernel), by decide +kernel, by decide, by decide, by decide,
      by decide +kernel, by decide +kernel⟩, ⟨hall, [0xD0, 0, 4, 200, 0], rfl, by decide⟩⟩

/-! ### The radiator and matrix links -/

theorem witness_SendsTakeTheHead :
    (∃ (s : State) (sec : SectionNo) (rest : List SectionNo), s.resetLow = false ∧ s.run = .running ∧
      s.programmes = sec :: rest) ∧
    (∃ s : State, s.resetLow = false ∧ s.programmes = [] ∧ s.sendList = []) ∧
    ∀ e ∈ [Entry.input 1023, .output 0, .bus 1, .listen 15, .channel 15 24],
      ∃ (s : State) (rest : List Entry), s.resetLow = false ∧ s.sendList = e :: rest :=
  ⟨⟨hall.setProgrammes [15], 15, [], rfl, rfl, rfl⟩, ⟨hall, rfl, rfl, rfl⟩,
    fun e _ => ⟨hall.setSendList [e], [], rfl, rfl⟩⟩

theorem witness_ResendPlacesTheShadow :
    ∃ (s u : State) (e : Entry) (rest : List Entry), s.takes ∧ s.sendList = [e] ∧ u.resetLow = false ∧
      u.sendList = e :: rest :=
  ⟨hall.setSendList [.input 1023], hall.setSendList [.input 1023], .input 1023, [], ⟨rfl, by decide⟩, rfl, rfl, rfl⟩

theorem witness_CoefficientsRoundTheirLevels :
    (∃ L : Int, -120 ≤ L ∧ L ≤ 12 ∧ 0 ≤ L) ∧ (∃ L : Int, -120 ≤ L ∧ L ≤ 12 ∧ L < 0) ∧
    ∃ L M : Int, -120 ≤ L ∧ L < M ∧ M ≤ 12 :=
  ⟨⟨12, by decide, by decide, by decide⟩, ⟨-120, by decide, by decide, by decide⟩, ⟨-120, 12, by decide, by decide,
    by decide⟩⟩

/-- The programme of section 0: room 0, one placed channel, carrier 4 with language 1 (R138, R169). -/
theorem test_zone_programme : sealFrame (hall.zoneProgramme 0) = [0x50, 0, 0, 1, 4, 1, 0xAA] := by decide +kernel

/-- Two open microphones are attenuated by 6 steps, and the level 0 has coefficient 16384 (R145, R149). -/
theorem test_levels :
    (hall .direct 4 [talking 0, talking 1]).micLevel 0 (sitting .delegate 1) = .steps (-6) ∧
      (Level.steps 0).coefficient = 16384 ∧ (hall .direct 4 [talking 0]).speakerLevel 0 (sitting .delegate 1) = .mute ∧
      hall.speakerLevel 0 (sitting .delegate 1) = .steps (-12) := by decide +kernel

/-! ### Trunks -/

/-- A trunk whose enabled field stands; one turned off with a release frame behind it, a roll call and an access, whose loss
of the speaker lets a delegate of another trunk speak; one turned on in RUNNING, with bound seats and its release-all mark set. -/
theorem witness_TrunkWriteTakesEffect :
    (∃ s : State, s.takes ∧ 4 ≤ (4#16).toNat ∧ (3#16).toNat = (3 : TrunkNo).val ∧ 16 ≤ (16#8).toNat) ∧
    (∃ s : State, s.takes ∧ InOrder s ∧ (15#8).toNat < 16 ∧ onOffByte 0#8 ∧
      (s.trunks[(0 : TrunkNo)]).enabled = true ∧ (s.trunks[(0 : TrunkNo)]).releasing = none ∧
      (abortNotices s 0).length = 2 ∧ ((s.bound 0).filter (fun p => s.isPresent p.2)).map Prod.snd = [0, 2, 3, 4, 6] ∧
      s.headsLeft [0, 2, 6] 0 = [1]) ∧
    ∃ s : State, s.takes ∧ s.run = .running ∧ onOffByte 1#8 ∧ (s.trunks[(0 : TrunkNo)]).enabled = false ∧ Tidy s ∧
      (s.trunks[(0 : TrunkNo)]).releaseAll = true ∧ (s.bound 0).map Prod.snd = [0, 1, 2, 3, 4, 5, 6] :=
  ⟨⟨hall, hall_takes, by decide, by decide, by decide⟩,
    ⟨busy (apart (hall .direct 1 [talking 0] [⟨1, false⟩] [2] (some 3))), ⟨rfl, by decide⟩, InOrder.of_check (by decide +kernel),
      by decide, .inl rfl, by decide +kernel, by decide +kernel, by decide +kernel, by decide +kernel, by decide +kernel⟩,
    ⟨hall.modTrunk 0 (fun u => { u with enabled := false }), ⟨rfl, by decide +kernel⟩, rfl, .inr rfl,
      by decide +kernel, Tidy.of_check (by decide +kernel), by decide +kernel, by decide +kernel⟩⟩

/-- A roll call with Q 8, some way into its rounds. -/
def calling (q round : Nat) : RollCall := ⟨round, q, 0, 0, 0, 1, 0, 0⟩

/-- A trunk ready, one HALTED, one with a roll call; a round due and a slot due. -/
theorem witness_RollCallRunsInRounds :
    (∃ s : State, s.takes ∧ (4#16).toNat ≥ 4 ∧ (3#16).toNat = (3 : TrunkNo).val ∧ s.run = .running ∧
      (s.trunks[(3 : TrunkNo)]).enabled = true ∧ (s.trunks[(3 : TrunkNo)]).rollCall = none ∧ s.bound 3 = [] ∧
      (s.trunks[(3 : TrunkNo)]).rested = false) ∧
    (∃ s : State, s.takes ∧ s.run = .running ∧ (s.trunks[(0 : TrunkNo)]).enabled = true ∧
      (s.trunks[(0 : TrunkNo)]).rollCall = none ∧ s.bound 0 ≠ []) ∧
    (∃ s : State, s.takes ∧ s.run = .running ∧ (s.trunks[(3 : TrunkNo)]).rollCall ≠ none) ∧
    (∃ (s : State) (r : RollCall), s.resetLow = false ∧ (s.trunks[(0 : TrunkNo)]).line = .roundDue ∧
      (s.trunks[(0 : TrunkNo)]).rollCall = some r) ∧
    ∃ s : State, s.resetLow = false ∧ (s.trunks[(0 : TrunkNo)]).line = .slotDue 255 :=
  ⟨⟨hall, hall_takes, by decide, by decide, rfl, by decide +kernel, by decide +kernel, by decide +kernel,
      by decide +kernel⟩, ⟨hall, hall_takes, rfl, by decide +kernel, by decide +kernel, by decide +kernel⟩,
    ⟨hall.modTrunk 3 (fun u => { u with rollCall := some (calling 4 0) }), ⟨rfl, by decide +kernel⟩, rfl,
      by decide +kernel⟩,
    ⟨hall.modTrunk 0 (fun u => { u with rollCall := some (calling 8 63), line := .roundDue }), _, rfl,
      by decide +kernel, rfl⟩,
    ⟨hall .direct 4 [] [] [] none (.slotDue 255), rfl, by decide +kernel⟩⟩

/-- The range and state checks of UNIT ACCESS at their boundaries; an access in hand; one accepted. -/
theorem witness_UnitAccessIsChecked :
    (∃ s : State, s.takes ∧ 4 ≤ (4#16 : Half).toNat ∧ (3#16 : Half).toNat = (3 : TrunkNo).val ∧ (0#8).toNat = 0 ∧
      254 < (255#8).toNat ∧ 63 < (64#8).toNat ∧ 2 ≤ (2#8).toNat) ∧
    (∃ s : State, s.takes ∧ s.run = .halted) ∧
    (∃ s : State, s.takes ∧ s.run = .running ∧ (s.trunks[(3 : TrunkNo)]).enabled = true ∧
      (s.trunks[(3 : TrunkNo)]).access ≠ .idle) ∧
    ∃ (s : State) (address parameter direction : Byte), s.takes ∧
      ¬ (address.toNat = 0 ∨ 254 < address.toNat ∨ 63 < parameter.toNat ∨ 2 ≤ direction.toNat) ∧
      ¬ (s.run = .halted ∨ (s.trunks[(3 : TrunkNo)]).enabled = false) ∧ (s.trunks[(3 : TrunkNo)]).access = .idle :=
  ⟨⟨hall, hall_takes, by decide, by decide, by decide, by decide, by decide, by decide⟩,
    ⟨hall.setRun .halted, ⟨rfl, by decide⟩, rfl⟩,
    ⟨hall.modTrunk 3 (fun u => { u with access := .waiting ⟨1, 0, false, 0⟩ }), ⟨rfl, by decide +kernel⟩, rfl,
      by decide +kernel, by decide +kernel⟩,
    ⟨hall, 254, 63, 1, hall_takes, by decide, by decide +kernel, by decide +kernel⟩⟩

/-- Seat 0 polled at its address 1, with a key mark held. -/
theorem polled_hall (m : KeyMark) (f : Seat) (h : f = { sitting .delegate 1 with keyMark := m }) :
    Polled (marks (hall .direct 4 [] [] [] none (.polling 1)) 0 m) 0 1 0 f := by
  subst h
  refine ⟨?_, ?_, by decide, ?_, ?_⟩ <;> cases m <;> rfl

/-- A seat to poll; an idle trunk; a poll of an address released meanwhile; a PRESENT and an ABSENT seat polled; a valid reply without a key and with a repeated one; a
first miss; a third miss of a speaker before a queue, of the chair whose CLOSE_ALL hold it ends, and of a LIVE desk. -/
theorem witness_PollsKeepPresence :
    (∃ (s : State) (x : Seat), s.resetLow = false ∧ (s.trunks[(0 : TrunkNo)]).line = .poll ∧
      (s.trunks[(0 : TrunkNo)]).toPoll = [1] ∧ s.seatAt 0 1 = some 0 ∧ s.seats.get 0 = some x) ∧
    (∃ s : State, (s.trunks[(0 : TrunkNo)]).line = .idle) ∧
    (∃ s : State, s.resetLow = false ∧ (s.trunks[(0 : TrunkNo)]).line = .polling 200 ∧ s.seatAt 0 200 = none) ∧
    (∃ (s : State) (x : Seat), Polled s 0 1 0 x ∧ x.present = true ∧ x.keyMark = .one ∧ x.misses + 1 < 3) ∧
    (∃ (s : State) (x : Seat), Polled s 0 6 5 x ∧ x.present = false ∧ Tidy s) ∧
    (∃ (s : State) (x : Seat), Polled s 0 1 0 x ∧ x.present = true ∧ 3 ≤ x.misses + 1 ∧ x.binding = some (0, 1) ∧
      InOrder s ∧ s.headsLeft [0] 0 = [1]) ∧
    (∃ (s : State) (x : Seat), Polled s 0 3 2 x ∧ x.present = true ∧ 3 ≤ x.misses + 1 ∧ x.binding = some (0, 3) ∧
      InOrder s ∧ s.holdEnds [2] 0 = true ∧ s.hold 0 = some .closeAll ∧ s.headsLeft [2] 0 = [1]) ∧
    ∃ (s : State) (x : Seat), Polled s 0 4 3 x ∧ x.present = true ∧ 3 ≤ x.misses + 1 ∧ x.binding = some (0, 4) ∧
      InOrder s ∧ (s.booths.get 0).map Booth.live = some (some 3) := by
  refine ⟨⟨hall.modTrunk 0 (fun u => { u with line := .poll, toPoll := [1] }), _, rfl, by decide +kernel,
    by decide +kernel, by decide +kernel, rfl⟩, ⟨hall, by decide +kernel⟩,
    ⟨hall .direct 4 [] [] [] none (.polling 200), rfl, by decide +kernel, by decide +kernel⟩,
    ⟨_, _, polled_hall .one _ rfl, rfl, rfl, by decide⟩,
    ⟨hall .direct 4 [] [] [] none (.polling 6), _, ⟨rfl, by decide +kernel, by decide, by decide +kernel, rfl⟩, rfl,
      Tidy.of_check (by decide +kernel)⟩,
    ⟨(hall .direct 1 [talking 0] [⟨1, false⟩] [] none (.polling 1)).modSeat 0 (fun x => { x with misses := 2 }), _,
      ⟨rfl, by decide +kernel, by decide, by decide +kernel, rfl⟩, rfl, by decide, rfl,
      InOrder.of_check (by decide +kernel), by decide +kernel⟩,
    ⟨(held (hall .direct 1 [] [⟨1, false⟩] [] none (.polling 3)) .closeAll).modSeat 2 (fun x => { x with misses := 2 }), _,
      ⟨rfl, by decide +kernel, by decide, by decide +kernel, rfl⟩, rfl, by decide, rfl,
      InOrder.of_check (by decide +kernel), by decide +kernel, by decide +kernel, by decide +kernel⟩,
    ⟨(hall .direct 1 [] [] [] (some 3) (.polling 4)).modSeat 3 (fun x => { x with misses := 2 }), _,
      ⟨rfl, by decide +kernel, by decide, by decide +kernel, rfl⟩, rfl, by decide, rfl,
      InOrder.of_check (by decide +kernel), by decide +kernel⟩⟩

/-- A new key is awaited from a seat polled in a hall, whatever the mark held. -/
theorem awaited {s : State} {a n : Nat} {x : Seat} (h : Polled s 0 a n x) (hp : x.present = true)
    (hm : x.keyMark = .none) : KeyAwaited s 0 a n x 1 := ⟨h, hp, .inr ⟨rfl, by rw [hm]; decide⟩⟩

/-- Delegate 0 polled in the hall of each case of its MIC key: IDLE, by mode and limit and hold; locked; WAITING; open; and
the first and the last of the keys discarded. -/
theorem witness_DelegateMicKeyIsTaken :
    (∀ s ∈ [hall .direct 4 [] [] [] none (.polling 1), hall .direct 1 [talking 1] [] [] none (.polling 1),
        hall .queued 4 [] [] [] none (.polling 1), hall .replace 1 [talking 1] [] [] none (.polling 1),
        held (hall .replace 4 [] [] [] none (.polling 1)) .closeAll, hall .queued 4 [] [⟨0, false⟩] [] none (.polling 1),
        hall .direct 4 [talking 0] [] [] none (.polling 1)],
      ∃ x mark, KeyAwaited s 0 1 0 x mark ∧ x.kind = .delegate ∧ InOrder s) ∧
    ∃ (s : State) (x : Seat) (mark : Byte), KeyAwaited s 0 7 6 x mark ∧ x.kind = .delegate ∧ x.lock = true ∧
      InOrder s ∧ s.micOpen 6 = false ∧ s.waiting 6 = false ∧ ∀ key ∈ [2#8, 4#8], 2 ≤ key.toNat ∧ key.toNat ≤ 4 := by
  refine ⟨fun s hs => ?_, ⟨hall .direct 4 [] [] [] none (.polling 7), _, 1,
    awaited ⟨rfl, by decide +kernel, by decide, by decide +kernel, rfl⟩ rfl rfl, rfl, rfl,
    InOrder.of_check (by decide +kernel), by decide +kernel, by decide +kernel, by decide⟩⟩
  simp only [List.mem_cons, List.not_mem_nil, or_false] at hs
  refine ⟨sitting .delegate 1, 1, ?_⟩
  rcases hs with rfl | rfl | rfl | rfl | rfl | rfl | rfl <;>
    exact ⟨awaited ⟨rfl, by decide +kernel, by decide, by decide +kernel, rfl⟩ rfl rfl, rfl,
      InOrder.of_check (by decide +kernel)⟩

/-- Chair 2 polled: shut, locked, open; with an empty queue, a head, and a head in a full room of each mode; outside a holding
set, its first member, and under each hold. -/
theorem witness_ChairKeysAreTaken :
    (∀ s ∈ [hall .direct 4 [] [] [] none (.polling 3), hall .direct 4 [] [] [2] none (.polling 3),
        hall .queued 4 [] [⟨1, true⟩] [] none (.polling 3), hall .queued 1 [talking 0] [⟨1, false⟩] [] none (.polling 3),
        hall .replace 1 [talking 0] [⟨1, false⟩] [] none (.polling 3),
        held (hall .direct 4 [talking 0] [] [] none (.polling 3)) .muteWhileHeld,
        held (hall .direct 4 [] [⟨1, false⟩] [] none (.polling 3)) .closeAll,
        (held (hall .direct 4 [] [] [] none (.polling 3)) .closeAll).modRoom 0 (fun r => { r with holding := [2, 9] }),
        (held (hall .direct 4 [] [] [] none (.polling 3)) .closeAll).modRoom 0 (fun r => { r with holding := [9] })],
      ∃ x mark, KeyAwaited s 0 3 2 x mark ∧ x.kind = .chair ∧ InOrder s) ∧
    ∃ (s : State) (x : Seat) (mark : Byte), KeyAwaited s 0 3 2 x mark ∧ x.kind = .chair ∧ x.lock = true ∧
      InOrder s ∧ s.micOpen 2 = false := by
  refine ⟨fun s hs => ?_, ⟨(hall .direct 4 [] [] [] none (.polling 3)).modSeat 2 (fun x => { x with lock := true }), _,
    1, awaited ⟨rfl, by decide +kernel, by decide, by decide +kernel, rfl⟩ rfl rfl, rfl, rfl,
    InOrder.of_check (by decide +kernel), by decide +kernel⟩⟩
  simp only [List.mem_cons, List.not_mem_nil, or_false] at hs
  refine ⟨sitting .chair 3, 1, ?_⟩
  rcases hs with rfl | rfl | rfl | rfl | rfl | rfl | rfl | rfl | rfl <;>
    exact ⟨awaited ⟨rfl, by decide +kernel, by decide, by decide +kernel, rfl⟩ rfl rfl, rfl,
      InOrder.of_check (by decide +kernel)⟩

/-- Desk 4 at a booth with takeover polled while desk 3 of its group is LIVE; desk 3 while it is LIVE, and while none is; a
desk with no booth; and the first and the last of the keys discarded. -/
theorem witness_DeskMicKeyIsTaken :
    (∃ (s : State) (x : Seat) (b c : Booth), KeyAwaited s 0 5 4 x 1 ∧ x.kind = .desk ∧ InOrder s ∧
      x.booth = some 1 ∧ s.booths.get 1 = some c ∧ c.takeover = true ∧ s.booths.get 0 = some b ∧ b.live = some 3 ∧
      b.output = c.output ∧ s.boothRoom b = s.boothRoom c) ∧
    (∃ (s : State) (x : Seat) (b : Booth), KeyAwaited s 0 4 3 x 1 ∧ x.kind = .desk ∧ InOrder s ∧
      x.booth = some 0 ∧ s.booths.get 0 = some b ∧ b.live = some 3) ∧
    (∃ (s : State) (x : Seat), KeyAwaited s 0 4 3 x 1 ∧ x.kind = .desk ∧ InOrder s ∧ x.booth = some 0 ∧
      s.liveDesks = []) ∧
    ∃ (s : State) (x : Seat), KeyAwaited s 0 5 4 x 1 ∧ x.kind = .desk ∧ InOrder s ∧ x.booth = none ∧
      ∀ key ∈ [2#8, 4#8], 2 ≤ key.toNat ∧ key.toNat ≤ 4 := by
  refine ⟨⟨hall .direct 4 [] [] [] (some 3) (.polling 5), _, _, _,
    awaited ⟨rfl, by decide +kernel, by decide, by decide +kernel, rfl⟩ rfl rfl, rfl, InOrder.of_check (by decide +kernel), rfl, rfl, rfl, rfl, rfl, rfl, rfl⟩,
    ⟨hall .direct 4 [] [] [] (some 3) (.polling 4), _, _,
    awaited ⟨rfl, by decide +kernel, by decide, by decide +kernel, rfl⟩ rfl rfl, rfl, InOrder.of_check (by decide +kernel), rfl, rfl, rfl⟩,
    ⟨hall .direct 4 [] [] [] none (.polling 4), _,
    awaited ⟨rfl, by decide +kernel, by decide, by decide +kernel, rfl⟩ rfl rfl, rfl, InOrder.of_check (by decide +kernel), rfl, by decide +kernel⟩,
    ⟨((hall .direct 4 [] [] [] none (.polling 5)).modSeat 4 (fun x => { x with booth := none })).modBooth 1
      (fun y => { y with desks := [] }), _,
    awaited ⟨rfl, by decide +kernel, by decide, by decide +kernel, rfl⟩ rfl rfl, rfl, InOrder.of_check (by decide +kernel), rfl, by decide⟩⟩

/-- A hall whose bound seats are all ABSENT, with one thing changed on trunk 0. -/
def absentHall (f : Trunk → Trunk) : State :=
  ({ hall with seats := ⟨[(0, { sitting .delegate 1 with present := false, misses := 3 }),
    (1, { sitting .delegate 2 with present := false, misses := 3 })]⟩ }).modTrunk 0 f

/-- Trunks to be brought on: at a poll of an address released, after the last poll of a round, in a gap with nothing left, and
at a round of no unit, with something due and without. -/
theorem witness_GapsServeReleasesAndIndicators_brought :
    let left (s : State) := s.leftToPoll (s.trunks[(0 : TrunkNo)]) 0
    (∃ s : State, s.resetLow = false ∧ (s.trunks[(0 : TrunkNo)]).line = .poll ∧ left s = [1]
      ∧ (s.trunks[(0 : TrunkNo)]).toPoll = [200, 1]) ∧
    (∃ s : State, s.resetLow = false ∧ (s.trunks[(0 : TrunkNo)]).line = .poll ∧ left s = [] ∧
      (s.trunks[(0 : TrunkNo)]).hadGap = true ∧ (s.trunks[(0 : TrunkNo)]).roundCounter = 15) ∧
    (∃ s : State, s.resetLow = false ∧ (s.trunks[(0 : TrunkNo)]).gapPassed ∧ s.bound 0 ≠ []) ∧
    (∃ s : State, s.resetLow = false ∧ (s.trunks[(0 : TrunkNo)]).line = .poll ∧ left s = [] ∧
      (s.trunks[(0 : TrunkNo)]).hadGap = false ∧ (s.trunks[(0 : TrunkNo)]).gapDue) ∧
    ∃ s : State, s.resetLow = false ∧ (s.trunks[(0 : TrunkNo)]).line = .poll ∧ left s = [] ∧
      (s.trunks[(0 : TrunkNo)]).hadGap = false ∧ ¬ (s.trunks[(0 : TrunkNo)]).gapDue ∧ s.bound 0 ≠ [] :=
  ⟨⟨hall.modTrunk 0 (fun u => { u with line := .poll, toPoll := [200, 1] }), rfl, by decide +kernel, by decide +kernel,
      by decide +kernel⟩,
    ⟨hall.modTrunk 0 (fun u => { u with line := .poll, hadGap := true, roundCounter := 15 }), rfl, by decide +kernel,
      by decide +kernel, by decide +kernel, by decide +kernel⟩,
    ⟨hall.modTrunk 0 (fun u => { u with line := .gap .indicator }), rfl, rfl, by decide +kernel⟩,
    ⟨hall.modTrunk 0 (fun u => { u with line := .poll, releases := [9] }), rfl, by decide +kernel, by decide +kernel,
      by decide +kernel, .inl (by decide +kernel)⟩,
    ⟨hall.modTrunk 0 (fun u => { u with line := .poll }), rfl, by decide +kernel, by decide +kernel, by decide +kernel,
      (Trunk.offer_release_isNone _).1 (by decide +kernel), by decide +kernel⟩⟩

/-- A gap with a release due, also on a trunk whose seats are all ABSENT, with and without more due, with an access waiting, and with the indicators of a PRESENT and an ABSENT seat due. -/
theorem witness_GapsServeReleasesAndIndicators :
    let stands (s : State) (stage : GapStage) := s.resetLow = false ∧ (s.trunks[(0 : TrunkNo)]).line = .gap stage
    (∃ s : State, stands s .release ∧ (s.trunks[(0 : TrunkNo)]).releases = [254]) ∧
    (∃ (s : State) (r : AccessRequest), stands s .access ∧ (s.trunks[(0 : TrunkNo)]).access = .waiting r) ∧
    (∃ (s : State) (x : Seat), stands s .indicator ∧ (s.trunks[(0 : TrunkNo)]).indicators = [0] ∧
      s.seats.get 0 = some x ∧ x.binding = some (0, 1) ∧ x.present = true) ∧
    (∃ s : State, stands s .indicator ∧ (s.trunks[(0 : TrunkNo)]).indicators = [5] ∧ s.isPresent 5 = false) ∧
    (∃ s : State, stands s .release ∧ (s.trunks[(0 : TrunkNo)]).releases = [9] ∧
      (s.trunks[(0 : TrunkNo)]).access = .idle ∧ (s.trunks[(0 : TrunkNo)]).indicators = [] ∧
      (s.trunks[(0 : TrunkNo)]).toPoll.dropWhile (fun b => (s.seatAt 0 b).isNone) = [1]) ∧
    (∃ s : State, stands s .indicator ∧ (s.trunks[(0 : TrunkNo)]).indicators = [0] ∧
      (s.trunks[(0 : TrunkNo)]).toPoll = [] ∧ (s.trunks[(0 : TrunkNo)]).rollCall = none ∧
      (s.trunks[(0 : TrunkNo)]).roundCounter = 15 ∧ ∃ p ∈ s.bound 0, s.isPresent p.2 = true) ∧
    (∀ due : List Nat, ∃ s : State, stands s .release ∧ (s.trunks[(0 : TrunkNo)]).releases = 9 :: due ∧
      (s.trunks[(0 : TrunkNo)]).access = .idle ∧ (s.trunks[(0 : TrunkNo)]).indicators = [] ∧
      (s.trunks[(0 : TrunkNo)]).toPoll = [] ∧ (s.trunks[(0 : TrunkNo)]).rollCall = none ∧
      (s.trunks[(0 : TrunkNo)]).roundCounter = 4 ∧ s.polledAt 0 5 = [] ∧ s.bound 0 ≠ []) ∧
    ∃ s : State, stands s .indicator ∧ (s.trunks[(0 : TrunkNo)]).indicators = [0] ∧
      (s.trunks[(0 : TrunkNo)]).toPoll = [] ∧ (s.trunks[(0 : TrunkNo)]).rollCall ≠ none :=
  ⟨⟨hall.modTrunk 0 (fun u => { u with line := .gap .release, releases := [254] }), ⟨rfl, by decide +kernel⟩,
    by decide +kernel⟩,
    ⟨hall.modTrunk 0 (fun u => { u with line := .gap .access, access := .waiting ⟨1, 2, true, 3⟩ }), ⟨1, 2, true, 3⟩,
    ⟨rfl, by decide +kernel⟩, by decide +kernel⟩,
    ⟨hall.modTrunk 0 (fun u => { u with line := .gap .indicator, indicators := [0] }), _, ⟨rfl, by decide +kernel⟩,
    by decide +kernel, rfl, rfl, rfl⟩,
    ⟨hall.modTrunk 0 (fun u => { u with line := .gap .indicator, indicators := [5] }), ⟨rfl, by decide +kernel⟩,
    by decide +kernel, by decide +kernel⟩,
    ⟨hall.modTrunk 0 (fun u => { u with line := .gap .release, releases := [9], toPoll := [9, 1] }),
    ⟨rfl, by decide +kernel⟩, by decide +kernel, by decide +kernel, by decide +kernel, by decide +kernel⟩,
    ⟨hall.modTrunk 0 (fun u => { u with line := .gap .indicator, indicators := [0], roundCounter := 15 }),
    ⟨rfl, by decide +kernel⟩, by decide +kernel, by decide +kernel, by decide +kernel, by decide +kernel, (1, 0),
    by decide +kernel, by decide +kernel⟩,
    fun due => ⟨absentHall (fun u => { u with line := .gap .release, releases := 9 :: due, roundCounter := 4 }), ⟨rfl, rfl⟩,
    rfl, rfl, rfl, rfl, rfl, rfl, rfl, fun h => by cases h⟩,
    ⟨hall.modTrunk 0 (fun u => { u with line := .gap .indicator, indicators := [0], rollCall := some (calling 4 0) }),
    ⟨rfl, by decide +kernel⟩, by decide +kernel, by decide +kernel, by decide +kernel⟩⟩

/-- An access to an ABSENT seat, to a PRESENT one and to an address that no seat has; one sent, with its window open. -/
theorem witness_AccessesAreExchanged :
    (∃ (s : State) (r : AccessRequest), s.resetLow = false ∧ r.address < 256 ∧ r.parameter < 256 ∧
      (s.trunks[(0 : TrunkNo)]).line = .gap .access ∧ (s.trunks[(0 : TrunkNo)]).access = .waiting r ∧
      ∃ n, s.seatAt 0 r.address = some n ∧ s.isPresent n = false) ∧
    (∃ (s : State) (r : AccessRequest), s.resetLow = false ∧ r.address < 256 ∧ r.parameter < 256 ∧
      (s.trunks[(0 : TrunkNo)]).line = .gap .release ∧ (s.trunks[(0 : TrunkNo)]).releases = [] ∧
      (s.trunks[(0 : TrunkNo)]).access = .waiting r ∧ s.seatAt 0 r.address = none) ∧
    ∃ (s : State) (r : AccessRequest), s.resetLow = false ∧ r.address < 256 ∧ r.parameter < 256 ∧
      (s.trunks[(0 : TrunkNo)]).line = .accessing ∧ (s.trunks[(0 : TrunkNo)]).access = .sent r :=
  ⟨⟨hall.modTrunk 0 (fun u => { u with line := .gap .access, access := .waiting ⟨6, 63, false, 0⟩ }), ⟨6, 63, false, 0⟩,
    rfl, by decide, by decide, by decide +kernel, by decide +kernel, 5, by decide +kernel, by decide +kernel⟩,
    ⟨hall.modTrunk 0 (fun u => { u with line := .gap .release, access := .waiting ⟨254, 0, true, 0⟩ }), ⟨254, 0, true, 0⟩,
    rfl, by decide, by decide, by decide +kernel, by decide +kernel, by decide +kernel, by decide +kernel⟩,
    ⟨hall.modTrunk 0 (fun u => { u with line := .accessing, access := .sent ⟨1, 0, false, 0⟩ }), ⟨1, 0, false, 0⟩,
    rfl, by decide, by decide, by decide +kernel, by decide +kernel⟩⟩

/-- The hall with slot i of a roll call round open. -/
def slotHall (i q round : Nat) (s : State := hall) : State :=
  s.modTrunk 0 (fun u => { u with line := .slotOpen i, rollCall := some (calling q round) })

/-- A table of records 0 to 1023 holds a record at each of them. -/
theorem get_of_full (x : Seat) (l : List Nat) (m : Nat) (h : m ∈ l) :
    (⟨l.map (fun n => (n, x))⟩ : FMap Seat).get m ≠ none := by
  unfold FMap.get
  induction l with
  | nil => simp at h
  | cons a l ih =>
    simp only [List.map_cons, cellGet]
    split
    · simp
    · rename_i ha; exact ih (List.mem_of_ne_of_mem (fun h => ha h.symm) h)

/-- A slot before the last, the last one of a round, also on a trunk whose seats are all ABSENT, and the one slot of a round of Q 0. -/
theorem witness_SlotsBindUnits :
    let open_ (s : State) (i : Nat) (r : RollCall) := s.resetLow = false ∧ (s.trunks[(0 : TrunkNo)]).line = .slotOpen i ∧
      (s.trunks[(0 : TrunkNo)]).rollCall = some r
    (∃ (s : State) (r : RollCall), open_ s 255 r ∧ 2 ^ r.q ≤ 255 + 1 ∧ r.round = 63) ∧
    (∃ (s : State) (r : RollCall), open_ s 0 r ∧ 2 ^ r.q ≤ 0 + 1) ∧
    (∃ (s : State) (r : RollCall), open_ s 0 r ∧ 2 ^ r.q ≤ 0 + 1 ∧ r.emptyRun + 1 = r.emptyToEnd ∧
      s.polledAt 0 (s.trunks[(0 : TrunkNo)]).roundCounter = [] ∧ s.bound 0 ≠ []) ∧
    ∃ (s : State) (r : RollCall), open_ s 14 r ∧ 14 + 1 < 2 ^ r.q :=
  ⟨⟨slotHall 255 8 63, calling 8 63, ⟨rfl, by decide +kernel, by decide +kernel⟩, by decide, rfl⟩,
    ⟨slotHall 0 0 0, calling 0 0, ⟨rfl, by decide +kernel, by decide +kernel⟩, by decide⟩,
    ⟨slotHall 0 0 0 (absentHall (fun u => { u with roundCounter := 7 })), calling 0 0,
      ⟨rfl, by decide +kernel, by decide +kernel⟩, by decide, by decide, by decide +kernel, by decide +kernel⟩,
    ⟨slotHall 14 4 0, calling 4 0, ⟨rfl, by decide +kernel, by decide +kernel⟩, by decide⟩⟩

/-- In an open slot: a serial no seat holds, with a record and an address free, and without; and serial 1 of seat 0, bound here,
unbound, and bound on another trunk, PRESENT and ABSENT, and PRESENT and speaking before a queue. -/
theorem witness_SlotsBindUnits_singles :
    let open_ (s : State) := s.resetLow = false ∧ (s.trunks[(0 : TrunkNo)]).line = .slotOpen 14 ∧
      (s.trunks[(0 : TrunkNo)]).rollCall = some (calling 4 0)
    let lowest (s : State) (a : Nat) := 1 ≤ a ∧ a ≤ 254 ∧ s.addressFree 0 a = true ∧
      ∀ b, 1 ≤ b → b < a → s.addressFree 0 b = false
    let holds (s : State) (x : Seat) := s.serialSeat 1 = some (0, x) ∧ s.seats.get 0 = some x
    (∃ s : State, open_ s ∧ (∀ c ∈ s.seats.cells, c.2.serial ≠ some 99) ∧ s.seats.get 7 = none ∧
      (∀ m, m < 7 → s.seats.get m ≠ none) ∧ lowest s 8) ∧
    (∃ s : State, open_ s ∧ (∀ b, 1 ≤ b → b ≤ 254 → s.addressFree 0 b = false)) ∧
    (∃ s : State, open_ s ∧ ∀ m, m < 1024 → s.seats.get m ≠ none) ∧
    (∃ (s : State) (x : Seat), open_ s ∧ holds s x ∧ x.binding = some (0, 1)) ∧
    (∃ (s : State) (x : Seat), open_ s ∧ holds s x ∧ x.binding = none ∧ lowest s 1) ∧
    (∀ present : Bool, ∃ (s : State) (x : Seat), open_ s ∧ holds s x ∧ x.binding = some (1, 9) ∧ x.present = present ∧
      lowest s 1 ∧ InOrder s) ∧
    ∃ (s : State) (x : Seat), open_ s ∧ holds s x ∧ x.binding = some (1, 9) ∧ x.present = true ∧ lowest s 1 ∧
      InOrder s ∧ s.headsLeft [0] 0 = [1] := by
  have h8 : ∀ b < 8, 1 ≤ b → (slotHall 14 4 0).addressFree 0 b = false := by decide +kernel
  have hr : (((slotHall 14 4 0).modTrunk 0 (fun u => { u with releases := List.range' 1 254 })).trunks[(0 : TrunkNo)]).releases
      = List.range' 1 254 := by decide +kernel
  refine ⟨⟨slotHall 14 4 0, ⟨rfl, by decide +kernel, by decide +kernel⟩, by decide +kernel, by decide +kernel,
      by decide +kernel, by decide, by decide, by decide +kernel, fun b h1 h2 => h8 b h2 h1⟩,
    ⟨(slotHall 14 4 0).modTrunk 0 (fun u => { u with releases := List.range' 1 254 }),
      ⟨rfl, by decide +kernel, by decide +kernel⟩, fun b h1 h2 => ?_⟩,
    ⟨(slotHall 14 4 0).setSeats ⟨(List.range 1024).map (fun n => (n, sitting .delegate 1))⟩,
      ⟨rfl, by decide +kernel, by decide +kernel⟩, fun m hm => get_of_full _ _ m (List.mem_range.2 hm)⟩,
    ⟨slotHall 14 4 0, sitting .delegate 1, ⟨rfl, by decide +kernel, by decide +kernel⟩,
      ⟨by decide +kernel, by decide +kernel⟩, rfl⟩,
    ⟨(slotHall 14 4 0).modSeat 0 (fun x => { x with binding := none, present := false }),
      { sitting .delegate 1 with binding := none, present := false }, ⟨rfl, by decide +kernel, by decide +kernel⟩,
      ⟨by decide +kernel, by decide +kernel⟩, rfl, by decide, by decide, by decide +kernel,
      fun b h1 h2 => by omega⟩, fun present => ?_,
    ⟨(slotHall 14 4 0 (hall .direct 1 [talking 0] [⟨1, false⟩])).modSeat 0 (fun x => { x with binding := some (1, 9) }),
      { sitting .delegate 1 with binding := some (1, 9) }, ⟨rfl, by decide +kernel, by decide +kernel⟩,
      ⟨by decide +kernel, by decide +kernel⟩, rfl, rfl, ⟨by decide, by decide, by decide +kernel, fun b h1 h2 => by omega⟩,
      InOrder.of_check (by decide +kernel), by decide +kernel⟩⟩
  · have : decide (b ∈ List.range' 1 254) = true := by
      simp only [List.mem_range', decide_eq_true_eq]; exact ⟨b - 1, by omega, by omega⟩
    simp only [State.addressFree, hr]
    simp only [decide_eq_true_eq] at this
    simp [this]
  · refine ⟨(slotHall 14 4 0).modSeat 0 (fun x => { x with binding := some (1, 9), present := present }),
      { sitting .delegate 1 with binding := some (1, 9), present := present }, ⟨rfl, ?_, ?_⟩, ⟨?_, ?_⟩, rfl, rfl,
      ⟨by decide, by decide, ?_, fun b h1 h2 => by omega⟩, InOrder.of_check ?_⟩ <;>
      cases present <;> decide +kernel

/-! ### Invariants -/

theorem witness_TablesStayTidy : ∃ s t : State, Tidy s ∧ step s = .next t :=
  ⟨hall, _, Tidy.of_check (by decide +kernel), rfl⟩

theorem witness_RoomsAlwaysFollowWalls : ∃ s t : State, RoomsFollowWalls s ∧ step s = .next t :=
  ⟨hall, _, hall_rooms, rfl⟩

theorem witness_FloorStaysInOrder : ∃ s t : State, Tidy s ∧ FloorInOrder s ∧ step s = .next t :=
  ⟨hall .direct 1 [talking 0] [⟨1, false⟩], _, Tidy.of_check (by decide +kernel),
    FloorInOrder.of_check (by decide +kernel), rfl⟩

theorem witness_CarriersStayApart :
    ∃ s t : State, Tidy s ∧ CarriersApart s ∧ ChannelsFollowBooths s ∧ step s = .next t :=
  ⟨hall, _, Tidy.of_check (by decide +kernel), CarriersApart.of_check (by decide +kernel),
    ChannelsFollowBooths.of_check (by decide +kernel), rfl⟩

theorem witness_DesksStayInOrder : ∃ s t : State, Tidy s ∧ DesksInOrder s ∧ step s = .next t :=
  ⟨hall .direct 4 [] [] [] (some 3), _, Tidy.of_check (by decide +kernel), DesksInOrder.of_check (by decide +kernel), rfl⟩


/-! ## Single steps, with results read off the manual -/

/-- The state after a command. -/
def after (c : Instr) (s : State) : State :=
  match exec c s with
  | .next t => t
  | .fault _ => s
  | .refused _ => s

/-- The status of the response after a request. -/
def status (c : Instr) (s : State) : Option Status := (after c s).port.buffer.map Response.status

/-- R58, R65: a grant puts the seat last in the speaker list with the speech limit's time. -/
theorem test_grant : (after (.grant 1) (hall .direct 4 [talking 0])).speakers = [talking 0, talking 1] := by
  decide +kernel

/-- R60, R66: in a DIRECT room at its limit the close of the one speaker grants the head of the queue. -/
theorem test_close_advances :
    (after (.close 0) (hall .direct 1 [talking 0] [⟨1, false⟩])).speakers.map Speaker.seat = [1] ∧
      (after (.close 0) (hall .direct 1 [talking 0] [⟨1, false⟩])).pool = [] := by decide +kernel

/-- R59: the MIC key in a full REPLACE room closes the oldest speaker. -/
theorem test_key_replaces : (after (keyReply 0 1 1 1) (hall .replace 1 [talking 1] [] [] none (.polling 1))).speakers =
    [talking 0] := by decide +kernel

/-- R33, R60, R75: a third miss of the one speaker of a full DIRECT room: UNIT_LOST, its close, then the AUTO grant. -/
theorem test_loss_grants :
    let s := (hall .direct 1 [talking 0] [⟨1, false⟩] [] none (.polling 1)).modSeat 0 (fun x => { x with misses := 2 })
    (after (.pollNoReply 0) s).notices.queue = [⟨some 0, some 0, .unitLost 0 1⟩,
        ⟨some 0, some 0, .seatState .speaking .idle .unitLost⟩, ⟨some 0, some 1, .seatState .waiting .speaking .auto⟩] ∧
      ((after (.pollNoReply 0) s).trunks[(0 : TrunkNo)]).indicators = [0, 1] := by decide +kernel

/-- R164: the notices of STOP stand floor first, then desks, roll call, access, FLOOR_STOPPED. -/
theorem test_stop_notices :
    (after .stop (busy (hall .direct 1 [talking 0] [⟨1, false⟩] [2] (some 3)))).notices.queue =
      [⟨some 0, some 0, .seatState .speaking .idle .stop⟩, ⟨some 0, some 2, .seatState .speaking .idle .stop⟩,
        ⟨some 0, some 1, .seatState .waiting .idle .stop⟩, ⟨some 0, some 3, .deskState 0 .live .off .stop⟩,
        ⟨none, none, .rollcallDone 0 5 1 2 4 .aborted⟩,
        ⟨some 0, some 0, .unitAccessDone 0 ⟨1, 63, false, 0⟩ .aborted 0⟩, ⟨none, none, .floorStopped 2 1 1⟩] := by
  decide +kernel

/-- R168: TAKE NOTICE returns kind 4, room 0, seat 1, three bytes of detail: WAITING 1, SPEAKING 2, AUTO 0x23. -/
theorem test_notice_record :
    (after .takeNotice (hall.notify ⟨some 0, some 1, .seatState .waiting .speaking .auto⟩)).port.buffer =
      some ⟨.ok, [4, 0, 0, 1, 3, 1, 2, 0x23]⟩ := by decide +kernel

/-- R35: the same mark again is a repeat and is discarded. -/
theorem test_key_repeat : (after (keyReply 0 1 1 1)
    (marks (hall .direct 4 [] [] [] none (.polling 1)) 0 .one)).speakers = [] := by decide +kernel

/-- R11, R17: FORCE_OPEN on a wall between sections 0 and 15 joins them in the room led by 0. -/
theorem test_wall_opens : (after (.writeWall 0 ⟨15, 0, 0, 2, 1, 1, 1⟩) hall).roomOf 15 = 0 ∧
    (after (.writeWall 0 ⟨15, 0, 0, 2, 1, 1, 1⟩) hall).notices.queue.map (fun n => n.detail) =
      [.wall 0 true [0], .roomMerged [0, 15]] := by decide +kernel

/-- R15: THAW of room 0 leaves wall 0, which still touches frozen room 1, held and pending; wall 23 opens. -/
theorem test_thaw : ((after (.thaw 0) frozenHall).walls[(0 : WallNo)]).effective = false ∧
    ((after (.thaw 0) frozenHall).walls[(0 : WallNo)]).pendingFlag = true ∧
    ((after (.thaw 0) frozenHall).walls[(23 : WallNo)]).effective = true := by decide +kernel

/-- R7: a contact made at reset's polarity is read CLOSED, and the interval of class MEDIUM runs 500 ms. -/
theorem test_contact : ((after (.rawContactChange 5 true) hall).walls[(5 : WallNo)]).interval = some 500 := by
  decide +kernel

/-- R41: a unit with a new serial takes the lowest free record, 7, and the lowest free address, 8. -/
theorem test_slot_binds :
    let s := hall.modTrunk 0 (fun u => { u with line := .slotOpen 3, rollCall := some (calling 4 0) })
    ((after (.slotReply 0 [0x86, 0, 0, 0, 99, 0, 0x17]) s).seats.get 7).bind Seat.binding = some (0, 8) := by
  decide +kernel

/-- R135: the only carrier is flagged, so the channel of language 1 is parked. -/
theorem test_noise_parks : (((after (.noiseReport [0xD0, 0, 4, 128, 0xAC]) hall).rooms[(0 : SectionNo)]).channels.map
    Channel.carrier) = [none, none] := by decide +kernel

/-- R136: with T = 128 and H = 16 a figure of 112 leaves a flag set and 111 clears it; the carrier is then usable, and the
parked channels are placed in list order, the floor channel first (R133, R134). -/
theorem test_noise_boundary :
    after (.noiseReport [0xD0, 0, 4, 112, 0xBC]) flaggedHall = flaggedHall ∧
      (((after (.noiseReport [0xD0, 0, 4, 111, 0xBD]) flaggedHall).rooms[(0 : SectionNo)]).channels.map
        Channel.carrier) = [some 4, none] := by decide +kernel

/-- R30: a round whose one address was released meanwhile still has its gap, in which the release frame is sent. -/
theorem test_round_of_no_unit :
    ((after (.releaseSend 0) (hall.modTrunk 0 (fun u =>
      { u with line := .poll, toPoll := [200], releases := [200] }))).trunks[(0 : TrunkNo)]).lastFrame = [0x03, 200, 0x35] := by
  decide +kernel

/-- R35: a delegate's PRIORITY_DOWN starts no hold, and takes the key mark. -/
theorem test_key_discarded :
    let t := after (keyReply 0 1 3 1) (hall .direct 4 [] [] [] none (.polling 1))
    (t.rooms[(0 : SectionNo)]).holding = [] ∧ (t.seats.get 0).map Seat.keyMark = some .one := by decide +kernel

/-- R30: where every bound seat is ABSENT, the rounds that poll no unit go by, each a single gap, until counter 0, at which the
ABSENT seats are polled; a second release due holds the trunk in the gap of the next round. -/
theorem test_absent_polled :
    let s (due : List Nat) := after (.releaseSend 0)
      (absentHall (fun u => { u with line := .gap .release, releases := 9 :: due, roundCounter := 4 }))
    ((s []).trunks[(0 : TrunkNo)]).toPoll = [1, 2] ∧ ((s []).trunks[(0 : TrunkNo)]).roundCounter = 0 ∧
      ((s [8]).trunks[(0 : TrunkNo)]).line = .gap .release ∧ ((s [8]).trunks[(0 : TrunkNo)]).roundCounter = 5 ∧
      ((after (.pollSend 0) (s [])).trunks[(0 : TrunkNo)]).line = .polling 1 := by decide +kernel

/-- R29: a trunk enabled in RUNNING sends its release-all frame, shows every bound seat and polls every bound address. -/
theorem test_trunk_enabled :
    let t := (after (.writeTrunk 0 ⟨1, 0, 4, 2⟩) (hall.modTrunk 0 (fun u =>
      { u with enabled := false, indicators := [6], roundCounter := 9 }))).trunks[(0 : TrunkNo)]
    t.lastFrame = [0x04, 0xFF, 0xFD] ∧ t.indicators = [6, 0, 1, 2, 3, 4, 5] ∧ t.toPoll = [1, 2, 3, 4, 5, 6, 7] ∧
      t.roundCounter = 0 := by decide +kernel

/-- R30: on a trunk whose last seat was retired the round counter stands while the release is due; the trunk rests after it. -/
theorem test_counter_stands :
    let s := hall.modTrunk 3 (fun u => { u with line := .gap .release, releases := [9], roundCounter := 5 })
    ((after (.rollCall 3) s).trunks[(3 : TrunkNo)]).roundCounter = 5 ∧
      ((after (.releaseSend 3) s).trunks[(3 : TrunkNo)]).rested = true := by decide +kernel

/-- R170: DIR is high while a frame is sent and low under RESET. -/
theorem test_dir :
    let s := after (.pollSend 0) (hall.modTrunk 0 (fun u => { u with line := .poll, toPoll := [1] }))
    s.dirPin 0 = true ∧ (after .resetAsserted s).dirPin 0 = false := by decide +kernel

/-- R156, R171: after an accepted transfer and a whole NOT_READY transfer the port is not selected, and READY rises with
RESET. -/
theorem test_reset_ready :
    ([Instr.transferAccepted, .notReadyTransfer, .resetAsserted, .hardwareReset].foldl (fun s c => after c s) hall).readyPin =
      true := by decide +kernel

/-- R82: the main phase ends in a warning with the captured grace. -/
theorem test_main_expiry : (after (.mainExpiry 0) (hall .direct 4 [⟨0, some ⟨false, 0, 60, 30, 0⟩⟩])).speakers =
    [⟨0, some ⟨true, 30, 60, 30, 0⟩⟩] := by decide +kernel

/-- R85: the row EXTEND and MAIN with the EXTEND taken first: the expiry does not happen. -/
theorem test_extend_first : (after (.mainExpiry 0) (after (.extend 0) (hall .direct 4 [⟨0, some ⟨false, 0, 60, 30, 0⟩⟩]))).speakers =
    [⟨0, some ⟨false, 60, 60, 30, 0⟩⟩] := by decide +kernel

/-- R119: a key at a booth with takeover switches the LIVE desk of the group OFF and its own LIVE. -/
theorem test_takeover : (after (keyReply 0 5 1 1) (hall .direct 4 [] [] [] (some 3) (.polling 5))).liveDesks = [4] := by
  decide +kernel

/-- R64, R66, R160: a free record, a key out of range, a seat that is not open. -/
theorem test_statuses : status (.close 1023) hall = some .noRecord ∧ status (.close 1024) hall = some .badKey ∧
    status (.close 0) hall = some .wrongState ∧ status (.grant 5) hall = some .wrongState := by decide +kernel

/-- R87, R168: a selector record as it is read back. -/
theorem test_selector_read : (after (.read .selector 3) (after (.writeSelector 3 ⟨1, 2, 7, 0xF0, 1, 5⟩) hall)).port.buffer =
    some ⟨.ok, [1, 2, 7, 0xF0, 1, 5]⟩ := by decide +kernel

/-- R168: the SEAT record of seat 0, a PRESENT delegate bound to trunk 0 at address 1 with serial 1, but for
the flag byte, whose spare bits are open. -/
theorem test_seat_read :
    ((after (.read .seat 0) hall).port.buffer.map (fun r => (r.status, r.data.take 7, r.data.drop 8))) =
      some (.ok, [0, 0, 0, 1, 0x80, 0x80, 0xFF], [0, 0xFF, 0xFF, 0xFF, 0xFF, 0xFF, 0xFF, 0xFF, 0xFF, 0, 0, 0, 1, 0, 1, 1, 0, 0]) := by
  decide +kernel

/-- R152, R169: the input level of seat 1, unmuted at -6 steps. -/
theorem test_matrix_message :
    (after .matrixMessageSend ((hall.setShadow { hall.shadow with seats := ⟨[(1, { input := .steps 0 })]⟩ }).setSendList
      [.input 1])).matrixLine = [0x60, 0, 1, 0x40, 0, 0x5F] := by decide +kernel

end Sys2Proof.Tests
end

section
/-! SUPPORT. The room keys of the requests (R13, R22, R64), and how a checked request the port takes ends. -/

namespace Sys2Proof.Machine
open Sys2Proof

/-! ## Keys that name a room -/

/-- The look-up of a key finds exactly the room that it names (R13, R64). -/
theorem State.leadOf_eq_some (s : State) (key : Half) (l : SectionNo) : s.leadOf key = some l ↔ s.names key l := by
  unfold State.leadOf State.names
  cases hk : keyBelow 16 key with
  | none =>
    have hout : 16 ≤ key.toNat := (keyBelow_none key).1 hk
    have hl := l.isLt
    simp only [reduceCtorEq, false_iff]
    rintro ⟨hnum, -⟩
    omega
  | some m =>
    have hm : key.toNat = m.val := (keyBelow_some key m).1 hk
    simp only [State.isLead, decide_eq_true_eq, Option.ite_none_right_eq_some, Option.some.injEq, hm, Fin.val_inj]
    constructor
    · rintro ⟨hlead, rfl⟩; exact ⟨rfl, hlead⟩
    · rintro ⟨rfl, hlead⟩; exact ⟨hlead, rfl⟩

theorem State.roomKey_of_names {s : State} {key : Half} {l : SectionNo} (h : s.names key l) :
    s.roomKey key = .ok l := by
  simp only [State.roomKey, (s.leadOf_eq_some key l).2 h]

theorem State.roomKey_of_no_room {s : State} {key : Half} (h : ¬ ∃ l, s.names key l) :
    s.roomKey key = .error .badKey := by
  have hnone : s.leadOf key = none :=
    Option.eq_none_iff_forall_ne_some.2 (fun l hl => h ⟨l, (s.leadOf_eq_some key l).1 hl⟩)
  simp only [State.roomKey, hnone]

/-- Accepting the transfer leaves the rooms that keys name as they are. -/
@[simp] theorem State.roomKey_accepted (s : State) (key : Half) : s.accepted.roomKey key = s.roomKey key := rfl

/-! ## Checked requests -/

section
variable {α : Type} {c : Instr} {s : State} {check : State → Checked α} {effect : State → α → State × Response}

/-- A request that its checks refuse has no other effect (R159, R160). -/
theorem refused_of_check {st : Status} (h : s.takes)
    (he : exec c s = .next (s.request (fun u => checked (check u) (effect u) u)))
    (hc : check s.accepted = .error st) : refused c s st := by
  unfold refused
  rw [he, State.request_taken s _ h, hc]
  rfl

/-- A request that passes its checks answers what its effect answers, and leads to the effect's state. -/
theorem answers_of_check {x : α} (h : s.takes)
    (he : exec c s = .next (s.request (fun u => checked (check u) (effect u) u)))
    (hc : check s.accepted = .ok x) :
    answers c s (effect s.accepted x).2
      (((effect s.accepted x).1).setPort (s.portAfter (effect s.accepted x).2)) := by
  have ha := answers_of c s _ h he
  rwa [hc] at ha

end

/-- An effect between the acceptance of its request and the response changes what it changes, and the port. -/
theorem Changes.around_port {cs : List Part} {s t : State} (p : Port) (h : Changes cs s.accepted t)
    (hp : .port ∈ cs := by decide) : Changes cs s (t.setPort p) :=
  ((Changes.setPort s _ hp).trans h).trans (Changes.setPort t _ hp)

/-- A change that leaves the room it is made on as it was changes nothing. -/
theorem State.modRoom_eq_self {s : State} {l : SectionNo} {f : Room → Room} (h : f s.rooms[l] = s.rooms[l]) :
    s.modRoom l f = s := by
  have hv : vmod s.rooms l f = s.rooms := by
    unfold vmod
    rw [h]
    exact Vector.set_getElem_self _
  unfold State.modRoom
  rw [hv]
  rfl

end Sys2Proof.Machine
end

section
/-! SUPPORT. FREEZE (R13). -/

namespace Sys2Proof.Machine
open Sys2Proof

theorem exec_freeze (key : Half) (s : State) : exec (.freeze key) s = execFreeze key s := rfl

/-- The state with a room's frozen flag set. -/
def State.frozenRoom (s : State) (l : SectionNo) : State := s.modRoom l (fun r => { r with frozen := true })

theorem State.frozenRoom_frozen_same (s : State) (l : SectionNo) : ((s.frozenRoom l).rooms[l]).frozen = true := by
  rw [State.frozenRoom, State.modRoom_rooms, vmod_get, if_pos rfl]

theorem State.frozenRoom_rooms_other (s : State) {l m : SectionNo} (h : m ≠ l) :
    (s.frozenRoom l).rooms[m] = s.rooms[m] := by
  rw [State.frozenRoom, State.modRoom_rooms, vmod_get, if_neg h.symm]

theorem Changes.frozenRoom (s : State) (l : SectionNo) : Changes [.frozen] s (s.frozenRoom l) :=
  Changes.modRoom s l _

/-- Freezing a room that is frozen changes nothing. -/
theorem State.frozenRoom_eq_self {s : State} {l : SectionNo} (h : (s.rooms[l]).frozen = true) :
    s.frozenRoom l = s :=
  State.modRoom_eq_self (by rw [← h])

theorem refused_freeze {s : State} {key : Half} (ht : s.takes) (hkey : ¬ ∃ l, s.names key l) :
    refused (.freeze key) s .badKey :=
  refused_of_check ht (exec_freeze key s) (State.roomKey_of_no_room hkey)

theorem answers_freeze {s : State} {key : Half} {l : SectionNo} (ht : s.takes) (hl : s.names key l) :
    answers (.freeze key) s ⟨.ok, []⟩ ((s.accepted.frozenRoom l).setPort (s.portAfter ⟨.ok, []⟩)) :=
  answers_of_check ht (exec_freeze key s) (State.roomKey_of_names hl)

/-- Settles O18: the refusal is that of the key, and the effect is one flag, which a frozen room has already. -/
theorem freezeSetsTheFrozenFlag : Obligations.FreezeSetsTheFrozenFlag := by
  intro key s ht
  refine ⟨refused_freeze ht, fun l hl => ⟨_, answers_freeze ht hl, ?_, fun m hm => ?_, ?_, fun hfrozen => ?_⟩⟩
  · exact s.accepted.frozenRoom_frozen_same l
  · exact congrArg Room.frozen (s.accepted.frozenRoom_rooms_other hm)
  · exact Changes.around_port _ (Changes.frozenRoom s.accepted l).widen
  · have hsame : s.accepted.frozenRoom l = s.accepted := State.frozenRoom_eq_self hfrozen
    rw [hsame]
    exact Changes.around_port _ (Changes.refl _ _)

end Sys2Proof.Machine
end

section
/-! SUPPORT. UNIT ACCESS (R45). -/

namespace Sys2Proof.Machine
open Sys2Proof

theorem exec_unitAccess (key : Half) (address parameter direction : Byte) (value : Half) (s : State) :
    exec (.unitAccess key address parameter direction value) s =
      execUnitAccess key address parameter direction value s := rfl

/-! ## Two-valued fields -/

theorem secondOfTwo_eq_none (b : Byte) : secondOfTwo b = none ↔ 2 ≤ b.toNat := by
  unfold secondOfTwo
  split
  next h => simp [h]
  next h => simp [h]
  next h0 h1 =>
    have hb : b.toNat ≠ 0 ∧ b.toNat ≠ 1 := ⟨h0, h1⟩
    simp only [true_iff]
    omega

theorem secondOfTwo_of_lt {b : Byte} (h : b.toNat < 2) : secondOfTwo b = some (decide (b = 1#8)) := by
  have hb : b = 0#8 ∨ b = 1#8 := by bv_omega
  rcases hb with rfl | rfl <;> rfl

/-! ## The checks of R45 -/

section
variable {key value : Half} {address parameter direction : Byte} {s : State} {k : TrunkNo} {r : AccessRequest}

/-- The fields name no access exactly where one of them is outside its values. -/
theorem accessOf_eq_none : accessOf address parameter direction value = none ↔
    address.toNat = 0 ∨ 254 < address.toNat ∨ 63 < parameter.toNat ∨ 2 ≤ direction.toNat := by
  unfold accessOf
  split
  · rw [Option.map_eq_none_iff, secondOfTwo_eq_none]; omega
  · simp only [true_iff]; omega

theorem accessOf_of_fits
    (h : ¬ (address.toNat = 0 ∨ 254 < address.toNat ∨ 63 < parameter.toNat ∨ 2 ≤ direction.toNat)) :
    accessOf address parameter direction value = some
      { address := address.toNat, parameter := parameter.toNat, write := decide (direction = 1#8), value := value } := by
  unfold accessOf
  rw [if_pos (by omega), secondOfTwo_of_lt (by omega), Option.map_some]

theorem State.trunkReady_eq_true : s.trunkReady k = true ↔ ¬ (s.run = .halted ∨ (s.trunks[k]).enabled = false) := by
  unfold State.trunkReady
  cases s.run <;> simp

theorem State.trunkReady_eq_false : s.trunkReady k = false ↔ s.run = .halted ∨ (s.trunks[k]).enabled = false := by
  rw [← Bool.not_eq_true, State.trunkReady_eq_true, Classical.not_not]

/-- Check 1: a trunk number above 3. -/
theorem State.checkAccess_badKey (h : 4 ≤ key.toNat) :
    s.checkAccess key address parameter direction value = .error .badKey := by
  unfold State.checkAccess
  rw [(keyBelow_none key).2 h]

/-- On a trunk, the checks that follow the key's. -/
theorem State.checkAccess_of_key (h : key.toNat = k.val) :
    s.checkAccess key address parameter direction value = (do
      let r ← valueOf (accessOf address parameter direction value)
      refuseUnless (s.trunkReady k) .wrongState
      refuseUnless (decide ((s.trunks[k]).access = .idle)) .busy
      pure (k, r)) := by
  unfold State.checkAccess
  rw [(keyBelow_some key k).2 h]

/-- Check 2: a field outside its values. -/
theorem State.checkAccess_badValue (h : key.toNat = k.val)
    (ha : accessOf address parameter direction value = none) :
    s.checkAccess key address parameter direction value = .error .badValue := by
  rw [State.checkAccess_of_key h, ha]; rfl

/-- Check 3: HALTED, or a disabled trunk. -/
theorem State.checkAccess_wrongState (h : key.toNat = k.val)
    (ha : accessOf address parameter direction value = some r) (hr : s.trunkReady k = false) :
    s.checkAccess key address parameter direction value = .error .wrongState := by
  rw [State.checkAccess_of_key h, ha, hr]; rfl

/-- Check 4: an access in hand. -/
theorem State.checkAccess_busy (h : key.toNat = k.val)
    (ha : accessOf address parameter direction value = some r) (hr : s.trunkReady k = true)
    (hi : (s.trunks[k]).access ≠ .idle) :
    s.checkAccess key address parameter direction value = .error .busy := by
  rw [State.checkAccess_of_key h, ha, hr, decide_eq_false hi]; rfl

theorem State.checkAccess_ok (h : key.toNat = k.val)
    (ha : accessOf address parameter direction value = some r) (hr : s.trunkReady k = true)
    (hi : (s.trunks[k]).access = .idle) :
    s.checkAccess key address parameter direction value = .ok (k, r) := by
  rw [State.checkAccess_of_key h, ha, hr, decide_eq_true hi]; rfl

end

/-! ## The request -/

/-- The state with an access in hand on a trunk, waiting for its gap. -/
def State.accessWaiting (s : State) (k : TrunkNo) (r : AccessRequest) : State :=
  s.modTrunk k (fun u => { u with access := .waiting r })

theorem State.accessWaiting_access_same (s : State) (k : TrunkNo) (r : AccessRequest) :
    ((s.accessWaiting k r).trunks[k]).access = .waiting r := by
  rw [State.accessWaiting, State.modTrunk_self]

theorem State.accessWaiting_trunks_other (s : State) {k j : TrunkNo} (r : AccessRequest) (h : j ≠ k) :
    (s.accessWaiting k r).trunks[j] = s.trunks[j] :=
  s.modTrunk_other _ h

theorem Changes.accessWaiting (s : State) (k : TrunkNo) (r : AccessRequest) :
    Changes [.access] s (s.accessWaiting k r) :=
  Changes.modTrunk s k _

section
variable {key value : Half} {address parameter direction : Byte} {s : State}

theorem refused_unitAccess {st : Status} (ht : s.takes)
    (hc : s.accepted.checkAccess key address parameter direction value = .error st) :
    refused (.unitAccess key address parameter direction value) s st :=
  refused_of_check ht (exec_unitAccess key address parameter direction value s) hc

theorem answers_unitAccess {k : TrunkNo} {r : AccessRequest} (ht : s.takes)
    (hc : s.accepted.checkAccess key address parameter direction value = .ok (k, r)) :
    answers (.unitAccess key address parameter direction value) s ⟨.accepted, []⟩
      ((s.accepted.accessWaiting k r).setPort (s.portAfter ⟨.accepted, []⟩)) :=
  answers_of_check ht (exec_unitAccess key address parameter direction value s) hc

end

/-- Settles O47: the checks in the order of R45, each refusing with its status, and the trunk's access as the one
field that an accepted request sets. -/
theorem unitAccessIsChecked : Obligations.UnitAccessIsChecked := by
  intro key address parameter direction value s ht
  refine ⟨fun hkey => refused_unitAccess ht (State.checkAccess_badKey hkey), fun k hk => ⟨fun hbad => ?badValue,
    fun hfits hunready => ?wrongState, fun hfits hready hbusy => ?busy, fun hfits hready hidle => ?accepted⟩⟩
  case badValue =>
    exact refused_unitAccess ht (State.checkAccess_badValue hk (accessOf_eq_none.2 hbad))
  case wrongState =>
    exact refused_unitAccess ht
      (State.checkAccess_wrongState hk (accessOf_of_fits hfits) (State.trunkReady_eq_false.2 hunready))
  case busy =>
    exact refused_unitAccess ht
      (State.checkAccess_busy hk (accessOf_of_fits hfits) (State.trunkReady_eq_true.2 hready) hbusy)
  case accepted =>
    have hcheck := State.checkAccess_ok (s := s.accepted) (value := value) hk (accessOf_of_fits hfits)
      (State.trunkReady_eq_true.2 hready) hidle
    refine ⟨_, answers_unitAccess ht hcheck, ?_, fun j hj => ?_, ?_⟩
    · exact s.accepted.accessWaiting_access_same k _
    · exact s.accepted.accessWaiting_trunks_other _ hj
    · exact Changes.around_port _ (Changes.accessWaiting s.accepted k _).widen

end Sys2Proof.Machine
end

section
/-! SUPPORT. Selectors (R86 to R89): the value a field gives a seat, the masked comparison, and the two effects of an
action. -/

namespace Sys2Proof.Machine
open Sys2Proof

/-! ## Matching (R88) -/

/-- Two words agree under a mask exactly where their bits agree wherever the mask has a one. -/
theorem and_mask_eq_iff {w : Nat} (a b mask : BitVec w) :
    a &&& mask = b &&& mask ↔ ∀ i, i < w → mask.getLsbD i = true → a.getLsbD i = b.getLsbD i := by
  constructor
  · intro heq i _ hone
    have hbit := congrArg (fun v => v.getLsbD i) heq
    simpa only [BitVec.getLsbD_and, hone, Bool.and_true] using hbit
  · intro hbits
    refine BitVec.eq_of_getLsbD_eq fun i hi => ?_
    rw [BitVec.getLsbD_and, BitVec.getLsbD_and]
    cases hone : mask.getLsbD i with
    | false => rw [Bool.and_false, Bool.and_false]
    | true => rw [hbits i hi hone]

theorem byte_getLsbD (n : Nat) {i : Nat} (h : i < 8) : (byte n).getLsbD i = n.testBit i := by
  rw [byte, BitVec.getLsbD_ofNat, decide_eq_true h, Bool.true_and]

/-- The number that a match field gives a delegate or a chair (R88). -/
def State.matchNumber (s : State) (field : MatchField) (x : Seat) : Nat :=
  match field with
  | .section_ => x.section_.val
  | .class_ => if x.kind = .delegate ∧ x.seatClass = .vip then 1 else 0
  | .language => if (s.languages.get x.language).isSome then x.language else 0
  | .trunk => match x.binding with
    | some (k, _) => k.val
    | none => 255
  | .kind => if x.kind = .delegate then 0 else 1

/-- The value matched is the byte of the field's number; desks, which no selector run visits, have no number. -/
theorem State.matchValue_eq_byte {s : State} {x : Seat} (hx : x.kind ≠ .desk) (field : MatchField) :
    s.matchValue field x = byte (s.matchNumber field x) := by
  cases field with
  | section_ => rfl
  | class_ =>
    simp only [State.matchValue, State.matchNumber]
    by_cases hk : x.kind = .delegate
    · cases x.seatClass <;> simp [hk, SeatClass.code, byte]
    · simp [hk, byte]
  | language => rfl
  | trunk =>
    simp only [State.matchValue, State.matchNumber]
    cases x.binding <;> rfl
  | kind =>
    simp only [State.matchValue, State.matchNumber]
    cases hk : x.kind with
    | delegate => rfl
    | chair => rfl
    | desk => exact absurd hk hx

theorem State.matches_iff {s : State} {x : Seat} (hx : x.kind ≠ .desk) (sel : Selector) :
    s.matches sel x = true ↔ ∀ i, i < 8 → sel.matchMask.getLsbD i = true →
      (s.matchNumber sel.matchField x).testBit i = sel.matchValue.getLsbD i := by
  rw [State.matches, decide_eq_true_iff, and_mask_eq_iff, State.matchValue_eq_byte hx]
  exact forall₂_congr fun i hi => by rw [byte_getLsbD _ hi]

/-! ## Effects (R89) -/

/-- What the eight actions do to a matching seat. -/
theorem SelectAction.effects_fst (a : SelectAction) :
    ((a = .setClear ∨ a = .setKeep) → a.effects.1 = .set) ∧
    ((a = .clearSet ∨ a = .clearKeep) → a.effects.1 = .clear) ∧
    ((a = .keepClear ∨ a = .keepSet ∨ a = .keepFlip) → a.effects.1 = .keep) ∧
    (a = .flipKeep → a.effects.1 = .flip) := by
  cases a <;> decide

/-- What the eight actions do to a seat that does not match. -/
theorem SelectAction.effects_snd (a : SelectAction) :
    ((a = .clearSet ∨ a = .keepSet) → a.effects.2 = .set) ∧
    ((a = .setClear ∨ a = .keepClear) → a.effects.2 = .clear) ∧
    ((a = .setKeep ∨ a = .clearKeep ∨ a = .flipKeep) → a.effects.2 = .keep) ∧
    (a = .keepFlip → a.effects.2 = .flip) := by
  cases a <;> decide

/-- The flag a selector aims at: MARK or LOCK (R86). -/
def Selector.flagOf (sel : Selector) (x : Seat) : Bool := if sel.targetMark then x.mark else x.lock

/-- A seat with the flag that a selector aims at replaced. -/
def Selector.setFlag (sel : Selector) (x : Seat) (b : Bool) : Seat :=
  if sel.targetMark then { x with mark := b } else { x with lock := b }

section
variable {s : State} {x : Seat} {sel : Selector} {e : FlagEffect}

theorem State.through_off (hoff : sel.enabled = false) : s.through x sel = x := by
  rw [State.through, hoff]
  rfl

/-- A selector that is on replaces its flag alone, by the effect that its action has on the seat. -/
theorem State.through_on (hon : sel.enabled = true) : s.through x sel = sel.setFlag x
    ((if s.matches sel x then sel.action.effects.1 else sel.action.effects.2).apply (sel.flagOf x)) := by
  rw [State.through, if_pos hon]
  unfold Selector.setFlag Selector.flagOf
  cases sel.targetMark <;> rfl

theorem State.through_matching (hon : sel.enabled = true) (hm : s.matches sel x = true)
    (he : sel.action.effects.1 = e) : s.through x sel = sel.setFlag x (e.apply (sel.flagOf x)) := by
  rw [State.through_on hon, if_pos hm, he]

theorem State.through_other (hon : sel.enabled = true) (hm : s.matches sel x = false)
    (he : sel.action.effects.2 = e) : s.through x sel = sel.setFlag x (e.apply (sel.flagOf x)) := by
  rw [State.through_on hon, if_neg (Bool.eq_false_iff.1 hm), he]

end

/-- Settles O30: matching is a bitwise agreement under the mask, and a selector that is on applies one entry of the
action's pair of effects to its flag. -/
theorem selectorActions : Obligations.SelectorActions := by
  intro s x sel
  refine ⟨fun hx => State.matches_iff hx sel, State.through_off, fun hon hm => ?matching, fun hon hm => ?other⟩
  case matching =>
    obtain ⟨hset, hclear, hkeep, hflip⟩ := sel.action.effects_fst
    exact ⟨fun ha => State.through_matching hon hm (hset ha), fun ha => State.through_matching hon hm (hclear ha),
      fun ha => State.through_matching hon hm (hkeep ha), fun ha => State.through_matching hon hm (hflip ha)⟩
  case other =>
    obtain ⟨hset, hclear, hkeep, hflip⟩ := sel.action.effects_snd
    exact ⟨fun ha => State.through_other hon hm (hset ha), fun ha => State.through_other hon hm (hclear ha),
      fun ha => State.through_other hon hm (hkeep ha), fun ha => State.through_other hon hm (hflip ha)⟩

end Sys2Proof.Machine
end

section
/-! SUPPORT. The SELECTOR table (R86, R87): the codes of its fields, the checks of a WRITE, and its READ. -/

namespace Sys2Proof.Machine
open Sys2Proof

theorem exec_writeSelector (key : Half) (f : SelectorWrite) (s : State) :
    exec (.writeSelector key f) s = execWriteSelector key f s := rfl

theorem exec_read (table : Table) (key : Half) (s : State) : exec (.read table key) s = execRead table key s := rfl

theorem exec_badFrameRequest (bytes : List Byte) (s : State) :
    exec (.badFrameRequest bytes) s = execBadFrameRequest bytes s := rfl

/-! ## The codes of the fields -/

theorem MatchField.ofCode_eq_none (b : Byte) : MatchField.ofCode b = none ↔ 5 ≤ b.toNat := by
  unfold MatchField.ofCode
  split <;> simp_all
  omega

theorem MatchField.code_of_ofCode {b : Byte} {m : MatchField} (h : MatchField.ofCode b = some m) : m.code = b := by
  unfold MatchField.ofCode at h
  split at h <;> cases h
  all_goals exact BitVec.eq_of_toNat_eq (Eq.symm ‹b.toNat = _›)

theorem SelectAction.ofCode_eq_none (b : Byte) : SelectAction.ofCode b = none ↔ 8 ≤ b.toNat := by
  unfold SelectAction.ofCode
  split <;> simp_all
  omega

theorem SelectAction.code_of_ofCode {b : Byte} {a : SelectAction} (h : SelectAction.ofCode b = some a) : a.code = b := by
  unfold SelectAction.ofCode at h
  split at h <;> cases h
  all_goals exact BitVec.eq_of_toNat_eq (Eq.symm ‹b.toNat = _›)

theorem flagByte_of_secondOfTwo {b : Byte} {x : Bool} (h : secondOfTwo b = some x) : flagByte x = b := by
  unfold secondOfTwo at h
  split at h <;> cases h
  all_goals exact BitVec.eq_of_toNat_eq (Eq.symm ‹b.toNat = _›)

theorem flagByte_onOff (free place : Nat) {b : Byte} (h : onOffByte b) : flagByte (onOff free place b) = b := by
  rcases h with rfl | rfl <;> rfl

/-! ## The checks of R87 -/

section
variable {s : State} {key : Half} {f : SelectorWrite} {i : SelectorNo}

theorem State.checkSelector_badValue
    (h : 5 ≤ f.matchField.toNat ∨ 2 ≤ f.target.toNat ∨ 8 ≤ f.action.toNat) :
    s.checkSelector f = .error .badValue := by
  unfold State.checkSelector
  rw [← MatchField.ofCode_eq_none, ← secondOfTwo_eq_none, ← SelectAction.ofCode_eq_none] at h
  cases hm : MatchField.ofCode f.matchField with
  | none => rfl
  | some m =>
    cases ht : secondOfTwo f.target with
    | none => rfl
    | some x =>
      cases ha : SelectAction.ofCode f.action with
      | none => rfl
      | some a => simp [hm, ht, ha] at h

/-- The record taken from fields that have values is read back as those fields. -/
theorem State.checkSelector_ok (hm : f.matchField.toNat < 5) (ht : f.target.toNat < 2) (ha : f.action.toNat < 8)
    (hen : onOffByte f.enabled) : ∃ x, s.checkSelector f = .ok x ∧
      x.record = [f.enabled, f.matchField, f.matchValue, f.matchMask, f.target, f.action] := by
  obtain ⟨m, hm⟩ := Option.ne_none_iff_exists'.1 (mt (MatchField.ofCode_eq_none _).1 (Nat.not_le.2 hm))
  obtain ⟨x, ht⟩ := Option.ne_none_iff_exists'.1 (mt (secondOfTwo_eq_none _).1 (Nat.not_le.2 ht))
  obtain ⟨a, ha⟩ := Option.ne_none_iff_exists'.1 (mt (SelectAction.ofCode_eq_none _).1 (Nat.not_le.2 ha))
  refine ⟨_, by rw [State.checkSelector, hm, ht, ha]; rfl, ?_⟩
  simp only [Selector.record, flagByte_onOff _ _ hen, MatchField.code_of_ofCode hm, flagByte_of_secondOfTwo ht,
    SelectAction.code_of_ofCode ha]

theorem State.checkWriteSelector_badKey (h : 8 ≤ key.toNat) : s.checkWriteSelector key f = .error .badKey := by
  rw [State.checkWriteSelector, (keyBelow_none key).2 h]

/-- On a selector, the check that follows the key's. -/
theorem State.checkWriteSelector_of_key (h : key.toNat = i.val) :
    s.checkWriteSelector key f = (s.checkSelector f).map (fun x => (i, x)) := by
  rw [State.checkWriteSelector, (keyBelow_some key i).2 h]

end

/-! ## READ and WRITE -/

/-- The state with one selector record replaced by a WRITE, which uses up one open value. -/
def State.writtenSelector (s : State) (i : SelectorNo) (x : Selector) : State :=
  (s.setSelectors (s.selectors.set i x)).spendFree

theorem State.writtenSelector_same (s : State) (i : SelectorNo) (x : Selector) :
    (s.writtenSelector i x).selectors[i] = x := Vector.getElem_set_self _

theorem State.writtenSelector_other (s : State) {i j : SelectorNo} (x : Selector) (h : j ≠ i) :
    (s.writtenSelector i x).selectors[j] = s.selectors[j] :=
  Vector.getElem_set_ne i.isLt j.isLt (fun e => h (Fin.ext e.symm))

theorem Changes.writtenSelector (s : State) (i : SelectorNo) (x : Selector) :
    Changes [.free, .selectors] s (s.writtenSelector i x) :=
  (Changes.setSelectors s _).trans (Changes.spendFree _)

/-- The port that answered one request takes the next. -/
theorem State.takes_of_portAfter {s t : State} {r : Response} (hp : t.port = s.portAfter r) (hr : t.resetLow = false) :
    t.takes := ⟨hr, by rw [hp]; exact PortPhase.noConfusion⟩

section
variable {s : State} {key : Half} {f : SelectorWrite} {i : SelectorNo}

theorem refused_writeSelector {st : Status} (ht : s.takes) (hc : s.accepted.checkWriteSelector key f = .error st) :
    refused (.writeSelector key f) s st :=
  refused_of_check ht (exec_writeSelector key f s) hc

theorem answers_writeSelector {x : Selector} (ht : s.takes)
    (hc : s.accepted.checkWriteSelector key f = .ok (i, x)) :
    answers (.writeSelector key f) s ⟨.ok, []⟩
      ((s.accepted.writtenSelector i x).setPort (s.portAfter ⟨.ok, []⟩)) :=
  answers_of_check ht (exec_writeSelector key f s) hc

/-- A READ answers what the table holds, and uses up one open value. -/
theorem answers_read (table : Table) (key : Half) (ht : s.takes) :
    ∃ t, answers (.read table key) s (s.accepted.readTable table key) t ∧ Changes [.port, .free] s t :=
  ⟨_, answers_of _ s _ ht (exec_read table key s), Changes.around_port _ (Changes.spendFree s.accepted)⟩

theorem State.readTable_selector_badKey (h : 8 ≤ key.toNat) : s.readTable .selector key = ⟨.badKey, []⟩ := by
  rw [State.readTable, readFixed, (keyBelow_none key).2 h]
  rfl

theorem State.readTable_selector (h : key.toNat = i.val) :
    s.readTable .selector key = ⟨.ok, (s.selectors[i]).record⟩ := by
  rw [State.readTable, readFixed, (keyBelow_some key i).2 h]

theorem read_selector_badKey (ht : s.takes) (h : 8 ≤ key.toNat) :
    ∃ t, answers (.read .selector key) s ⟨.badKey, []⟩ t := by
  obtain ⟨t, hans, -⟩ := answers_read .selector key ht
  rw [State.readTable_selector_badKey h] at hans
  exact ⟨t, hans⟩

/-- A READ of a selector returns its record as it stands (R87). -/
theorem read_selector (ht : s.takes) (h : key.toNat = i.val) :
    ∃ t, answers (.read .selector key) s ⟨.ok, (s.selectors[i]).record⟩ t ∧ Changes [.port, .free] s t := by
  obtain ⟨t, hans, hchanges⟩ := answers_read .selector key ht
  rw [State.readTable_selector h] at hans
  exact ⟨t, hans, hchanges⟩

end

/-! ## RETIRE -/

/-- A RETIRE frame of the SELECTOR table spells no request (R158). -/
theorem parseRequest_retire_selector (rest : List Byte) : parseRequest ([0xA5, 0x03, 0x0C] ++ rest) = none := by
  match rest with
  | [] | [_] | [_, _] | [_, _, _] => rfl
  | k1 :: k0 :: n1 :: n0 :: fields =>
    have hfields (l : List Byte) : parseFields 0x03 0x0C (half k1 k0) l = none := by cases l <;> rfl
    exact ite_eq_right_iff.2 (fun _ => hfields _)

theorem refused_badFrame {s : State} {bytes : List Byte} (ht : s.takes) (hp : parseRequest bytes = none) :
    refused (.badFrameRequest bytes) s .badFrame := by
  rw [refused, exec_badFrameRequest, execBadFrameRequest, hp]
  exact congrArg Host.Outcome.next (s.request_taken _ ht)

/-- Settles O33: the checks refuse in the order of R87, and a READ returns the record that the checks of a WRITE made
of its fields. -/
theorem selectorTableHoldsSixFields : Obligations.SelectorTableHoldsSixFields := by
  intro key f s ht
  refine ⟨fun hkey => ⟨refused_writeSelector ht (State.checkWriteSelector_badKey hkey), read_selector_badKey ht hkey⟩,
    fun rest => refused_badFrame ht (parseRequest_retire_selector rest),
    fun i hi => ⟨read_selector ht hi, fun hbad => ?badValue, fun hm hta hac hen => ?written⟩⟩
  case badValue =>
    refine refused_writeSelector ht ?_
    rw [State.checkWriteSelector_of_key hi, State.checkSelector_badValue hbad]
    rfl
  case written =>
    obtain ⟨x, hcheck, hrecord⟩ := State.checkSelector_ok (s := s.accepted) hm hta hac hen
    have hans : answers (.writeSelector key f) s ⟨.ok, []⟩
        ((s.accepted.writtenSelector i x).setPort (s.portAfter ⟨.ok, []⟩)) :=
      answers_writeSelector ht (by rw [State.checkWriteSelector_of_key hi, hcheck]; rfl)
    refine ⟨_, hans, fun j hj => s.accepted.writtenSelector_other x hj,
      Changes.around_port _ (Changes.writtenSelector s.accepted i x).widen, ?fields, ?readBack⟩
    case fields =>
      rw [State.setPort_selectors, State.writtenSelector_same]
      simpa only [Selector.record, List.cons.injEq, and_true] using hrecord
    case readBack =>
      have hread := read_selector (State.takes_of_portAfter hans.2 ht.1) hi
      rw [State.setPort_selectors, State.writtenSelector_same, hrecord] at hread
      exact hread

end Sys2Proof.Machine
end

section
/-! SUPPORT. RESEND (R153) and the sending of a matrix message (R152). -/

namespace Sys2Proof.Machine
open Sys2Proof

theorem exec_resend (s : State) : exec .resend s = execResend s := rfl

theorem exec_matrixMessageSend (s : State) : exec .matrixMessageSend s = execMatrixMessageSend s := rfl

/-! ## The whole shadow on the send list -/

theorem State.resendAll_sendList (s : State) :
    s.resendAll.sendList = s.sendList ++ allEntries.filter (fun e => decide (e ∉ s.sendList)) := rfl

theorem State.resendAll_changes (s : State) : Changes [.sendList] s s.resendAll := Changes.setSendList s _

theorem State.mem_sendList_resendAll {s : State} {e : Entry} (he : e ∈ allEntries) : e ∈ s.resendAll.sendList := by
  rw [State.resendAll_sendList, List.mem_append, List.mem_filter, decide_eq_true_eq]
  by_cases hwaits : e ∈ s.sendList
  · exact .inl hwaits
  · exact .inr ⟨he, hwaits⟩

/-- Where every entry waits already, none is placed. -/
theorem State.resendAll_eq_self {s : State} (h : ∀ e ∈ allEntries, e ∈ s.sendList) : s.resendAll = s := by
  have hnone : allEntries.filter (fun e => decide (e ∉ s.sendList)) = [] :=
    List.filter_eq_nil_iff.2 (fun e he => by simpa using h e he)
  rw [State.resendAll, hnone, List.append_nil]
  rfl

/-! ## The two commands -/

/-- RESEND is answered OK, whatever the run state (R153). -/
theorem answers_resend {s : State} (ht : s.takes) :
    answers .resend s ⟨.ok, []⟩ (s.accepted.resendAll.setPort (s.portAfter ⟨.ok, []⟩)) :=
  answers_of .resend s _ ht (exec_resend s)

theorem answers_resend_of_all {s : State} (ht : s.takes) (hall : ∀ e ∈ allEntries, e ∈ s.sendList) :
    ∃ t, answers .resend s ⟨.ok, []⟩ t ∧ t.sendList = s.sendList := by
  have hsame : s.accepted.resendAll = s.accepted := State.resendAll_eq_self hall
  exact ⟨_, answers_resend ht, by rw [hsame]; rfl⟩

/-- With RESET high an event or send is taken (R170). -/
theorem State.outOfReset_high {s : State} (f : State → State) (h : s.resetLow = false) : s.outOfReset f = f s := by
  rw [State.outOfReset, h]
  rfl

theorem State.sendMatrix_cons {s : State} {e : Entry} {rest : List Entry} (h : s.sendList = e :: rest) :
    s.sendMatrix = (s.setSendList rest).setMatrixLine (sealFrame (s.matrixMessage e)) := by
  rw [State.sendMatrix, h]

theorem exec_matrixMessageSend_cons {s : State} {e : Entry} {rest : List Entry} (hr : s.resetLow = false)
    (h : s.sendList = e :: rest) :
    exec .matrixMessageSend s =
      .next ((s.setSendList rest).setMatrixLine (sealFrame (s.matrixMessage e))) := by
  rw [exec_matrixMessageSend, execMatrixMessageSend, State.outOfReset_high _ hr, State.sendMatrix_cons h]

/-- Settles O43: after one RESEND every entry waits, so a second finds none to place; a send reads the shadow of its own
state. -/
theorem resendPlacesTheShadow : Obligations.ResendPlacesTheShadow := by
  intro s ht
  have hans := answers_resend ht
  have hfull : ∀ e ∈ allEntries, e ∈ (s.accepted.resendAll.setPort (s.portAfter ⟨.ok, []⟩)).sendList :=
    fun e he => State.mem_sendList_resendAll he
  exact ⟨rfl, _, hans, s.accepted.resendAll_sendList, Changes.around_port _ s.accepted.resendAll_changes.widen,
    answers_resend_of_all (State.takes_of_portAfter hans.2 ht.1) hfull,
    fun u e rest hr hu => exec_matrixMessageSend_cons hr hu⟩

end Sys2Proof.Machine
end
